-- ==== Sys2Proof/Word.lean ====
section
/-! DEFINITION. Word.lean: the words of the part (bytes and tags), the eight station links of Table 5-1 and the
names of the host commands of Table 11-2. -/

namespace Sys2Proof

/-- A byte on a station link or on the host port. -/
abbrev Byte := BitVec 8

/-- A garment's tag: 48 bits, most significant byte first (R1). -/
abbrev Tag := BitVec 48

/-- A running belt count in belt units, taken modulo 2³² (R158). -/
abbrev BeltCount := BitVec 32

/-- The eight station links, each wired to one kind of station (Table 5-1). -/
inductive Link where
  | load | pretreat | press | printA | printB | unload | cure | matching
  deriving DecidableEq, Repr

/-- The link's number and, which is the same, its station kind (Tables 5-1 and 5-2). -/
def Link.number : Link → Nat
  | .load => 0
  | .pretreat => 1
  | .press => 2
  | .printA => 3
  | .printB => 4
  | .unload => 5
  | .cure => 6
  | .matching => 7

/-- The link of a number; a number above 7 names none. -/
def Link.ofNumber (n : Nat) : Option Link :=
  [Link.load, .pretreat, .press, .printA, .printB, .unload, .cure, .matching][n]?

/-- The six ring stations in order of link number, which is also the order of their positions (R103). -/
def Link.ring : List Link := [.load, .pretreat, .press, .printA, .printB, .unload]

/-- All links in order of link number. -/
def Link.all : List Link := [.load, .pretreat, .press, .printA, .printB, .unload, .cure, .matching]

/-- The six stations that stand at the ring; CURE and MATCH do not (Table 0-2). -/
def Link.isRing : Link → Bool
  | .cure | .matching => false
  | _ => true

/-- The host commands of Table 11-2. -/
inductive HostCmd where
  | identify | readCauses | setCauseMask | lineReset | setLineLimits
  | loadSku | loadClass | loadDesign | readEntry | setPattern
  | admitOrder | cancelOrder | releaseHold | queryOrder | listOrders | setScheduler
  | queryGarment | walkFirst | walkNext | retireGarment
  | setStation | setStationMode | queryStation | setPlaten
  | startRing | stopRing | resumeRing | queryRing
  | setMeter | queryMeter | setTunnel | setWeights | queryBelt | queryBin
  deriving DecidableEq, Repr

end Sys2Proof
end

