-- ==== Sys2Proof/Config.lean ====
section
/-! DEFINITION. Config.lean: what the spec leaves to the implementation or leaves open. Each is a constant with no
body, so no proof can see its value. -/

namespace Sys2Proof

/-- The silicon revision that IDENTIFY returns (R200). The spec gives no value (log 7). -/
opaque Config.siliconRevision : Byte

/-- A free value for the time left on a running timer, read with the counter of free values in the state (R98, R120,
R155; log 6). The reader keeps it within the bounds the timer's period sets. -/
opaque Config.freeTime : Nat → Nat

end Sys2Proof
end

