-- ==== Sys2Proof/Syntax.lean ====
section
/-! DEFINITION. Syntax.lean: the commands of the part, one constructor for each row of spec/opcode_table.json. -/

namespace Sys2Proof

/-- A command from outside. The operand `bytes` of a host command holds every byte the host clocks after the code byte
until the chip select is deasserted: a length byte and the payload (R194). The operand `payload` of a link message is
the payload of its frame (Table 5-2; log 4). -/
inductive Instr where
  | identify (bytes : List Byte)
  | readCauses (bytes : List Byte)
  | setCauseMask (bytes : List Byte)
  | lineReset (bytes : List Byte)
  | setLineLimits (bytes : List Byte)
  | loadSku (bytes : List Byte)
  | loadClass (bytes : List Byte)
  | loadDesign (bytes : List Byte)
  | readEntry (bytes : List Byte)
  | setPattern (bytes : List Byte)
  | admitOrder (bytes : List Byte)
  | cancelOrder (bytes : List Byte)
  | releaseHold (bytes : List Byte)
  | queryOrder (bytes : List Byte)
  | listOrders (bytes : List Byte)
  | setScheduler (bytes : List Byte)
  | queryGarment (bytes : List Byte)
  | walkFirst (bytes : List Byte)
  | walkNext (bytes : List Byte)
  | retireGarment (bytes : List Byte)
  | setStation (bytes : List Byte)
  | setStationMode (bytes : List Byte)
  | queryStation (bytes : List Byte)
  | setPlaten (bytes : List Byte)
  | startRing (bytes : List Byte)
  | stopRing (bytes : List Byte)
  | resumeRing (bytes : List Byte)
  | queryRing (bytes : List Byte)
  | setMeter (bytes : List Byte)
  | queryMeter (bytes : List Byte)
  | setTunnel (bytes : List Byte)
  | setWeights (bytes : List Byte)
  | queryBelt (bytes : List Byte)
  | queryBin (bytes : List Byte)
  /-- A command frame whose code byte is none of Table 11-2 (R198). -/
  | unknownCommand (code : Byte) (bytes : List Byte)
  /-- `count` bytes clocked after the first byte 00h of a read transaction, or after the bytes clocked before in a read
  transaction still open; `ends` says that the chip select is then deasserted (R194, R196; log 3). -/
  | readTransaction (count : Nat) (ends : Bool)
  | keptFrameTaken
  | hello (link : Link) (payload : List Byte)
  | status (link : Link) (payload : List Byte)
  | arrive (link : Link) (payload : List Byte)
  | empty (link : Link) (payload : List Byte)
  | done (link : Link) (payload : List Byte)
  | fail (link : Link) (payload : List Byte)
  | abort (link : Link) (payload : List Byte)
  | advance (link : Link) (payload : List Byte)
  | binCleared (link : Link) (payload : List Byte)
  /-- A frame that fails the framing checks of R81: its bytes as received. -/
  | linkFrameDiscarded (link : Link) (frame : List Byte)
  /-- A framed message of an unknown kind, of a wrong length, or not allowed for the link (R82). -/
  | unknownMessage (link : Link) (kind : Byte) (payload : List Byte)
  | silenceExpiry (link : Link)
  | workTimeout (link : Link)
  | unloadWaitLimit
  | ageTimerExpiry
  | refillTimerExpiry
  | moveTimerExpiry
  | indexDone
  | indexFault
  | eStopAsserted
  | eStopDeasserted
  | reset
  | responseBuilt
  deriving DecidableEq, Repr

end Sys2Proof
end

