-- ==== Sys2Proof/Decode.lean ====
section
/-! DEFINITION. Decode.lean: no row of spec/opcode_table.json gives its command any bits, so no word spells a command. -/

namespace Sys2Proof

/-- The command that a word spells by the table's bits. The table's rows give no bits (`n_rows_with_fixed` is 0 in
spec/98_reader.md), so there is none. -/
def decodeTableWord (_nbits _w : Nat) : Option Instr := none

end Sys2Proof
end

