-- ==== Sys2Proof/Machine/State.lean ====
section
/-! DEFINITION. Machine/State.lean: everything the spec gives the part to hold, as plain data, and its reset values.
One structure a block of Table 0-1. Numbers whose arithmetic saturates or is bounded are Nat; tags, bytes, the belt
count (which wraps) and the cause field are bit vectors. A sparse table lists what differs from an unlisted entry
(log 28). -/

namespace Sys2Proof.Machine

/-- A table by number: entries in strictly rising number, at most one a number. What an unlisted number reads as is
said at each table. -/
abbrev Table (α : Type) := List (Nat × α)

/-! ## Garment Table (Chapter 1) -/

/-- Kind of a garment (Table 1-1). -/
inductive Kind where
  | order | test
  deriving DecidableEq, Repr

/-- How far a garment has progressed (Table 1-1). -/
inductive Stage where
  | blank | treated | pressed | printed
  deriving DecidableEq, Repr

/-- Print bridge (Table 1-1). -/
inductive Bridge where
  | a | b
  deriving DecidableEq, Repr

/-- Classification of the cure (Table 1-1). -/
inductive CureResult where
  | none | under | good | over
  deriving DecidableEq, Repr

/-- Where a garment is (Table 1-1). -/
inductive Location where
  | ring (platen : Nat)
  | belt (lane : Nat) (entry : BeltCount)
  | exit
  | overflow
  deriving DecidableEq, Repr

/-- The line a garment is meant for (Table 1-1). -/
structure Binding where
  slot : Nat
  line : Nat
  deriving DecidableEq, Repr

/-- A garment record (R1, Table 1-1). -/
structure Garment where
  tag : Tag
  kind : Kind
  loadSeq : Nat
  sku : Nat
  cls : Nat
  binding : Option Binding
  design : Nat
  bridge : Bridge
  stage : Stage
  location : Location
  full : Nat
  delivered : Nat
  placing : Bool
  wet : Bool
  spoiled : Bool
  unverified : Bool
  laps : Nat
  ink : Nat
  dose : Nat
  target : Nat
  ceiling : Nat
  result : CureResult
  recures : Nat
  age : Nat
  deriving DecidableEq, Repr

/-- Action of a tag pattern (Table 1-3). -/
inductive PatternAction where
  | test | block
  deriving DecidableEq, Repr

/-- A tag pattern entry (Table 1-3); the defaults are its reset values (R7). -/
structure Pattern where
  valid : Bool := false
  value : Tag := 0#48
  mask : Tag := 0#48
  action : PatternAction := .test
  design : Nat := 0
  deriving DecidableEq, Repr

/-- The walk cursor: NONE, a table position, or END (R21). -/
inductive Cursor where
  | none
  | pos (position : Nat)
  | ended
  deriving DecidableEq, Repr

/-- The Garment Table's state (Table 0-1). Position (b, w) of the table is the number 4 b + w, so positions are ordered
as R4 orders them; an unlisted position is free. An unlisted pattern is at its reset values. -/
structure GarmentBlock where
  records : Table Garment := []
  patterns : Table Pattern := []
  loadSeq : Nat := 0
  cursor : Cursor := .none
  /-- The length, in seconds, of the age period that is running (R12, R15). -/
  ageTimer : Nat := 10
  deriving DecidableEq, Repr

/-! ## Order Table (Chapter 2) -/

/-- State of an order (Table 2-1). -/
inductive OrderState where
  | opened | filling | held | cancelling | complete
  deriving DecidableEq, Repr

/-- State of a line (Table 2-2). -/
inductive LineState where
  | active | failed
  deriving DecidableEq, Repr

/-- A line item (R28, Table 2-2). -/
structure Line where
  design : Nat
  sku : Nat
  quantity : Nat
  inFlight : Nat
  binned : Nat
  spoils : Nat
  state : LineState
  deriving DecidableEq, Repr

/-- An order record (R27, Table 2-1). The line count is the length of the list. -/
structure Order where
  number : Nat
  level : Nat
  admission : Nat
  state : OrderState
  bin : Option Nat
  lines : List Line
  deriving DecidableEq, Repr

/-- The Order Table's state (Table 0-1). An unlisted slot is free. -/
structure OrderBlock where
  slots : Table Order := []
  freeCells : Nat := 384
  admissionSeq : Nat := 0
  deriving DecidableEq, Repr

/-! ## Binding Scheduler (Chapter 3) -/

/-- Scheduling mode (Table 3-1). -/
inductive SchedMode where
  | strict | weighted
  deriving DecidableEq, Repr

/-- The Binding Scheduler's state (R49, Table 3-1): the map by service level, weights and credits by class, 0 first. -/
structure Scheduler where
  classMap : List Nat := [0, 0, 1, 1, 2, 2, 3, 3]
  weights : List Nat := [1, 2, 3, 6]
  credits : List Nat := [1, 2, 3, 6]
  mode : SchedMode := .weighted
  deriving DecidableEq, Repr

/-! ## Reference Tables (Chapter 4) -/

/-- A valid SKU entry (Table 4-2). -/
structure SkuEntry where
  cls : Nat
  count : Nat
  deriving DecidableEq, Repr

/-- A valid class entry (Table 4-3); cure target base and cure ceiling are in thousands of cure units. -/
structure ClassEntry where
  dark : Bool
  rate : Nat
  pressBase : Nat
  wetExtra : Nat
  targetBase : Nat
  ceiling : Nat
  inkFactor : Nat
  count : Nat
  deriving DecidableEq, Repr

/-- A valid design entry (Table 4-4). -/
structure DesignEntry where
  area : Nat
  underbase : Bool
  count : Nat
  deriving DecidableEq, Repr

/-- The three reference tables (R67). An unlisted entry is invalid: its fields are 0 and no, and its count is 0
(log 19). -/
structure RefBlock where
  skus : Table SkuEntry := []
  classes : Table ClassEntry := []
  designs : Table DesignEntry := []
  deriving DecidableEq, Repr

/-! ## Station Link Unit (Chapter 5) -/

/-- Station mode, coded in this order (Table 5-3). -/
inductive StationMode where
  | offline | standby | check | active
  deriving DecidableEq, Repr

/-- The verdicts, coded in this order (Table 5-3). -/
inductive Verdict where
  | pass | load | spray | press | print | toBelt | wait | ret | testOut | reject | recure | spare | bin | overflow
  deriving DecidableEq, Repr

/-- The refusal codes, coded from 01h in this order (Table 5-3). -/
inductive RefusalCode where
  | unknownTag | duplicateTag | blockedTag | classInvalid | noRoute | noDemand | tableFull | notHere | busy | notOpen
  | tooLate | recureLater | noRoom | badState | badRequest | wrongKind
  deriving DecidableEq, Repr

/-- Class of an open verdict record (Table 5-7). -/
inductive VerdictClass where
  | work | wait
  deriving DecidableEq, Repr

/-- Colour of a grant that debits a bucket (R147). -/
inductive Colour where
  | green | yellow
  deriving DecidableEq, Repr

/-- The meter's buckets (R145). -/
inductive Bucket where
  | committed | excess
  deriving DecidableEq, Repr

/-- The grant kept with a SPRAY verdict (Table 5-7). -/
structure Grant where
  colour : Colour
  bucket : Bucket
  deriving DecidableEq, Repr

/-- An open verdict record (R90, Table 5-7). -/
structure OpenVerdict where
  platen : Option Nat
  tag : Tag
  verdict : Verdict
  param1 : Nat := 0
  param2 : Nat := 0
  cls : VerdictClass := .work
  grant : Option Grant := none
  lane : Option Nat := none
  holdTaken : Bool := false
  deriving DecidableEq, Repr

/-- The expired-verdict memory (R93). -/
structure Expired where
  platen : Option Nat
  tag : Tag
  deriving DecidableEq, Repr

/-- Refusal attention mode (R97). -/
inductive Attention where
  | all | first
  deriving DecidableEq, Repr

/-- What the Station Link Unit holds for one link (Table 0-1); the defaults are the reset values (R100). A timer is
stopped, or runs with a period: the work timer in seconds, the silence timer in milliseconds. -/
structure Station where
  up : Bool := false
  firmware : Option Nat := none
  mode : StationMode := .offline
  verdict : Option OpenVerdict := none
  attention : Attention := .all
  refusalSeen : Bool := false
  workTimer : Option Nat := none
  silenceTimer : Option Nat := none
  expired : Option Expired := none
  deriving DecidableEq, Repr

/-- The eight stations. -/
structure Stations where
  load : Station := {}
  pretreat : Station := {}
  press : Station := {}
  printA : Station := {}
  printB : Station := {}
  unload : Station := {}
  cure : Station := {}
  matching : Station := {}
  deriving DecidableEq, Repr

/-- The messages the part sends on a link (Table 5-2). -/
inductive Message where
  | verdict (platen : Byte) (tag : Tag) (verdict : Verdict) (param1 param2 : Nat)
  | ack (kind : Byte) (mode : StationMode)
  | refuse (code : RefusalCode) (kind : Byte) (platen : Byte) (tag : Tag)
  | mode (mode : StationMode)
  | lineResetNotice
  deriving DecidableEq, Repr

/-- A message sent, with the link it was sent on. -/
structure Sent where
  link : Link
  message : Message
  deriving DecidableEq, Repr

/-! ## Ring Controller (Chapter 6) -/

/-- State of a platen (Table 6-1). -/
inductive PlatenState where
  | empty | occupied | out
  deriving DecidableEq, Repr

/-- A platen record (Table 6-1); the defaults are the reset values (R121). -/
structure Platen where
  state : PlatenState := .empty
  tag : Option Tag := none
  held : Bool := false
  deriving DecidableEq, Repr

/-- Ring state (R104, Table 6-2). -/
inductive RingState where
  | stopped | stopping | running | halted | verifying
  deriving DecidableEq, Repr

/-- Index cycle state (R109). -/
inductive Cycle where
  | idle | moving
  deriving DecidableEq, Repr

/-- The six station positions; the defaults are those of R103. -/
structure Positions where
  load : Nat := 0
  pretreat : Nat := 4
  press : Nat := 7
  printA : Nat := 11
  printB : Nat := 15
  unload : Nat := 20
  deriving DecidableEq, Repr

/-- The Ring Controller's state (Table 0-1). An unlisted platen is at its reset values. The move timer is stopped, or
runs with a move limit in seconds. `eStop` is the level of the E-STOP input, true when asserted (R116). -/
structure Ring where
  platens : Table Platen := []
  offset : Nat := 0
  positions : Positions := {}
  state : RingState := .stopped
  cycle : Cycle := .idle
  moveTimer : Option Nat := none
  lapCount : Nat := 0
  lapSynced : Bool := false
  eStop : Bool := false
  deriving DecidableEq, Repr

/-! ## Pretreat Meter (Chapter 8) -/

/-- The Pretreat Meter's state (Table 8-3). -/
structure Meter where
  cbs : Nat := 400
  ebs : Nat := 600
  bc : Nat := 400
  be : Nat := 600
  period : Nat := 1000
  running : Nat := 1000
  pulse : Nat := 3
  deriving DecidableEq, Repr

/-! ## Cure Tracker (Chapter 9) -/

/-- A lane (Table 9-2); the defaults are the reset values (R178). -/
structure Lane where
  lastEntry : Option BeltCount := none
  spaced : Bool := false
  reservation : Option Tag := none
  deriving DecidableEq, Repr

/-- The Cure Tracker's state (Table 0-1). An unlisted lane is at its reset values. -/
structure Cure where
  beltCount : BeltCount := 0#32
  e0 : Nat := 40
  z1 : Nat := 300
  z2 : Nat := 300
  z3 : Nat := 300
  spacing : Nat := 60
  lanes : Table Lane := []
  weights : List Nat := [0, 0, 0, 0, 0, 0, 0, 0, 0, 0, 0, 0, 0, 0, 0, 0]
  tbase : Nat := 140
  tstep : Nat := 5
  exitQueue : List Tag := []
  deriving DecidableEq, Repr

/-! ## Bin Controller (Chapter 10) -/

/-- State of a bin (Table 10-1). -/
inductive BinState where
  | free | filling | ready | void
  deriving DecidableEq, Repr

/-- A bin record (Table 10-1) but for its count, which is kept with the order's counts (R180); the defaults are the
reset values (R193). -/
structure Bin where
  state : BinState := .free
  order : Option Nat := none
  deriving DecidableEq, Repr

/-- The Bin Controller's state (Table 0-1). An unlisted bin is FREE. -/
structure BinBlock where
  records : Table Bin := []
  overflow : List Tag := []
  deriving DecidableEq, Repr

/-! ## Host Command Port (Chapter 11) -/

/-- The line limits with their defaults (Table 11-3). -/
structure Limits where
  agePeriod : Nat := 10
  ageLimit : Nat := 12
  lapLimit : Nat := 3
  reprintLimit : Nat := 3
  unloadWait : Nat := 30
  holdReserve : Nat := 32
  retention : Nat := 12
  moveLimit : Nat := 5
  toLoad : Nat := 60
  toPretreat : Nat := 30
  toPress : Nat := 90
  toPrintA : Nat := 120
  toPrintB : Nat := 120
  toUnload : Nat := 30
  toMatching : Nat := 60
  deriving DecidableEq, Repr

/-- A command frame as received: its code byte and the bytes after it (R194). -/
structure Frame where
  code : Byte
  bytes : List Byte
  deriving DecidableEq, Repr

/-- The port's state (R195). EXECUTING holds the command taken, whose owning block has not yet made its change;
HOLDING holds the response's bytes. -/
inductive PortState where
  | idle
  | executing (cmd : HostCmd) (payload : List Byte)
  | holding (response : List Byte)
  deriving DecidableEq, Repr

/-- The Host Command Port's state (Table 0-1). `kept` is the frame buffer while a command is being carried out (R195).
`reading` is the read transaction in progress, with the number of response bytes it has shifted out (R196). The cause
and mask fields have their flags at the bits of Table 11-4. -/
structure Port where
  state : PortState := .idle
  kept : Option Frame := none
  reading : Option Nat := none
  causes : BitVec 16 := 0#16
  mask : BitVec 16 := 0#16
  resetIndicator : Bool := true
  deriving DecidableEq, Repr

/-! ## The whole part -/

/-- The state of the part. `sent` and `shifted` are the model's record of the part's outputs (log 9); `freeReads` counts
the free values read (log 6); `pending` is the queue of commands that wait (log 1). -/
structure State where
  garments : GarmentBlock := {}
  orders : OrderBlock := {}
  sched : Scheduler := {}
  refs : RefBlock := {}
  stations : Stations := {}
  ring : Ring := {}
  meter : Meter := {}
  cure : Cure := {}
  bins : BinBlock := {}
  limits : Limits := {}
  port : Port := {}
  sent : List Sent := []
  shifted : List Byte := []
  freeReads : Nat := 0
  pending : List Instr := []
  deriving DecidableEq, Repr

/-- The part right after power-on or the RESET pin with E-STOP deasserted: every field at the reset value its block's
chapter gives (R25, R45, R66, R80, R100, R121, R156, R178, R193, R206), which is its default above. -/
def State.reset : State := {}

/-- Why a step could stop with a fault. The spec names no event that stops the part, so there is no such reason: nothing
raises a fault. Safe: there is no fault that hides an effect. -/
inductive Fault where
  deriving DecidableEq, Repr

/-- Why a step could be refused. -/
inductive Refusal where
  /-- Raised by an arm of `exec` whose command has no meaning yet, by its mnemonic. Safe: the model stops where the part
  goes on. No arm raises it at present. -/
  | notModelled (mnemonic : String)
  deriving DecidableEq, Repr

end Sys2Proof.Machine
end

