-- ==== Sys2Proof/Machine/Tables.lean ====
section
/-! DEFINITION. Machine/Tables.lean: the operations over tables by number, and over short lists. -/

namespace Sys2Proof.Machine

/-! ## Tables -/

/-- The entry listed under a number. -/
def Table.find {α : Type} : Table α → Nat → Option α
  | [], _ => none
  | (k, v) :: t, i => if i = k then some v else Table.find t i

/-- The table with `v` listed under `i`, in rising number. -/
def Table.put {α : Type} : Table α → Nat → α → Table α
  | [], i, v => [(i, v)]
  | (k, w) :: t, i, v =>
    if i = k then (i, v) :: t else if i < k then (i, v) :: (k, w) :: t else (k, w) :: Table.put t i v

/-- The table with nothing listed under `i`. -/
def Table.erase {α : Type} (t : Table α) (i : Nat) : Table α :=
  t.filter (fun e => decide (e.1 ≠ i))

/-- The table with `f` applied to the entry listed under `i`; nothing changes where none is listed. -/
def Table.modify {α : Type} (t : Table α) (i : Nat) (f : α → α) : Table α :=
  match t.find i with
  | none => t
  | some v => t.put i (f v)

/-- The table with `f` applied to every entry. -/
def Table.mapVal {α : Type} (t : Table α) (f : α → α) : Table α :=
  t.map (fun e => (e.1, f e.2))

/-- The table with `f` applied to every entry, where an unlisted number reads as `d`: an entry that becomes `d` is
removed. -/
def Table.mapStore {α : Type} [DecidableEq α] (d : α) (t : Table α) (f : α → α) : Table α :=
  (t.mapVal f).filter fun e => decide (e.2 ≠ d)

/-- The entry of a number where an unlisted number reads as `d`. -/
def Table.look {α : Type} (d : α) (t : Table α) (i : Nat) : α :=
  (t.find i).getD d

/-- Writing an entry where an unlisted number reads as `d`: writing `d` removes the entry. -/
def Table.store {α : Type} [DecidableEq α] (d : α) (t : Table α) (i : Nat) (v : α) : Table α :=
  if v = d then t.erase i else t.put i v

/-- The canonical form: numbers strictly rising. -/
def Table.wf {α : Type} : Table α → Bool
  | [] => true
  | (k, _) :: t => (t.all (fun e => decide (k < e.1))) && Table.wf t

/-- The canonical form of a table whose unlisted numbers read as `d`: numbers strictly rising, and no entry equal to
`d`. -/
def Table.wfDefault {α : Type} [DecidableEq α] (d : α) (t : Table α) : Bool :=
  t.wf && t.all (fun e => decide (e.2 ≠ d))

/-! ## Lists -/

/-- The list with `f` applied to the element at `i`, if there is one. -/
def modifyAt {α : Type} : List α → Nat → (α → α) → List α
  | [], _, _ => []
  | x :: xs, 0, f => f x :: xs
  | x :: xs, i + 1, f => x :: modifyAt xs i f

/-- `x` put before the first element whose key is not below its own. -/
def insertBy {α : Type} (key : α → Nat) (x : α) : List α → List α
  | [] => [x]
  | y :: ys => if key x ≤ key y then x :: y :: ys else y :: insertBy key x ys

/-- The list in rising key; elements of equal key keep their order. -/
def sortBy {α : Type} (key : α → Nat) : List α → List α
  | [] => []
  | x :: xs => insertBy key x (sortBy key xs)

end Sys2Proof.Machine
end

