-- ==== Sys2Proof/Machine/Flags.lean ====
section
/-! DEFINITION. Machine/Flags.lean: the cause flags, the cause mask and the attention line (R202 to R204). -/

namespace Sys2Proof.Machine

/-- The 13 cause flags, in the order of their bits (Table 11-4). -/
inductive Cause where
  | orderComplete | orderHeld | orderFreed | garmentLost | garmentRejected | garmentSpare | binAssigned | stationMode
  | stationRefusal | ringHalted | meterRed | scorch | cellsLow
  deriving DecidableEq, Repr

/-- The bit of a flag (Table 11-4). -/
def Cause.bit : Cause → Nat
  | .orderComplete => 0
  | .orderHeld => 1
  | .orderFreed => 2
  | .garmentLost => 3
  | .garmentRejected => 4
  | .garmentSpare => 5
  | .binAssigned => 6
  | .stationMode => 7
  | .stationRefusal => 8
  | .ringHalted => 9
  | .meterRed => 10
  | .scorch => 11
  | .cellsLow => 12

/-- The cause field with one flag's bit set. -/
def Cause.field (c : Cause) : BitVec 16 :=
  1#16 <<< c.bit

/-- The bits of the cause field that are flags: bits 13 to 15 are 0 (R202). -/
def causeBits : BitVec 16 := 0x1FFF#16

/-- A flag is set pending; one already pending stays pending (R202). -/
def State.raise (s : State) (c : Cause) : State :=
  { s with port.causes := s.port.causes ||| c.field }

/-- `raise` under a condition. -/
def State.raiseIf (s : State) (cond : Bool) (c : Cause) : State :=
  if cond then s.raise c else s

/-- Whether a flag is pending. -/
def State.pendingCause (s : State) (c : Cause) : Bool :=
  s.port.causes &&& c.field != 0#16

/-- The attention line: asserted while at least one flag is both pending and unmasked; a 1 in the mask unmasks
(R204; log 10). -/
def State.attn (s : State) : Bool :=
  s.port.causes &&& s.port.mask != 0#16

end Sys2Proof.Machine
end

