-- ==== Sys2Proof/Machine/Operands.lean ====
section
/-! DEFINITION. Machine/Operands.lean: every operand form: numbers in bytes (R199), link frames and their CRC (R81),
the message layouts and who may send them (R82, Tables 5-2 and 5-5), and the codes and lengths of host command frames
(Table 11-2, R198, R199). -/

namespace Sys2Proof

/-! ## Numbers in bytes, most significant byte first -/

/-- The number that a list of bytes spells, most significant byte first (R199, Table 5-2). -/
def beNat (bytes : List Byte) : Nat :=
  bytes.foldl (fun n b => n * 256 + b.toNat) 0

/-- A number in `width` bytes, most significant byte first (R199, Table 5-2). -/
def beBytes : (width : Nat) → (n : Nat) → List Byte
  | 0, _ => []
  | w + 1, n => BitVec.ofNat 8 (n / 256 ^ w) :: beBytes w n

/-- The number in the `width` bytes of a payload that begin at byte `start`. -/
def field (payload : List Byte) (start width : Nat) : Nat :=
  beNat ((payload.drop start).take width)

/-- The tag in the six bytes of a payload that begin at byte `start`. -/
def tagField (payload : List Byte) (start : Nat) : Tag :=
  BitVec.ofNat 48 (field payload start 6)

/-- The first `count` numbers of `width` bytes each, from byte `start` on. -/
def fields (payload : List Byte) (start width : Nat) : (count : Nat) → List Nat
  | 0 => []
  | n + 1 => field payload start width :: fields payload (start + width) width n

/-- A yes-or-no byte: 01h yes, 00h no, anything else neither (R199). -/
def yesNo (n : Nat) : Option Bool :=
  if n = 0 then some false else if n = 1 then some true else none

/-! ## Link frames -/

/-- One bit of the CRC: polynomial x¹⁶ + x¹² + x⁵ + 1, most significant bit first (R81). -/
def crcBit (c : BitVec 16) : BitVec 16 :=
  if c.msb then (c <<< 1) ^^^ 0x1021#16 else c <<< 1

/-- `crcBit` applied `n` times. -/
def crcBits : Nat → BitVec 16 → BitVec 16
  | 0, c => c
  | n + 1, c => crcBits n (crcBit c)

/-- One byte of the CRC. -/
def crcByte (c : BitVec 16) (b : Byte) : BitVec 16 :=
  crcBits 8 (c ^^^ BitVec.ofNat 16 (b.toNat * 256))

/-- The CRC of R81: initial value FFFFh, no final inversion. -/
def crc16 (bytes : List Byte) : BitVec 16 :=
  bytes.foldl crcByte 0xFFFF#16

/-- The framing checks of R81 on a frame's bytes: the payload length is 0 to 32, the frame holds exactly four bytes
more, and the CRC received is the CRC computed over kind, length and payload (log 26). -/
def framingOk (frame : List Byte) : Bool :=
  match frame with
  | _ :: len :: _ =>
    decide (len.toNat ≤ 32) && decide (frame.length = len.toNat + 4) &&
      decide (beNat (frame.drop (len.toNat + 2)) = (crc16 (frame.take (len.toNat + 2))).toNat)
  | _ => false

/-- The frame the part builds for a message: kind, length, payload, CRC (R81). -/
def buildFrame (kind : Byte) (payload : List Byte) : List Byte :=
  let body := kind :: BitVec.ofNat 8 payload.length :: payload
  body ++ beBytes 2 (crc16 body).toNat

/-! ## Station messages -/

/-- Kind bytes of the station-to-part messages (Table 5-2). -/
def kindHello : Byte := 0x01#8
def kindStatus : Byte := 0x02#8
def kindArrive : Byte := 0x03#8
def kindEmpty : Byte := 0x04#8
def kindDone : Byte := 0x05#8
def kindFail : Byte := 0x06#8
def kindAbort : Byte := 0x07#8
def kindAdvance : Byte := 0x08#8
def kindBinCleared : Byte := 0x09#8

/-- The payload length of each station-to-part kind; no other kind byte is known (Table 5-2). -/
def messageLength (kind : Byte) : Option Nat :=
  match kind.toNat with
  | 1 => some 3
  | 2 => some 0
  | 3 => some 10
  | 4 => some 1
  | 5 => some 9
  | 6 => some 8
  | 7 => some 7
  | 8 => some 9
  | 9 => some 1
  | _ => none

/-- The messages each station kind may send (Table 5-5). -/
def maySend (l : Link) (kind : Byte) : Bool :=
  match kind.toNat with
  | 1 | 2 => true
  | 3 | 5 => l != .cure
  | 4 => l.isRing
  | 6 => l == .pretreat || l == .press || l == .printA || l == .printB
  | 7 => l == .load
  | 8 => l == .cure
  | 9 => l == .matching
  | _ => false

/-- The platen field of a message: 0 to 23 from a ring station, FFh from MATCH (R82). -/
def platenFieldOk (l : Link) (payload : List Byte) : Bool :=
  if l.isRing then decide (field payload 0 1 ≤ 23) else decide (field payload 0 1 = 255)

/-- Step 3 of R82: every field with listed codes or a range holds one of them. The SKU of an ARRIVE, the result of a
DONE and the fields of an ADVANCE are accepted at any value; the bin of a BIN CLEARED is checked by R189. -/
def fieldsOk (l : Link) (kind : Byte) (payload : List Byte) : Bool :=
  match kind.toNat with
  | 1 => decide (field payload 0 1 ≤ 7)
  | 3 => platenFieldOk l payload && (yesNo (field payload 7 1)).isSome && (yesNo (field payload 9 1)).isSome
  | 4 | 5 | 7 => platenFieldOk l payload
  | 6 => platenFieldOk l payload && (yesNo (field payload 7 1)).isSome
  | _ => true

/-- The three checks of R82 on a message received on a link that is UP; a message that fails one is refused
BAD_REQUEST. -/
def messageOk (l : Link) (kind : Byte) (payload : List Byte) : Bool :=
  messageLength kind == some payload.length && maySend l kind && fieldsOk l kind payload

/-- The platen byte of a message as the part holds it: FFh means none (Table 5-2). -/
def platenOf (payload : List Byte) : Option Nat :=
  let n := field payload 0 1
  if n = 255 then none else some n

/-- What an ARRIVE or an EMPTY reports. An EMPTY carries neither tag nor SKU (Table 5-2). -/
structure Report where
  platen : Option Nat
  tag : Option Tag
  sku : Option Nat
  defect : Bool
  deriving DecidableEq, Repr

/-- The fields of an ARRIVE's payload (Table 5-2). -/
def arriveReport (payload : List Byte) : Report where
  platen := platenOf payload
  tag := some (tagField payload 1)
  sku := if field payload 7 1 = 1 then some (field payload 8 1) else none
  defect := field payload 9 1 = 1

/-- The field of an EMPTY's payload (Table 5-2). -/
def emptyReport (payload : List Byte) : Report where
  platen := platenOf payload
  tag := none
  sku := none
  defect := false

/-- The platen and the tag that a REFUSE repeats: those of a message that carries both, and otherwise FFh and 0 (R83).
A message whose length is not its kind's carries neither (log 14). -/
def refuseEcho (kind : Byte) (payload : List Byte) : Byte × Tag :=
  if messageLength kind = some payload.length ∧
      (kind = kindArrive ∨ kind = kindDone ∨ kind = kindFail ∨ kind = kindAbort) then
    (payload.headD 0#8, tagField payload 1)
  else (0xFF#8, 0#48)

/-! ## Host command frames -/

/-- The codes of Table 11-2. -/
def HostCmd.code : HostCmd → Byte
  | .identify => 0x01#8
  | .readCauses => 0x02#8
  | .setCauseMask => 0x03#8
  | .lineReset => 0x04#8
  | .setLineLimits => 0x05#8
  | .loadSku => 0x10#8
  | .loadClass => 0x11#8
  | .loadDesign => 0x12#8
  | .readEntry => 0x13#8
  | .setPattern => 0x14#8
  | .admitOrder => 0x20#8
  | .cancelOrder => 0x21#8
  | .releaseHold => 0x22#8
  | .queryOrder => 0x23#8
  | .listOrders => 0x24#8
  | .setScheduler => 0x25#8
  | .queryGarment => 0x30#8
  | .walkFirst => 0x31#8
  | .walkNext => 0x32#8
  | .retireGarment => 0x33#8
  | .setStation => 0x40#8
  | .setStationMode => 0x41#8
  | .queryStation => 0x42#8
  | .setPlaten => 0x43#8
  | .startRing => 0x48#8
  | .stopRing => 0x49#8
  | .resumeRing => 0x4A#8
  | .queryRing => 0x4B#8
  | .setMeter => 0x50#8
  | .queryMeter => 0x51#8
  | .setTunnel => 0x58#8
  | .setWeights => 0x59#8
  | .queryBelt => 0x5A#8
  | .queryBin => 0x60#8

/-- The host commands in the order of Table 11-2. -/
def HostCmd.all : List HostCmd :=
  [.identify, .readCauses, .setCauseMask, .lineReset, .setLineLimits, .loadSku, .loadClass, .loadDesign, .readEntry,
    .setPattern, .admitOrder, .cancelOrder, .releaseHold, .queryOrder, .listOrders, .setScheduler, .queryGarment,
    .walkFirst, .walkNext, .retireGarment, .setStation, .setStationMode, .queryStation, .setPlaten, .startRing,
    .stopRing, .resumeRing, .queryRing, .setMeter, .queryMeter, .setTunnel, .setWeights, .queryBelt, .queryBin]

/-- The command a code byte names in Table 11-2, or none (R198, check 1). -/
def HostCmd.ofCode (code : Byte) : Option HostCmd :=
  HostCmd.all.find? (fun c => c.code = code)

/-- Whether a payload has the length the encoding of R199 gives for the command (R198, check 2; log 16). ADMIT ORDER
takes its line count from its sixth byte; SET LINE LIMITS takes 22 bytes or none (R201). That a group of a fixed number,
such as the class map, the weights of SET SCHEDULER and of SET WEIGHTS and the positions of SET STATION, carries no
count byte is the model's choice (log 32). -/
def HostCmd.lengthFits (c : HostCmd) (payload : List Byte) : Bool :=
  let n := payload.length
  match c with
  | .identify | .readCauses | .lineReset | .walkFirst | .walkNext | .startRing | .stopRing | .resumeRing | .queryRing
  | .queryMeter => n == 0
  | .queryStation | .queryBin => n == 1
  | .setCauseMask | .readEntry | .listOrders | .setPlaten => n == 2
  | .loadSku | .setStationMode | .queryBelt => n == 3
  | .cancelOrder | .releaseHold | .queryOrder => n == 4
  | .loadDesign => n == 5
  | .queryGarment | .retireGarment | .setStation => n == 6
  | .setMeter => n == 7
  | .setTunnel => n == 10
  | .loadClass => n == 12
  | .setScheduler => n == 13
  | .setPattern => n == 16
  | .setWeights => n == 34
  | .setLineLimits => n == 0 || n == 22
  | .admitOrder => decide (6 ≤ n) && n == 6 + 3 * field payload 5 1

/-- Check 2 of R198 on the bytes received after the code byte: a length byte is there, as many payload bytes follow it
as it says, and their number is the command's. -/
def HostCmd.frameLengthOk (c : HostCmd) (bytes : List Byte) : Bool :=
  match bytes with
  | [] => false
  | len :: payload => payload.length == len.toNat && c.lengthFits payload

end Sys2Proof
end

