-- ==== Sys2Proof/Machine/Ops.lean ====
section
/-! DEFINITION. Machine/Ops.lean: the named reads and writes of the part's records: garments, orders, reference entries,
stations, platens, lanes, bins; and the sending of messages. Every register has its one home here. -/

namespace Sys2Proof.Machine

/-! ## Garment records -/

/-- The bucket of a tag: the low seven bits of the exclusive-or of its six bytes (R4). -/
def tagBucket (tag : Tag) : Nat :=
  (tag.extractLsb' 40 8 ^^^ tag.extractLsb' 32 8 ^^^ tag.extractLsb' 24 8 ^^^ tag.extractLsb' 16 8 ^^^
    tag.extractLsb' 8 8 ^^^ tag.extractLsb' 0 8).toNat % 128

/-- The four positions of a tag's bucket, lowest way first (R4). -/
def tagWays (tag : Tag) : List Nat :=
  [4 * tagBucket tag, 4 * tagBucket tag + 1, 4 * tagBucket tag + 2, 4 * tagBucket tag + 3]

/-- The lookup of R5: the live record that carries a tag, with its position, among the ways of the tag's bucket. -/
def State.findTag (s : State) (tag : Tag) : Option (Nat × Garment) :=
  (tagWays tag).findSome? fun pos =>
    match s.garments.records.find pos with
    | some g => if g.tag = tag then some (pos, g) else none
    | none => none

/-- The lowest free way of a tag's bucket, as a position (R9, R10). -/
def State.freeWay (s : State) (tag : Tag) : Option Nat :=
  (tagWays tag).find? fun pos => (s.garments.records.find pos).isNone

/-- The live records, in order of position (R4). -/
def State.liveGarments (s : State) : List Garment :=
  s.garments.records.map Prod.snd

/-- A record written at a position. -/
def State.putRecord (s : State) (pos : Nat) (g : Garment) : State :=
  { s with garments.records := s.garments.records.put pos g }

/-- A position freed (R17). -/
def State.eraseRecord (s : State) (pos : Nat) : State :=
  { s with garments.records := s.garments.records.erase pos }

/-- `f` applied to every live record. -/
def State.mapRecords (s : State) (f : Garment → Garment) : State :=
  { s with garments.records := s.garments.records.mapVal f }

/-- `f` applied to the live record that carries a tag; nothing changes where none does (R3). -/
def State.modifyGarment (s : State) (tag : Tag) (f : Garment → Garment) : State :=
  match s.findTag tag with
  | none => s
  | some (pos, g) => s.putRecord pos (f g)

/-- A touch sets the record's age to 0; a tag with no live record is left at that (R11). -/
def State.touch (s : State) (tag : Tag) : State :=
  s.modifyGarment tag fun g => { g with age := 0 }

/-- Whether a garment is on the ring. -/
def Garment.onRing (g : Garment) : Bool :=
  match g.location with
  | .ring _ => true
  | _ => false

/-- Whether a garment is on the belt. -/
def Garment.onBelt (g : Garment) : Bool :=
  match g.location with
  | .belt _ _ => true
  | _ => false

/-! ## Orders -/

/-- The order in a slot, or none for a free slot (R27). -/
def State.order (s : State) (slot : Nat) : Option Order :=
  s.orders.slots.find slot

/-- `f` applied to the order in a slot. -/
def State.modifyOrder (s : State) (slot : Nat) (f : Order → Order) : State :=
  { s with orders.slots := s.orders.slots.modify slot f }

/-- `f` applied to one line of the order in a slot. -/
def State.modifyLine (s : State) (slot line : Nat) (f : Line → Line) : State :=
  s.modifyOrder slot fun o => { o with lines := modifyAt o.lines line f }

/-- A line item by slot and index. -/
def State.line (s : State) (slot line : Nat) : Option Line :=
  match s.order slot with
  | none => none
  | some o => o.lines[line]?

/-- The slot in use that carries an order number, with its order (R27). -/
def State.findOrder (s : State) (number : Nat) : Option (Nat × Order) :=
  s.orders.slots.find? fun e => e.2.number = number

/-- The demand of a line, Q − F − Bn (R28; log 10). -/
def Line.demand (l : Line) : Nat :=
  l.quantity - l.inFlight - l.binned

/-- Every line has Bn = Q (R35). -/
def Order.allBinned (o : Order) : Bool :=
  o.lines.all fun l => l.binned = l.quantity

/-- The sum of Bn over the lines, which is the garment count of the order's bin (R180). -/
def Order.binnedTotal (o : Order) : Nat :=
  (o.lines.map Line.binned).sum

/-! ## Reference entries -/

/-- A class entry as a reader sees it; an invalid entry supplies no parameter and reads as 0 and no (R67). -/
def State.classEntry (s : State) (cls : Nat) : ClassEntry :=
  (s.refs.classes.find cls).getD ⟨false, 0, 0, 0, 0, 0, 0, 0⟩

/-- A design entry as a reader sees it; an invalid entry reads as 0 and no (R67). -/
def State.designEntry (s : State) (design : Nat) : DesignEntry :=
  (s.refs.designs.find design).getD ⟨0, false, 0⟩

/-- A SKU entry's reference count changed (R71). -/
def State.countSku (s : State) (sku : Nat) (f : Nat → Nat) : State :=
  { s with refs.skus := s.refs.skus.modify sku fun e => { e with count := f e.count } }

/-- A class entry's reference count changed (R72). -/
def State.countClass (s : State) (cls : Nat) (f : Nat → Nat) : State :=
  { s with refs.classes := s.refs.classes.modify cls fun e => { e with count := f e.count } }

/-- A design entry's reference count changed (R73). -/
def State.countDesign (s : State) (design : Nat) (f : Nat → Nat) : State :=
  { s with refs.designs := s.refs.designs.modify design fun e => { e with count := f e.count } }

/-- A count that rises by one. -/
def up1 (n : Nat) : Nat := n + 1

/-- A count that falls by one and stays at 0 (00, "Arithmetic"). -/
def down1 (n : Nat) : Nat := n - 1

/-- The counts of a garment's SKU, class and design entries changed together (R9, R18). -/
def State.countGarment (s : State) (g : Garment) (f : Nat → Nat) : State :=
  ((s.countSku g.sku f).countClass g.cls f).countDesign g.design f

/-! ## Stations -/

/-- The station of a link. -/
def Stations.get (t : Stations) : Link → Station
  | .load => t.load
  | .pretreat => t.pretreat
  | .press => t.press
  | .printA => t.printA
  | .printB => t.printB
  | .unload => t.unload
  | .cure => t.cure
  | .matching => t.matching

/-- The stations with one replaced. -/
def Stations.set (t : Stations) (l : Link) (x : Station) : Stations :=
  match l with
  | .load => { t with load := x }
  | .pretreat => { t with pretreat := x }
  | .press => { t with press := x }
  | .printA => { t with printA := x }
  | .printB => { t with printB := x }
  | .unload => { t with unload := x }
  | .cure => { t with cure := x }
  | .matching => { t with matching := x }

/-- What is held for a link. -/
def State.station (s : State) (l : Link) : Station :=
  s.stations.get l

/-- `f` applied to what is held for a link. -/
def State.modifyStation (s : State) (l : Link) (f : Station → Station) : State :=
  { s with stations := s.stations.set l (f (s.stations.get l)) }

/-- The open verdict of a link's station (R90). -/
def State.verdictOf (s : State) (l : Link) : Option OpenVerdict :=
  (s.station l).verdict

/-- Whether a station's open verdict names a tag. -/
def State.namedBy (s : State) (tag : Tag) (l : Link) : Bool :=
  match s.verdictOf l with
  | some r => r.tag = tag
  | none => false

/-- Whether any station's open verdict names a tag (R20, R24, R57, R60). -/
def State.namedInVerdict (s : State) (tag : Tag) : Bool :=
  Link.all.any (s.namedBy tag)

/-- Whether a station is in CHECK or ACTIVE. -/
def Station.working (x : Station) : Bool :=
  x.mode = .check || x.mode = .active

/-- The work timeout in force for a station's kind; CURE has none (Tables 5-1 and 11-3). -/
def Limits.workTimeout (m : Limits) : Link → Option Nat
  | .load => some m.toLoad
  | .pretreat => some m.toPretreat
  | .press => some m.toPress
  | .printA => some m.toPrintA
  | .printB => some m.toPrintB
  | .unload => some m.toUnload
  | .cure => none
  | .matching => some m.toMatching

/-- The period a station's timer starts with for a record: the unload wait limit for a WAIT, the work timeout of the
station's kind for a work verdict (R93). -/
def Limits.timerFor (m : Limits) (l : Link) (r : OpenVerdict) : Option Nat :=
  match r.cls with
  | .wait => some m.unloadWait
  | .work => m.workTimeout l

/-- A station's open verdict record made, with its timer started; the issue of a work verdict clears the expired-verdict
memory (R90, R93). -/
def State.openRecord (s : State) (l : Link) (r : OpenVerdict) : State :=
  s.modifyStation l fun x =>
    { x with
      verdict := some r
      workTimer := s.limits.timerFor l r
      expired := if r.cls = .work then none else x.expired }

/-- A station's open verdict record ended, with its timer stopped (R90, R93). -/
def State.endRecord (s : State) (l : Link) : State :=
  s.modifyStation l fun x => { x with verdict := none, workTimer := none }

/-! ## Messages -/

/-- A message sent on a link, after those sent before it (R83). -/
def State.send (s : State) (l : Link) (m : Message) : State :=
  { s with sent := s.sent ++ [⟨l, m⟩] }

/-- The platen byte of a message the part sends: FFh means none (Table 5-2). -/
def platenByte : Option Nat → Byte
  | none => 0xFF#8
  | some n => BitVec.ofNat 8 n

/-- The refusal-seen flag of a station (R97). -/
def State.setRefusalSeen (s : State) (l : Link) (b : Bool) : State :=
  s.modifyStation l fun x => { x with refusalSeen := b }

/-- A VERDICT in reply to a request, which clears the refusal-seen flag (R97). -/
def State.replyVerdict (s : State) (l : Link) (platen : Option Nat) (tag : Tag) (v : Verdict) (p1 p2 : Nat) : State :=
  (s.setRefusalSeen l false).send l (.verdict (platenByte platen) tag v p1 p2)

/-- An ACK in reply to a request: it carries the station's mode as it stands and clears the refusal-seen flag
(R83, R97). -/
def State.replyAck (s : State) (l : Link) (kind : Byte) : State :=
  (s.setRefusalSeen l false).send l (.ack kind (s.station l).mode)

/-- A REFUSE: it sets the refusal-seen flag, and cause STATION_REFUSAL under ALL, or under FIRST when the flag was clear
before it (R97). -/
def State.replyRefuse (s : State) (l : Link) (code : RefusalCode) (kind : Byte) (platen : Byte) (tag : Tag) : State :=
  let x := s.station l
  ((s.raiseIf (x.attention = .all || !x.refusalSeen) .stationRefusal).setRefusalSeen l true).send l
    (.refuse code kind platen tag)

/-! ## The ring -/

/-- A platen record (R101). -/
def State.platen (s : State) (k : Nat) : Platen :=
  s.ring.platens.look {} k

/-- `f` applied to a platen record. -/
def State.modifyPlaten (s : State) (k : Nat) (f : Platen → Platen) : State :=
  { s with ring.platens := s.ring.platens.store {} k (f (s.platen k)) }

/-- The held field of a platen written. -/
def State.setHeld (s : State) (k : Nat) (b : Bool) : State :=
  s.modifyPlaten k fun p => { p with held := b }

/-- The platens that are held, in rising number. -/
def State.heldPlatens (s : State) : List Nat :=
  (s.ring.platens.filter fun e => e.2.held).map Prod.fst

/-- A platen becomes EMPTY and its tag absent; the held field is left as it stands (R18, R101, R108). -/
def State.emptyPlaten (s : State) (k : Nat) : State :=
  s.modifyPlaten k fun p => { p with state := .empty, tag := none }

/-- The position of a ring station; CURE and MATCH have none (R103). -/
def Positions.of (p : Positions) : Link → Option Nat
  | .load => some p.load
  | .pretreat => some p.pretreat
  | .press => some p.press
  | .printA => some p.printA
  | .printB => some p.printB
  | .unload => some p.unload
  | .cure | .matching => none

/-- The platen that faces a position: (s − o) mod 24 (R103). -/
def facingPlaten (position offset : Nat) : Nat :=
  (position + (24 - offset % 24)) % 24

/-- The platen that faces a ring station (R103). -/
def State.facing (s : State) (l : Link) : Option Nat :=
  (s.ring.positions.of l).map fun p => facingPlaten p s.ring.offset

/-- INDEX GO: asserted exactly while the index cycle is MOVING (R109). -/
def State.indexGo (s : State) : Bool :=
  s.ring.cycle = .moving

/-- The hold on a platen released; a record of MATCH names none (R108). -/
def State.releaseHold (s : State) (platen : Option Nat) : State :=
  match platen with
  | some k => s.setHeld k false
  | none => s

/-- Whether any platen is held. -/
def State.anyHeld (s : State) : Bool :=
  s.ring.platens.any fun e => e.2.held

/-! ## Lanes and bins -/

/-- A lane (R160). -/
def State.lane (s : State) (k : Nat) : Lane :=
  s.cure.lanes.look {} k

/-- `f` applied to a lane. -/
def State.modifyLane (s : State) (k : Nat) (f : Lane → Lane) : State :=
  { s with cure.lanes := s.cure.lanes.store {} k (f (s.lane k)) }

/-- The numbers of the four lanes (R160). -/
def laneNumbers : List Nat := [0, 1, 2, 3]

/-- A bin record (R180). -/
def State.bin (s : State) (k : Nat) : Bin :=
  s.bins.records.look {} k

/-- A bin record written. -/
def State.setBin (s : State) (k : Nat) (b : Bin) : State :=
  { s with bins.records := s.bins.records.store {} k b }

/-- The garment count of a bin, which is the sum of Bn over its order's lines (R180). -/
def State.binCount (s : State) (k : Nat) : Nat :=
  match (s.bin k).order with
  | none => 0
  | some slot => ((s.order slot).map Order.binnedTotal).getD 0

/-- The numbers of the 48 bins (R180). -/
def binNumbers : List Nat := List.range 48

/-- The lowest-numbered FREE bin (R183). -/
def State.freeBin (s : State) : Option Nat :=
  binNumbers.find? fun k => (s.bin k).state = .free

/-! ## Cells -/

/-- Cells returned to the pool (R31). -/
def State.returnCells (s : State) (n : Nat) : State :=
  { s with orders.freeCells := s.orders.freeCells + n }

/-- Cells taken from the pool (R31). -/
def State.takeCells (s : State) (n : Nat) : State :=
  { s with orders.freeCells := s.orders.freeCells - n }

/-- CELLS_LOW is set by every event after which the free cells are fewer than the hold reserve, where before that event
they were not fewer (R33; log 21). `before` is the state before the event. -/
def State.checkCells (s before : State) : State :=
  s.raiseIf (decide (s.orders.freeCells < s.limits.holdReserve) &&
    !decide (before.orders.freeCells < before.limits.holdReserve)) .cellsLow

end Sys2Proof.Machine
end

