-- ==== Sys2Proof/Machine/Meter.lean ====
section
/-! DEFINITION. Machine/Meter.lean: the dose and pulse arithmetic, the buckets, grants and delivery reports of the
Pretreat Meter (Chapter 8). -/

namespace Sys2Proof.Machine

/-- The largest pulse count of one garment (R143, R150). -/
def maxPulses : Nat := 3825

/-- The dose in milligrams: ceil(A × r / 100) (R143). -/
def doseMg (area rate : Nat) : Nat :=
  (area * rate + 99) / 100

/-- The full pulses: ceil(dose / q) (R143). -/
def pulsesFor (area rate q : Nat) : Nat :=
  (doseMg area rate + (q - 1)) / q

/-- The full pulses of a garment of a design and a class with the pulse size in force (R143). -/
def State.fullPulses (s : State) (design cls : Nat) : Nat :=
  pulsesFor (s.designEntry design).area (s.classEntry cls).rate s.meter.pulse

/-- The owed pulses (R144). -/
def Garment.owed (g : Garment) : Nat :=
  g.full - g.delivered

/-- The completion test (R144). -/
def Garment.completes (g : Garment) : Bool :=
  decide (g.full * 9 ≤ g.delivered * 10)

/-- A BLANK garment that meets the completion test becomes TREATED (R144). -/
def Garment.treatIfComplete (g : Garment) : Garment :=
  if g.stage = .blank ∧ g.completes then { g with stage := .treated } else g

/-- A level after pulses are added, capped at the bucket's size; the rest is dropped (R145, R150). -/
def refundTo (size level n : Nat) : Nat :=
  min size (level + n)

/-- The answer of the meter to a request of `n` pulses from the levels as they stand: GREEN from the committed bucket,
YELLOW from the excess bucket, and none for RED (R147). -/
def Meter.answer (m : Meter) (n : Nat) : Option Grant :=
  if n ≤ m.bc then some ⟨.green, .committed⟩ else if n ≤ m.be then some ⟨.yellow, .excess⟩ else none

/-- The debit of the whole of `n` from the bucket of a grant (R147). -/
def Meter.debit (m : Meter) (n : Nat) (g : Grant) : Meter :=
  match g.bucket with
  | .committed => { m with bc := m.bc - n }
  | .excess => { m with be := m.be - n }

/-- A refund of `n` pulses to the bucket recorded with the verdict, capped at its size (R150). -/
def Meter.refund (m : Meter) (n : Nat) (g : Grant) : Meter :=
  match g.bucket with
  | .committed => { m with bc := refundTo m.cbs m.bc n }
  | .excess => { m with be := refundTo m.ebs m.be n }

/-- A grant requested for a garment: the debit and the WET flag, set by YELLOW and cleared by GREEN; RED debits nothing
and sets METER_RED (R147 to R149). -/
def State.requestGrant (s : State) (tag : Tag) (n : Nat) : Option Grant × State :=
  match s.meter.answer n with
  | some g => (some g, { s with meter := s.meter.debit n g }.modifyGarment tag
      fun x => { x with wet := g.colour == Colour.yellow })
  | none => (none, s.raise .meterRed)

/-- Step 1 of R150: the pulses delivered are added to the garment's, which stay at their maximum. -/
def State.creditPulses (s : State) (tag : Tag) (m : Nat) : State :=
  s.modifyGarment tag fun g => { g with delivered := min maxPulses (g.delivered + m) }

/-- Step 2 of R150: a shortfall against the granted pulses is added to the bucket recorded with the verdict. -/
def State.refundShortfall (s : State) (r : OpenVerdict) (m : Nat) : State :=
  match r.grant with
  | some g => if m < r.param1 then { s with meter := s.meter.refund (r.param1 - m) g } else s
  | none => s

/-- A delivery report of `m` pulses settled against the grant of a SPRAY verdict: accumulation, refund, completion
(R150). A FAIL is settled as a delivery of 0. -/
def State.settleDelivery (s : State) (r : OpenVerdict) (m : Nat) : State :=
  ((s.creditPulses r.tag m).refundShortfall r m).modifyGarment r.tag Garment.treatIfComplete

/-- A refill timer expiry: one token to the committed bucket, else to the excess bucket, else dropped; the next period
starts with P (R146). -/
def Meter.refill (m : Meter) : Meter :=
  let m := if m.bc < m.cbs then { m with bc := m.bc + 1 }
    else if m.be < m.ebs then { m with be := m.be + 1 } else m
  { m with running := m.period }

/-- The effects of an accepted SET METER (R154): levels clamped to the new sizes; the running period kept. -/
def Meter.configure (m : Meter) (cbs ebs period pulse : Nat) : Meter :=
  { m with cbs := cbs, ebs := ebs, bc := min m.bc cbs, be := min m.be ebs, period := period, pulse := pulse }

/-- LINE RESET refills both buckets (R157). -/
def Meter.lineReset (m : Meter) : Meter :=
  { m with bc := m.cbs, be := m.ebs }

end Sys2Proof.Machine
end

