-- ==== Sys2Proof/Machine/Scheduler.lean ====
section
/-! DEFINITION. Machine/Scheduler.lean: demand and candidates, the choice, binding and unbinding, the offering of
orphans and the stage rule of the Binding Scheduler (Chapter 3). -/

namespace Sys2Proof.Machine

/-- A set of lines that a choice is made among: every line, every line of one order, or one line (Section 3.3, R61). -/
inductive LineSet where
  | all
  | order (slot : Nat)
  | line (slot line : Nat)
  deriving DecidableEq, Repr

/-- Whether a line is in the set. -/
def LineSet.has : LineSet → Nat → Nat → Bool
  | .all, _, _ => true
  | .order k, i, _ => i == k
  | .line k n, i, j => i == k && j == n

/-- A candidate line with what the choice ranks it by: its scheduling class and its order's admission sequence. -/
structure Candidate where
  slot : Nat
  line : Nat
  cls : Nat
  admission : Nat
  deriving DecidableEq, Repr

/-- The scheduling class of a service level by the class map as it stands (R49). -/
def Scheduler.classOf (c : Scheduler) (level : Nat) : Nat :=
  c.classMap.getD level 0

/-- The line's own part of the candidate test of R48: ACTIVE, demand above 0, the SKU, and for a PRINTED garment the
design. -/
def Line.fits (l : Line) (sku : Nat) (design : Option Nat) : Bool :=
  l.sku == sku && l.state == .active && decide (0 < l.demand) && (design == none || design == some l.design)

/-- An order in OPEN or FILLING has candidate lines (R48). -/
def Order.takes (o : Order) : Bool :=
  o.state == .opened || o.state == .filling

/-- The candidates among the lines of one order, from index `i` on. -/
def lineCandidates (c : Scheduler) (set : LineSet) (sku : Nat) (design : Option Nat) (slot : Nat) (o : Order) :
    Nat → List Line → List Candidate
  | _, [] => []
  | i, l :: ls =>
    if set.has slot i && l.fits sku design then
      ⟨slot, i, c.classOf o.level, o.admission⟩ :: lineCandidates c set sku design slot o (i + 1) ls
    else lineCandidates c set sku design slot o (i + 1) ls

/-- The candidates of a set of lines for a SKU, and for a PRINTED garment its design, in order of slot and line (R48). -/
def State.candidates (s : State) (set : LineSet) (sku : Nat) (design : Option Nat) : List Candidate :=
  s.orders.slots.flatMap fun e =>
    if e.2.takes then lineCandidates s.sched set sku design e.1 e.2 0 e.2.lines else []

/-- The candidate of the lowest admission sequence; of equal ones the first, which is the lower slot and then the lower
line (R53). -/
def earliest : List Candidate → Option Candidate
  | [] => none
  | c :: cs =>
    match earliest cs with
    | none => some c
    | some d => if d.admission < c.admission then some d else some c

/-- The scheduling classes, most urgent first (R51, R52). -/
def classesDown : List Nat := [3, 2, 1, 0]

/-- Whether a class holds a candidate. -/
def holdsCandidate (cs : List Candidate) (k : Nat) : Bool :=
  cs.any fun c => c.cls == k

/-- The credit of a class. -/
def Scheduler.credit (c : Scheduler) (k : Nat) : Nat :=
  c.credits.getD k 0

/-- A reload sets every credit to its weight (R49). -/
def Scheduler.reload (c : Scheduler) : Scheduler :=
  { c with credits := c.weights }

/-- The credit of a class lowered by one (R52). -/
def Scheduler.spend (c : Scheduler) (k : Nat) : Scheduler :=
  { c with credits := modifyAt c.credits k down1 }

/-- Step 1 of R52: the highest class that holds a candidate and whose credit is above 0. -/
def Scheduler.creditedClass (c : Scheduler) (cs : List Candidate) : Option Nat :=
  classesDown.find? fun k => holdsCandidate cs k && decide (0 < c.credit k)

/-- The earliest candidate of a class (R53). -/
def earliestOf (cs : List Candidate) (k : Nat) : Option Candidate :=
  earliest (cs.filter fun c => c.cls == k)

/-- The choice among candidates, with the scheduler after it (R51, R52). If there is no candidate the choice finds none
and nothing changes. -/
def Scheduler.choose (c : Scheduler) (cs : List Candidate) : Option (Candidate × Scheduler) :=
  match c.mode with
  | .strict =>
    match classesDown.find? (holdsCandidate cs) with
    | none => none
    | some k => (earliestOf cs k).map fun x => (x, c)
  | .weighted =>
    match c.creditedClass cs with
    | some k => (earliestOf cs k).map fun x => (x, c.spend k)
    | none =>
      match c.reload.creditedClass cs with
      | some k => (earliestOf cs k).map fun x => (x, c.reload.spend k)
      | none => none

/-- The design a candidate must name for a garment: its own when it is PRINTED (R48). -/
def Garment.designWanted (g : Garment) : Option Nat :=
  if g.stage = .printed then some g.design else none

/-- F of a line raised (R30). -/
def Line.raiseF (l : Line) : Line := { l with inFlight := l.inFlight + 1 }

/-- F of a line lowered (R30). -/
def Line.lowerF (l : Line) : Line := { l with inFlight := l.inFlight - 1 }

/-- The full pulses of a BLANK garment computed afresh at a binding, and its completion test where the class has a
pretreat rate above 0 (R54). -/
def State.repulse (s : State) (g : Garment) : Garment :=
  if g.stage = .blank then
    let g := { g with full := s.fullPulses g.design g.cls }
    if 0 < (s.classEntry g.cls).rate then g.treatIfComplete else g
  else g

/-- F lowered on the line a garment is bound to, if it is bound (R30). -/
def State.leaveLine (s : State) (b : Option Binding) : State :=
  match b with
  | some b => s.modifyLine b.slot b.line Line.lowerF
  | none => s

/-- The count of the old design entry falls and that of the new rises when the design changes (R2). -/
def State.moveDesign (s : State) (old new : Nat) : State :=
  if old = new then s else (s.countDesign old down1).countDesign new up1

/-- A garment is bound to a chosen line by one change (R54). -/
def State.bindGarment (s : State) (tag : Tag) (slot line : Nat) : State :=
  match s.findTag tag, s.line slot line with
  | some (pos, g), some l =>
    let s := ((s.leaveLine g.binding).modifyLine slot line Line.raiseF).moveDesign g.design l.design
    s.putRecord pos (s.repulse { g with binding := some ⟨slot, line⟩, design := l.design })
  | _, _ => s

/-- A garment is unbound by one change (R56). -/
def State.unbindGarment (s : State) (tag : Tag) : State :=
  match s.findTag tag with
  | some (pos, g) => (s.leaveLine g.binding).putRecord pos { g with binding := none }
  | none => s

/-- A choice made for a garment among a set of lines, and the binding if a candidate is found; the flag says whether one
was (R51, R52, R54). -/
def State.chooseAndBind (s : State) (tag : Tag) (set : LineSet) : State × Bool :=
  match s.findTag tag with
  | none => (s, false)
  | some (_, g) =>
    match s.sched.choose (s.candidates set g.sku g.designWanted) with
    | none => (s, false)
    | some (c, sched) => ({ s with sched := sched }.bindGarment tag c.slot c.line, true)

/-- An orphan that may be offered (R60). -/
def State.offerable (s : State) (g : Garment) : Bool :=
  g.kind == .order && g.binding == none && !g.spoiled && !s.namedInVerdict g.tag

/-- The tags of some live records in load sequence order, ties in order of position (R6). -/
def State.tagsInLoadOrder (s : State) (keep : Garment → Bool) : List Tag :=
  (sortBy Garment.loadSeq (s.liveGarments.filter keep)).map Garment.tag

/-- The offerable orphans in the order an offering takes them: printed ones, then blanks, each in load sequence order
(R62). -/
def State.orphans (s : State) : List Tag :=
  s.tagsInLoadOrder (fun g => s.offerable g && g.stage == .printed) ++
    s.tagsInLoadOrder (fun g => s.offerable g && g.stage != .printed)

/-- One orphan examined in an offering, with the count of those bound (R62). -/
def State.offerOne (set : LineSet) (acc : State × Nat) (tag : Tag) : State × Nat :=
  let r := acc.1.chooseAndBind tag set
  (r.1, if r.2 then acc.2 + 1 else acc.2)

/-- An offering of the orphans to a set of lines, with the number it bound (R62). -/
def State.offerCounted (s : State) (set : LineSet) : State × Nat :=
  s.orphans.foldl (State.offerOne set) (s, 0)

/-- An offering of the orphans to a set of lines (R61, R62). -/
def State.offer (s : State) (set : LineSet) : State :=
  (s.offerCounted set).1

/-- The stage rule of R59 for a garment taken up at a cancellation: a SPOILED one is unbound; any other is bound by a
choice among all lines, or unbound if there is no candidate. -/
def State.stageRule (s : State) (tag : Tag) : State :=
  match s.findTag tag with
  | none => s
  | some (_, g) =>
    if g.spoiled then s.unbindGarment tag
    else
      let r := s.chooseAndBind tag .all
      if r.2 then r.1 else r.1.unbindGarment tag

end Sys2Proof.Machine
end

