-- ==== Sys2Proof/Machine/Orders.lean ====
section
/-! DEFINITION. Machine/Orders.lean: the Order Table's own changes: completion, spoils, the drain test and the freeing of
a slot (Chapter 2), and the end of a binding at a retirement (R19, Table 1-6). -/

namespace Sys2Proof.Machine

/-- Retirement reasons (Table 1-5). -/
inductive Reason where
  | binned | testOut | spare | returned | rejected | scrapped | lost | manual | withdrawn
  deriving DecidableEq, Repr

/-- The bin an order names becomes READY (R186). -/
def State.readyBin (s : State) (bin : Option Nat) : State :=
  match bin with
  | some k => s.setBin k { s.bin k with state := .ready }
  | none => s

/-- An order becomes COMPLETE: its bin becomes READY and ORDER_COMPLETE is set (R186). -/
def State.completeOrder (s : State) (slot : Nat) : State :=
  match s.order slot with
  | none => s
  | some o =>
    ((s.modifyOrder slot fun o => { o with state := .complete }).readyBin o.bin).raise .orderComplete

/-- The order's state re-examined after a BIN DONE (R35). -/
def State.reexamine (s : State) (slot : Nat) : State :=
  match s.order slot with
  | none => s
  | some o =>
    if o.takes then
      if o.allBinned then s.completeOrder slot
      else s.modifyOrder slot fun o => { o with state := .filling }
    else s

/-- A spoil charged to a line at the reprint limit (R37). -/
def State.chargeSpoil (s : State) (slot line : Nat) : State :=
  match s.order slot, s.line slot line with
  | some o, some l =>
    if o.state = .opened ∨ o.state = .filling ∨ o.state = .held then
      if l.spoils < s.limits.reprintLimit then
        s.modifyLine slot line fun l => { l with spoils := l.spoils + 1 }
      else if l.state = .active then
        (((s.modifyLine slot line fun l => { l with state := .failed }).modifyOrder slot
          fun o => { o with state := .held })).raise .orderHeld
      else s
    else s
  | _, _ => s

/-- The references of a line's design and SKU entries changed (R34, R42). -/
def State.countLine (f : Nat → Nat) (s : State) (l : Line) : State :=
  (s.countDesign l.design f).countSku l.sku f

/-- An order slot is freed: its cells return, its references fall, its number becomes available, and ORDER_FREED is set
(R42). -/
def State.freeSlot (s : State) (slot : Nat) : State :=
  match s.order slot with
  | none => s
  | some o =>
    let s := o.lines.foldl (State.countLine down1) (s.returnCells o.lines.length)
    { s with orders.slots := s.orders.slots.erase slot }.raise .orderFreed

/-- No garment is bound to the order: F = 0 on every line (R41). -/
def Order.idle (o : Order) : Bool :=
  o.lines.all fun l => l.inFlight = 0

/-- Whether the drain test passes: CANCELLING, F = 0 on every line, and no bin named (R41). -/
def Order.drained (o : Order) : Bool :=
  o.state == .cancelling && o.idle && o.bin == none

/-- The drain test of a slot: a drained order is freed (R41). -/
def State.drainTest (s : State) (slot : Nat) : State :=
  match s.order slot with
  | none => s
  | some o => if o.drained then s.freeSlot slot else s

/-- The consequences on the line of a retirement's reason, after F has fallen (Table 1-6). -/
def State.reasonOnLine (s : State) (reason : Reason) (b : Binding) : State :=
  match reason with
  | .binned => (s.modifyLine b.slot b.line fun l => { l with binned := l.binned + 1 }).reexamine b.slot
  | .rejected | .scrapped => (s.chargeSpoil b.slot b.line).offer (.line b.slot b.line)
  | .lost | .manual => s.offer (.line b.slot b.line)
  | .returned | .withdrawn | .testOut | .spare => s

/-- A retired record's binding is handed to the Order Table, which ends it as the reason states (R19, Table 1-6); the
drain test follows the fall of F (R41). An unbound record hands nothing on. -/
def State.endBinding (s : State) (reason : Reason) (b : Option Binding) : State :=
  match b with
  | none => s
  | some b => ((s.leaveLine (some b)).reasonOnLine reason b).drainTest b.slot

end Sys2Proof.Machine
end

