-- ==== Sys2Proof/Machine/Retire.lean ====
section
/-! DEFINITION. Machine/Retire.lean: the lane arbiter (R160 to R162) and retirement (R16 to R20). -/

namespace Sys2Proof.Machine

/-! ## Lanes -/

/-- A lane is free when it is unreserved and either was never entered or is spaced (R160). -/
def Lane.free (x : Lane) : Bool :=
  x.reservation == none && (x.lastEntry == none || x.spaced)

/-- The lowest-numbered free lane (R161). -/
def State.freeLane (s : State) : Option Nat :=
  laneNumbers.find? fun k => (s.lane k).free

/-- A lane reserved for a garment (R161). -/
def State.reserveLane (s : State) (k : Nat) (tag : Tag) : State :=
  s.modifyLane k fun x => { x with reservation := some tag }

/-- A lane's reservation released if it is the garment's. -/
def Lane.releaseFor (tag : Tag) (x : Lane) : Lane :=
  if x.reservation = some tag then { x with reservation := none } else x

/-- Every reservation of a garment released (R18, R162). -/
def State.releaseLanes (s : State) (tag : Tag) : State :=
  laneNumbers.foldl (fun s k => s.modifyLane k (Lane.releaseFor tag)) s

/-- A WAIT record turned into TO_BELT with a lane, in place (R90, R141). -/
def OpenVerdict.toBelt (r : OpenVerdict) (k : Nat) : OpenVerdict :=
  { r with verdict := .toBelt, cls := .work, param1 := k, lane := some k }

/-- The UNLOAD station's open WAIT is served with the lowest free lane: the lane is reserved, the record becomes
TO_BELT, the work timer starts and the VERDICT is sent unasked (R141, R162). A WAIT stands only while no lane is free, so
a free lane is one that the change has freed (log 18). -/
def State.serveWait (s : State) : State :=
  match s.verdictOf .unload, s.freeLane with
  | some r, some k =>
    if r.cls = .wait then
      ((s.reserveLane k r.tag).openRecord .unload (r.toBelt k)).send .unload
        (.verdict (platenByte r.platen) r.tag .toBelt k 0)
    else s
  | _, _ => s

/-! ## Retirement -/

/-- The cause a retirement's reason sets (R16). -/
def Reason.cause : Reason → Option Cause
  | .lost => some .garmentLost
  | .rejected | .scrapped => some .garmentRejected
  | _ => none

/-- The cause of a retirement set (R16). -/
def State.raiseReason (s : State) (reason : Reason) : State :=
  match reason.cause with
  | some c => s.raise c
  | none => s

/-- A garment leaves the place it is located at: its platen becomes EMPTY, or it leaves the exit queue, or it leaves the
overflow list and its hold cell returns to the pool (R18). -/
def State.leavePlace (s : State) (g : Garment) : State :=
  match g.location with
  | .ring k => s.emptyPlaten k
  | .belt _ _ => s
  | .exit => { s with cure.exitQueue := s.cure.exitQueue.filter fun t => decide (t ≠ g.tag) }
  | .overflow => { s with bins.overflow := s.bins.overflow.filter fun t => decide (t ≠ g.tag) }.returnCells 1

/-- A hold cell taken at a verdict returns to the pool (R20, R32). -/
def State.returnHold (s : State) (r : OpenVerdict) : State :=
  if r.holdTaken then s.returnCells 1 else s

/-- A station's open verdict that names a retired garment ends without its undo: the timer stops, a hold cell taken at it
returns, and the platen's hold is released (R20, R96). -/
def State.endNaming (tag : Tag) (s : State) (l : Link) : State :=
  match s.verdictOf l with
  | none => s
  | some r =>
    if r.tag = tag then ((s.endRecord l).returnHold r).releaseHold r.platen else s

/-- A station's expired-verdict memory is cleared when the garment it names is retired (R93). -/
def State.forgetExpired (tag : Tag) (s : State) (l : Link) : State :=
  s.modifyStation l fun x =>
    match x.expired with
    | some e => if e.tag = tag then { x with expired := none } else x
    | none => x

/-- A live record is removed, with the effects on its surroundings that apply whatever the reason (R17, R18, R20). -/
def State.removeRecord (reason : Reason) (s : State) (e : Nat × Garment) : State :=
  let g := e.2
  let s := ((s.eraseRecord e.1).countGarment g down1).leavePlace g
  let s := (s.releaseLanes g.tag).raiseReason reason
  let s := Link.all.foldl (State.endNaming g.tag) s
  Link.all.foldl (State.forgetExpired g.tag) s

/-- A retirement: the record is removed, a lane that becomes free is handed out, and the ended binding is handed to the
Order Table (R16 to R19, R162). A tag with no live record retires nothing (R3). -/
def State.retire (s : State) (reason : Reason) (tag : Tag) : State :=
  match s.findTag tag with
  | none => s
  | some e => ((s.removeRecord reason e).serveWait).endBinding reason e.2.binding

end Sys2Proof.Machine
end

