-- ==== Sys2Proof/Machine/Verdicts.lean ====
section
/-! DEFINITION. Machine/Verdicts.lean: the ends of open verdicts and their undo (R95), the index test and holding (R107 to
R109), halts (R117), mode changes (R88) and the state of links (R84 to R86). -/

namespace Sys2Proof.Machine

/-! ## Ends of verdicts -/

/-- Why a verdict is withdrawn (R90). A station restart counts as the loss of the link (R85). -/
inductive Withdrawal where
  | supersession | timeout | linkLoss | halt | modeFall
  deriving DecidableEq, Repr

/-- A garment's SPOILED flag set. -/
def State.spoil (s : State) (tag : Tag) : State :=
  s.modifyGarment tag fun g => { g with spoiled := true }

/-- The undo of a verdict by its kind (R95, Table 5-8). -/
def State.undoVerdict (s : State) (why : Withdrawal) (l : Link) (r : OpenVerdict) : State :=
  match r.verdict with
  | .load => s.retire .withdrawn r.tag
  | .spray | .print => s.spoil r.tag
  | .toBelt => s.retire .lost r.tag
  | .wait =>
    if why ≠ .supersession ∧ (s.station l).up then s.send l (.verdict (platenByte r.platen) r.tag .pass 0 0) else s
  | .recure => (s.releaseLanes r.tag).serveWait
  | .overflow => s.returnHold r
  | .press | .ret | .testOut | .reject | .spare | .bin | .pass => s

/-- When an open verdict ends, a garment it named that is bound to a CANCELLING order is handled by the stage rule, and
the drain test is made (R58, R41). -/
def State.afterVerdict (s : State) (tag : Tag) : State :=
  match s.findTag tag with
  | none => s
  | some (_, g) =>
    match g.binding with
    | none => s
    | some b =>
      match s.order b.slot with
      | none => s
      | some o => if o.state = .cancelling then (s.stageRule tag).drainTest b.slot else s

/-- The hold released at a withdrawal; that of a superseded verdict's platen waits for the fresh evaluation's answer
(R108; log 11). -/
def State.releaseWithdrawn (s : State) (why : Withdrawal) (platen : Option Nat) : State :=
  if why = .supersession then s else s.releaseHold platen

/-- An open verdict withdrawn: the record ends, the verdict is undone, and the rules that depend on it follow (R95). -/
def State.withdraw (why : Withdrawal) (s : State) (l : Link) : State :=
  match s.verdictOf l with
  | none => s
  | some r =>
    (((s.endRecord l).undoVerdict why l r).releaseWithdrawn why r.platen).afterVerdict r.tag

/-! ## Holding and the index test -/

/-- The index test of R109, and in STOPPING the test of R105 for becoming STOPPED (R108). -/
def State.ringTest (s : State) : State :=
  if s.ring.cycle = .idle ∧ s.anyHeld = false then
    match s.ring.state with
    | .stopping => { s with ring := { s.ring with state := .stopped } }
    | .running | .verifying =>
      { s with ring := { s.ring with cycle := .moving, moveTimer := some s.limits.moveLimit } }
    | .stopped | .halted => s
  else s

/-- The tests made at the end of a change that has released a hold or made new holds (R108, R109; log 22). `before` is
the state before the change. -/
def State.settleRing (s before : State) : State :=
  if s.heldPlatens = before.heldPlatens then s else s.ringTest

/-- The platen that faces a station becomes held (R107). -/
def State.holdFacing (s : State) (l : Link) : State :=
  match s.facing l with
  | some k => s.setHeld k true
  | none => s

/-- `holdFacing` for a station in CHECK or ACTIVE (R107). -/
def State.holdIfWorking (s : State) (l : Link) : State :=
  if (s.station l).working then s.holdFacing l else s

/-- A platen record with its hold released. -/
def Platen.unhold (p : Platen) : Platen := { p with held := false }

/-- Every hold released (R108). -/
def State.releaseAllHolds (s : State) : State :=
  { s with ring.platens := Table.mapStore {} s.ring.platens Platen.unhold }

/-! ## Halts -/

/-- The drive stopped: INDEX GO deasserted, the move timer stopped, the cycle IDLE (R117, R121). -/
def State.stopDrive (s : State) : State :=
  { s with ring.cycle := .idle, ring.moveTimer := none }

/-- Every garment located RING has its UNVERIFIED flag set (R117). -/
def State.markUnverified (s : State) : State :=
  s.mapRecords fun g => if g.onRing then { g with unverified := true } else g

/-- The verify lap's count and synchronisation cleared (R117, R121). -/
def State.clearLap (s : State) : State :=
  { s with ring.lapCount := 0, ring.lapSynced := false }

/-- A halt, as one change: drive, verdicts in order of link number, garments, ring (R117). A ring already HALTED ignores
the cause. -/
def State.halt (s : State) : State :=
  if s.ring.state = .halted then s
  else
    let s := Link.ring.foldl (State.withdraw .halt) s.stopDrive
    let s := s.markUnverified.releaseAllHolds.clearLap
    { s with ring.state := .halted }.raise .ringHalted

/-! ## Modes and links -/

/-- What follows a change of a station's mode, once its MODE has been sent (log 15): a WAIT of a station that has left
ACTIVE is withdrawn (R88), the hold of a ring station that has fallen to STANDBY or OFFLINE with no open verdict is
released (R108), and the ring halts if LOAD has left CHECK and ACTIVE while it is VERIFYING (R119). -/
def State.followMode (s : State) (l : Link) : State :=
  let s := if (s.station l).mode ≠ .active ∧ (s.verdictOf l).any (fun r => r.cls == .wait) then s.withdraw .modeFall l
    else s
  let s := if (s.station l).working = false ∧ (s.verdictOf l) = none then s.releaseHold (s.facing l) else s
  if l = .load ∧ s.ring.state = .verifying ∧ (s.station l).working = false then s.halt else s

/-- A station's mode written. -/
def State.setMode (s : State) (l : Link) (m : StationMode) : State :=
  s.modifyStation l fun x => { x with mode := m }

/-- A change of a station's mode: MODE is sent, STATION_MODE is set, and what depends on it follows (R88). No rule
orders MODE and the PASS of a WAIT that the change withdraws (R88, R141); that MODE goes first is the model's choice
(log 15). -/
def State.changeMode (s : State) (l : Link) (m : StationMode) : State :=
  (((s.setMode l m).send l (.mode m)).raise .stationMode).followMode l

/-- A link becomes DOWN: the open verdict is undone, the timers stop, the expired-verdict memory is cleared and the mode
becomes OFFLINE (R86). That what the undo sends goes before the MODE is the model's choice (log 15). -/
def State.linkDown (s : State) (l : Link) : State :=
  let s := s.modifyStation l fun x => { x with up := false, silenceTimer := none }
  let s := s.withdraw .linkLoss l
  let s := s.modifyStation l fun x => { x with workTimer := none, expired := none }
  s.changeMode l .offline

/-- The fixed period of the silence timer, in milliseconds (R86). -/
def silencePeriod : Nat := 2000

/-- A link becomes UP at a HELLO: the firmware revision is stored, the mode becomes STANDBY, the silence timer starts,
and STATION_MODE is set; the MODE sent is the reply (R84, R88). -/
def State.linkUp (s : State) (l : Link) (firmware : Nat) : State :=
  let s := s.modifyStation l fun x =>
    { x with up := true, firmware := some firmware, mode := .standby, silenceTimer := some silencePeriod, expired := none }
  (s.raise .stationMode).send l (.mode .standby)

/-- A station restart: the loss of the link followed at once by its return, in one change (R85). The link counts as lost
while its open verdict is undone (log 12). -/
def State.restart (s : State) (l : Link) (firmware : Nat) : State :=
  let s := s.modifyStation l fun x => { x with up := false }
  let s := s.withdraw .linkLoss l
  let s := (s.setMode l .standby).followMode l
  s.linkUp l firmware

/-- A work timer expires while a WORK record is open: the verdict is withdrawn and undone, the expired-verdict memory is
set, and a station in ACTIVE becomes CHECK (R94), with what the undo sends before the MODE (log 15). Nothing happens
where no WORK record is open: the timer is then stopped, or is the WAIT's (log 5). -/
def State.workTimeout (s : State) (l : Link) : State :=
  match s.verdictOf l with
  | none => s
  | some r =>
    if r.cls = .work then
      let t := s.withdraw .timeout l
      let t := t.modifyStation l fun x => { x with expired := some ⟨r.platen, r.tag⟩ }
      if (t.station l).mode = .active then t.changeMode l .check else t
    else s

end Sys2Proof.Machine
end

