-- ==== Sys2Proof/Machine/Cure.lean ====
section
/-! DEFINITION. Machine/Cure.lean: belt positions, placement, the advance, the spacing of lanes (Chapter 9). -/

namespace Sys2Proof.Machine

/-! ## Geometry -/

/-- The exit position X (R159). -/
def Cure.exitPosition (c : Cure) : Nat :=
  c.e0 + c.z1 + c.z2 + c.z3

/-- The part of the tunnel a position lies in (Table 9-1). -/
inductive Part where
  | apron | zone1 | zone2 | zone3 | past
  deriving DecidableEq, Repr

/-- Table 9-1. -/
def Cure.partAt (c : Cure) (p : Nat) : Part :=
  if p < c.e0 then .apron
  else if p < c.e0 + c.z1 then .zone1
  else if p < c.e0 + c.z1 + c.z2 then .zone2
  else if p < c.exitPosition then .zone3
  else .past

/-- A position or distance on the belt: (belt count − entry count) mod 2³² (R158). -/
def beltDistance (count entry : BeltCount) : Nat :=
  (count - entry).toNat

/-- The lane, entry count and position of a garment on the belt (R158). -/
def State.beltPlace (s : State) (g : Garment) : Option (Nat × BeltCount × Nat) :=
  match g.location with
  | .belt lane entry => some (lane, entry, beltDistance s.cure.beltCount entry)
  | _ => none

/-- The garments on the belt in order of position, greatest first, then of lane, lowest first (R169, R177). -/
def State.beltOrder (s : State) (keep : Garment → Bool) : List Garment :=
  sortBy (fun g => match s.beltPlace g with
    | some (lane, _, p) => (2 ^ 32 - p) * 4 + lane
    | none => 0) (s.liveGarments.filter fun g => g.onBelt && keep g)

/-! ## Placement -/

/-- The cure ceiling fixed at a placement (R164). -/
def ClassEntry.cureCeiling (c : ClassEntry) : Nat :=
  c.ceiling * 1000

/-- The cure target fixed at a placement (R164). -/
def ClassEntry.cureTarget (c : ClassEntry) (ink : Nat) : Nat :=
  min c.cureCeiling (c.targetBase * 1000 + ink * c.inkFactor)

/-- The dose that survives into a second pass: floor(dose × R / 16) (R165). -/
def retainedDose (dose retention : Nat) : Nat :=
  dose * retention / 16

/-- A lane after a placement (R160). -/
def Lane.entered (count : BeltCount) : Lane where
  lastEntry := some count
  spaced := false
  reservation := none

/-- A garment's fields after a placement (R163 to R165). -/
def Garment.placed (g : Garment) (c : ClassEntry) (lane : Nat) (count : BeltCount) (retention : Nat) (recure : Bool) :
    Garment :=
  { g with
    location := .belt lane count
    ceiling := c.cureCeiling
    target := c.cureTarget g.ink
    dose := if recure then retainedDose g.dose retention else g.dose
    result := .none
    recures := if recure then 1 else g.recures }

/-- A placement, in the lane the verdict reserved (R163). -/
def State.place (s : State) (tag : Tag) (lane : Nat) (recure : Bool) : State :=
  match s.findTag tag with
  | none => s
  | some (pos, g) =>
    let count := s.cure.beltCount
    ((s.leavePlace g).modifyLane lane fun _ => Lane.entered count).putRecord pos
      (g.placed (s.classEntry g.cls) lane count s.limits.retention recure)

/-! ## The advance -/

/-- An ADVANCE's fields, clamped (R166). -/
structure Advance where
  d : Nat
  t : Nat
  t1 : Nat
  t2 : Nat
  t3 : Nat
  deriving DecidableEq, Repr

/-- The clamp of t: 1 for 0, and 5000 above 5000 (R166). -/
def clampTime (t : Nat) : Nat :=
  max 1 (min 5000 t)

/-- The fields of an ADVANCE's payload, clamped (Table 5-2, R166). -/
def advanceOf (payload : List Byte) : Advance where
  d := field payload 0 1
  t := clampTime (field payload 1 2)
  t1 := min 400 (field payload 3 2)
  t2 := min 400 (field payload 5 2)
  t3 := min 400 (field payload 7 2)

/-- The weight of a zone at a temperature: the entry of its band, capped at band 15, and 0 below Tbase (R167). -/
def Cure.zoneWeight (c : Cure) (temperature : Nat) : Nat :=
  if temperature < c.tbase then 0 else c.weights.getD (min 15 ((temperature - c.tbase) / c.tstep)) 0

/-- The weight W of a position (R167). -/
def Cure.weightAt (c : Cure) (a : Advance) (p : Nat) : Nat :=
  match c.partAt p with
  | .apron | .past => 0
  | .zone1 => c.zoneWeight a.t1
  | .zone2 => c.zoneWeight a.t2
  | .zone3 => c.zoneWeight a.t3

/-- The largest cure dose (R1, R168). -/
def maxDose : Nat := 16777215

/-- The dose after an interval of `t` ms at weight `w` (R168). -/
def dosed (dose t w : Nat) : Nat :=
  min maxDose (dose + t * w / 16)

/-- The scorch check of R168: a dose above the ceiling makes a result of NONE become OVER. -/
def Garment.scorches (g : Garment) : Bool :=
  decide (g.ceiling < g.dose) && g.result == .none

/-- A garment on the belt dosed for an advance, before its scorch check; it is touched (R168). -/
def State.doseGarment (s : State) (a : Advance) (g : Garment) : Garment :=
  match s.beltPlace g with
  | none => g
  | some (_, _, p) => { g with dose := dosed g.dose a.t (s.cure.weightAt a p), age := 0 }

/-- A garment dosed and checked as one part of step 1 (R168). -/
def State.weighGarment (s : State) (a : Advance) (g : Garment) : Garment :=
  let g' := s.doseGarment a g
  if g.onBelt && g'.scorches then { g' with result := .over } else g'

/-- Step 1 of an ADVANCE: every garment on the belt is weighed and dosed; SCORCH is set if one becomes OVER (R166 to
R168). -/
def State.doseBelt (s : State) (a : Advance) : State :=
  (s.raiseIf (s.liveGarments.any fun g => g.onBelt && (s.doseGarment a g).scorches) .scorch).mapRecords
    (s.weighGarment a)

/-- Step 2: the belt count rises by d, modulo 2³² (R169). -/
def State.moveBelt (s : State) (d : Nat) : State :=
  { s with cure.beltCount := s.cure.beltCount + BitVec.ofNat 32 d }

/-- Whether a garment on the belt stands at or past the exit (R169). -/
def State.leavesBelt (s : State) (g : Garment) : Bool :=
  match s.beltPlace g with
  | none => false
  | some (_, _, p) => decide (s.cure.exitPosition ≤ p)

/-- The cure result at the exit (R169). -/
def Garment.exitResult (g : Garment) : CureResult :=
  if g.result = .over then .over else if g.dose < g.target then .under else .good

/-- A garment as it leaves the belt (R169). -/
def Garment.exited (g : Garment) : Garment :=
  { g with location := .exit, result := g.exitResult }

/-- Step 3: garments at or past the exit leave the belt and are appended to the exit queue (R169). -/
def State.exitBelt (s : State) : State :=
  let leaving := (s.beltOrder s.leavesBelt).map Garment.tag
  { s with cure.exitQueue := s.cure.exitQueue ++ leaving }.mapRecords fun g =>
    if s.leavesBelt g then g.exited else g

/-- The spaced field of a lane worked out against a distance: an unspaced lane with a last entry becomes spaced once the
belt has moved S units past it (R171). -/
def Cure.spaceLane (c : Cure) (x : Lane) : Lane :=
  match x.lastEntry with
  | none => x
  | some e => if x.spaced then x else { x with spaced := decide (c.spacing ≤ beltDistance c.beltCount e) }

/-- `f` applied to the four lanes. -/
def State.mapLanes (s : State) (f : Lane → Lane) : State :=
  laneNumbers.foldl (fun s k => s.modifyLane k f) s

/-- Step 4: the lanes' spaced fields are brought up to date, and a freed lane is handed out (R171, R162). -/
def State.spaceLanes (s : State) : State :=
  (s.mapLanes s.cure.spaceLane).serveWait

/-- An ADVANCE, in its four steps (R166). -/
def State.advance (s : State) (a : Advance) : State :=
  (((s.doseBelt a).moveBelt a.d).exitBelt).spaceLanes

/-! ## Configuration -/

/-- The spaced field of a lane worked out afresh against a new spacing (R175). -/
def Cure.respaceLane (c : Cure) (x : Lane) : Lane :=
  match x.lastEntry with
  | none => x
  | some e => { x with spaced := decide (c.spacing ≤ beltDistance c.beltCount e) }

/-- The effects of an accepted SET TUNNEL (R175). R174 says that no lane becomes spaced while the CURE link is DOWN; that
SET TUNNEL works the lanes out afresh and hands them out then too is the model's choice (log 40). -/
def State.configureTunnel (s : State) (e0 z1 z2 z3 spacing : Nat) : State :=
  let s := { s with cure := { s.cure with e0 := e0, z1 := z1, z2 := z2, z3 := z3, spacing := spacing } }
  (s.mapLanes s.cure.respaceLane).serveWait

end Sys2Proof.Machine
end

