-- ==== Sys2Proof/Machine/Answers.lean ====
section
/-! DEFINITION. Machine/Answers.lean: the answers a station receives to an ARRIVE or an EMPTY: PASS, a refusal, a verdict
with its open verdict record (R83, R90). -/

namespace Sys2Proof.Machine

/-- The tag that an answer carries: that of the ARRIVE, and 0 for an EMPTY (R83). -/
def answerTag (r : Report) : Tag :=
  r.tag.getD 0#48

/-- VERDICT PASS in reply to a report (R83). -/
def State.answerPass (s : State) (l : Link) (r : Report) : State :=
  s.replyVerdict l r.platen (answerTag r) .pass 0 0

/-- A REFUSE in reply to a report: an ARRIVE's platen and tag are repeated; an EMPTY carries no tag, so FFh and 0 stand
for both (R83; log 14). -/
def State.answerRefuse (s : State) (l : Link) (r : Report) (code : RefusalCode) : State :=
  match r.tag with
  | some t => s.replyRefuse l code kindArrive (platenByte r.platen) t
  | none => s.replyRefuse l code kindEmpty 0xFF#8 0#48

/-- The record's verdict as it now stands, sent in reply: at the issue of the verdict, and at a restatement (R91). -/
def State.restate (s : State) (l : Link) (v : OpenVerdict) : State :=
  s.replyVerdict l v.platen v.tag v.verdict v.param1 v.param2

/-- A verdict other than PASS given: its record is made and the VERDICT is sent (R90). -/
def State.give (s : State) (l : Link) (v : OpenVerdict) : State :=
  (s.openRecord l v).restate l v

end Sys2Proof.Machine
end

