-- ==== Sys2Proof/Machine/Matching.lean ====
section
/-! DEFINITION. Machine/Matching.lean: the MATCH decision list, bins and their handover (Chapter 10). -/

namespace Sys2Proof.Machine

/-- A FREE bin assigned to an order: it becomes FILLING with the order, and the order names it (R183, R190). -/
def State.assignBin (s : State) (bin slot : Nat) : State :=
  (s.setBin bin { state := .filling, order := some slot }).modifyOrder slot fun o => { o with bin := some bin }

/-- A VERDICT BIN (R182, tests 7 and 8). -/
def State.giveBin (s : State) (tag : Tag) (bin : Nat) : State :=
  s.give .matching { platen := none, tag := tag, verdict := .bin, param1 := bin }

/-- Tests 9 to 11 of Table 10-3 (R184). -/
def State.matchOverflow (s : State) (r : Report) (g : Garment) : State :=
  if g.location = .overflow then s.give .matching { platen := none, tag := g.tag, verdict := .overflow }
  else if 0 < s.orders.freeCells then
    (s.takeCells 1).give .matching { platen := none, tag := g.tag, verdict := .overflow, holdTaken := true }
  else s.answerRefuse .matching r .noRoom

/-- Tests 7 to 11 of Table 10-3, for a garment bound to the order in a slot (R182 to R184). -/
def State.matchBound (s : State) (r : Report) (g : Garment) (slot : Nat) : State :=
  match (s.order slot).bind Order.bin with
  | some k => s.giveBin g.tag k
  | none =>
    match s.freeBin with
    | some k => (s.assignBin k slot).giveBin g.tag k
    | none => s.matchOverflow r g

/-- Test 5 of Table 10-3: a re-cure asks for a lane (R161). -/
def State.matchRecure (s : State) (r : Report) (tag : Tag) : State :=
  match s.freeLane with
  | some n =>
    (s.reserveLane n tag).give .matching { platen := none, tag := tag, verdict := .recure, param1 := n, lane := some n }
  | none => s.answerRefuse .matching r .recureLater

/-- Test 4 of Table 10-3. -/
def Garment.rejected (g : Garment) (defect : Bool) : Bool :=
  defect || g.spoiled || g.result == .over || (g.result == .under && g.recures == 1)

/-- Tests 3 to 11 of Table 10-3, for a garment located EXIT or OVERFLOW (R182). -/
def State.matchGarment (s : State) (r : Report) (g : Garment) : State :=
  if g.kind = .test then s.give .matching { platen := none, tag := g.tag, verdict := .testOut }
  else if g.rejected r.defect then s.give .matching { platen := none, tag := g.tag, verdict := .reject }
  else if g.result = .under then s.matchRecure r g.tag
  else
    match g.binding with
    | none => s.give .matching { platen := none, tag := g.tag, verdict := .spare }
    | some b => s.matchBound r g b.slot

/-- The MATCH decision list (R182, Table 10-3). -/
def State.matchList (s : State) (r : Report) : State :=
  match s.findTag (answerTag r) with
  | none => s.answerRefuse .matching r .unknownTag
  | some (_, g) =>
    match g.location with
    | .exit | .overflow => s.matchGarment r g
    | .ring _ | .belt _ _ => s.answerRefuse .matching r .notHere

/-! ## Clearing bins -/

/-- Whether a garment on the overflow list is bound to an order that names no bin and is OPEN, FILLING or HELD, and if so
to which (R190; log 17). -/
def State.wantsBin (s : State) (tag : Tag) : Option Nat :=
  match s.findTag tag with
  | none => none
  | some (_, g) =>
    match g.binding with
    | none => none
    | some b =>
      match s.order b.slot with
      | none => none
      | some o => if o.bin = none ∧ (o.takes ∨ o.state = .held) then some b.slot else none

/-- The order that a handover would take now (R190, R192). -/
def State.handoverOrder (s : State) : Option Nat :=
  s.bins.overflow.findSome? s.wantsBin

/-- The handover of a freed bin (R190). -/
def State.handover (s : State) (bin : Nat) : State :=
  match s.handoverOrder with
  | none => s
  | some slot => (s.assignBin bin slot).raise .binAssigned

/-- A bin becomes FREE, and its order names no bin (R189). -/
def State.emptyBin (s : State) (bin slot : Nat) : State :=
  (s.setBin bin {}).modifyOrder slot fun o => { o with bin := none }

/-- Whether MATCH's open verdict is a BIN verdict that names a bin (R189, R192). -/
def State.binNamed (s : State) (bin : Nat) : Bool :=
  match s.verdictOf .matching with
  | some v => v.verdict == .bin && v.param1 == bin
  | none => false

/-- BIN CLEARED for a bin in range: the state after it, or none where it is refused BAD_STATE (R189). -/
def State.clearBin (s : State) (bin : Nat) : Option State :=
  match s.bin bin with
  | ⟨.ready, some slot⟩ => some (((s.emptyBin bin slot).freeSlot slot).handover bin)
  | ⟨.void, some slot⟩ =>
    if s.binNamed bin then none else some (((s.emptyBin bin slot).drainTest slot).handover bin)
  | _ => none

/-- BIN CLEARED (R189). -/
def State.binCleared (s : State) (bin : Nat) : State :=
  if 47 < bin then s.replyRefuse .matching .badRequest kindBinCleared 0xFF#8 0#48
  else
    match s.clearBin bin with
    | some t => t.replyAck .matching kindBinCleared
    | none => s.replyRefuse .matching .badState kindBinCleared 0xFF#8 0#48

/-! ## The overflow list -/

/-- An OVERFLOW DONE: a garment not yet located OVERFLOW leaves the exit queue and is appended to the list (R181,
R188). -/
def State.placeOverflow (s : State) (tag : Tag) : State :=
  match s.findTag tag with
  | none => s
  | some (pos, g) =>
    if g.location = .overflow then s
    else
      let s := (s.leavePlace g).putRecord pos { g with location := .overflow }
      { s with bins.overflow := s.bins.overflow ++ [tag] }

end Sys2Proof.Machine
end

