-- ==== Sys2Proof/Machine/RingStation.lean ====
section
/-! DEFINITION. Machine/RingStation.lean: the decision lists of the six ring stations (Chapter 7), and the checks a
report passes before them, with the verify lap (R112 to R119). -/

namespace Sys2Proof.Machine

/-! ## Routes -/

/-- Pretreat is needed by a class (R122). -/
def ClassEntry.needsPretreat (c : ClassEntry) : Bool :=
  decide (0 < c.rate)

/-- Press is needed by a class (R122). -/
def ClassEntry.needsPress (c : ClassEntry) : Bool :=
  decide (0 < c.pressBase)

/-- Underbase: the class is dark and the design permits it (R122). -/
def State.underbase (s : State) (g : Garment) : Bool :=
  (s.classEntry g.cls).dark && (s.designEntry g.design).underbase

/-- Print-ready: TREATED or later where pretreat is needed, and PRESSED where press is needed (R123). -/
def State.printReady (s : State) (g : Garment) : Bool :=
  let c := s.classEntry g.cls
  (!c.needsPretreat || g.stage != .blank) && (!c.needsPress || g.stage == .pressed)

/-- Whether a station is ACTIVE. -/
def State.isActive (s : State) (l : Link) : Bool :=
  (s.station l).mode == .active

/-- The unprinted load of a bridge (R127). -/
def State.bridgeLoad (s : State) (side : Bridge) : Nat :=
  (s.liveGarments.filter fun g => g.bridge == side && g.stage != .printed).length

/-- The bridge rule (R127); `present` stands where neither bridge is ACTIVE. -/
def State.bridgeRule (s : State) (present : Bridge) : Bridge :=
  if s.isActive .printA then
    if s.isActive .printB ∧ s.bridgeLoad .b < s.bridgeLoad .a then .b else .a
  else if s.isActive .printB then .b else present

/-- The station of a bridge. -/
def Bridge.link : Bridge → Link
  | .a => .printA
  | .b => .printB

/-! ## LOAD -/

/-- A tag agrees with a pattern's value in every bit position where the mask is 0 (R8). -/
def Pattern.matchesTag (p : Pattern) (tag : Tag) : Bool :=
  (tag ^^^ p.value) &&& ~~~p.mask == 0#48

/-- The first valid entry of the tag pattern table that matches, from entry 0 upward (R8). -/
def State.patternFor (s : State) (tag : Tag) : Option Pattern :=
  (s.garments.patterns.find? fun e => e.2.valid && e.2.matchesTag tag).map Prod.snd

/-- Whether a route has a station it needs that is not ACTIVE (R126). -/
def State.noRoute (s : State) (c : ClassEntry) : Bool :=
  (c.needsPretreat && !s.isActive .pretreat) || (c.needsPress && !s.isActive .press) ||
    !(s.isActive .printA || s.isActive .printB)

/-- The largest sequence number: both counters stay there (R6, R29). -/
def maxSequence : Nat := 4294967295

/-- A sequence counter after one more number has been taken (R6, R29). -/
def nextSequence (n : Nat) : Nat :=
  min maxSequence (n + 1)

/-- The fields of a record at learning (Table 1-4). -/
def State.newGarment (s : State) (k : Nat) (tag : Tag) (kind : Kind) (sku cls design : Nat) (b : Option Binding) :
    Garment where
  tag := tag
  kind := kind
  loadSeq := s.garments.loadSeq
  sku := sku
  cls := cls
  binding := b
  design := design
  bridge := s.bridgeRule .a
  stage := .blank
  location := .ring k
  full := s.fullPulses design cls
  delivered := 0
  placing := true
  wet := false
  spoiled := false
  unverified := false
  laps := 0
  ink := 0
  dose := 0
  target := 0
  ceiling := 0
  result := .none
  recures := 0
  age := 0

/-- F raised on the line a new record is bound to (R9, R30). -/
def State.enterLine (s : State) (b : Option Binding) : State :=
  match b with
  | some b => s.modifyLine b.slot b.line Line.raiseF
  | none => s

/-- The load sequence counter after one more learning (R6). -/
def State.countLoad (s : State) : State :=
  { s with garments.loadSeq := nextSequence s.garments.loadSeq }

/-- A record learned at a free position: its counts and its line's F rise, the load sequence counter rises, and its
platen becomes OCCUPIED (R6, R9, R101). -/
def State.learn (s : State) (pos k : Nat) (g : Garment) : State :=
  ((((s.putRecord pos g).countGarment g up1).enterLine g.binding).countLoad).modifyPlaten k fun p =>
    { p with state := .occupied, tag := some g.tag }

/-- A LOAD verdict for a record just learned (R128). -/
def State.giveLoad (s : State) (pos k : Nat) (g : Garment) : State :=
  (s.learn pos k g).give .load { platen := some k, tag := g.tag, verdict := .load, param1 := g.design }

/-- Tests 7 to 9 of Table 7-2, for a TEST arrival (R128). -/
def State.loadTest (s : State) (r : Report) (k : Nat) (tag : Tag) (sku cls design : Nat) : State :=
  match s.freeWay tag with
  | none => s.answerRefuse .load r .tableFull
  | some pos => s.giveLoad pos k (s.newGarment k tag .test sku cls design none)

/-- Tests 7 to 9 of Table 7-2, for an ORDER arrival: the choice is made and the record is learned bound to the line it
finds (R55, R128). -/
def State.loadOrder (s : State) (r : Report) (k : Nat) (tag : Tag) (sku cls : Nat) : State :=
  match s.freeWay tag with
  | none => s.answerRefuse .load r .tableFull
  | some pos =>
    match s.sched.choose (s.candidates .all sku none) with
    | none => s.answerRefuse .load r .noDemand
    | some (c, sched) =>
      let design := ((s.line c.slot c.line).map Line.design).getD 0
      { s with sched := sched }.giveLoad pos k
        (s.newGarment k tag .order sku cls design (some ⟨c.slot, c.line⟩))

/-- Tests 3 to 9 of Table 7-2, for an arrival that carries a SKU (R125). -/
def State.loadArrival (s : State) (r : Report) (k : Nat) (tag : Tag) (sku : Nat) : State :=
  let pattern := s.patternFor tag
  if pattern.any (fun p => p.action == .block) then s.answerRefuse .load r .blockedTag
  else if (s.findTag tag).isSome then s.answerRefuse .load r .duplicateTag
  else
    match s.refs.skus.find sku with
    | none => s.answerRefuse .load r .classInvalid
    | some e =>
      match s.refs.classes.find e.cls with
      | none => s.answerRefuse .load r .classInvalid
      | some c =>
        if s.noRoute c then s.answerRefuse .load r .noRoute
        else
          match pattern with
          | some p => s.loadTest r k tag sku e.cls p.design
          | none => s.loadOrder r k tag sku e.cls

/-- The LOAD decision list, after the tests of R124: R129 for an OCCUPIED platen, and Table 7-2 for an EMPTY or OUT one
(R125). -/
def State.loadList (s : State) (r : Report) (k : Nat) (tag : Tag) : State :=
  match (s.platen k).state with
  | .occupied | .out => s.answerPass .load r
  | .empty =>
    match r.sku with
    | none => s.answerRefuse .load r .badRequest
    | some sku => s.loadArrival r k tag sku

/-! ## PRETREAT, PRESS, PRINT -/

/-- The PRETREAT decision list (R131). -/
def State.pretreatList (s : State) (r : Report) (k : Nat) (g : Garment) : State :=
  if (s.classEntry g.cls).needsPretreat ∧ g.stage = .blank ∧ 0 < g.owed then
    match s.requestGrant g.tag g.owed with
    | (some a, s) =>
      s.give .pretreat { platen := some k, tag := g.tag, verdict := .spray, param1 := g.owed, grant := some a }
    | (none, s) => s.answerPass .pretreat r
  else s.answerPass .pretreat r

/-- The press is wanted: press is needed, and the stage is TREATED, or BLANK with no pretreat needed (R133). -/
def ClassEntry.wantsPress (c : ClassEntry) (g : Garment) : Bool :=
  c.needsPress && (g.stage == .treated || (g.stage == .blank && !c.needsPretreat))

/-- The dwell of a press (R133). -/
def ClassEntry.dwell (c : ClassEntry) (g : Garment) : Nat :=
  c.pressBase + if g.wet then c.wetExtra else 0

/-- The PRESS decision list (R133). -/
def State.pressList (s : State) (r : Report) (k : Nat) (g : Garment) : State :=
  let c := s.classEntry g.cls
  if c.wantsPress g then
    s.give .press { platen := some k, tag := g.tag, verdict := .press, param1 := c.dwell g }
  else s.answerPass .press r

/-- The decision list of a print bridge (R135). -/
def State.printList (s : State) (side : Bridge) (r : Report) (k : Nat) (g : Garment) : State :=
  if g.bridge = side ∧ g.stage ≠ .printed ∧ s.printReady g then
    s.give side.link
      { platen := some k, tag := g.tag, verdict := .print, param1 := g.design,
        param2 := if s.underbase g then 1 else 0 }
  else s.answerPass side.link r

/-! ## UNLOAD -/

/-- A PRINTED garment at UNLOAD asks for a lane: TO_BELT with the lowest free lane, or WAIT (R140). -/
def State.unloadPrinted (s : State) (k : Nat) (tag : Tag) : State :=
  match s.freeLane with
  | some n =>
    (s.reserveLane n tag).give .unload
      { platen := some k, tag := tag, verdict := .toBelt, param1 := n, lane := some n }
  | none => s.give .unload { platen := some k, tag := tag, verdict := .wait, cls := .wait }

/-- A RETURN verdict (R137). -/
def State.unloadReturn (s : State) (k : Nat) (tag : Tag) : State :=
  s.give .unload { platen := some k, tag := tag, verdict := .ret }

/-- The garment's bridge after an unprinted pass of UNLOAD: the bridge rule applies if its bridge is not ACTIVE
(R138). -/
def State.rebridge (s : State) (g : Garment) : Bridge :=
  if s.isActive g.bridge.link then g.bridge else s.bridgeRule g.bridge

/-- Test 4 of Table 7-3: an unprinted garment against the lap limit (R138). -/
def State.unloadUnprinted (s : State) (r : Report) (k : Nat) (g : Garment) : State :=
  if s.limits.lapLimit ≤ g.laps then s.unloadReturn k g.tag
  else
    (s.modifyGarment g.tag fun x => { x with laps := x.laps + 1, bridge := s.rebridge x }).answerPass .unload r

/-- The UNLOAD decision list (R137). -/
def State.unloadList (s : State) (r : Report) (k : Nat) (g : Garment) : State :=
  if g.spoiled then s.unloadReturn k g.tag
  else if g.kind = .order ∧ g.binding = none ∧ g.stage ≠ .printed then s.unloadReturn k g.tag
  else if g.stage = .printed then s.unloadPrinted k g.tag
  else s.unloadUnprinted r k g

/-! ## The common ground of the lists -/

/-- The list of a station for a garment (R125 to R140). -/
def State.garmentList (s : State) (l : Link) (r : Report) (k : Nat) (g : Garment) : State :=
  match l with
  | .load => s.loadList r k g.tag
  | .pretreat => s.pretreatList r k g
  | .press => s.pressList r k g
  | .printA => s.printList .a r k g
  | .printB => s.printList .b r k g
  | .unload => s.unloadList r k g
  | .cure | .matching => s.answerPass l r

/-- R124: an EMPTY is answered PASS; so is, but at UNLOAD, an ARRIVE for a garment with SPOILED or UNVERIFIED set; any
other ARRIVE goes to the station's list. The garment is the one that the ARRIVE's tag names (log 24). A tag of no live
record reaches a list at LOAD alone. -/
def State.decisionList (s : State) (l : Link) (r : Report) (k : Nat) : State :=
  match r.tag with
  | none => s.answerPass l r
  | some tag =>
    match s.findTag tag with
    | none => if l = .load then s.loadList r k tag else s.answerPass l r
    | some (_, g) =>
      if l ≠ .unload ∧ (g.spoiled ∨ g.unverified) then s.answerPass l r else s.garmentList l r k g

/-! ## Checks of a report -/

/-- R115: a consistent message goes to the decision list if the station is ACTIVE, the ring is RUNNING or STOPPING and
the facing platen is held; otherwise it is answered PASS. -/
def State.consistent (s : State) (l : Link) (r : Report) (k : Nat) : State :=
  if s.isActive l ∧ (s.ring.state = .running ∨ s.ring.state = .stopping) ∧ (s.platen k).held then s.decisionList l r k
  else s.answerPass l r

/-- The garment recorded on a platen is retired LOST (R114). -/
def State.loseRecorded (s : State) (k : Nat) : State :=
  match (s.platen k).tag with
  | some t => s.retire .lost t
  | none => s

/-- The tag consistency check (R114, Table 6-4). -/
def State.tagCheck (s : State) (l : Link) (r : Report) (k : Nat) : State :=
  let p := s.platen k
  match r.tag with
  | some t =>
    if p.state = .occupied then
      if p.tag = some t then
        (if l = .load then s.modifyGarment t fun g => { g with unverified := false } else s).consistent l r k
      else (s.loseRecorded k).answerRefuse l r .notHere
    else if l = .load then s.consistent l r k
    else s.answerRefuse l r .notHere
  | none =>
    if p.state = .occupied then (s.loseRecorded k).answerPass l r
    else s.consistent l r k

/-- The end of the verify lap: the ring becomes RUNNING, and the platens facing the other ring stations in CHECK or
ACTIVE become held (R119). -/
def State.endLap (s : State) : State :=
  [Link.pretreat, .press, .printA, .printB, .unload].foldl State.holdIfWorking
    { s with ring := { s.ring with state := .running } }

/-- One more answered reading of the verify lap; the lap is complete at 24 (R119). -/
def State.countLap (s : State) : State :=
  let n := s.ring.lapCount + 1
  let s := { s with ring := { s.ring with lapCount := n } }
  if 24 ≤ n then s.endLap else s

/-- The answer given to a report whose platen has been checked, and what the answer does: it releases the hold unless a
verdict stands open (R108), and it counts a reading of the verify lap (R119). -/
def State.answerChecked (s : State) (l : Link) (r : Report) (k : Nat) : State :=
  let reading := l == .load && s.ring.state == .verifying && (s.platen k).held
  let s := s.tagCheck l r k
  let s := if (s.verdictOf l).isNone then s.setHeld k false else s
  if reading then s.countLap else s

/-- A hold moved from one platen to another (R118). -/
def State.moveHold (s : State) (old k : Nat) : State :=
  if (s.platen old).held then (s.setHeld old false).setHeld k true else s

/-- The first LOAD report of the verify lap fixes the offset so that the reported platen faces LOAD, and moves the hold
to it (R118). -/
def State.resync (s : State) (k : Nat) : State :=
  let s := match s.facing .load with
    | some old => if old = k then s else s.moveHold old k
    | none => s
  { s with ring := { s.ring with offset := facingPlaten s.ring.positions.load k, lapSynced := true } }

/-- Steps 4 to 6 of R112: the platen number check (R113), then the rest. -/
def State.platenCheck (s : State) (l : Link) (r : Report) (k : Nat) : State :=
  if s.ring.state = .verifying ∧ s.ring.lapSynced = false then (s.resync k).answerChecked l r k
  else if s.facing l = some k then s.answerChecked l r k
  else s.halt.answerRefuse l r .notHere

/-- A report from a ring station in CHECK or ACTIVE, in the steps of R112. R82 lets none through without a platen. -/
def State.ringReport (s : State) (l : Link) (r : Report) : State :=
  if s.ring.cycle = .moving then s.answerRefuse l r .notHere
  else if s.ring.state = .halted then s.answerRefuse l r .badState
  else if s.ring.state = .verifying ∧ l ≠ .load then s.answerPass l r
  else
    match r.platen with
    | some k => s.platenCheck l r k
    | none => s.answerRefuse l r .badRequest

end Sys2Proof.Machine
end

