-- ==== Sys2Proof/Machine/Reports.lean ====
section
/-! DEFINITION. Machine/Reports.lean: ARRIVE and EMPTY against the open verdict (R89, R91), and the closing of verdicts by
DONE, FAIL and ABORT (R92). -/

namespace Sys2Proof.Machine

/-! ## ARRIVE and EMPTY -/

/-- A report handed on for evaluation, by the station's mode (R89). A ring station below CHECK and MATCH below ACTIVE
receive PASS without a check (log 23 for OFFLINE). -/
def State.evaluate (s : State) (l : Link) (r : Report) : State :=
  if l.isRing then
    if (s.station l).working then s.ringReport l r else s.answerPass l r
  else if s.isActive l then s.matchList r
  else s.answerPass l r

/-- Supersession: the record is withdrawn and the message is evaluated afresh, in one change (R91). If no verdict then
stands open, the hold of the withdrawn record's platen is released (R108; log 11). -/
def State.supersede (s : State) (l : Link) (r : Report) (v : OpenVerdict) : State :=
  let s := (s.withdraw .supersession l).evaluate l r
  if (s.verdictOf l).isNone then s.releaseHold v.platen else s

/-- An ARRIVE or EMPTY handled against the open verdict before anything else (R91). -/
def State.takeReport (s : State) (l : Link) (r : Report) : State :=
  match s.verdictOf l with
  | none => s.evaluate l r
  | some v =>
    if r.platen ≠ v.platen then s.answerRefuse l r .busy
    else if r.tag = some v.tag then s.restate l v
    else s.supersede l r v

/-! ## DONE, FAIL and ABORT -/

/-- The kinds of report a verdict accepts (R92). -/
def OpenVerdict.accepts (v : OpenVerdict) (kind : Byte) : Bool :=
  match v.verdict with
  | .wait | .pass => false
  | .load => kind == kindDone || kind == kindAbort
  | .spray | .press | .print => kind == kindDone || kind == kindFail
  | .toBelt | .ret | .testOut | .reject | .recure | .spare | .bin | .overflow => kind == kindDone

/-- A LOAD verdict closed: DONE clears PLACING, ABORT retires the record WITHDRAWN (R130). -/
def State.closeLoad (s : State) (v : OpenVerdict) (kind : Byte) : State :=
  if kind = kindAbort then s.retire .withdrawn v.tag
  else s.modifyGarment v.tag fun g => { g with placing := false }

/-- A SPRAY verdict closed: a delivery of `m` pulses by DONE, of 0 by FAIL (R132, R150). -/
def State.closeSpray (s : State) (v : OpenVerdict) (kind : Byte) (m : Nat) : State :=
  s.settleDelivery v (if kind = kindDone then m else 0)

/-- A PRESS verdict closed: DONE makes the stage PRESSED and clears WET; FAIL changes nothing (R134). -/
def State.closePress (s : State) (v : OpenVerdict) (kind : Byte) : State :=
  if kind = kindDone then s.modifyGarment v.tag fun g => { g with stage := .pressed, wet := false } else s

/-- The largest ink load (R1, R136). -/
def maxInk : Nat := 999

/-- A PRINT verdict closed: DONE makes the stage PRINTED and stores the ink load; FAIL with started yes sets SPOILED;
FAIL with started no changes nothing (R136). -/
def State.closePrint (s : State) (v : OpenVerdict) (kind : Byte) (result : Nat) (started : Bool) : State :=
  if kind = kindDone then s.modifyGarment v.tag fun g => { g with stage := .printed, ink := min maxInk result }
  else if started then s.spoil v.tag
  else s

/-- A RETURN verdict closed: the garment is retired SCRAPPED if it is SPOILED, and otherwise RETURNED (R139). -/
def State.closeReturn (s : State) (v : OpenVerdict) : State :=
  match s.findTag v.tag with
  | none => s
  | some (_, g) => s.retire (if g.spoiled then .scrapped else .returned) v.tag

/-- A placement in the lane that the record keeps (R163). -/
def State.closePlacement (s : State) (v : OpenVerdict) (recure : Bool) : State :=
  match v.lane with
  | some n => s.place v.tag n recure
  | none => s

/-- The owner's changes for a report that closes a verdict (R130, R132, R134, R136, R139, R140, R185, R187, R188).
`result` is a DONE's result field and `started` a FAIL's. -/
def State.closeVerdict (s : State) (v : OpenVerdict) (kind : Byte) (result : Nat) (started : Bool) : State :=
  match v.verdict with
  | .load => s.closeLoad v kind
  | .spray => s.closeSpray v kind result
  | .press => s.closePress v kind
  | .print => s.closePrint v kind result started
  | .toBelt => s.closePlacement v false
  | .recure => s.closePlacement v true
  | .ret => s.closeReturn v
  | .bin => s.retire .binned v.tag
  | .reject => s.retire .rejected v.tag
  | .spare => (s.retire .spare v.tag).raise .garmentSpare
  | .testOut => s.retire .testOut v.tag
  | .overflow => s.placeOverflow v.tag
  | .wait | .pass => s

/-- A matching report closes the record: the timer stops, the owner makes its changes, the hold is released, a garment of
a CANCELLING order is handled, and the reply is ACK (R92, R108, R58). -/
def State.closeBy (s : State) (l : Link) (v : OpenVerdict) (kind : Byte) (result : Nat) (started : Bool) : State :=
  ((((s.endRecord l).closeVerdict v kind result started).releaseHold v.platen).afterVerdict v.tag).replyAck l kind

/-- Whether a report names the platen and tag of the expired-verdict memory (R92). -/
def Station.expiredFor (x : Station) (platen : Option Nat) (tag : Tag) : Bool :=
  x.expired == some ⟨platen, tag⟩

/-- The refusal of a report that matches no open verdict (R92). -/
def State.mismatch (s : State) (l : Link) (platen : Option Nat) (tag : Tag) : RefusalCode :=
  if (s.station l).expiredFor platen tag then .tooLate
  else if (s.findTag tag).isNone then .unknownTag
  else .notOpen

/-- Whether a report matches a station's open verdict (R92). -/
def OpenVerdict.matchedBy (v : OpenVerdict) (platen : Option Nat) (tag : Tag) (kind : Byte) : Bool :=
  v.platen == platen && v.tag == tag && v.accepts kind

/-- A DONE, FAIL or ABORT (R92). -/
def State.takeClose (s : State) (l : Link) (kind : Byte) (payload : List Byte) : State :=
  let platen := platenOf payload
  let tag := tagField payload 1
  let refused := s.replyRefuse l (s.mismatch l platen tag) kind (platenByte platen) tag
  match s.verdictOf l with
  | none => refused
  | some v =>
    if v.matchedBy platen tag kind then
      s.closeBy l v kind (field payload 7 2) (field payload 7 1 = 1)
    else refused

end Sys2Proof.Machine
end

