-- ==== Sys2Proof/Machine/Links.lean ====
section
/-! DEFINITION. Machine/Links.lean: what a link does with a framed message (R82 to R86), and the meanings of the link
rows. -/

namespace Sys2Proof.Machine

/-! ## Common ground -/

/-- What every event ends with: the tests that follow a change of the holds (R108, R109), and CELLS_LOW (R33). `before`
is the state before the event. -/
def State.finish (s before : State) : State :=
  (s.settleRing before).checkCells before

/-- A frame that passed the framing checks restarts the silence timer of a link that is UP (R86). -/
def State.heard (s : State) (l : Link) : State :=
  s.modifyStation l fun x => { x with silenceTimer := some silencePeriod }

/-- A message refused by the Station Link Unit, repeating what R83 gives. -/
def State.refuseMessage (s : State) (l : Link) (code : RefusalCode) (kind : Byte) (payload : List Byte) : State :=
  let e := refuseEcho kind payload
  s.replyRefuse l code kind e.1 e.2

/-- The messages that touch the record of the tag they name: ARRIVE, DONE, FAIL and ABORT (R11). -/
def namesTag (kind : Byte) : Bool :=
  kind == kindArrive || kind == kindDone || kind == kindFail || kind == kindAbort

/-- The touch that a message carries (R11). -/
def State.touchBy (s : State) (kind : Byte) (payload : List Byte) : State :=
  if namesTag kind then s.touch (tagField payload 1) else s

/-- A message other than HELLO: refused BAD_STATE on a link that is DOWN (R84), refused BAD_REQUEST if it fails a check
of R82, and otherwise touched and handled. R100 says that no message is sent on a link before its first HELLO; that
R84's refusal is sent there all the same is the model's choice (log 35). -/
def State.receive (s : State) (l : Link) (kind : Byte) (payload : List Byte) (handle : State → State) : State :=
  if (s.station l).up then
    if messageOk l kind payload then (handle ((s.heard l).touchBy kind payload)).finish s
    else (s.heard l).refuseMessage l .badRequest kind payload
  else s.refuseMessage l .badState kind payload

/-- Whether a HELLO's payload has the right length and carries the link's kind (R84). -/
def helloFits (l : Link) (payload : List Byte) : Bool :=
  payload.length == 3 && field payload 0 1 == l.number

/-- HELLO, on a link that is DOWN (R84) or UP (R82, R85; log 13). -/
def State.receiveHello (s : State) (l : Link) (payload : List Byte) : State :=
  if (s.station l).up then
    if messageOk l kindHello payload then
      if helloFits l payload then (s.restart l (field payload 1 2)).finish s
      else ((s.linkDown l).refuseMessage l .wrongKind kindHello payload).finish s
    else (s.heard l).refuseMessage l .badRequest kindHello payload
  else if helloFits l payload then (s.linkUp l (field payload 1 2)).finish s
  else s.refuseMessage l .wrongKind kindHello payload

/-! ## Meanings -/

/-- HELLO (R84, R85). -/
def execHello (l : Link) (payload : List Byte) (s : State) : Host.Outcome State Fault Refusal :=
  .next (s.receiveHello l payload)

/-- STATUS is answered ACK and changes nothing else (R89). -/
def execStatus (l : Link) (payload : List Byte) (s : State) : Host.Outcome State Fault Refusal :=
  .next (s.receive l kindStatus payload fun s => s.replyAck l kindStatus)

/-- ARRIVE (R89, R91). -/
def execArrive (l : Link) (payload : List Byte) (s : State) : Host.Outcome State Fault Refusal :=
  .next (s.receive l kindArrive payload fun s => s.takeReport l (arriveReport payload))

/-- EMPTY (R89, R91). -/
def execEmpty (l : Link) (payload : List Byte) (s : State) : Host.Outcome State Fault Refusal :=
  .next (s.receive l kindEmpty payload fun s => s.takeReport l (emptyReport payload))

/-- DONE (R92). -/
def execDone (l : Link) (payload : List Byte) (s : State) : Host.Outcome State Fault Refusal :=
  .next (s.receive l kindDone payload fun s => s.takeClose l kindDone payload)

/-- FAIL (R92). -/
def execFail (l : Link) (payload : List Byte) (s : State) : Host.Outcome State Fault Refusal :=
  .next (s.receive l kindFail payload fun s => s.takeClose l kindFail payload)

/-- ABORT (R92). -/
def execAbort (l : Link) (payload : List Byte) (s : State) : Host.Outcome State Fault Refusal :=
  .next (s.receive l kindAbort payload fun s => s.takeClose l kindAbort payload)

/-- ADVANCE (R166). -/
def execAdvance (l : Link) (payload : List Byte) (s : State) : Host.Outcome State Fault Refusal :=
  .next (s.receive l kindAdvance payload fun s => (s.advance (advanceOf payload)).replyAck l kindAdvance)

/-- BIN CLEARED (R189). -/
def execBinCleared (l : Link) (payload : List Byte) (s : State) : Host.Outcome State Fault Refusal :=
  .next (s.receive l kindBinCleared payload fun s => s.binCleared (field payload 0 1))

/-- A frame that fails the framing checks is discarded: no reply, no touch, no restart of the silence timer, no cause
(R81). -/
def execLinkFrameDiscarded (_l : Link) (_frame : List Byte) (s : State) : Host.Outcome State Fault Refusal :=
  .next s

/-- A message of an unknown kind, of a wrong length or not allowed for the link: BAD_REQUEST on a link that is UP (R82),
and on one that is DOWN the reply of R84. -/
def execUnknownMessage (l : Link) (kind : Byte) (payload : List Byte) (s : State) :
    Host.Outcome State Fault Refusal :=
  .next (if (s.station l).up then (s.heard l).refuseMessage l .badRequest kind payload
    else s.refuseMessage l (if kind = kindHello then .wrongKind else .badState) kind payload)

/-- The expiry of a link's silence timer: the link becomes DOWN (R86). The timer runs only while the link is UP
(log 5). -/
def execSilenceExpiry (l : Link) (s : State) : Host.Outcome State Fault Refusal :=
  .next (if (s.station l).up then (s.linkDown l).finish s else s)

/-- The expiry of a station's work timer while a WORK record is open (R94). CURE has none (log 29). -/
def execWorkTimeout (l : Link) (s : State) : Host.Outcome State Fault Refusal :=
  .next ((s.workTimeout l).finish s)

/-- The unload wait limit expires: laps rise by one and stay at 7, the record ends as PASS, sent unasked, and the hold
is released (R141). -/
def State.endWait (s : State) (l : Link) : State :=
  match s.verdictOf l with
  | none => s
  | some v =>
    if v.cls = .wait then
      let s := (s.endRecord l).modifyGarment v.tag fun g => { g with laps := min 7 (g.laps + 1) }
      ((s.send l (.verdict (platenByte v.platen) v.tag .pass 0 0)).releaseHold v.platen).afterVerdict v.tag
    else s

/-- The expiry of the unload wait limit; nothing happens where no WAIT stands (R141; log 5). -/
def execUnloadWaitLimit (s : State) : Host.Outcome State Fault Refusal :=
  .next ((s.endWait .unload).finish s)

end Sys2Proof.Machine
end

