-- ==== Sys2Proof/Machine/Events.lean ====
section
/-! DEFINITION. Machine/Events.lean: the part's own timers, the drive and safety lines, the RESET pin, and LINE RESET. -/

namespace Sys2Proof.Machine

/-! ## The age timer (R12, R13) -/

/-- The three kinds of record that are exempt from aging (R12). -/
def State.ageExempt (s : State) (g : Garment) : Bool :=
  g.kind == .test || g.location == .overflow ||
    (g.onRing && (s.ring.state == .halted || s.ring.state == .verifying))

/-- The age after one expiry of a record that is not exempt (R12). -/
def Garment.older (g : Garment) : Garment :=
  { g with age := min 15 (g.age + 1) }

/-- Step 1 of R13: the ages rise. -/
def State.raiseAges (s : State) : State :=
  s.mapRecords fun g => if s.ageExempt g then g else g.older

/-- Whether the age limit retires a record, after the rise (R13). -/
def State.agedOut (s : State) (g : Garment) : Bool :=
  !s.ageExempt g && decide (s.limits.ageLimit ≤ g.age)

/-- One ended binding handed to the Order Table, in step 3 of R13. -/
def State.handBinding (s : State) (e : Nat × Garment) : State :=
  s.endBinding .lost e.2.binding

/-- Steps 2 and 3 of R13: every record that the limit retires is removed, in order of position, and then the ended
bindings are handed on in the same order; a lane freed in between goes to an open WAIT (R162). -/
def State.retireAged (s : State) : State :=
  let aged := s.garments.records.filter fun e => s.agedOut e.2
  let s := (aged.foldl (State.removeRecord .lost) s).serveWait
  aged.foldl State.handBinding s

/-- An age timer expiry (R12, R13); the next period runs with the age period in force (R15). -/
def State.ageExpiry (s : State) : State :=
  let s := s.raiseAges.retireAged
  { s with garments.ageTimer := s.limits.agePeriod }

/-! ## The drive (R110, R111) -/

/-- Every record located RING is touched (R11, R110). -/
def State.touchRing (s : State) : State :=
  s.mapRecords fun g => if g.onRing then { g with age := 0 } else g

/-- Step 5 of R110: holds by the ring state (R107); STOPPING makes none and becomes STOPPED. -/
def State.holdAfterIndex (s : State) : State :=
  match s.ring.state with
  | .running => Link.ring.foldl State.holdIfWorking s
  | .verifying => s.holdFacing .load
  | .stopping => { s with ring := { s.ring with state := .stopped } }
  | .stopped | .halted => s

/-- An index completed (R110). -/
def State.completeIndex (s : State) : State :=
  let s := { s.stopDrive with ring.offset := (s.ring.offset + 1) % 24 }
  s.touchRing.holdAfterIndex.ringTest

/-- INDEX DONE: it completes a MOVING index, and otherwise it touches every record located RING and halts the ring; a
ring already HALTED ignores it (R11, R110, R111). That the ignored event makes no touch either is read from R111 against
R11 (log 30). -/
def State.indexDone (s : State) : State :=
  if s.ring.cycle = .moving then s.completeIndex
  else if s.ring.state = .halted then s
  else s.touchRing.halt

/-- The expiry of the move timer, which comes only while the cycle is MOVING (R111; log 5). -/
def State.moveExpiry (s : State) : State :=
  if s.ring.cycle = .moving then s.halt else s

/-- The level of E-STOP written. -/
def State.setEStop (s : State) (level : Bool) : State :=
  { s with ring := { s.ring with eStop := level } }

/-- The assertion of E-STOP halts the ring (R116). An event that leaves the level as it is changes nothing (log 25). -/
def State.assertEStop (s : State) : State :=
  if s.ring.eStop then s else (s.setEStop true).halt

/-! ## RESET (R206) -/

/-- Every block at its reset values. The level of the E-STOP pin, the queue, and the model's records of outputs and free
values are not the part's registers and stay (log 8, log 9). E-STOP asserted as the reset ends is taken as an
assertion (R116). -/
def State.resetPart (s : State) : State :=
  let t : State := { State.reset with
    sent := s.sent, shifted := s.shifted, freeReads := s.freeReads, pending := s.pending }
  if s.ring.eStop then (t.setEStop true).halt else t

/-! ## LINE RESET (R205) -/

/-- The Garment Table's part: every record is removed with its references; F becomes 0 on every line; counter, cursor
and age timer start afresh (R26). -/
def State.clearGarments (s : State) : State :=
  let s := s.liveGarments.foldl (fun s g => s.countGarment g down1) s
  { s with garments := { s.garments with
      records := [], loadSeq := 0, cursor := .none, ageTimer := s.limits.agePeriod } }

/-- F of every line of an order at 0 (R26, R47). -/
def Order.clearF (o : Order) : Order :=
  { o with lines := o.lines.map fun l => { l with inFlight := 0 } }

/-- The cells that overflow holds take: one a garment on the overflow list, and one taken at an open OVERFLOW verdict
(R31, R181, R184). -/
def State.holdCells (s : State) : Nat :=
  s.bins.overflow.length +
    match s.verdictOf .matching with
    | some v => if v.holdTaken then 1 else 0
    | none => 0

/-- The Order Table's part before the drain tests: F is 0 everywhere, and every hold cell returns (R47). -/
def State.clearOrders (s : State) : State :=
  { s.returnCells s.holdCells with orders.slots := s.orders.slots.mapVal Order.clearF }

/-- The slots whose order is drained (R41, R47). -/
def State.drainedSlots (s : State) : List Nat :=
  (s.orders.slots.filter fun e => e.2.drained).map Prod.fst

/-- Every drained order freed (R47). -/
def State.freeDrained (s : State) : State :=
  s.drainedSlots.foldl State.freeSlot s

/-- The Station Link Unit's part on one link: verdict, work timer and expired-verdict memory go (R99). -/
def State.clearStation (s : State) (l : Link) : State :=
  s.modifyStation l fun x => { x with verdict := none, workTimer := none, expired := none }

/-- A LINE RESET NOTICE on a link that is UP (R99). -/
def State.noticeReset (s : State) (l : Link) : State :=
  if (s.station l).up then s.send l .lineResetNotice else s

/-- An ACTIVE station becomes CHECK (R99). -/
def State.lowerActive (s : State) (l : Link) : State :=
  if s.isActive l then s.changeMode l .check else s

/-- The Station Link Unit's part: records, then notices, then modes (R99; log 15). -/
def State.clearLinks (s : State) : State :=
  Link.all.foldl State.lowerActive (Link.all.foldl State.noticeReset (Link.all.foldl State.clearStation s))

/-- A platen after LINE RESET: OCCUPIED becomes EMPTY, OUT stays, no hold (R121). -/
def Platen.cleared (p : Platen) : Platen :=
  if p.state = .occupied then {} else { p with held := false }

/-- The Ring Controller's part (R121). -/
def State.clearRing (s : State) : State :=
  let s := s.stopDrive.clearLap
  { s with ring := { s.ring with
      platens := Table.mapStore {} s.ring.platens Platen.cleared
      state := if s.ring.eStop then .halted else .stopped } }

/-- The Cure Tracker's and the Bin Controller's parts: reservations, exit queue, overflow list (R179, R193). -/
def State.clearLists (s : State) : State :=
  let s := s.mapLanes fun x => { x with reservation := none }
  { s with cure.exitQueue := [], bins.overflow := [] }

/-- The Pretreat Meter's part (R157). -/
def State.refillMeter (s : State) : State :=
  { s with meter := s.meter.lineReset }

/-- LINE RESET before the drained orders are freed. -/
def State.clearLine (s : State) : State :=
  s.clearGarments.clearOrders.clearRing.clearLists.clearLinks.refillMeter

/-- LINE RESET as one change of the whole part (R205). -/
def State.lineReset (s : State) : State :=
  s.clearLine.freeDrained

/-! ## Meanings -/

/-- AGE TIMER EXPIRY (R12, R13). -/
def execAgeTimerExpiry (s : State) : Host.Outcome State Fault Refusal :=
  .next (s.ageExpiry.finish s)

/-- REFILL TIMER EXPIRY (R146). -/
def execRefillTimerExpiry (s : State) : Host.Outcome State Fault Refusal :=
  .next { s with meter := s.meter.refill }

/-- MOVE TIMER EXPIRY (R111). -/
def execMoveTimerExpiry (s : State) : Host.Outcome State Fault Refusal :=
  .next (s.moveExpiry.finish s)

/-- INDEX DONE (R110, R111). -/
def execIndexDone (s : State) : Host.Outcome State Fault Refusal :=
  .next (s.indexDone.finish s)

/-- INDEX FAULT halts the ring in any state other than HALTED (R111). -/
def execIndexFault (s : State) : Host.Outcome State Fault Refusal :=
  .next (s.halt.finish s)

/-- Assertion of E-STOP (R116). -/
def execEStopAsserted (s : State) : Host.Outcome State Fault Refusal :=
  .next (s.assertEStop.finish s)

/-- Deassertion of E-STOP changes no state of the part but the level it reads (R116). -/
def execEStopDeasserted (s : State) : Host.Outcome State Fault Refusal :=
  .next (s.setEStop false)

/-- Power-on or the RESET pin, to the moment at which the reset ends (R206; log 27). -/
def execReset (s : State) : Host.Outcome State Fault Refusal :=
  .next s.resetPart

end Sys2Proof.Machine
end

