-- ==== Sys2Proof/Machine/Encode.lean ====
section
/-! DEFINITION. Machine/Encode.lean: the bytes of responses (R196, R198, R199; log 16 where R199 leaves a choice), and of
the messages the part sends (R81, Tables 5-2 and 5-3). -/

namespace Sys2Proof.Machine

/-! ## Responses -/

/-- The status codes (Table 11-1), in order of code. -/
inductive Status where
  | ok | unknownCommand | badLength | badArgument | notFound | duplicate | full | inUse | badState | badTransition
  | noCells
  deriving DecidableEq, Repr

/-- The code of a status (Table 11-1). -/
def Status.code : Status → Nat
  | .ok => 0
  | .unknownCommand => 1
  | .badLength => 2
  | .badArgument => 3
  | .notFound => 4
  | .duplicate => 5
  | .full => 6
  | .inUse => 7
  | .badState => 8
  | .badTransition => 9
  | .noCells => 10

/-- A response: its status and its payload (R198). -/
structure Response where
  status : Status
  payload : List Byte
  deriving DecidableEq, Repr

/-- The bytes of a response: status, payload length in 2 bytes, payload (R196). -/
def Response.bytes (r : Response) : List Byte :=
  beBytes 1 r.status.code ++ beBytes 2 r.payload.length ++ r.payload

/-- An accepted command's response (R198). -/
def accepted (payload : List Byte) : Response := ⟨.ok, payload⟩

/-- A refused command's response has no payload (R198). -/
def refusedWith (status : Status) : Response := ⟨status, []⟩

/-- A refused command leaves the state as it is (R198 and the owning rules). -/
def State.refusing (s : State) (status : Status) : State × Response :=
  (s, refusedWith status)

/-! ## Fields -/

/-- Yes or no (R199). -/
def yesByte (b : Bool) : List Byte := beBytes 1 (if b then 1 else 0)

/-- A flag whose table lists set, clear: 00h set, 01h clear (R199; log 16). -/
def flagByte (b : Bool) : List Byte := beBytes 1 (if b then 0 else 1)

/-- An optional field of `width` bytes: a presence byte, then the bytes or as many zeros (R199). -/
def optBytes (width : Nat) : Option (List Byte) → List Byte
  | some bytes => beBytes 1 1 ++ bytes
  | none => beBytes 1 0 ++ List.replicate width 0#8

/-- An optional number. -/
def optNat (width : Nat) (n : Option Nat) : List Byte :=
  optBytes width (n.map (beBytes width))

/-- A tag (R199). -/
def tagBytes (t : Tag) : List Byte := beBytes 6 t.toNat

/-- An optional tag. -/
def optTag (t : Option Tag) : List Byte := optBytes 6 (t.map tagBytes)

/-- A list: a count byte, then each item (R199). -/
def listBytes (items : List (List Byte)) : List Byte :=
  beBytes 1 items.length ++ items.flatten

/-- Kind, in the order of Table 1-1. -/
def Kind.code : Kind → Nat
  | .order => 0
  | .test => 1

/-- Stage, in the order of Table 1-1. -/
def Stage.code : Stage → Nat
  | .blank => 0
  | .treated => 1
  | .pressed => 2
  | .printed => 3

/-- Bridge, in the order of Table 1-1. -/
def Bridge.code : Bridge → Nat
  | .a => 0
  | .b => 1

/-- Cure result, in the order of Table 1-1. -/
def CureResult.code : CureResult → Nat
  | .none => 0
  | .under => 1
  | .good => 2
  | .over => 3

/-- A location: kind byte, platen or lane byte, 4-byte entry count, unused bytes zero (R199). -/
def Location.bytes : Location → List Byte
  | .ring k => beBytes 1 0 ++ beBytes 1 k ++ beBytes 4 0
  | .belt lane entry => beBytes 1 1 ++ beBytes 1 lane ++ beBytes 4 entry.toNat
  | .exit => beBytes 1 2 ++ beBytes 1 0 ++ beBytes 4 0
  | .overflow => beBytes 1 3 ++ beBytes 1 0 ++ beBytes 4 0

/-- The fields of a garment record, in the order of Table 1-1 (R23). Table 1-1 has no owed pulses, which R155 says are
read with QUERY GARMENT; that none are returned beside full and delivered is the model's choice (log 33). -/
def Garment.bytes (g : Garment) : List Byte :=
  tagBytes g.tag ++ beBytes 1 g.kind.code ++ beBytes 4 g.loadSeq ++ beBytes 1 g.sku ++ beBytes 1 g.cls ++
    optBytes 2 (g.binding.map fun b => beBytes 1 b.slot ++ beBytes 1 b.line) ++ beBytes 1 g.design ++
    beBytes 1 g.bridge.code ++ beBytes 1 g.stage.code ++ g.location.bytes ++ beBytes 2 g.full ++
    beBytes 2 g.delivered ++ flagByte g.placing ++ flagByte g.wet ++ flagByte g.spoiled ++ flagByte g.unverified ++
    beBytes 1 g.laps ++ beBytes 2 g.ink ++ beBytes 3 g.dose ++ beBytes 3 g.target ++ beBytes 3 g.ceiling ++
    beBytes 1 g.result.code ++ beBytes 1 g.recures ++ beBytes 1 g.age

/-- A record with its position, bucket then way (R23, R21). R23 names the position first; R21 and R199 do not say which
comes first in WALK FIRST and WALK NEXT, and that the position does is the model's choice (log 39). -/
def recordBytes (e : Nat × Garment) : List Byte :=
  beBytes 1 (e.1 / 4) ++ beBytes 1 (e.1 % 4) ++ e.2.bytes

/-- The length of `recordBytes`. -/
def recordWidth : Nat := 50

/-- Order state, in the order of Table 2-1. -/
def OrderState.code : OrderState → Nat
  | .opened => 0
  | .filling => 1
  | .held => 2
  | .cancelling => 3
  | .complete => 4

/-- Line state, in the order of Table 2-2. -/
def LineState.code : LineState → Nat
  | .active => 0
  | .failed => 1

/-- A line with its index, the fields of Table 2-2 and its demand (R43). -/
def Line.bytes (index : Nat) (l : Line) : List Byte :=
  beBytes 1 index ++ beBytes 1 l.design ++ beBytes 1 l.sku ++ beBytes 1 l.quantity ++ beBytes 1 l.inFlight ++
    beBytes 1 l.binned ++ beBytes 1 l.spoils ++ beBytes 1 l.state.code ++ beBytes 1 l.demand

/-- The lines of an order from index `i` on. -/
def linesFrom (i : Nat) : List Line → List (List Byte)
  | [] => []
  | l :: ls => l.bytes i :: linesFrom (i + 1) ls

/-- The contents of a QUERY ORDER response (Table 2-5). -/
def Order.bytes (o : Order) (slot freeCells : Nat) : List Byte :=
  beBytes 1 slot ++ beBytes 4 o.number ++ beBytes 1 o.level ++ beBytes 4 o.admission ++ beBytes 1 o.state.code ++
    optNat 1 o.bin ++ beBytes 2 freeCells ++ listBytes (linesFrom 0 o.lines)

/-- Station mode (Table 5-3). -/
def StationMode.code : StationMode → Nat
  | .offline => 0
  | .standby => 1
  | .check => 2
  | .active => 3

/-- Verdict (Table 5-3). -/
def Verdict.code : Verdict → Nat
  | .pass => 0
  | .load => 1
  | .spray => 2
  | .press => 3
  | .print => 4
  | .toBelt => 5
  | .wait => 6
  | .ret => 7
  | .testOut => 8
  | .reject => 9
  | .recure => 10
  | .spare => 11
  | .bin => 12
  | .overflow => 13

/-- Refusal code (Table 5-3). -/
def RefusalCode.code : RefusalCode → Nat
  | .unknownTag => 1
  | .duplicateTag => 2
  | .blockedTag => 3
  | .classInvalid => 4
  | .noRoute => 5
  | .noDemand => 6
  | .tableFull => 7
  | .notHere => 8
  | .busy => 9
  | .notOpen => 10
  | .tooLate => 11
  | .recureLater => 12
  | .noRoom => 13
  | .badState => 14
  | .badRequest => 15
  | .wrongKind => 16

/-- Class of an open verdict, in the order of Table 5-7. -/
def VerdictClass.code : VerdictClass → Nat
  | .work => 0
  | .wait => 1

/-- Colour and bucket of a grant, each in the order the rules name them (Table 5-7, R147). -/
def Grant.bytes (g : Grant) : List Byte :=
  beBytes 1 (match g.colour with | .green => 0 | .yellow => 1) ++
    beBytes 1 (match g.bucket with | .committed => 0 | .excess => 1)

/-- The open verdict record with the fields of Table 5-7 and the time left in milliseconds (R98). -/
def OpenVerdict.bytes (v : OpenVerdict) (timeLeft : Nat) : List Byte :=
  optNat 1 v.platen ++ tagBytes v.tag ++ beBytes 1 v.verdict.code ++ beBytes 2 v.param1 ++ beBytes 1 v.param2 ++
    beBytes 1 v.cls.code ++ optBytes 2 (v.grant.map Grant.bytes) ++ optNat 1 v.lane ++
    optBytes 1 (if v.verdict = .overflow then some (yesByte v.holdTaken) else none) ++ beBytes 3 timeLeft

/-- The length of `OpenVerdict.bytes`. -/
def verdictWidth : Nat := 23

/-- Refusal attention mode (R97). -/
def Attention.code : Attention → Nat
  | .all => 0
  | .first => 1

/-- The expired-verdict memory (R98). -/
def Expired.bytes (e : Expired) : List Byte :=
  optNat 1 e.platen ++ tagBytes e.tag

/-- The contents of a QUERY STATION response, with the time left on the work timer (R98). R98 lists the work timeout
without saying what CURE, which has none, returns: that every station's is an optional field, absent for CURE, is the
model's choice (log 37). -/
def Station.bytes (x : Station) (l : Link) (timeLeft : Nat) (workTimeout : Option Nat) : List Byte :=
  beBytes 1 l.number ++ beBytes 1 (if x.up then 1 else 0) ++ beBytes 1 x.mode.code ++ beBytes 1 x.attention.code ++
    optNat 2 x.firmware ++ optBytes verdictWidth (x.verdict.map fun v => v.bytes timeLeft) ++
    optBytes 8 (x.expired.map Expired.bytes) ++ optNat 2 workTimeout

/-- Platen state, in the order of Table 6-1. -/
def PlatenState.code : PlatenState → Nat
  | .empty => 0
  | .occupied => 1
  | .out => 2

/-- A platen record (Table 6-1). -/
def Platen.bytes (p : Platen) : List Byte :=
  beBytes 1 p.state.code ++ optTag p.tag ++ yesByte p.held

/-- Ring state: STOPPED, STOPPING, RUNNING, HALTED, VERIFYING (log 16). -/
def RingState.code : RingState → Nat
  | .stopped => 0
  | .stopping => 1
  | .running => 2
  | .halted => 3
  | .verifying => 4

/-- Index cycle state: IDLE, MOVING (log 16). -/
def Cycle.code : Cycle → Nat
  | .idle => 0
  | .moving => 1

/-- A station position with the platen that faces it (R120). That the platen follows its own position, and not all six
platens all six positions, is the model's choice (log 38). -/
def positionBytes (offset position : Nat) : List Byte :=
  beBytes 1 position ++ beBytes 1 (facingPlaten position offset)

/-- The six positions, in order of link number. -/
def Positions.list (p : Positions) : List Nat :=
  [p.load, p.pretreat, p.press, p.printA, p.printB, p.unload]

/-- The contents of a QUERY RING response, with the time left on the move timer (R120). The model's own choices are the
byte of E-STOP's level, 01h asserted and 00h deasserted (log 36), that the six positions and the 24 platens carry no
count byte (log 32), and that each position is followed by the platen that faces it (log 38). -/
def State.ringBytes (s : State) (timeLeft : Option Nat) : List Byte :=
  let x := s.ring
  beBytes 1 x.state.code ++ beBytes 1 x.cycle.code ++ beBytes 1 x.offset ++
    (x.positions.list.map (positionBytes x.offset)).flatten ++ yesByte x.eStop ++ beBytes 1 s.limits.moveLimit ++
    optNat 2 timeLeft ++ beBytes 1 x.lapCount ++ yesByte x.lapSynced ++
    ((List.range 24).map fun k => (s.platen k).bytes).flatten

/-- The contents of a QUERY METER response, with the time left on the refill timer (R155). -/
def Meter.bytes (m : Meter) (timeLeft : Nat) : List Byte :=
  beBytes 2 m.cbs ++ beBytes 2 m.ebs ++ beBytes 2 m.bc ++ beBytes 2 m.be ++ beBytes 2 m.period ++ beBytes 2 m.running ++
    beBytes 2 timeLeft ++ beBytes 1 m.pulse

/-- A lane with whether it is free (R177). -/
def Lane.bytes (x : Lane) : List Byte :=
  optNat 4 (x.lastEntry.map BitVec.toNat) ++ yesByte x.spaced ++ optTag x.reservation ++ yesByte x.free

/-- The parts of the tunnel, in the order of Table 9-1. -/
def Part.code : Part → Nat
  | .apron => 0
  | .zone1 => 1
  | .zone2 => 2
  | .zone3 => 3
  | .past => 4

/-- Dose, target, ceiling and result of a garment (R177). -/
def Garment.cureBytes (g : Garment) : List Byte :=
  beBytes 3 g.dose ++ beBytes 3 g.target ++ beBytes 3 g.ceiling ++ beBytes 1 g.result.code

/-- An entry of the BELT list (R177). -/
def State.beltEntry (s : State) (g : Garment) : List Byte :=
  match s.beltPlace g with
  | some (lane, entry, p) =>
    tagBytes g.tag ++ beBytes 1 lane ++ beBytes 4 entry.toNat ++ beBytes 4 p ++ beBytes 1 (s.cure.partAt p).code ++
      g.cureBytes
  | none => []

/-- An entry of the EXIT list (R177). -/
def exitEntry (g : Garment) : List Byte :=
  tagBytes g.tag ++ g.cureBytes ++ beBytes 1 g.recures

/-- The header of a QUERY BELT response (R177). That the 16 weights and the four lanes carry no count byte is the
model's choice (log 32). -/
def State.beltHeader (s : State) : List Byte :=
  let c := s.cure
  beBytes 4 c.beltCount.toNat ++ beBytes 2 c.e0 ++ beBytes 2 c.z1 ++ beBytes 2 c.z2 ++ beBytes 2 c.z3 ++
    beBytes 2 c.exitPosition ++ beBytes 2 c.spacing ++ beBytes 1 c.tbase ++ beBytes 1 c.tstep ++
    (c.weights.map (beBytes 2)).flatten ++ beBytes 1 s.limits.retention ++
    (laneNumbers.map fun k => (s.lane k).bytes).flatten ++
    beBytes 2 (s.liveGarments.filter Garment.onBelt).length ++ beBytes 2 c.exitQueue.length

/-- The largest page of a QUERY BELT response (R177). -/
def beltPage : Nat := 24

/-- A page of a list of entries from a first index, with the next index or END (R177). -/
def pageBytes (entries : List (List Byte)) (first : Nat) : List Byte :=
  listBytes ((entries.drop first).take beltPage) ++
    optNat 2 (if first + beltPage < entries.length then some (first + beltPage) else none)

/-- Bin state, in the order of Table 10-1. -/
def BinState.code : BinState → Nat
  | .free => 0
  | .filling => 1
  | .ready => 2
  | .void => 3

/-- An order's slot and number, as an optional pair (R192). -/
def State.slotAndNumber (s : State) (slot : Option Nat) : List Byte :=
  optBytes 5 (slot.map fun k => beBytes 1 k ++ beBytes 4 (((s.order k).map Order.number).getD 0))

/-- The contents of a QUERY BIN response (R192). -/
def State.binBytes (s : State) (k : Nat) : List Byte :=
  beBytes 1 (s.bin k).state.code ++ beBytes 2 (s.binCount k) ++ s.slotAndNumber (s.bin k).order ++
    yesByte (s.binNamed k) ++ beBytes 2 s.bins.overflow.length ++ s.slotAndNumber s.handoverOrder ++
    beBytes 1 (binNumbers.filter fun n => (s.bin n).state == .free).length

/-- The line limits in the order of Table 11-3 (R201). -/
def Limits.bytes (m : Limits) : List Byte :=
  beBytes 1 m.agePeriod ++ beBytes 1 m.ageLimit ++ beBytes 1 m.lapLimit ++ beBytes 1 m.reprintLimit ++
    beBytes 1 m.unloadWait ++ beBytes 1 m.holdReserve ++ beBytes 1 m.retention ++ beBytes 1 m.moveLimit ++
    beBytes 2 m.toLoad ++ beBytes 2 m.toPretreat ++ beBytes 2 m.toPress ++ beBytes 2 m.toPrintA ++
    beBytes 2 m.toPrintB ++ beBytes 2 m.toUnload ++ beBytes 2 m.toMatching

/-- The 2-byte cause field (R202). -/
def causeBytes (c : BitVec 16) : List Byte := beBytes 2 c.toNat

/-! ## Messages the part sends -/

/-- The kind byte of a message (Table 5-2). -/
def Message.kind : Message → Byte
  | .verdict .. => 0x81#8
  | .ack .. => 0x82#8
  | .refuse .. => 0x83#8
  | .mode .. => 0x84#8
  | .lineResetNotice => 0x85#8

/-- The payload of a message (Tables 5-2 to 5-4). -/
def Message.payload : Message → List Byte
  | .verdict platen tag v p1 p2 => platen :: tagBytes tag ++ beBytes 1 v.code ++ beBytes 2 p1 ++ beBytes 1 p2
  | .ack k m => k :: beBytes 1 m.code
  | .refuse c k platen tag => beBytes 1 c.code ++ k :: platen :: tagBytes tag
  | .mode m => beBytes 1 m.code
  | .lineResetNotice => []

/-- The frame that carries a message on its link (R81). -/
def Message.frame (m : Message) : List Byte :=
  buildFrame m.kind m.payload

end Sys2Proof.Machine
end

