-- ==== Sys2Proof/Machine/HostOrders.lean ====
section
/-! DEFINITION. Machine/HostOrders.lean: what the owning blocks do with the host commands on patterns, reference tables,
orders, the scheduler and single garments (Chapters 1 to 4). Each takes a payload whose length R198 has checked and
gives the state after the change with the response. -/

namespace Sys2Proof.Machine

/-! ## Reference Tables -/

/-- The count of the class changed when a SKU entry moves from an old class to a new one (R75). -/
def State.moveClass (s : State) (old new : Option Nat) : State :=
  if old = new then s
  else
    let s := match old with
      | some k => s.countClass k down1
      | none => s
    match new with
    | some k => s.countClass k up1
    | none => s

/-- The SKU table with an entry written. -/
def State.setSku (s : State) (sku : Nat) (e : Option SkuEntry) : State :=
  { s with refs.skus := match e with
    | some e => s.refs.skus.put sku e
    | none => s.refs.skus.erase sku }

/-- LOAD SKU (R74, R75). -/
def runLoadSku (payload : List Byte) (s : State) : State × Response :=
  let sku := field payload 0 1
  let cls := field payload 2 1
  let old := s.refs.skus.find sku
  match yesNo (field payload 1 1) with
  | none => s.refusing .badArgument
  | some valid =>
    if valid ∧ 31 < cls then s.refusing .badArgument
    else if old.any (fun e => e.count != 0) then s.refusing .inUse
    else if valid ∧ (s.refs.classes.find cls).isNone then s.refusing .notFound
    else
      let new := if valid then some cls else none
      (((s.moveClass (old.map SkuEntry.cls) new).setSku sku (new.map fun c => ⟨c, 0⟩)), accepted [])

/-- The class table with an entry written. -/
def State.setClass (s : State) (cls : Nat) (e : Option ClassEntry) : State :=
  { s with refs.classes := match e with
    | some e => s.refs.classes.put cls e
    | none => s.refs.classes.erase cls }

/-- The fields of a LOAD CLASS, with a count of 0 (R76). -/
def classFields (payload : List Byte) : ClassEntry where
  dark := field payload 2 1 = 1
  rate := field payload 3 1
  pressBase := field payload 4 1
  wetExtra := field payload 5 1
  targetBase := field payload 6 2
  ceiling := field payload 8 2
  inkFactor := field payload 10 2
  count := 0

/-- The ranges of Table 4-3, with the ceiling greater than the target base (R76). -/
def ClassEntry.inRange (e : ClassEntry) : Bool :=
  decide (e.rate ≤ 255) && decide (e.pressBase ≤ 60) && decide (e.wetExtra ≤ 30) && decide (e.targetBase ≤ 15999) &&
    decide (1 ≤ e.ceiling) && decide (e.ceiling ≤ 16000) && decide (e.targetBase < e.ceiling) &&
    decide (e.inkFactor ≤ 2000)

/-- LOAD CLASS (R74, R76). -/
def runLoadClass (payload : List Byte) (s : State) : State × Response :=
  let cls := field payload 0 1
  match yesNo (field payload 1 1) with
  | none => s.refusing .badArgument
  | some valid =>
    if 31 < cls then s.refusing .badArgument
    else if valid ∧ ((yesNo (field payload 2 1)).isNone ∨ (classFields payload).inRange = false) then
      s.refusing .badArgument
    else if (s.refs.classes.find cls).any (fun e => e.count != 0) then s.refusing .inUse
    else (s.setClass cls (if valid then some (classFields payload) else none), accepted [])

/-- The design table with an entry written. -/
def State.setDesign (s : State) (design : Nat) (e : Option DesignEntry) : State :=
  { s with refs.designs := match e with
    | some e => s.refs.designs.put design e
    | none => s.refs.designs.erase design }

/-- LOAD DESIGN (R74, R77). -/
def runLoadDesign (payload : List Byte) (s : State) : State × Response :=
  let design := field payload 0 1
  let area := field payload 2 2
  match yesNo (field payload 1 1) with
  | none => s.refusing .badArgument
  | some valid =>
    if valid ∧ ((yesNo (field payload 4 1)).isNone ∨ area = 0 ∨ 1500 < area) then s.refusing .badArgument
    else if (s.refs.designs.find design).any (fun e => e.count != 0) then s.refusing .inUse
    else (s.setDesign design (if valid then some ⟨area, field payload 4 1 = 1, 0⟩ else none), accepted [])

/-- A SKU entry as READ ENTRY returns it (R79). -/
def State.skuBytes (s : State) (n : Nat) : List Byte :=
  let e := s.refs.skus.find n
  let x := e.getD ⟨0, 0⟩
  yesByte e.isSome ++ beBytes 1 x.cls ++ beBytes 2 x.count

/-- A class entry as READ ENTRY returns it (R79). -/
def State.classBytes (s : State) (n : Nat) : List Byte :=
  let x := s.classEntry n
  yesByte (s.refs.classes.find n).isSome ++ yesByte x.dark ++ beBytes 1 x.rate ++ beBytes 1 x.pressBase ++
    beBytes 1 x.wetExtra ++ beBytes 2 x.targetBase ++ beBytes 2 x.ceiling ++ beBytes 2 x.inkFactor ++ beBytes 2 x.count

/-- A design entry as READ ENTRY returns it (R79). -/
def State.designBytes (s : State) (n : Nat) : List Byte :=
  let x := s.designEntry n
  yesByte (s.refs.designs.find n).isSome ++ beBytes 2 x.area ++ yesByte x.underbase ++ beBytes 2 x.count

/-- READ ENTRY (R79). -/
def runReadEntry (payload : List Byte) (s : State) : State × Response :=
  let n := field payload 1 1
  match field payload 0 1 with
  | 0 => (s, accepted (s.skuBytes n))
  | 1 => if 31 < n then s.refusing .badArgument else (s, accepted (s.classBytes n))
  | 2 => (s, accepted (s.designBytes n))
  | _ => s.refusing .badArgument

/-! ## Tag patterns -/

/-- The design that a pattern names for counting: its test design if it is valid with action TEST (R7, R73). -/
def Pattern.names (p : Pattern) : Option Nat :=
  if p.valid ∧ p.action = .test then some p.design else none

/-- The count of the design changed when a pattern's named design changes (R7). -/
def State.movePattern (s : State) (old new : Option Nat) : State :=
  if old = new then s
  else
    let s := match old with
      | some d => s.countDesign d down1
      | none => s
    match new with
    | some d => s.countDesign d up1
    | none => s

/-- The pattern of a SET PATTERN (Table 1-3). -/
def patternOf (payload : List Byte) (valid block : Bool) : Pattern where
  valid := valid
  value := tagField payload 2
  mask := tagField payload 8
  action := if block then .block else .test
  design := field payload 15 1

/-- A pattern entry written, with the counts of the designs it named and names (R7). -/
def State.setPattern (s : State) (n : Nat) (p : Pattern) : State :=
  let s := s.movePattern (s.garments.patterns.look {} n).names p.names
  { s with garments := { s.garments with patterns := s.garments.patterns.store {} n p } }

/-- SET PATTERN (R7). -/
def runSetPattern (payload : List Byte) (s : State) : State × Response :=
  let n := field payload 0 1
  match yesNo (field payload 1 1), yesNo (field payload 14 1) with
  | some valid, some block =>
    if 7 < n then s.refusing .badArgument
    else if (patternOf payload valid block).names.any fun d => (s.refs.designs.find d).isNone then s.refusing .notFound
    else (s.setPattern n (patternOf payload valid block), accepted [])
  | _, _ => s.refusing .badArgument

/-! ## Orders -/

/-- The numbers of the 64 order slots (R27). -/
def slotNumbers : List Nat := List.range 64

/-- The lowest-numbered free slot (R34). -/
def State.freeSlotNumber (s : State) : Option Nat :=
  slotNumbers.find? fun k => (s.order k).isNone

/-- A new line: ACTIVE, with F, Bn and K at 0 (R34). -/
def newLine (design sku quantity : Nat) : Line :=
  ⟨design, sku, quantity, 0, 0, 0, .active⟩

/-- The lines of an ADMIT ORDER, from byte `start` on (R34). -/
def admitLines (payload : List Byte) (start : Nat) : (count : Nat) → List Line
  | 0 => []
  | n + 1 =>
    newLine (field payload start 1) (field payload (start + 1) 1) (field payload (start + 2) 1) ::
      admitLines payload (start + 3) n

/-- Check 1 of Table 2-3. -/
def admitRangesOk (number level : Nat) (lines : List Line) : Bool :=
  decide (1 ≤ number) && decide (level ≤ 7) && decide (1 ≤ lines.length) && decide (lines.length ≤ 16) &&
    lines.all fun l => decide (1 ≤ l.quantity) && decide (l.quantity ≤ 99)

/-- Check 4 of Table 2-3, on one line. -/
def State.lineEntriesValid (s : State) (l : Line) : Bool :=
  (s.refs.designs.find l.design).isSome && (s.refs.skus.find l.sku).isSome

/-- The admission of an order into a slot, before the offering (R34). -/
def State.addOrder (s : State) (slot number level : Nat) (lines : List Line) : State :=
  let o : Order := {
    number := number
    level := level
    admission := s.orders.admissionSeq
    state := .opened
    bin := none
    lines := lines }
  let s := lines.foldl (State.countLine up1) (s.takeCells lines.length)
  { s with orders := { s.orders with
      slots := s.orders.slots.put slot o
      admissionSeq := nextSequence s.orders.admissionSeq } }

/-- ADMIT ORDER (R34). The payload is 6 bytes and three a line. -/
def runAdmitOrder (payload : List Byte) (s : State) : State × Response :=
  let number := field payload 0 4
  let level := field payload 4 1
  let lines := admitLines payload 6 (field payload 5 1)
  if admitRangesOk number level lines = false then s.refusing .badArgument
  else if (s.findOrder number).isSome then s.refusing .duplicate
  else
    match s.freeSlotNumber with
    | none => s.refusing .full
    | some slot =>
      if lines.all s.lineEntriesValid = false then s.refusing .notFound
      else if s.orders.freeCells < lines.length + s.limits.holdReserve then s.refusing .noCells
      else
        let r := (s.addOrder slot number level lines).offerCounted (.order slot)
        (r.1, accepted (beBytes 1 slot ++ beBytes 2 r.2))

/-- Whether a garment is bound to a slot. -/
def Garment.boundTo (slot : Nat) (g : Garment) : Bool :=
  g.binding.any fun b => b.slot == slot

/-- The tags of the garments that R57 takes, in its order: printed ones, then the others, each in load sequence order; a
garment named in an open verdict is left. -/
def State.cancelTags (s : State) (slot : Nat) : List Tag :=
  s.tagsInLoadOrder (fun g => g.boundTo slot && !s.namedInVerdict g.tag && g.stage == .printed) ++
    s.tagsInLoadOrder (fun g => g.boundTo slot && !s.namedInVerdict g.tag && g.stage != .printed)

/-- A FILLING bin of a cancelled order becomes VOID (R40, R191). -/
def State.voidBin (s : State) (bin : Option Nat) : State :=
  match bin with
  | some k => if (s.bin k).state = .filling then s.setBin k { s.bin k with state := .void } else s
  | none => s

/-- The steps of R40. -/
def State.cancel (s : State) (slot : Nat) (o : Order) : State :=
  let s := (s.modifyOrder slot fun o => { o with state := .cancelling }).voidBin o.bin
  ((s.cancelTags slot).foldl State.stageRule s).drainTest slot

/-- CANCEL ORDER (R40). That order number 0, which no slot can carry, is refused NOT_FOUND as any unknown number is, and
not BAD_ARGUMENT by R199, is the model's choice (log 34). -/
def runCancelOrder (payload : List Byte) (s : State) : State × Response :=
  match s.findOrder (field payload 0 4) with
  | none => s.refusing .notFound
  | some (slot, o) =>
    if o.state = .complete ∨ o.state = .cancelling then s.refusing .badState
    else
      let t := s.cancel slot o
      (t, accepted (beBytes 2 (t.liveGarments.filter (Garment.boundTo slot)).length ++ yesByte (t.order slot).isNone))

/-- A line after RELEASE HOLD (R39). -/
def Line.released (l : Line) : Line :=
  if l.state = .failed then { l with state := .active, spoils := 0 } else l

/-- RELEASE HOLD on a HELD order (R39). -/
def State.release (s : State) (slot : Nat) (o : Order) : State :=
  let s := s.modifyOrder slot fun o => { o with lines := o.lines.map Line.released }
  if o.allBinned then s.completeOrder slot
  else
    let state := if o.lines.all (fun l => l.binned == 0) then OrderState.opened else .filling
    (s.modifyOrder slot fun o => { o with state := state }).offer (.order slot)

/-- RELEASE HOLD (R39). That order number 0, which no slot can carry, is refused NOT_FOUND as any unknown number is, and
not BAD_ARGUMENT by R199, is the model's choice (log 34). -/
def runReleaseHold (payload : List Byte) (s : State) : State × Response :=
  match s.findOrder (field payload 0 4) with
  | none => s.refusing .notFound
  | some (slot, o) =>
    if o.state ≠ .held then s.refusing .badState
    else
      let t := s.release slot o
      (t, accepted (beBytes 1 (((t.order slot).map fun o => o.state.code).getD 0)))

/-- QUERY ORDER (R43). That order number 0, which no slot can carry, is refused NOT_FOUND as any unknown number is, and
not BAD_ARGUMENT by R199, is the model's choice (log 34). -/
def runQueryOrder (payload : List Byte) (s : State) : State × Response :=
  match s.findOrder (field payload 0 4) with
  | none => s.refusing .notFound
  | some (slot, o) => (s, accepted (o.bytes slot s.orders.freeCells))

/-- Whether an order passes a state filter: one of the five states, in the order of Table 2-1, or ALL (R44). -/
def Order.passes (filter : Nat) (o : Order) : Bool :=
  filter == 5 || o.state.code == filter

/-- The largest number of pairs in a LIST ORDERS response (R44). -/
def orderPage : Nat := 32

/-- The contents of a LIST ORDERS response (R44). -/
def State.orderList (s : State) (filter first : Nat) : List Byte :=
  let found := s.orders.slots.filter fun e => decide (first ≤ e.1) && e.2.passes filter
  let page := found.take orderPage
  let next := if orderPage < found.length then page.getLast?.map fun e => e.1 + 1 else none
  listBytes (page.map fun e => beBytes 1 e.1 ++ beBytes 4 e.2.number) ++ beBytes 2 s.orders.freeCells ++ optNat 1 next

/-- LIST ORDERS (R44). -/
def runListOrders (payload : List Byte) (s : State) : State × Response :=
  let filter := field payload 0 1
  let first := field payload 1 1
  if 5 < filter ∨ 63 < first then s.refusing .badArgument
  else (s, accepted (s.orderList filter first))

/-- SET SCHEDULER (R50): a map of 8 entries, four weights, a mode. That the map goes from level 0 up, the weights from
class 0 up and the mode last is the model's choice (log 31). -/
def runSetScheduler (payload : List Byte) (s : State) : State × Response :=
  let map := fields payload 0 1 8
  let weights := fields payload 8 1 4
  let mode := field payload 12 1
  if map.any (fun c => decide (3 < c)) ∨ weights.any (fun w => decide (w = 0 ∨ 15 < w)) ∨ 1 < mode then
    s.refusing .badArgument
  else
    ({ s with sched := {
        classMap := map
        weights := weights
        credits := weights
        mode := if mode = 0 then .strict else .weighted } }, accepted [])

/-! ## Single garments and the walk -/

/-- QUERY GARMENT (R23). -/
def runQueryGarment (payload : List Byte) (s : State) : State × Response :=
  match s.findTag (tagField payload 0) with
  | none => s.refusing .notFound
  | some e => (s, accepted (recordBytes e))

/-- RETIRE GARMENT (R24). -/
def runRetireGarment (payload : List Byte) (s : State) : State × Response :=
  let tag := tagField payload 0
  if (s.findTag tag).isNone then s.refusing .notFound
  else if s.namedInVerdict tag then s.refusing .inUse
  else (s.retire .manual tag, accepted [])

/-- The walk cursor written (R21). -/
def State.setCursor (s : State) (c : Cursor) : State :=
  { s with garments := { s.garments with cursor := c } }

/-- The first live record at or after a position returned, with the cursor moved to it, or END (R21). -/
def State.walkFrom (s : State) (position : Nat) : State × Response :=
  match s.garments.records.find? fun e => decide (position ≤ e.1) with
  | some e => (s.setCursor (.pos e.1), accepted (optBytes recordWidth (some (recordBytes e))))
  | none => (s.setCursor .ended, accepted (optBytes recordWidth none))

/-- WALK FIRST (R21). -/
def runWalkFirst (s : State) : State × Response :=
  s.walkFrom 0

/-- WALK NEXT (R21, R22). -/
def runWalkNext (s : State) : State × Response :=
  match s.garments.cursor with
  | .none => s.refusing .badState
  | .pos p => s.walkFrom (p + 1)
  | .ended => (s, accepted (optBytes recordWidth none))

end Sys2Proof.Machine
end

