-- ==== Sys2Proof/Machine/HostLine.lean ====
section
/-! DEFINITION. Machine/HostLine.lean: what the owning blocks do with the host commands on stations, the ring, the meter,
the tunnel, the bins, and with the port's own (Chapters 5, 6 and 8 to 11). Each takes a payload whose length R198 has
checked and gives the state after the change with the response. -/

namespace Sys2Proof.Machine

/-! ## Free values -/

/-- A time left on a running timer, from `lo` to `hi`: a free value kept within the bounds (log 6), with the state that
reads another one next. -/
def State.timeLeft (s : State) (lo hi : Nat) : Nat × State :=
  (lo + Config.freeTime s.freeReads % (hi - lo + 1), { s with freeReads := s.freeReads + 1 })

/-! ## Stations -/

/-- A station mode by its code (Table 5-3). -/
def StationMode.ofCode : Nat → Option StationMode
  | 0 => some .offline
  | 1 => some .standby
  | 2 => some .check
  | 3 => some .active
  | _ => none

/-- The changes of mode that Table 5-6 lists with the host as a cause (R87). -/
def hostMayChange : StationMode → StationMode → Bool
  | .standby, .check => true
  | .check, .active => true
  | .active, .check => true
  | .active, .standby => true
  | .check, .standby => true
  | _, _ => false

/-- The attention setting applied: ALL, FIRST or KEEP (R97). -/
def State.setAttention (s : State) (l : Link) (setting : Nat) : State :=
  s.modifyStation l fun x =>
    { x with attention := if setting = 0 then .all else if setting = 1 then .first else x.attention }

/-- An accepted SET STATION MODE (R87, R88, R97). -/
def State.requestMode (s : State) (l : Link) (m : StationMode) (setting : Nat) : State × Response :=
  let s := if (s.station l).mode = m then s else s.changeMode l m
  let s := s.setAttention l setting
  (s, accepted (beBytes 1 (s.station l).mode.code))

/-- SET STATION MODE (R87). -/
def runSetStationMode (payload : List Byte) (s : State) : State × Response :=
  match Link.ofNumber (field payload 0 1), StationMode.ofCode (field payload 1 1) with
  | some l, some m =>
    if 2 < field payload 2 1 then s.refusing .badArgument
    else if (s.station l).mode = m ∨ hostMayChange (s.station l).mode m then s.requestMode l m (field payload 2 1)
    else s.refusing .badTransition
  | _, _ => s.refusing .badArgument

/-- QUERY STATION (R98). -/
def runQueryStation (payload : List Byte) (s : State) : State × Response :=
  match Link.ofNumber (field payload 0 1) with
  | none => s.refusing .badArgument
  | some l =>
    let x := s.station l
    match x.workTimer with
    | none => (s, accepted (x.bytes l 0 (s.limits.workTimeout l)))
    | some p =>
      let r := s.timeLeft 0 (p * 1000)
      (r.2, accepted (x.bytes l r.1 (s.limits.workTimeout l)))

/-! ## The ring -/

/-- The positions of a SET STATION, in order of link number (R103). -/
def positionsOf (payload : List Byte) : Positions where
  load := field payload 0 1
  pretreat := field payload 1 1
  press := field payload 2 1
  printA := field payload 3 1
  printB := field payload 4 1
  unload := field payload 5 1

/-- The positions are at most 23 and strictly increasing in the order of R103. -/
def Positions.ok (p : Positions) : Bool :=
  decide (p.load < p.pretreat) && decide (p.pretreat < p.press) && decide (p.press < p.printA) &&
    decide (p.printA < p.printB) && decide (p.printB < p.unload) && decide (p.unload ≤ 23)

/-- SET STATION (R103). -/
def runSetStation (payload : List Byte) (s : State) : State × Response :=
  if (positionsOf payload).ok = false then s.refusing .badArgument
  else if s.ring.state ≠ .stopped then s.refusing .badState
  else ({ s with ring := { s.ring with positions := positionsOf payload } }, accepted [])

/-- A platen that is not OCCUPIED set OUT or EMPTY (R102). -/
def Platen.setOut (out : Bool) (p : Platen) : Platen :=
  { p with state := if out then .out else .empty }

/-- SET PLATEN (R102). -/
def runSetPlaten (payload : List Byte) (s : State) : State × Response :=
  let k := field payload 0 1
  match yesNo (field payload 1 1) with
  | none => s.refusing .badArgument
  | some out =>
    if 23 < k then s.refusing .badArgument
    else if (s.platen k).state = .occupied then s.refusing .inUse
    else
      let t := s.modifyPlaten k (Platen.setOut out)
      (t, accepted (t.platen k).bytes)

/-- The ring state written. -/
def State.setRingState (s : State) (r : RingState) : State :=
  { s with ring := { s.ring with state := r } }

/-- A response that returns the ring state (R104 to R106). -/
def State.withRingState (s : State) : State × Response :=
  (s, accepted (beBytes 1 s.ring.state.code))

/-- START RING (R104). -/
def runStartRing (s : State) : State × Response :=
  match s.ring.state with
  | .stopped => (Link.ring.foldl State.holdIfWorking (s.setRingState .running)).ringTest.withRingState
  | .stopping => (s.setRingState .running).withRingState
  | .running => s.withRingState
  | .halted | .verifying => s.refusing .badState

/-- STOP RING (R105). -/
def runStopRing (s : State) : State × Response :=
  match s.ring.state with
  | .running => (s.setRingState .stopping).ringTest.withRingState
  | .stopping | .stopped => s.withRingState
  | .halted | .verifying => s.refusing .badState

/-- RESUME RING (R106). -/
def runResumeRing (s : State) : State × Response :=
  if s.ring.state ≠ .halted ∨ s.ring.eStop ∨ (s.station .load).working = false then s.refusing .badState
  else (((s.setRingState .verifying).clearLap.holdFacing .load).ringTest).withRingState

/-- QUERY RING (R120). -/
def runQueryRing (s : State) : State × Response :=
  match s.ring.cycle, s.ring.moveTimer with
  | .moving, some p =>
    let r := s.timeLeft 0 (p * 1000)
    (r.2, accepted (r.2.ringBytes (some r.1)))
  | _, _ => (s, accepted (s.ringBytes none))

/-! ## The meter -/

/-- SET METER (R153, R154). -/
def runSetMeter (payload : List Byte) (s : State) : State × Response :=
  let period := field payload 4 2
  let pulse := field payload 6 1
  if period = 0 ∨ pulse = 0 ∨ 50 < pulse then s.refusing .badArgument
  else
    let m := s.meter.configure (field payload 0 2) (field payload 2 2) period pulse
    ({ s with meter := m }, accepted (beBytes 2 m.cbs ++ beBytes 2 m.ebs ++ beBytes 2 m.bc ++ beBytes 2 m.be))

/-- QUERY METER (R155). -/
def runQueryMeter (s : State) : State × Response :=
  let r := s.timeLeft 1 s.meter.running
  (r.2, accepted (s.meter.bytes r.1))

/-! ## The tunnel -/

/-- The ranges of SET TUNNEL (R175). -/
def tunnelOk (e0 z1 z2 z3 spacing : Nat) : Bool :=
  decide (e0 ≤ 500) && [z1, z2, z3].all (fun z => decide (1 ≤ z) && decide (z ≤ 2000)) && decide (1 ≤ spacing) &&
    decide (spacing ≤ 500)

/-- SET TUNNEL (R175). -/
def runSetTunnel (payload : List Byte) (s : State) : State × Response :=
  let e0 := field payload 0 2
  let z1 := field payload 2 2
  let z2 := field payload 4 2
  let z3 := field payload 6 2
  let spacing := field payload 8 2
  if tunnelOk e0 z1 z2 z3 spacing = false then s.refusing .badArgument
  else if s.liveGarments.any Garment.onBelt then s.refusing .badState
  else
    let t := s.configureTunnel e0 z1 z2 z3 spacing
    (t, accepted (beBytes 2 t.cure.exitPosition))

/-- SET WEIGHTS (R176). -/
def runSetWeights (payload : List Byte) (s : State) : State × Response :=
  let weights := fields payload 0 2 16
  let tbase := field payload 32 1
  let tstep := field payload 33 1
  if weights.any (fun w => decide (1023 < w)) ∨ tbase < 100 ∨ 250 < tbase ∨ tstep = 0 ∨ 20 < tstep then
    s.refusing .badArgument
  else ({ s with cure := { s.cure with weights := weights, tbase := tbase, tstep := tstep } }, accepted [])

/-- The entries of a list that QUERY BELT selects: BELT or EXIT (R177). -/
def State.beltList (s : State) (selector : Nat) : List (List Byte) :=
  if selector = 0 then (s.beltOrder fun _ => true).map s.beltEntry
  else s.cure.exitQueue.filterMap fun t => (s.findTag t).map fun e => exitEntry e.2

/-- QUERY BELT (R177). -/
def runQueryBelt (payload : List Byte) (s : State) : State × Response :=
  let selector := field payload 0 1
  let first := field payload 1 2
  if 1 < selector ∨ 511 < first then s.refusing .badArgument
  else (s, accepted (s.beltHeader ++ pageBytes (s.beltList selector) first))

/-! ## Bins -/

/-- QUERY BIN (R192). -/
def runQueryBin (payload : List Byte) (s : State) : State × Response :=
  let k := field payload 0 1
  if 47 < k then s.refusing .badArgument else (s, accepted (s.binBytes k))

/-! ## The port's own commands -/

/-- The device number (R200). -/
def deviceNumber : Nat := 6120

/-- The contents of an IDENTIFY response (R200). -/
def State.identity (s : State) : List Byte :=
  beBytes 2 deviceNumber ++ [Config.siliconRevision] ++ yesByte s.port.resetIndicator ++ beBytes 2 512 ++ beBytes 1 64 ++
    beBytes 2 384 ++ beBytes 1 48 ++ beBytes 1 24 ++ beBytes 1 8

/-- IDENTIFY returns the reset indicator as it stands and then clears it (R200). -/
def runIdentify (s : State) : State × Response :=
  ({ s with port := { s.port with resetIndicator := false } }, accepted s.identity)

/-- READ CAUSES reports the pending flags and the mask, and clears every flag it found pending (R203). -/
def runReadCauses (s : State) : State × Response :=
  ({ s with port := { s.port with causes := 0#16 } }, accepted (causeBytes s.port.causes ++ causeBytes s.port.mask))

/-- SET CAUSE MASK (R204). -/
def runSetCauseMask (payload : List Byte) (s : State) : State × Response :=
  let mask := BitVec.ofNat 16 (field payload 0 2)
  if mask &&& ~~~causeBits ≠ 0#16 then s.refusing .badArgument
  else ({ s with port := { s.port with mask := mask } }, accepted (causeBytes mask ++ causeBytes s.port.causes))

/-- The values of a SET LINE LIMITS, in the order of Table 11-3. -/
def limitsOf (payload : List Byte) : Limits where
  agePeriod := field payload 0 1
  ageLimit := field payload 1 1
  lapLimit := field payload 2 1
  reprintLimit := field payload 3 1
  unloadWait := field payload 4 1
  holdReserve := field payload 5 1
  retention := field payload 6 1
  moveLimit := field payload 7 1
  toLoad := field payload 8 2
  toPretreat := field payload 10 2
  toPress := field payload 12 2
  toPrintA := field payload 14 2
  toPrintB := field payload 16 2
  toUnload := field payload 18 2
  toMatching := field payload 20 2

/-- A value within a range of Table 11-3. -/
def within (lo hi n : Nat) : Bool :=
  decide (lo ≤ n) && decide (n ≤ hi)

/-- The ranges of Table 11-3. -/
def Limits.ok (m : Limits) : Bool :=
  within 1 60 m.agePeriod && within 1 15 m.ageLimit && within 1 7 m.lapLimit && within 1 7 m.reprintLimit &&
    within 1 120 m.unloadWait && within 0 128 m.holdReserve && within 0 16 m.retention && within 1 30 m.moveLimit &&
    within 1 600 m.toLoad && within 1 600 m.toPretreat && within 1 600 m.toPress && within 1 600 m.toPrintA &&
    within 1 600 m.toPrintB && within 1 600 m.toUnload && within 1 600 m.toMatching

/-- SET LINE LIMITS: 22 bytes replace every limit, and none reads them back (R201). -/
def runSetLineLimits (payload : List Byte) (s : State) : State × Response :=
  if payload = [] then (s, accepted s.limits.bytes)
  else if (limitsOf payload).ok = false then s.refusing .badArgument
  else ({ s with limits := limitsOf payload }, accepted (limitsOf payload).bytes)

/-- LINE RESET: the response carries the number of records removed and of slots freed (R205). -/
def runLineReset (s : State) : State × Response :=
  (s.lineReset,
    accepted (beBytes 2 s.garments.records.length ++ beBytes 1 s.clearLine.drainedSlots.length))

end Sys2Proof.Machine
end

