-- ==== Sys2Proof/Machine/HostPort.lean ====
section
/-! DEFINITION. Machine/HostPort.lean: the transport of the Host Command Port: command transactions, the taking of a
frame, the completion of the running command, read transactions (R194 to R198); and the meanings of the host rows. -/

namespace Sys2Proof.Machine

/-! ## Output -/

/-- NO_RESPONSE, the fill byte of an IDLE port and of every first byte and command byte (R194, R196). -/
def fillNoResponse : Byte := 0xFE#8

/-- NOT_READY, the fill byte of an EXECUTING port (R196). -/
def fillNotReady : Byte := 0xFF#8

/-- Bytes shifted out, after those shifted out before (log 9). -/
def State.shift (s : State) (bytes : List Byte) : State :=
  { s with shifted := s.shifted ++ bytes }

/-- The port's state written. -/
def State.setPort (s : State) (p : PortState) : State :=
  { s with port := { s.port with state := p } }

/-! ## Taking a frame -/

/-- A frame taken by a port that carries out no command: a held response is discarded (R197), and the frame is checked by
R198. A frame that fails a check reaches no block, and its response is held at once; one that passes makes the port
EXECUTING (R195; log 2). -/
def State.takeFrame (s : State) (f : Frame) : State :=
  match HostCmd.ofCode f.code with
  | none => s.setPort (.holding (refusedWith .unknownCommand).bytes)
  | some c =>
    if c.frameLengthOk f.bytes then s.setPort (.executing c f.bytes.tail)
    else s.setPort (.holding (refusedWith .badLength).bytes)

/-- The frame buffer written: a frame kept while a command is being carried out, or none (R195). -/
def State.setKept (s : State) (f : Option Frame) : State :=
  { s with port := { s.port with kept := f } }

/-- The progress of the read transaction in progress, or none. -/
def State.setReading (s : State) (n : Option Nat) : State :=
  { s with port := { s.port with reading := n } }

/-- A command transaction that ends with a frame: FEh is shifted out for every byte (R194), and the frame is taken, or
kept while a command is being carried out, in the place of one kept before (R195). No read transaction is then in
progress. -/
def State.commandTransaction (s : State) (f : Frame) : State :=
  let s := (s.shift (List.replicate (f.bytes.length + 1) fillNoResponse)).setReading none
  match s.port.state with
  | .executing _ _ => s.setKept (some f)
  | .idle | .holding _ => s.takeFrame f

/-! ## Carrying a command out -/

/-- The change of a command's owning block, with its response (Table 11-2). -/
def ownerChange (c : HostCmd) (payload : List Byte) (s : State) : State × Response :=
  match c with
  | .identify => runIdentify s
  | .readCauses => runReadCauses s
  | .setCauseMask => runSetCauseMask payload s
  | .lineReset => runLineReset s
  | .setLineLimits => runSetLineLimits payload s
  | .loadSku => runLoadSku payload s
  | .loadClass => runLoadClass payload s
  | .loadDesign => runLoadDesign payload s
  | .readEntry => runReadEntry payload s
  | .setPattern => runSetPattern payload s
  | .admitOrder => runAdmitOrder payload s
  | .cancelOrder => runCancelOrder payload s
  | .releaseHold => runReleaseHold payload s
  | .queryOrder => runQueryOrder payload s
  | .listOrders => runListOrders payload s
  | .setScheduler => runSetScheduler payload s
  | .queryGarment => runQueryGarment payload s
  | .walkFirst => runWalkFirst s
  | .walkNext => runWalkNext s
  | .retireGarment => runRetireGarment payload s
  | .setStation => runSetStation payload s
  | .setStationMode => runSetStationMode payload s
  | .queryStation => runQueryStation payload s
  | .setPlaten => runSetPlaten payload s
  | .startRing => runStartRing s
  | .stopRing => runStopRing s
  | .resumeRing => runResumeRing s
  | .queryRing => runQueryRing s
  | .setMeter => runSetMeter payload s
  | .queryMeter => runQueryMeter s
  | .setTunnel => runSetTunnel payload s
  | .setWeights => runSetWeights payload s
  | .queryBelt => runQueryBelt payload s
  | .queryBin => runQueryBin payload s

/-- The running command's change is complete: with no frame kept its response is held; with one kept the response is
discarded and the kept frame is taken (R195). -/
def State.completeCommand (s : State) : State :=
  match s.port.state with
  | .executing c payload =>
    let r := ownerChange c payload s
    let t := r.1.finish s
    match s.port.kept with
    | none => t.setPort (.holding r.2.bytes)
    | some f => (t.setKept none).takeFrame f
  | .idle | .holding _ => s

/-! ## Reading -/

/-- The read stream from a held response, from the byte at `position` on: `count` bytes are shifted out, and after the
response's last byte the port is IDLE and shifts out NO_RESPONSE (R196). -/
def State.readHeld (s : State) (response : List Byte) (position count : Nat) : State :=
  let rest := response.drop position
  let s := s.shift (rest.take count ++ List.replicate (count - rest.length) fillNoResponse)
  if rest.length ≤ count then (s.setPort .idle).setReading (some 0) else s.setReading (some (position + count))

/-- The bytes of a read transaction after its first (R196). -/
def State.readOn (s : State) (position count : Nat) : State :=
  match s.port.state with
  | .idle => (s.shift (List.replicate count fillNoResponse)).setReading (some 0)
  | .executing _ _ => (s.shift (List.replicate count fillNotReady)).setReading (some 0)
  | .holding response => s.readHeld response position count

/-- A piece of a read transaction. Its first byte is answered FEh (R194). -/
def State.readPiece (s : State) (count : Nat) : State :=
  match s.port.reading with
  | none => (s.shift [fillNoResponse]).readOn 0 count
  | some position => s.readOn position count

/-- A read transaction, or a further piece of one in progress; its end leaves a response that is not read to its last
byte held whole (R194, R196; log 3). -/
def State.readTransaction (s : State) (count : Nat) (ends : Bool) : State :=
  if ends then (s.readPiece count).setReading none else s.readPiece count

/-! ## Meanings -/

/-- A frame of a known command. -/
def hostFrame (c : HostCmd) (bytes : List Byte) (s : State) : State :=
  s.commandTransaction ⟨c.code, bytes⟩

/-- A command frame of IDENTIFY ends (R194, R195). Its change is `runIdentify` (R200), made when the command completes. -/
def execIdentify (bytes : List Byte) (s : State) : Host.Outcome State Fault Refusal :=
  .next (hostFrame .identify bytes s)

/-- A command frame of READ CAUSES ends (R194, R195). Its change is `runReadCauses` (R203), made when the command completes. -/
def execReadCauses (bytes : List Byte) (s : State) : Host.Outcome State Fault Refusal :=
  .next (hostFrame .readCauses bytes s)

/-- A command frame of SET CAUSE MASK ends (R194, R195). Its change is `runSetCauseMask` (R204), made when the command completes. -/
def execSetCauseMask (bytes : List Byte) (s : State) : Host.Outcome State Fault Refusal :=
  .next (hostFrame .setCauseMask bytes s)

/-- A command frame of LINE RESET ends (R194, R195). Its change is `runLineReset` (R205), made when the command completes. -/
def execLineReset (bytes : List Byte) (s : State) : Host.Outcome State Fault Refusal :=
  .next (hostFrame .lineReset bytes s)

/-- A command frame of SET LINE LIMITS ends (R194, R195). Its change is `runSetLineLimits` (R201), made when the command completes. -/
def execSetLineLimits (bytes : List Byte) (s : State) : Host.Outcome State Fault Refusal :=
  .next (hostFrame .setLineLimits bytes s)

/-- A command frame of LOAD SKU ends (R194, R195). Its change is `runLoadSku` (R75), made when the command completes. -/
def execLoadSku (bytes : List Byte) (s : State) : Host.Outcome State Fault Refusal :=
  .next (hostFrame .loadSku bytes s)

/-- A command frame of LOAD CLASS ends (R194, R195). Its change is `runLoadClass` (R76), made when the command completes. -/
def execLoadClass (bytes : List Byte) (s : State) : Host.Outcome State Fault Refusal :=
  .next (hostFrame .loadClass bytes s)

/-- A command frame of LOAD DESIGN ends (R194, R195). Its change is `runLoadDesign` (R77), made when the command completes. -/
def execLoadDesign (bytes : List Byte) (s : State) : Host.Outcome State Fault Refusal :=
  .next (hostFrame .loadDesign bytes s)

/-- A command frame of READ ENTRY ends (R194, R195). Its change is `runReadEntry` (R79), made when the command completes. -/
def execReadEntry (bytes : List Byte) (s : State) : Host.Outcome State Fault Refusal :=
  .next (hostFrame .readEntry bytes s)

/-- A command frame of SET PATTERN ends (R194, R195). Its change is `runSetPattern` (R7), made when the command completes. -/
def execSetPattern (bytes : List Byte) (s : State) : Host.Outcome State Fault Refusal :=
  .next (hostFrame .setPattern bytes s)

/-- A command frame of ADMIT ORDER ends (R194, R195). Its change is `runAdmitOrder` (R34), made when the command completes. -/
def execAdmitOrder (bytes : List Byte) (s : State) : Host.Outcome State Fault Refusal :=
  .next (hostFrame .admitOrder bytes s)

/-- A command frame of CANCEL ORDER ends (R194, R195). Its change is `runCancelOrder` (R40), made when the command completes. -/
def execCancelOrder (bytes : List Byte) (s : State) : Host.Outcome State Fault Refusal :=
  .next (hostFrame .cancelOrder bytes s)

/-- A command frame of RELEASE HOLD ends (R194, R195). Its change is `runReleaseHold` (R39), made when the command completes. -/
def execReleaseHold (bytes : List Byte) (s : State) : Host.Outcome State Fault Refusal :=
  .next (hostFrame .releaseHold bytes s)

/-- A command frame of QUERY ORDER ends (R194, R195). Its change is `runQueryOrder` (R43), made when the command completes. -/
def execQueryOrder (bytes : List Byte) (s : State) : Host.Outcome State Fault Refusal :=
  .next (hostFrame .queryOrder bytes s)

/-- A command frame of LIST ORDERS ends (R194, R195). Its change is `runListOrders` (R44), made when the command completes. -/
def execListOrders (bytes : List Byte) (s : State) : Host.Outcome State Fault Refusal :=
  .next (hostFrame .listOrders bytes s)

/-- A command frame of SET SCHEDULER ends (R194, R195). Its change is `runSetScheduler` (R50), made when the command completes. -/
def execSetScheduler (bytes : List Byte) (s : State) : Host.Outcome State Fault Refusal :=
  .next (hostFrame .setScheduler bytes s)

/-- A command frame of QUERY GARMENT ends (R194, R195). Its change is `runQueryGarment` (R23), made when the command completes. -/
def execQueryGarment (bytes : List Byte) (s : State) : Host.Outcome State Fault Refusal :=
  .next (hostFrame .queryGarment bytes s)

/-- A command frame of WALK FIRST ends (R194, R195). Its change is `runWalkFirst` (R21), made when the command completes. -/
def execWalkFirst (bytes : List Byte) (s : State) : Host.Outcome State Fault Refusal :=
  .next (hostFrame .walkFirst bytes s)

/-- A command frame of WALK NEXT ends (R194, R195). Its change is `runWalkNext` (R21), made when the command completes. -/
def execWalkNext (bytes : List Byte) (s : State) : Host.Outcome State Fault Refusal :=
  .next (hostFrame .walkNext bytes s)

/-- A command frame of RETIRE GARMENT ends (R194, R195). Its change is `runRetireGarment` (R24), made when the command completes. -/
def execRetireGarment (bytes : List Byte) (s : State) : Host.Outcome State Fault Refusal :=
  .next (hostFrame .retireGarment bytes s)

/-- A command frame of SET STATION ends (R194, R195). Its change is `runSetStation` (R103), made when the command completes. -/
def execSetStation (bytes : List Byte) (s : State) : Host.Outcome State Fault Refusal :=
  .next (hostFrame .setStation bytes s)

/-- A command frame of SET STATION MODE ends (R194, R195). Its change is `runSetStationMode` (R87), made when the command completes. -/
def execSetStationMode (bytes : List Byte) (s : State) : Host.Outcome State Fault Refusal :=
  .next (hostFrame .setStationMode bytes s)

/-- A command frame of QUERY STATION ends (R194, R195). Its change is `runQueryStation` (R98), made when the command completes. -/
def execQueryStation (bytes : List Byte) (s : State) : Host.Outcome State Fault Refusal :=
  .next (hostFrame .queryStation bytes s)

/-- A command frame of SET PLATEN ends (R194, R195). Its change is `runSetPlaten` (R102), made when the command completes. -/
def execSetPlaten (bytes : List Byte) (s : State) : Host.Outcome State Fault Refusal :=
  .next (hostFrame .setPlaten bytes s)

/-- A command frame of START RING ends (R194, R195). Its change is `runStartRing` (R104), made when the command completes. -/
def execStartRing (bytes : List Byte) (s : State) : Host.Outcome State Fault Refusal :=
  .next (hostFrame .startRing bytes s)

/-- A command frame of STOP RING ends (R194, R195). Its change is `runStopRing` (R105), made when the command completes. -/
def execStopRing (bytes : List Byte) (s : State) : Host.Outcome State Fault Refusal :=
  .next (hostFrame .stopRing bytes s)

/-- A command frame of RESUME RING ends (R194, R195). Its change is `runResumeRing` (R106), made when the command completes. -/
def execResumeRing (bytes : List Byte) (s : State) : Host.Outcome State Fault Refusal :=
  .next (hostFrame .resumeRing bytes s)

/-- A command frame of QUERY RING ends (R194, R195). Its change is `runQueryRing` (R120), made when the command completes. -/
def execQueryRing (bytes : List Byte) (s : State) : Host.Outcome State Fault Refusal :=
  .next (hostFrame .queryRing bytes s)

/-- A command frame of SET METER ends (R194, R195). Its change is `runSetMeter` (R153), made when the command completes. -/
def execSetMeter (bytes : List Byte) (s : State) : Host.Outcome State Fault Refusal :=
  .next (hostFrame .setMeter bytes s)

/-- A command frame of QUERY METER ends (R194, R195). Its change is `runQueryMeter` (R155), made when the command completes. -/
def execQueryMeter (bytes : List Byte) (s : State) : Host.Outcome State Fault Refusal :=
  .next (hostFrame .queryMeter bytes s)

/-- A command frame of SET TUNNEL ends (R194, R195). Its change is `runSetTunnel` (R175), made when the command completes. -/
def execSetTunnel (bytes : List Byte) (s : State) : Host.Outcome State Fault Refusal :=
  .next (hostFrame .setTunnel bytes s)

/-- A command frame of SET WEIGHTS ends (R194, R195). Its change is `runSetWeights` (R176), made when the command completes. -/
def execSetWeights (bytes : List Byte) (s : State) : Host.Outcome State Fault Refusal :=
  .next (hostFrame .setWeights bytes s)

/-- A command frame of QUERY BELT ends (R194, R195). Its change is `runQueryBelt` (R177), made when the command completes. -/
def execQueryBelt (bytes : List Byte) (s : State) : Host.Outcome State Fault Refusal :=
  .next (hostFrame .queryBelt bytes s)

/-- A command frame of QUERY BIN ends (R194, R195). Its change is `runQueryBin` (R192), made when the command completes. -/
def execQueryBin (bytes : List Byte) (s : State) : Host.Outcome State Fault Refusal :=
  .next (hostFrame .queryBin bytes s)

/-- A command frame whose code names no command ends (R198). -/
def execUnknownCommand (code : Byte) (bytes : List Byte) (s : State) : Host.Outcome State Fault Refusal :=
  .next (s.commandTransaction ⟨code, bytes⟩)

/-- A read transaction, or a piece of one (R194, R196). -/
def execReadTransaction (count : Nat) (ends : Bool) (s : State) : Host.Outcome State Fault Refusal :=
  .next (s.readTransaction count ends)

/-- The running command completes with a further frame kept (R195; log 20). -/
def execKeptFrameTaken (s : State) : Host.Outcome State Fault Refusal :=
  .next s.completeCommand

/-- The running command completes, and the port builds the response (R195; log 20). -/
def execResponseBuilt (s : State) : Host.Outcome State Fault Refusal :=
  .next s.completeCommand

end Sys2Proof.Machine
end

