-- ==== Sys2Proof/Machine/Dispatch.lean ====
section
/-! DEFINITION. Machine/Dispatch.lean: one arm per command. -/

namespace Sys2Proof.Machine

/-- The meaning of a command: its effect on everything but the queue. -/
def exec (i : Instr) (s : State) : Host.Outcome State Fault Refusal :=
  match i with
  | .identify bytes => Sys2Proof.Machine.execIdentify bytes s
  | .readCauses bytes => Sys2Proof.Machine.execReadCauses bytes s
  | .setCauseMask bytes => Sys2Proof.Machine.execSetCauseMask bytes s
  | .lineReset bytes => Sys2Proof.Machine.execLineReset bytes s
  | .setLineLimits bytes => Sys2Proof.Machine.execSetLineLimits bytes s
  | .loadSku bytes => Sys2Proof.Machine.execLoadSku bytes s
  | .loadClass bytes => Sys2Proof.Machine.execLoadClass bytes s
  | .loadDesign bytes => Sys2Proof.Machine.execLoadDesign bytes s
  | .readEntry bytes => Sys2Proof.Machine.execReadEntry bytes s
  | .setPattern bytes => Sys2Proof.Machine.execSetPattern bytes s
  | .admitOrder bytes => Sys2Proof.Machine.execAdmitOrder bytes s
  | .cancelOrder bytes => Sys2Proof.Machine.execCancelOrder bytes s
  | .releaseHold bytes => Sys2Proof.Machine.execReleaseHold bytes s
  | .queryOrder bytes => Sys2Proof.Machine.execQueryOrder bytes s
  | .listOrders bytes => Sys2Proof.Machine.execListOrders bytes s
  | .setScheduler bytes => Sys2Proof.Machine.execSetScheduler bytes s
  | .queryGarment bytes => Sys2Proof.Machine.execQueryGarment bytes s
  | .walkFirst bytes => Sys2Proof.Machine.execWalkFirst bytes s
  | .walkNext bytes => Sys2Proof.Machine.execWalkNext bytes s
  | .retireGarment bytes => Sys2Proof.Machine.execRetireGarment bytes s
  | .setStation bytes => Sys2Proof.Machine.execSetStation bytes s
  | .setStationMode bytes => Sys2Proof.Machine.execSetStationMode bytes s
  | .queryStation bytes => Sys2Proof.Machine.execQueryStation bytes s
  | .setPlaten bytes => Sys2Proof.Machine.execSetPlaten bytes s
  | .startRing bytes => Sys2Proof.Machine.execStartRing bytes s
  | .stopRing bytes => Sys2Proof.Machine.execStopRing bytes s
  | .resumeRing bytes => Sys2Proof.Machine.execResumeRing bytes s
  | .queryRing bytes => Sys2Proof.Machine.execQueryRing bytes s
  | .setMeter bytes => Sys2Proof.Machine.execSetMeter bytes s
  | .queryMeter bytes => Sys2Proof.Machine.execQueryMeter bytes s
  | .setTunnel bytes => Sys2Proof.Machine.execSetTunnel bytes s
  | .setWeights bytes => Sys2Proof.Machine.execSetWeights bytes s
  | .queryBelt bytes => Sys2Proof.Machine.execQueryBelt bytes s
  | .queryBin bytes => Sys2Proof.Machine.execQueryBin bytes s
  | .unknownCommand code bytes => Sys2Proof.Machine.execUnknownCommand code bytes s
  | .readTransaction count ends => Sys2Proof.Machine.execReadTransaction count ends s
  | .keptFrameTaken => Sys2Proof.Machine.execKeptFrameTaken s
  | .hello link payload => Sys2Proof.Machine.execHello link payload s
  | .status link payload => Sys2Proof.Machine.execStatus link payload s
  | .arrive link payload => Sys2Proof.Machine.execArrive link payload s
  | .empty link payload => Sys2Proof.Machine.execEmpty link payload s
  | .done link payload => Sys2Proof.Machine.execDone link payload s
  | .fail link payload => Sys2Proof.Machine.execFail link payload s
  | .abort link payload => Sys2Proof.Machine.execAbort link payload s
  | .advance link payload => Sys2Proof.Machine.execAdvance link payload s
  | .binCleared link payload => Sys2Proof.Machine.execBinCleared link payload s
  | .linkFrameDiscarded link frame => Sys2Proof.Machine.execLinkFrameDiscarded link frame s
  | .unknownMessage link kind payload => Sys2Proof.Machine.execUnknownMessage link kind payload s
  | .silenceExpiry link => Sys2Proof.Machine.execSilenceExpiry link s
  | .workTimeout link => Sys2Proof.Machine.execWorkTimeout link s
  | .unloadWaitLimit => Sys2Proof.Machine.execUnloadWaitLimit s
  | .ageTimerExpiry => Sys2Proof.Machine.execAgeTimerExpiry s
  | .refillTimerExpiry => Sys2Proof.Machine.execRefillTimerExpiry s
  | .moveTimerExpiry => Sys2Proof.Machine.execMoveTimerExpiry s
  | .indexDone => Sys2Proof.Machine.execIndexDone s
  | .indexFault => Sys2Proof.Machine.execIndexFault s
  | .eStopAsserted => Sys2Proof.Machine.execEStopAsserted s
  | .eStopDeasserted => Sys2Proof.Machine.execEStopDeasserted s
  | .reset => Sys2Proof.Machine.execReset s
  | .responseBuilt => Sys2Proof.Machine.execResponseBuilt s

end Sys2Proof.Machine
end

