-- ==== Sys2Proof/Safety.lean ====
section
/-! DEFINITION. Safety.lean: the properties of states that claims are stated with. -/

namespace Sys2Proof.Machine

/-! ## Reading a state -/

/-- The live garment that carries a tag (R5). -/
def State.garment (s : State) (tag : Tag) : Option Garment :=
  (s.findTag tag).map Prod.snd

/-- The messages of a state that another state has not yet sent. -/
def State.sentSince (t s : State) : List Sent :=
  t.sent.drop s.sent.length

/-- The bytes a host clocks after the code byte for a payload: its length and the payload (R194). -/
def hostBytes (payload : List Byte) : List Byte :=
  BitVec.ofNat 8 payload.length :: payload

/-- The row of Table 11-2 that a host command is, as a command of the part. -/
def commandRow (c : HostCmd) (bytes : List Byte) : Instr :=
  match c with
  | .identify => .identify bytes
  | .readCauses => .readCauses bytes
  | .setCauseMask => .setCauseMask bytes
  | .lineReset => .lineReset bytes
  | .setLineLimits => .setLineLimits bytes
  | .loadSku => .loadSku bytes
  | .loadClass => .loadClass bytes
  | .loadDesign => .loadDesign bytes
  | .readEntry => .readEntry bytes
  | .setPattern => .setPattern bytes
  | .admitOrder => .admitOrder bytes
  | .cancelOrder => .cancelOrder bytes
  | .releaseHold => .releaseHold bytes
  | .queryOrder => .queryOrder bytes
  | .listOrders => .listOrders bytes
  | .setScheduler => .setScheduler bytes
  | .queryGarment => .queryGarment bytes
  | .walkFirst => .walkFirst bytes
  | .walkNext => .walkNext bytes
  | .retireGarment => .retireGarment bytes
  | .setStation => .setStation bytes
  | .setStationMode => .setStationMode bytes
  | .queryStation => .queryStation bytes
  | .setPlaten => .setPlaten bytes
  | .startRing => .startRing bytes
  | .stopRing => .stopRing bytes
  | .resumeRing => .resumeRing bytes
  | .queryRing => .queryRing bytes
  | .setMeter => .setMeter bytes
  | .queryMeter => .queryMeter bytes
  | .setTunnel => .setTunnel bytes
  | .setWeights => .setWeights bytes
  | .queryBelt => .queryBelt bytes
  | .queryBin => .queryBin bytes

/-- The port carries out no command and keeps no frame: it is IDLE or HOLDING (R195). -/
structure State.PortReady (s : State) : Prop where
  kept : s.port.kept = none
  ready : ∀ c p, s.port.state ≠ .executing c p

/-- The state once the port has taken a command whose frame has passed the port's checks: it is being carried out, no
response is held, and FEh has been shifted out for each byte of the frame (R194, R195, R197). -/
def State.taken (s : State) (c : HostCmd) (payload : List Byte) : State :=
  { s with
    port := { s.port with state := .executing c payload, reading := none }
    shifted := s.shifted ++ List.replicate (payload.length + 2) 0xFE#8 }

/-- A host command is carried out whole: its frame ends and is taken, and then the command completes with its response
held (R195). `u` is the state after both. -/
structure Carries (c : HostCmd) (payload : List Byte) (s u : State) (r : Response) : Prop where
  frame : exec (commandRow c (hostBytes payload)) s = .next (s.taken c payload)
  built : exec .responseBuilt (s.taken c payload) = .next u
  held : u.port.state = .holding r.bytes
  kept : u.port.kept = none
  shifted : u.shifted = (s.taken c payload).shifted

/-- The states agree in everything but the transport of the Host Command Port: its state, frame buffer and read
transaction, and the bytes shifted out. -/
def State.sameLine (s t : State) : Prop :=
  { t with
    port := { t.port with state := s.port.state, kept := s.port.kept, reading := s.port.reading }
    shifted := s.shifted } = s

/-! ## Frames -/

/-- The parts of the state that a command may leave as they are. `transport` is the port's state, frame buffer and read
transaction with the bytes shifted out; `settings` is the cause mask and the reset indicator. -/
inductive Area where
  | garments | orders | sched | refs | stations | ring | meter | cure | bins | limits | causes | settings | transport
  | messages | reads
  deriving DecidableEq, Repr

/-- Every part but those listed is the same in both states, and so is the queue. -/
structure State.sameBut (s : State) (changed : List Area) (t : State) : Prop where
  garments : Area.garments ∉ changed → t.garments = s.garments
  orders : Area.orders ∉ changed → t.orders = s.orders
  sched : Area.sched ∉ changed → t.sched = s.sched
  refs : Area.refs ∉ changed → t.refs = s.refs
  stations : Area.stations ∉ changed → t.stations = s.stations
  ring : Area.ring ∉ changed → t.ring = s.ring
  meter : Area.meter ∉ changed → t.meter = s.meter
  cure : Area.cure ∉ changed → t.cure = s.cure
  bins : Area.bins ∉ changed → t.bins = s.bins
  limits : Area.limits ∉ changed → t.limits = s.limits
  causes : Area.causes ∉ changed → t.port.causes = s.port.causes
  settings : Area.settings ∉ changed → t.port.mask = s.port.mask ∧ t.port.resetIndicator = s.port.resetIndicator
  transport : Area.transport ∉ changed →
    t.port.state = s.port.state ∧ t.port.kept = s.port.kept ∧ t.port.reading = s.port.reading ∧ t.shifted = s.shifted
  messages : Area.messages ∉ changed → t.sent = s.sent
  reads : Area.reads ∉ changed → t.freeReads = s.freeReads
  queue : t.pending = s.pending

/-! ## Messages of stations -/

/-- A framed message that passes the checks of R82 on a link that is UP. -/
structure State.Hears (s : State) (l : Link) (kind : Byte) (payload : List Byte) : Prop where
  up : (s.station l).up = true
  ok : messageOk l kind payload = true

/-- What a link's station holds once a message has restarted its silence timer and been answered by anything but a refusal
(R86, R97). -/
def Station.answered (x : Station) : Station :=
  { x with silenceTimer := some 2000, refusalSeen := false }

/-- A message answered by anything but a refusal: the link's station is as given, no other station changes, and the one
message sent is the answer. -/
structure State.Answers (s : State) (l : Link) (x : Station) (m : Message) (t : State) : Prop where
  station : t.station l = x
  others : ∀ n, n ≠ l → t.station n = s.station n
  reply : t.sent = s.sent ++ [⟨l, m⟩]

/-- What a link's station holds once a message on a link that is UP has restarted its silence timer (R86). -/
def Station.heard (x : Station) : Station :=
  { x with silenceTimer := some 2000 }

/-- A message refused: its station is as given but for the refusal-seen flag, which is set, STATION_REFUSAL is set under
ALL, or under FIRST when the flag was clear, and the one message sent is the REFUSE (R83, R97). -/
structure State.Refuses (s : State) (l : Link) (x : Station) (code : RefusalCode) (kind : Byte) (echo : Byte × Tag)
    (t : State) : Prop where
  station : t.station l = { x with refusalSeen := true }
  others : ∀ n, n ≠ l → t.station n = s.station n
  causes : t.port.causes = if (s.station l).attention = .all ∨ (s.station l).refusalSeen = false
    then s.port.causes ||| Cause.stationRefusal.field else s.port.causes
  reply : t.sent = s.sent ++ [⟨l, .refuse code kind echo.1 echo.2⟩]

/-- A verdict given: the record is open, its timer runs, a work verdict has cleared the expired-verdict memory, and the
VERDICT has been sent (R90, R93). -/
def State.Gives (s : State) (l : Link) (v : OpenVerdict) (t : State) : Prop :=
  s.Answers l { (s.station l).answered with
      verdict := some v, workTimer := s.limits.timerFor l v
      expired := if v.cls = .work then none else (s.station l).expired }
    (.verdict (platenByte v.platen) v.tag v.verdict v.param1 v.param2) t

/-- A report on a held platen from an ACTIVE ring station with no verdict open, while the ring runs: it is evaluated by the
station's decision list (R91, R112 to R115). -/
structure State.Presents (s : State) (l : Link) (kind : Byte) (payload : List Byte) (k : Nat) : Prop where
  hears : s.Hears l kind payload
  atRing : l.isRing = true
  active : (s.station l).mode = .active
  noVerdict : s.verdictOf l = none
  running : s.ring.state = .running ∨ s.ring.state = .stopping
  idle : s.ring.cycle = .idle
  platen : platenOf payload = some k
  facing : s.facing l = some k
  held : (s.platen k).held = true

/-- An ARRIVE or an EMPTY as a command, by its kind byte. -/
def reportRow (kind : Byte) (l : Link) (payload : List Byte) : Instr :=
  if kind = kindArrive then .arrive l payload else .empty l payload

/-- A DONE, FAIL or ABORT as a command, by its kind byte. -/
def closeRow (kind : Byte) (l : Link) (payload : List Byte) : Instr :=
  if kind = kindDone then .done l payload else if kind = kindFail then .fail l payload else .abort l payload

/-- A PASS in answer to an ARRIVE or an EMPTY (R83). -/
def passFor (kind : Byte) (payload : List Byte) : Message :=
  .verdict (payload.headD 0#8) (if kind = kindArrive then tagField payload 1 else 0#48) .pass 0 0

/-- A garment presented by an ARRIVE on the platen it is recorded on. -/
structure State.Brings (s : State) (l : Link) (payload : List Byte) (k pos : Nat) (g : Garment) : Prop where
  presents : s.Presents l kindArrive payload k
  tag : tagField payload 1 = g.tag
  live : s.findTag g.tag = some (pos, g)
  occupied : (s.platen k).state = .occupied
  recorded : (s.platen k).tag = some g.tag

/-- The ring once the hold on a platen has been released, with the index test that follows (R108, R109). -/
def State.ringReleased (s : State) (k : Option Nat) : Ring :=
  ((s.releaseHold k).settleRing s).ring

/-- A record written in place, nothing else of the Garment Table changed. -/
def State.recordIs (s : State) (pos : Nat) (g : Garment) (t : State) : Prop :=
  t.garments = { s.garments with records := s.garments.records.put pos g }

/-- A report that matches a station's open verdict (R92). -/
structure State.Reports (s : State) (l : Link) (kind : Byte) (payload : List Byte) (v : OpenVerdict) : Prop where
  hears : s.Hears l kind payload
  opened : s.verdictOf l = some v
  platen : platenOf payload = v.platen
  tag : tagField payload 1 = v.tag

/-- A line that wants a garment of a SKU, and for a printed garment of a design, among a set of lines (R48). -/
structure State.Wants (s : State) (set : LineSet) (sku : Nat) (design : Option Nat) (slot i : Nat) (o : Order) (l : Line) :
    Prop where
  order : s.order slot = some o
  line : o.lines[i]? = some l
  inSet : set.has slot i = true
  taking : o.state = .opened ∨ o.state = .filling
  active : l.state = .active
  sku : l.sku = sku
  design : ∀ d, design = some d → l.design = d
  demand : l.inFlight + l.binned < l.quantity

/-- The scheduling class of an order by the class map as it stands (R49). -/
def State.classOf (s : State) (o : Order) : Nat :=
  s.sched.classMap.getD o.level 0

/-- The line a choice takes for a garment, with the credits after it: of the lines that want the garment, one of the
highest class, in WEIGHTED mode of those with credit, which it spends, after a reload where no class that holds such a
line has credit; within the class the line of the lowest admission sequence, then slot, then line index (R51 to R53). -/
structure State.Chosen (s : State) (set : LineSet) (sku : Nat) (design : Option Nat) (slot i : Nat) (o : Order) (l : Line)
    (credits : List Nat) : Prop where
  wants : s.Wants set sku design slot i o l
  first : ∀ slot' i' o' l', s.Wants set sku design slot' i' o' l' → s.classOf o' = s.classOf o →
    o.admission < o'.admission ∨
      (o.admission = o'.admission ∧ (slot < slot' ∨ (slot = slot' ∧ i ≤ i')))
  strict : s.sched.mode = .strict → credits = s.sched.credits ∧
    ∀ slot' i' o' l', s.Wants set sku design slot' i' o' l' → s.classOf o' ≤ s.classOf o
  weighted : s.sched.mode = .weighted →
    (0 < s.sched.credits.getD (s.classOf o) 0 ∧ credits = modifyAt s.sched.credits (s.classOf o) (· - 1) ∧
      ∀ slot' i' o' l', s.Wants set sku design slot' i' o' l' → s.classOf o < s.classOf o' →
        s.sched.credits.getD (s.classOf o') 0 = 0) ∨
    (credits = modifyAt s.sched.weights (s.classOf o) (· - 1) ∧
      ∀ slot' i' o' l', s.Wants set sku design slot' i' o' l' → s.classOf o' ≤ s.classOf o ∧
        s.sched.credits.getD (s.classOf o') 0 = 0)

/-- What a garment's record holds once it has been bound to a line: the line's design and, for a BLANK garment, full
pulses computed afresh, with the completion test where its class is pretreated (R54). -/
def State.boundRecord (s : State) (g : Garment) (b : Binding) (design : Nat) : Garment :=
  let full := if g.stage = .blank then s.fullPulses design g.cls else g.full
  { g with
    binding := some b, design := design, full := full
    stage := if g.stage = .blank ∧ 0 < (s.classEntry g.cls).rate ∧ full * 9 ≤ g.delivered * 10 then .treated
      else g.stage }

/-- An orphan bound to a line: its record, F of the line, the counts of the two designs and the credits change, and
nothing else (R54). -/
structure State.BindsOrphan (s : State) (pos : Nat) (g : Garment) (slot i design : Nat) (credits : List Nat) (t : State) :
    Prop where
  record : s.recordIs pos (s.boundRecord g ⟨slot, i⟩ design) t
  line : ∀ k, t.order k = (s.order k).map fun o =>
    if k = slot then { o with lines := modifyAt o.lines i fun l => { l with inFlight := l.inFlight + 1 } } else o
  pool : { t.orders with slots := s.orders.slots } = s.orders
  sched : t.sched = { s.sched with credits := credits }
  designs : ∀ d, t.refs.designs.find d = (s.refs.designs.find d).map fun e => { e with
    count := if g.design = design then e.count else if d = g.design then e.count - 1
      else if d = design then e.count + 1 else e.count }
  refs : { t.refs with designs := s.refs.designs } = s.refs
  rest : s.sameBut [.garments, .orders, .sched, .refs] t

/-- The tags of the offerable orphans, each once, in the order in which an offering takes them: printed ones first, each
group in load sequence order with ties by position (R60, R62). -/
structure State.OfferOrder (s : State) (tags : List Tag) : Prop where
  offerable : ∀ tag, tag ∈ tags ↔ ∃ pos g, s.garments.records.find pos = some g ∧ g.tag = tag ∧ g.kind = .order ∧
    g.binding = none ∧ g.spoiled = false ∧ ∀ l v, s.verdictOf l = some v → v.tag ≠ tag
  inOrder : tags.Pairwise fun a b => ∀ p g q h,
    s.garments.records.find p = some g → g.tag = a → s.garments.records.find q = some h → h.tag = b →
    (g.stage = .printed ∧ h.stage ≠ .printed) ∨
      ((g.stage = .printed ↔ h.stage = .printed) ∧ (g.loadSeq < h.loadSeq ∨ (g.loadSeq = h.loadSeq ∧ p < q)))

/-- Orphans examined in turn by an offering to a set of lines, with the number it binds: one that no line of the set then
wants stays an orphan, and any other is bound to the line chosen for it, a printed one only to a line of its design
(R48, R62). -/
inductive Offering (set : LineSet) : List Tag → State → State → Nat → Prop
  | done (s : State) : Offering set [] s s 0
  | stays {s t : State} {n pos : Nat} {g : Garment} {tags : List Tag} (tag : Tag)
      (live : s.findTag tag = some (pos, g))
      (unwanted : ∀ slot i o l,
        ¬ s.Wants set g.sku (if g.stage = .printed then some g.design else none) slot i o l)
      (more : Offering set tags s t n) : Offering set (tag :: tags) s t n
  | binds {s u t : State} {n pos slot i : Nat} {g : Garment} {o : Order} {l : Line} {credits : List Nat} {tags : List Tag}
      (tag : Tag) (live : s.findTag tag = some (pos, g))
      (chosen : s.Chosen set g.sku (if g.stage = .printed then some g.design else none) slot i o l credits)
      (bound : s.BindsOrphan pos g slot i l.design credits u)
      (more : Offering set tags u t n) : Offering set (tag :: tags) s t (n + 1)

/-- The offering of a state's orphans to a set of lines, with the state after it and the number bound (R62). -/
def State.Offers (s : State) (set : LineSet) (t : State) (bound : Nat) : Prop :=
  ∃ tags, s.OfferOrder tags ∧ Offering set tags s t bound

/-- Between the states no open verdict begins or ceases to name a garment of another tag than the one given. -/
def State.namesSame (s : State) (tag : Tag) (t : State) : Prop :=
  ∀ other, other ≠ tag →
    ((∃ l v, s.verdictOf l = some v ∧ v.tag = other) ↔ ∃ l v, t.verdictOf l = some v ∧ v.tag = other)

/-- A garment at a position has left the order that it was bound to: what is live there is bound to no line of it, and, if
the order stands, F of its line has fallen by one (R30, R41, R58, R59). -/
structure State.LeavesOrder (s : State) (pos : Nat) (b : Binding) (t : State) : Prop where
  unbound : ∀ g c, t.garments.records.find pos = some g → g.binding = some c → c.slot ≠ b.slot
  fallen : ∀ o o', s.order b.slot = some o → t.order b.slot = some o' →
    (o'.lines[b.line]?).map Line.inFlight = (o.lines[b.line]?).map fun l => l.inFlight - 1

/-- The VERDICT that tells UNLOAD of a lane handed to its WAIT (R141). -/
def laneMessage (v : OpenVerdict) (n : Nat) : Sent :=
  ⟨.unload, .verdict (platenByte v.platen) v.tag .toBelt n 0⟩

/-- A lane handed to the WAIT open at UNLOAD: in place, its record is of class WORK with verdict TO_BELT and the lane, the
work timer runs with UNLOAD's work timeout, and the lane is reserved for its garment (R90, R93, R141, R162). -/
structure State.HandsLane (s : State) (v : OpenVerdict) (n : Nat) (t : State) : Prop where
  station : t.station .unload = { s.station .unload with
    verdict := some { v with verdict := .toBelt, cls := .work, param1 := n, lane := some n }
    workTimer := some s.limits.toUnload, expired := none }
  lane : (t.lane n).reservation = some v.tag

/-- No live garment of the tag is bound to an order being cancelled. -/
def State.notCancelled (s : State) (g : Garment) : Prop :=
  ∀ b o, g.binding = some b → s.order b.slot = some o → o.state ≠ .cancelling

/-- A report that has closed a verdict: the record is gone, its timer stopped, and the reply is ACK with the mode (R92). -/
def State.Closes (s : State) (l : Link) (kind : Byte) (t : State) : Prop :=
  s.Answers l { (s.station l).answered with verdict := none, workTimer := none } (.ack kind (s.station l).mode) t

/-! ## Invariants -/

/-- Both buckets are within their sizes (R145). -/
def Meter.ok (m : Meter) : Prop :=
  m.bc ≤ m.cbs ∧ m.be ≤ m.ebs

/-- The ring's safety: it is HALTED whenever E-STOP is asserted (R116); while the cycle is MOVING the move timer runs and
no platen is held (R109, R112); while it is IDLE the move timer is stopped; and in STOPPED and HALTED the cycle is IDLE
and no platen is held (R105, R117). -/
structure RingSafe (s : State) : Prop where
  eStop : s.ring.eStop = true → s.ring.state = .halted
  moving : s.ring.cycle = .moving → s.anyHeld = false ∧ s.ring.moveTimer.isSome = true
  idle : s.ring.cycle = .idle → s.ring.moveTimer = none
  still : s.ring.state = .stopped ∨ s.ring.state = .halted → s.ring.cycle = .idle ∧ s.anyHeld = false

/-- A station's safety: it is OFFLINE exactly while its link is DOWN (R84 to R86), and a station that is not ACTIVE holds
no WAIT (R88). -/
structure StationSafe (x : Station) : Prop where
  offline : x.mode = .offline ↔ x.up = false
  wait : ∀ v, x.verdict = some v → v.cls = .wait → x.mode = .active

/-- Every station is safe. -/
def StationsSafe (s : State) : Prop :=
  ∀ l, StationSafe (s.station l)

/-- Bits 13 to 15 of the cause field and of the mask are 0 (R202, R204). -/
def CausesSafe (s : State) : Prop :=
  s.port.causes &&& ~~~causeBits = 0#16 ∧ s.port.mask &&& ~~~causeBits = 0#16

/-- The scheduler's configuration and credits are within their ranges: a map of 8 entries from 0 to 3, four weights from 1
to 15, and four credits of at most 15 (R49, R50, Table 3-1). -/
structure Scheduler.Safe (c : Scheduler) : Prop where
  mapLength : c.classMap.length = 8
  map : ∀ k ∈ c.classMap, k ≤ 3
  weightsLength : c.weights.length = 4
  weights : ∀ w ∈ c.weights, 1 ≤ w ∧ w ≤ 15
  creditsLength : c.credits.length = 4
  credits : ∀ k ∈ c.credits, k ≤ 15

/-- Every table is in its canonical form: numbers strictly rising, and nothing listed that an unlisted number reads as
(log 28). -/
structure TablesOk (s : State) : Prop where
  records : s.garments.records.wf = true
  patterns : s.garments.patterns.wfDefault {} = true
  slots : s.orders.slots.wf = true
  skus : s.refs.skus.wf = true
  classes : s.refs.classes.wf = true
  designs : s.refs.designs.wf = true
  platens : s.ring.platens.wfDefault {} = true
  lanes : s.cure.lanes.wfDefault {} = true
  bins : s.bins.records.wfDefault {} = true

/-- Every live record stands in the bucket of its tag, and no two carry one tag (R4, R10). -/
structure TagsOk (records : Table Garment) : Prop where
  bucket : ∀ pos g, records.find pos = some g → pos ∈ tagWays g.tag
  single : ∀ p q g h, records.find p = some g → records.find q = some h → g.tag = h.tag → p = q

/-- The Garment Table is as R4 and R10 have it. -/
def TagsSafe (s : State) : Prop :=
  TagsOk s.garments.records

/-! ## Retirements and halts -/

/-- What a station holds once the garment of a tag has been retired: an open verdict that names it has ended and its timer
stopped, and an expired-verdict memory of it is cleared (R20, R93). -/
def Station.without (x : Station) (tag : Tag) : Station :=
  { x with
    verdict := x.verdict.filter fun v => v.tag ≠ tag
    workTimer := if x.verdict.any fun v => v.tag = tag then none else x.workTimer
    expired := x.expired.filter fun e => e.tag ≠ tag }

/-- What a retirement gives back whatever its reason: the garment's platen, its places in the exit queue and on the
overflow list, its hold cell, its lanes, the count of its class, the holds and timers of the verdicts that name it and the
hold cells taken at them, but for `own`, the station whose report or undo it is. A lane that is then free goes to a WAIT
open at UNLOAD for another garment, the lowest first, with the VERDICT in `served`; the cells of an order freed with it
return too (R18, R20, R42, R141, R162). -/
structure State.GivesBack (s : State) (own : Option Link) (g : Garment) (t : State) (served : List Sent) : Prop where
  platens : ∀ k, t.platen k =
    { state := if g.location = .ring k then .empty else (s.platen k).state
      tag := if g.location = .ring k then none else (s.platen k).tag
      held := (s.platen k).held && !Link.all.any fun n => (s.verdictOf n).any fun v => v.tag = g.tag ∧ v.platen = some k }
  exitQueue : t.cure.exitQueue =
    if g.location = .exit then s.cure.exitQueue.filter (· ≠ g.tag) else s.cure.exitQueue
  overflow : t.bins.overflow =
    if g.location = .overflow then s.bins.overflow.filter (· ≠ g.tag) else s.bins.overflow
  cells : let back := s.orders.freeCells + (if g.location = .overflow then 1 else 0) +
      (Link.all.filter fun n => some n ≠ own ∧ (s.verdictOf n).any fun v => v.tag = g.tag ∧ v.holdTaken).length
    (∀ b o, g.binding = some b → s.order b.slot = some o → t.order b.slot = none →
      t.orders.freeCells = back + o.lines.length) ∧
    ((∀ b, g.binding = some b → t.order b.slot = none → s.order b.slot = none) → t.orders.freeCells = back)
  lanes : let lane := fun k => if (s.lane k).reservation = some g.tag then { s.lane k with reservation := none }
      else s.lane k
    ((∀ w, s.verdictOf .unload = some w → w.cls = .work ∨ w.tag = g.tag) ∨ (∀ k, k ≤ 3 → (lane k).free = false) →
      served = [] ∧ ∀ k, k ≤ 3 → t.lane k = lane k) ∧
    (∀ w n, s.verdictOf .unload = some w → w.cls = .wait → w.tag ≠ g.tag → n ≤ 3 → (lane n).free = true →
      (∀ j, j < n → (lane j).free = false) →
      served = [laneMessage w n] ∧ s.HandsLane w n t ∧ ∀ k, k ≤ 3 → k ≠ n → t.lane k = lane k)
  tunnel : { t.cure with lanes := s.cure.lanes, exitQueue := s.cure.exitQueue } = s.cure
  stations : ∀ n, some n ≠ own → (n ≠ .unload ∨ served = []) → t.station n = (s.station n).without g.tag
  classes : ∀ k, t.refs.classes.find k = (s.refs.classes.find k).map fun e =>
    { e with count := if k = g.cls then e.count - 1 else e.count }

/-- An order whose line has lost one garment in flight (R30). -/
def Order.less (o : Order) (i : Nat) : Order :=
  { o with lines := modifyAt o.lines i fun l => { l with inFlight := l.inFlight - 1 } }

/-- The loss of one garment in flight on a line leaves an order that is being cancelled with no garment bound to it, and
it names no bin (R41). -/
def Order.LeftEmpty (o : Order) (i : Nat) : Prop :=
  o.state = .cancelling ∧ o.bin = none ∧ ∀ l ∈ (o.less i).lines, l.inFlight = 0

/-- F of the line a retired garment was bound to has fallen by one, and an order being cancelled that is left empty is
freed; no other order changes (R19, R30, R41, R42). -/
structure State.LeavesLine (s : State) (b : Binding) (o : Order) (t : State) : Prop where
  others : ∀ k, k ≠ b.slot → t.order k = s.order k
  freed : o.LeftEmpty b.line → t.order b.slot = none ∧ t.pendingCause .orderFreed = true
  stands : ¬ o.LeftEmpty b.line → t.order b.slot = some (o.less b.line)

/-- The end of the binding of a garment retired MANUAL or LOST: nothing for an unbound one; for a line that can take
garments F falls by one, its counts Bn and K and every state stand, and it is then offered the orphans; no line of an
order being cancelled takes one (R19, R48, R51 to R54, R60 to R62, Table 1-6). -/
structure State.EndsBinding (s : State) (pos : Nat) (g : Garment) (t : State) : Prop where
  unbound : g.binding = none →
    t.garments = { s.garments with records := s.garments.records.erase pos } ∧
    (∀ k, t.refs.skus.find k = (s.refs.skus.find k).map fun e =>
      { e with count := if k = g.sku then e.count - 1 else e.count }) ∧
    (∀ k, t.refs.designs.find k = (s.refs.designs.find k).map fun e =>
      { e with count := if k = g.design then e.count - 1 else e.count }) ∧
    t.orders.slots = s.orders.slots ∧ t.sched = s.sched
  offered : ∀ b o, g.binding = some b → s.order b.slot = some o → o.state ≠ .cancelling →
    ∃ o', t.order b.slot = some o' ∧ o' = { o with lines := o'.lines } ∧
      o'.lines.map (fun l => { l with inFlight := 0 }) = o.lines.map (fun l => { l with inFlight := 0 }) ∧
      ((∀ x ∈ s.liveGarments, x.binding = none → x.kind = .test) →
        o' = o.less b.line ∧ ∀ k, k ≠ b.slot → t.order k = s.order k) ∧
      (TablesOk s → TagsSafe s → s.sched.Safe → ∃ v n, v.Offers (.line b.slot b.line) t n ∧
        v.order b.slot = some (o.less b.line) ∧ (∀ k, k ≠ b.slot → v.order k = s.order k) ∧
        v.garments = { s.garments with records := s.garments.records.erase pos } ∧ v.sched = s.sched ∧
        v.refs = (s.countGarment g (· - 1)).refs ∧ s.namesSame g.tag v)
  cancelling : TablesOk s → ∀ b o, g.binding = some b → s.order b.slot = some o → o.state = .cancelling →
    t.garments = { s.garments with records := s.garments.records.erase pos } ∧ t.sched = s.sched ∧ s.LeavesLine b o t

/-- A station's open verdict has ended with its timer stopped and the hold on its platen released, no other station or
platen changed (R90, R108). -/
structure State.LiftsVerdict (s : State) (l : Link) (v : OpenVerdict) (t : State) : Prop where
  station : t.station l = { s.station l with verdict := none, workTimer := none }
  others : ∀ n, n ≠ l → t.station n = s.station n
  platens : ∀ k, t.platen k = { s.platen k with held := if v.platen = some k then false else (s.platen k).held }

/-- What a halt does to one ring station: no verdict, no change; a sprayed or printed garment is SPOILED; a PRESS or RETURN
leaves its garment as it is; a WAIT is told PASS; the garment of a LOAD is retired WITHDRAWN and that of a TO_BELT LOST; a
garment of an order being cancelled is then off that order. Modes, the drive and the line's configuration stand, and no
expired-verdict memory is set (R58, R95, R117, Table 5-8). -/
structure State.UndoneAtHalt (s : State) (l : Link) (t : State) : Prop where
  none : s.verdictOf l = none → t = s
  rest : s.sameBut [.garments, .orders, .sched, .refs, .stations, .ring, .cure, .bins, .causes, .messages] t
  modes : ∀ n, (t.station n).mode = (s.station n).mode
  drive : { t.ring with platens := s.ring.platens } = s.ring
  bins : { t.bins with overflow := s.bins.overflow } = s.bins
  cells : s.orders.freeCells ≤ t.orders.freeCells
  kept : (TablesOk s → TablesOk t) ∧ (TagsSafe s → TagsSafe t) ∧ (s.sched.Safe → t.sched.Safe)
  spoils : ∀ v pos g, s.verdictOf l = some v → s.findTag v.tag = some (pos, g) → s.notCancelled g →
    v.verdict ∈ [Verdict.spray, .print] →
    s.LiftsVerdict l v t ∧ s.recordIs pos { g with spoiled := true } t ∧ s.sameBut [.garments, .stations, .ring] t
  stands : ∀ v, s.verdictOf l = some v → v.verdict ∈ [Verdict.load, .spray, .print, .press, .ret, .toBelt] →
    (∀ pos g, s.findTag v.tag = some (pos, g) → s.notCancelled g ∧ v.verdict ∈ [Verdict.press, .ret]) →
    s.LiftsVerdict l v t ∧ s.sameBut [.stations, .ring] t
  tellsPass : ∀ v, s.verdictOf l = some v → v.verdict = .wait → (s.station l).up = true →
    (∀ pos g, s.findTag v.tag = some (pos, g) → s.notCancelled g) →
    s.LiftsVerdict l v t ∧ t.sent = s.sent ++ [⟨l, .verdict (platenByte v.platen) v.tag .pass 0 0⟩] ∧
    s.sameBut [.stations, .ring, .messages] t
  withdraws : TagsSafe s → ∀ v pos g, s.verdictOf l = some v → s.findTag v.tag = some (pos, g) → v.verdict = .load →
    ∃ served, s.GivesBack (some l) g t served ∧ t.station l = (s.station l).without v.tag ∧ t.sent = s.sent ++ served ∧
      t.garments = { s.garments with records := s.garments.records.erase pos } ∧ t.sched = s.sched ∧
      (g.binding = Option.none → t.orders.slots = s.orders.slots) ∧
      (∀ b o, g.binding = some b → s.order b.slot = some o → s.LeavesLine b o t) ∧
      ((∀ b o, g.binding = some b → s.order b.slot = some o → ¬ o.LeftEmpty b.line) →
        t.refs = (s.countGarment g (· - 1)).refs ∧ t.port.causes = s.port.causes)
  loses : TagsSafe s → ∀ v pos g, s.verdictOf l = some v → s.findTag v.tag = some (pos, g) → v.verdict = .toBelt →
    ∃ served, s.GivesBack (some l) g t served ∧ t.station l = (s.station l).without v.tag ∧ t.sent = s.sent ++ served ∧
      t.garments.records.find pos = Option.none ∧ s.EndsBinding pos g t ∧ t.pendingCause .garmentLost = true
  leaves : TablesOk s → TagsSafe s → ∀ v pos g b o, s.verdictOf l = some v → s.findTag v.tag = some (pos, g) →
    g.binding = some b → s.order b.slot = some o → o.state = .cancelling →
    v.verdict ∈ [Verdict.spray, .print, .press, .ret, .wait] →
    s.LiftsVerdict l v t ∧ s.LeavesOrder pos b t ∧
      (v.verdict ∈ [Verdict.spray, .print] → ∃ x, t.garments.records.find pos = some x ∧ x.spoiled = true) ∧
      t.sent = s.sent ++ (if v.verdict = .wait ∧ (s.station l).up = true
        then [⟨l, .verdict (platenByte v.platen) v.tag .pass 0 0⟩] else [])

/-- A halt's undo of the verdicts of several stations, one after another (R117). -/
def State.UndoneInOrder (s : State) : List Link → State → Prop
  | [], t => t = s
  | l :: ls, t => ∃ u, s.UndoneAtHalt l u ∧ u.UndoneInOrder ls t

end Sys2Proof.Machine
end

