-- ==== Sys2Proof/Certificates/Slice0/Obligations.lean ====
section
/-! DEFINITION. Certificates/Slice0/Obligations.lean: what the provers are asked about the part. A command "answers a
next state" where `exec` of it is `.next`; a host command answers in two steps, which `Carries` joins (R195; log 2). -/

open Sys2Proof Sys2Proof.Machine

/-! ## The queue -/

/-- Step takes the command at the front of the queue and runs it on the rest; on an empty queue the part idles (the queue
is the model's own: log 1). -/
def Obligations.StepRunsTheFrontCommand : Prop :=
  (∀ (c : Instr) (rest : List Instr) (s : State),
    step { s with pending := c :: rest } = exec c { s with pending := rest }) ∧
  ∀ s : State, s.pending = [] → step s = .next s

/-- Every command completes in every state, and leaves the queue as it is (the queue is the model's own: log 1). -/
def Obligations.EveryCommandCompletes : Prop :=
  ∀ (c : Instr) (s : State), ∃ t, exec c s = .next t ∧ t.pending = s.pending

/-! ## Reset -/

/-- Power-on or the RESET pin leaves every block at its reset values, spelled out here table by table; with E-STOP
deasserted the ring is STOPPED and no flag is pending, and with E-STOP asserted the ring is HALTED and RING_HALTED alone
is set (R121, R206; Tables 3-1, 8-3, 11-3). The pin's level, the queue and the model's output records are not the part's
registers and stay: the model's choice (log 8, log 9). -/
def Obligations.ResetRestoresEveryBlock : Prop :=
  ∀ s : State, ∃ t, exec .reset s = .next t ∧
    (s.ring.eStop = true → t.ring.state = .halted ∧ t.port.causes = Cause.ringHalted.field) ∧
    (s.ring.eStop = false → t.ring.state = .stopped ∧ t.port.causes = 0#16 ∧
      t = { State.reset with sent := s.sent, shifted := s.shifted, freeReads := s.freeReads, pending := s.pending }) ∧
    t.garments = { records := [], patterns := [], loadSeq := 0, cursor := .none, ageTimer := 10 } ∧
    (∀ k, t.order k = none) ∧ t.orders.freeCells = 384 ∧ t.orders.admissionSeq = 0 ∧
    t.sched = { classMap := [0, 0, 1, 1, 2, 2, 3, 3], weights := [1, 2, 3, 6], credits := [1, 2, 3, 6],
                mode := .weighted } ∧
    t.refs = { skus := [], classes := [], designs := [] } ∧
    (∀ l, (t.station l).up = false ∧ (t.station l).mode = .offline ∧ (t.station l).firmware = none ∧
      (t.station l).verdict = none ∧ (t.station l).attention = .all ∧ (t.station l).refusalSeen = false ∧
      (t.station l).workTimer = none ∧ (t.station l).silenceTimer = none ∧ (t.station l).expired = none) ∧
    (∀ k, t.platen k = { state := .empty, tag := none, held := false }) ∧ t.anyHeld = false ∧
    t.ring.offset = 0 ∧ t.ring.positions = ⟨0, 4, 7, 11, 15, 20⟩ ∧ t.ring.eStop = s.ring.eStop ∧
    t.ring.cycle = .idle ∧ t.ring.moveTimer = none ∧ t.ring.lapCount = 0 ∧ t.ring.lapSynced = false ∧
    t.meter = { cbs := 400, ebs := 600, bc := 400, be := 600, period := 1000, running := 1000, pulse := 3 } ∧
    t.cure.beltCount = 0#32 ∧ (t.cure.e0, t.cure.z1, t.cure.z2, t.cure.z3) = (40, 300, 300, 300) ∧
    t.cure.spacing = 60 ∧ (∀ k, t.lane k = { lastEntry := none, spaced := false, reservation := none }) ∧
    t.cure.weights = List.replicate 16 0 ∧ t.cure.tbase = 140 ∧ t.cure.tstep = 5 ∧ t.cure.exitQueue = [] ∧
    (∀ k, t.bin k = { state := .free, order := none }) ∧ t.bins.overflow = [] ∧
    t.limits = {
      agePeriod := 10, ageLimit := 12, lapLimit := 3, reprintLimit := 3, unloadWait := 30, holdReserve := 32
      retention := 12, moveLimit := 5, toLoad := 60, toPretreat := 30, toPress := 90, toPrintA := 120, toPrintB := 120
      toUnload := 30, toMatching := 60 } ∧
    t.port.state = .idle ∧ t.port.kept = none ∧ t.port.reading = none ∧ t.port.mask = 0#16 ∧
    t.port.resetIndicator = true ∧ t.attn = false ∧
    t.sent = s.sent ∧ t.shifted = s.shifted ∧ t.freeReads = s.freeReads ∧ t.pending = s.pending

/-- After reset the Order Table is empty (R45). -/
def Obligations.ResetEmptiesTheOrderTable : Prop :=
  ∀ s : State, ∃ t, exec .reset s = .next t ∧ (∀ k, t.order k = none) ∧ t.orders.freeCells = 384 ∧
    t.orders.admissionSeq = 0 ∧ t.limits.holdReserve = 32 ∧ t.holdCells = 0 ∧ t.limits.reprintLimit = 3

/-- After reset the meter is full at its default configuration, and its first expiry, one running period of 1000 units of
100 µs after, drops its token (R156). -/
def Obligations.ResetFillsTheMeter : Prop :=
  ∀ s : State, ∃ t, exec .reset s = .next t ∧
    t.meter = { cbs := 400, ebs := 600, bc := 400, be := 600, period := 1000, running := 1000, pulse := 3 } ∧
    exec .refillTimerExpiry t = .next t ∧ t.liveGarments = []

/-! ## Invariants -/

/-- Every step keeps the ring's safety: E-STOP asserted means HALTED (R116); INDEX GO means that no platen is held and the
move timer runs (R109, R112); STOPPED and HALTED mean that the drive is idle and nothing is held (R105, R117). -/
def Obligations.StepKeepsRingSafe : Prop :=
  ∀ s t : State, RingSafe s → step s = .next t → RingSafe t

/-- Every step keeps the stations' safety: OFFLINE exactly while the link is DOWN (R84 to R87), and no WAIT but at an
ACTIVE station (R88). -/
def Obligations.StepKeepsStationsSafe : Prop :=
  ∀ s t : State, StationsSafe s → step s = .next t → StationsSafe t

/-- Every step keeps both buckets within their sizes (R145), bits 13 to 15 of the cause field and of the mask at 0 (R202,
R204), and the scheduler's map, weights and credits within their ranges (R49, R50, Table 3-1). -/
def Obligations.StepKeepsBucketsAndCauseBits : Prop :=
  ∀ s t : State, step s = .next t →
    (s.meter.ok → CausesSafe s → t.meter.ok ∧ CausesSafe t) ∧ (s.sched.Safe → t.sched.Safe)

/-- Every step keeps every table in its canonical form (the model's own form: log 28), and keeps every live record in the
bucket of its tag with no two records of one tag (R4, R10). -/
def Obligations.StepKeepsTablesCanonical : Prop :=
  (∀ s t : State, TablesOk s → step s = .next t → TablesOk t) ∧
  ∀ s t : State, TagsSafe s → step s = .next t → TagsSafe t

/-- The invariants hold right after reset. -/
def Obligations.InvariantsHoldAtReset : Prop :=
  RingSafe State.reset ∧ StationsSafe State.reset ∧ State.reset.meter.ok ∧ CausesSafe State.reset ∧
    TablesOk State.reset ∧ TagsSafe State.reset ∧ State.reset.sched.Safe

/-- A message sent is never taken back: what the part has sent before a command is the beginning of what it has sent after
it (the record of messages is the model's: log 9). -/
def Obligations.MessagesAreNeverTakenBack : Prop :=
  ∀ (c : Instr) (s t : State), exec c s = .next t → s.sent <+: t.sent

/-- A flag that is pending stays pending through every command but reset and the completion of READ CAUSES (R202). -/
def Obligations.FlagsStayPending : Prop :=
  ∀ (c : Instr) (s t : State), exec c s = .next t → c ≠ .reset →
    (c = .responseBuilt ∨ c = .keptFrameTaken → ∀ p, s.port.state ≠ .executing .readCauses p) →
    ∀ f : Cause, s.pendingCause f = true → t.pendingCause f = true

/-! ## The Host Command Port -/

/-- A frame that passes the port's checks is taken: the command is being carried out, a held response is discarded, and
nothing else changes (R194, R195, R197). -/
def Obligations.GoodFrameIsTaken : Prop :=
  ∀ (c : HostCmd) (payload : List Byte) (s : State), s.PortReady → payload.length ≤ 255 →
    c.lengthFits payload = true → exec (commandRow c (hostBytes payload)) s = .next (s.taken c payload)

/-- A frame shorter than 2 bytes, whose payload differs in number from its length byte, or whose length byte differs from
the command's, is refused BAD_LENGTH, and one whose code names no command is refused UNKNOWN_COMMAND, with no payload and
no other change (R198). -/
def Obligations.BadFrameIsRefused : Prop :=
  ∀ (s : State) (bytes : List Byte), s.PortReady →
    (∀ c : HostCmd, (bytes = [] ∨ ∃ len payload, bytes = len :: payload ∧
        (payload.length ≠ len.toNat ∨ c.lengthFits payload = false)) →
      exec (commandRow c bytes) s = .next { s with
        port := { s.port with state := .holding [0x02#8, 0x00#8, 0x00#8], reading := none }
        shifted := s.shifted ++ List.replicate (bytes.length + 1) 0xFE#8 }) ∧
    (∀ code : Byte, code ≠ 0x00#8 → HostCmd.ofCode code = none →
      exec (.unknownCommand code bytes) s = .next { s with
        port := { s.port with state := .holding [0x01#8, 0x00#8, 0x00#8], reading := none }
        shifted := s.shifted ++ List.replicate (bytes.length + 1) 0xFE#8 })

/-- A frame that ends while a command is being carried out is kept, in the place of one kept before. When the running
command's change is complete its response is held; with a frame kept the effects stand all the same, the response is
discarded, and the kept frame, here one that passes the port's checks, is taken (R195). -/
def Obligations.CompletionHoldsOrTakesTheKeptFrame : Prop :=
  ∀ (s : State) (c : HostCmd) (payload : List Byte), s.port.state = .executing c payload →
    (∀ (d : HostCmd) (bytes : List Byte), exec (commandRow d bytes) s = .next { s with
      port := { s.port with kept := some ⟨d.code, bytes⟩, reading := none }
      shifted := s.shifted ++ List.replicate (bytes.length + 1) 0xFE#8 }) ∧
    ∃ (v : State) (r : Response), ownerChange c payload s = (v, r) ∧
      (s.port.kept = none →
        exec .responseBuilt s = .next { v.finish s with port := { (v.finish s).port with state := .holding r.bytes } }) ∧
      (∀ (k : HostCmd) (next : List Byte), s.port.kept = some ⟨k.code, hostBytes next⟩ → next.length ≤ 255 →
        k.lengthFits next = true →
        exec .keptFrameTaken s =
          .next { v.finish s with port := { (v.finish s).port with state := .executing k next, kept := none } })

/-- A read transaction shifts out FEh, and then the response from its status byte and FEh after it; read to its last
byte the response is gone, and otherwise it stays held whole. In IDLE every byte is FEh, in EXECUTING FFh (R194, R196).
A read transaction taken in two pieces is the whole one: the model's choice of operands (log 3). -/
def Obligations.ReadTransactionShiftsTheResponse : Prop :=
  (∀ (s : State) (m n : Nat) (e : Bool), ∃ t, exec (.readTransaction m false) s = .next t ∧
    exec (.readTransaction n e) t = exec (.readTransaction (m + n) e) s) ∧
  ∀ (s : State) (n : Nat), s.port.reading = none →
    (∀ r, s.port.state = .holding r → r ≠ [] →
      exec (.readTransaction n true) s = .next { s with
        port := { s.port with state := if r.length ≤ n then .idle else .holding r }
        shifted := s.shifted ++ 0xFE#8 :: (r.take n ++ List.replicate (n - r.length) 0xFE#8) }) ∧
    (s.port.state = .idle →
      exec (.readTransaction n true) s = .next { s with
        shifted := s.shifted ++ List.replicate (n + 1) 0xFE#8 }) ∧
    (∀ c p, s.port.state = .executing c p →
      exec (.readTransaction n true) s = .next { s with
        shifted := s.shifted ++ 0xFE#8 :: List.replicate n 0xFF#8 })

/-- IDENTIFY returns the device number 17E8h, the silicon revision, the reset indicator as it stands and the capacities,
and clears the indicator (R200). -/
def Obligations.IdentifyReportsAndClears : Prop :=
  ∀ s : State, s.PortReady → ∃ u,
    Carries .identify [] s u (accepted ([0x17#8, 0xE8#8, Config.siliconRevision] ++
      [if s.port.resetIndicator then 0x01#8 else 0x00#8] ++
      [0x02#8, 0x00#8, 0x40#8, 0x01#8, 0x80#8, 0x30#8, 0x18#8, 0x08#8])) ∧
    State.sameLine { s with port := { s.port with resetIndicator := false } } u

/-- READ CAUSES reports the pending field and the mask, clears every flag that it found pending, and so deasserts ATTN.
SET CAUSE MASK replaces the mask and returns it with the pending field, or is refused BAD_ARGUMENT for a 1 in bits 13 to
15; ATTN is then asserted exactly while a flag is both pending and unmasked (R203, R204). -/
def Obligations.CausesAndMaskFollowTheirCommands : Prop :=
  ∀ (s : State) (payload : List Byte), s.PortReady →
    (∃ u, Carries .readCauses [] s u (accepted (beBytes 2 s.port.causes.toNat ++ beBytes 2 s.port.mask.toNat)) ∧
      State.sameLine { s with port := { s.port with causes := 0#16 } } u ∧ u.attn = false) ∧
    (payload.length = 2 → ∃ u,
      let mask := BitVec.ofNat 16 (field payload 0 2)
      (mask.toNat < 8192 →
        Carries .setCauseMask payload s u (accepted (beBytes 2 mask.toNat ++ beBytes 2 s.port.causes.toNat)) ∧
        State.sameLine { s with port := { s.port with mask := mask } } u ∧
        (u.attn = true ↔ ∃ i : Nat, s.port.causes.getLsbD i = true ∧ mask.getLsbD i = true)) ∧
      (8192 ≤ mask.toNat → Carries .setCauseMask payload s u (refusedWith .badArgument) ∧ s.sameLine u))

/-! ## Reference tables and tag patterns -/

/-- LOAD SKU makes its checks in order: BAD_ARGUMENT for a validity that is neither yes nor no or a class above 31, IN_USE
for an entry that is referred to, NOT_FOUND for an invalid class; a refused command changes nothing. Once they pass it
makes the entry valid with the given class or makes it invalid; the count of a class no longer named falls by one and
that of a class newly named rises by one; nothing else changes (R74, R75). -/
def Obligations.LoadSkuWritesTheEntry : Prop :=
  ∀ (s : State) (payload : List Byte), s.PortReady → payload.length = 3 →
    let sku := field payload 0 1
    let cls := field payload 2 1
    let refused := fun st => ∃ u, Carries .loadSku payload s u (refusedWith st) ∧ s.sameLine u
    let unused := ∀ e, s.refs.skus.find sku = some e → e.count = 0
    (yesNo (field payload 1 1) = none → refused .badArgument) ∧
    ∀ valid, yesNo (field payload 1 1) = some valid →
      let old := (s.refs.skus.find sku).map SkuEntry.cls
      let new := if valid then some cls else none
      (valid = true → 31 < cls → refused .badArgument) ∧
      ((valid = true → cls ≤ 31) → ¬ unused → refused .inUse) ∧
      (valid = true → cls ≤ 31 → unused → s.refs.classes.find cls = none → refused .notFound) ∧
      ((valid = true → cls ≤ 31 ∧ (s.refs.classes.find cls).isSome) → unused →
        ∃ u, Carries .loadSku payload s u (accepted []) ∧
          u.refs.skus.find sku = new.map (fun c => ⟨c, 0⟩) ∧
          (∀ k, k ≠ sku → u.refs.skus.find k = s.refs.skus.find k) ∧
          (∀ k, u.refs.classes.find k = (s.refs.classes.find k).map fun e =>
            { e with count := if old = new then e.count else if old = some k then e.count - 1
              else if new = some k then e.count + 1 else e.count }) ∧
          State.sameLine { s with refs.skus := u.refs.skus, refs.classes := u.refs.classes } u)

/-- LOAD CLASS is refused BAD_ARGUMENT for a class above 31, a validity that is neither yes nor no, or a field of an
entry to be made valid out of its range, and IN_USE for an entry that is referred to; a refused command changes nothing.
Otherwise it makes the entry valid with the given fields or makes it invalid, and changes nothing else (R74, R76). -/
def Obligations.LoadClassWritesTheEntry : Prop :=
  ∀ (s : State) (payload : List Byte), s.PortReady → payload.length = 12 →
    let n := field payload 0 1
    let refused := fun st => ∃ u, Carries .loadClass payload s u (refusedWith st) ∧ s.sameLine u
    let unused := ∀ e, s.refs.classes.find n = some e → e.count = 0
    let ranges := (field payload 2 1 = 0 ∨ field payload 2 1 = 1) ∧ field payload 4 1 ≤ 60 ∧ field payload 5 1 ≤ 30 ∧
      field payload 8 2 ≤ 16000 ∧ field payload 6 2 < field payload 8 2 ∧ field payload 10 2 ≤ 2000
    (yesNo (field payload 1 1) = none ∨ 31 < n → refused .badArgument) ∧
    ∀ valid, yesNo (field payload 1 1) = some valid → n ≤ 31 →
      (valid = true → ¬ ranges → refused .badArgument) ∧
      ((valid = true → ranges) → ¬ unused → refused .inUse) ∧
      ((valid = true → ranges) → unused → ∃ u, Carries .loadClass payload s u (accepted []) ∧
        u.refs.classes.find n = (if valid then some ⟨decide (field payload 2 1 = 1),
          field payload 3 1, field payload 4 1, field payload 5 1, field payload 6 2, field payload 8 2,
          field payload 10 2, 0⟩ else none) ∧
        (∀ k, k ≠ n → u.refs.classes.find k = s.refs.classes.find k) ∧
        State.sameLine { s with refs.classes := u.refs.classes } u)

/-- LOAD DESIGN is refused BAD_ARGUMENT for a validity that is neither yes nor no or a field of an entry to be made
valid out of its range, and IN_USE for an entry that is referred to; a refused command changes nothing. Otherwise it
makes the entry valid with the given fields or makes it invalid, and changes nothing else (R74, R77). -/
def Obligations.LoadDesignWritesTheEntry : Prop :=
  ∀ (s : State) (payload : List Byte), s.PortReady → payload.length = 5 →
    let n := field payload 0 1
    let refused := fun st => ∃ u, Carries .loadDesign payload s u (refusedWith st) ∧ s.sameLine u
    let unused := ∀ e, s.refs.designs.find n = some e → e.count = 0
    let ranges := 1 ≤ field payload 2 2 ∧ field payload 2 2 ≤ 1500 ∧ (field payload 4 1 = 0 ∨ field payload 4 1 = 1)
    (yesNo (field payload 1 1) = none → refused .badArgument) ∧
    ∀ valid, yesNo (field payload 1 1) = some valid →
      (valid = true → ¬ ranges → refused .badArgument) ∧
      ((valid = true → ranges) → ¬ unused → refused .inUse) ∧
      ((valid = true → ranges) → unused → ∃ u, Carries .loadDesign payload s u (accepted []) ∧
        u.refs.designs.find n = (if valid then some ⟨field payload 2 2, decide (field payload 4 1 = 1), 0⟩ else none) ∧
        (∀ k, k ≠ n → u.refs.designs.find k = s.refs.designs.find k) ∧
        State.sameLine { s with refs.designs := u.refs.designs } u)

/-- READ ENTRY returns validity, fields and reference count of the entry, with an invalid entry's at 0 and no, and changes
no state (R79). The codes of the tables are the model's choice (log 16). -/
def Obligations.ReadEntryReturnsTheEntry : Prop :=
  ∀ (s : State) (payload : List Byte), s.PortReady → payload.length = 2 →
    let n := field payload 1 1
    (field payload 0 1 = 0 → ∃ u, s.sameLine u ∧ Carries .readEntry payload s u (accepted
      (match s.refs.skus.find n with
      | none => [0#8, 0#8, 0#8, 0#8]
      | some e => 1#8 :: (beBytes 1 e.cls ++ beBytes 2 e.count)))) ∧
    (field payload 0 1 = 1 → n ≤ 31 → ∃ u, s.sameLine u ∧ Carries .readEntry payload s u (accepted
      (match s.refs.classes.find n with
      | none => List.replicate 13 0#8
      | some e => 1#8 :: ((if e.dark then 1#8 else 0#8) :: (beBytes 1 e.rate ++ beBytes 1 e.pressBase ++
          beBytes 1 e.wetExtra ++ beBytes 2 e.targetBase ++ beBytes 2 e.ceiling ++ beBytes 2 e.inkFactor ++
          beBytes 2 e.count))))) ∧
    (field payload 0 1 = 2 → ∃ u, s.sameLine u ∧ Carries .readEntry payload s u (accepted
      (match s.refs.designs.find n with
      | none => [0#8, 0#8, 0#8, 0#8, 0#8, 0#8]
      | some e => 1#8 :: (beBytes 2 e.area ++ (if e.underbase then 1#8 else 0#8) :: beBytes 2 e.count)))) ∧
    (2 < field payload 0 1 ∨ (field payload 0 1 = 1 ∧ 31 < n) → ∃ u, s.sameLine u ∧
      Carries .readEntry payload s u (refusedWith .badArgument))

/-- SET PATTERN is refused BAD_ARGUMENT for an entry above 7, a validity that is neither yes nor no or an action that is
neither TEST nor BLOCK, and NOT_FOUND for a valid TEST entry of an invalid design; a refused command changes nothing.
Otherwise it writes the entry; the count of a test design no longer named falls by one and that of one newly named rises
by one; nothing else changes (R7). -/
def Obligations.SetPatternWritesTheEntry : Prop :=
  ∀ (s : State) (payload : List Byte), s.PortReady → payload.length = 16 →
    let n := field payload 0 1
    let refused := fun st => ∃ u, Carries .setPattern payload s u (refusedWith st) ∧ s.sameLine u
    (yesNo (field payload 1 1) = none ∨ yesNo (field payload 14 1) = none ∨ 7 < n → refused .badArgument) ∧
    ∀ valid block, yesNo (field payload 1 1) = some valid → yesNo (field payload 14 1) = some block → n ≤ 7 →
      let was := s.garments.patterns.look {} n
      let old := if was.valid ∧ was.action = .test then some was.design else none
      let new := if valid ∧ block = false then some (field payload 15 1) else none
      (∀ d, new = some d → s.refs.designs.find d = none → refused .notFound) ∧
      ((∀ d, new = some d → (s.refs.designs.find d).isSome) → ∃ u, Carries .setPattern payload s u (accepted []) ∧
        u.garments.patterns.look {} n = ⟨valid, tagField payload 2, tagField payload 8,
          if block then .block else .test, field payload 15 1⟩ ∧
        (∀ k, k ≠ n → u.garments.patterns.look {} k = s.garments.patterns.look {} k) ∧
        (∀ d, u.refs.designs.find d = (s.refs.designs.find d).map fun e =>
          { e with count := if old = new then e.count else if old = some d then e.count - 1
            else if new = some d then e.count + 1 else e.count }) ∧
        State.sameLine { s with garments.patterns := u.garments.patterns, refs.designs := u.refs.designs } u)

/-! ## Orders and the scheduler -/

/-- ADMIT ORDER, once its checks pass, takes the lowest-numbered free slot, numbers the order from the admission sequence
counter, takes a cell for each line, and returns the slot with the number of orphans bound, which is the sum of F over the
new lines. The lines are as sent but for F, with Bn and K at 0. Once the order stands and the counts of its designs and
SKUs have risen by one for each line, its lines are offered the orphans: printed ones first, each group in load sequence
order, each bound to the line a choice then takes for it. Where no orphan is offered F is 0 too (R29, R34, R48, R51 to
R54, R60 to R62). -/
def Obligations.AdmitOrderTakesTheLowestFreeSlot : Prop :=
  ∀ (s : State) (payload : List Byte) (slot : Nat), s.PortReady → payload.length = 6 + 3 * field payload 5 1 →
    let number := field payload 0 4
    let level := field payload 4 1
    let lines := admitLines payload 6 (field payload 5 1)
    1 ≤ number → level ≤ 7 → 1 ≤ lines.length → lines.length ≤ 16 → (∀ l ∈ lines, 1 ≤ l.quantity ∧ l.quantity ≤ 99) →
    s.findOrder number = none → slot ≤ 63 → s.order slot = none → (∀ k, k < slot → (s.order k).isSome) →
    (∀ l ∈ lines, (s.refs.designs.find l.design).isSome ∧ (s.refs.skus.find l.sku).isSome) →
    lines.length + s.limits.holdReserve ≤ s.orders.freeCells →
    ∃ (u : State) (bound : Nat) (o : Order),
      Carries .admitOrder payload s u (accepted (beBytes 1 slot ++ beBytes 2 bound)) ∧
      bound = ((s.addOrder slot number level lines).offerCounted (.order slot)).2 ∧
      (TablesOk s → TagsSafe s → bound = (o.lines.map Line.inFlight).sum) ∧
      (TablesOk s → TagsSafe s → s.sched.Safe → ∃ v, v.Offers (.order slot) u bound ∧
        (∀ k, v.order k = if k = slot then some ⟨number, level, s.orders.admissionSeq, .opened, none, lines⟩
          else s.order k) ∧
        (∀ d, v.refs.designs.find d = (s.refs.designs.find d).map fun e =>
          { e with count := e.count + (lines.filter fun l => l.design = d).length }) ∧
        (∀ k, v.refs.skus.find k = (s.refs.skus.find k).map fun e =>
          { e with count := e.count + (lines.filter fun l => l.sku = k).length }) ∧
        s.sameBut [.orders, .refs, .transport] v) ∧
      u.order slot = some o ∧ o.number = number ∧ o.level = level ∧ o.admission = s.orders.admissionSeq ∧
      o.state = .opened ∧ o.bin = none ∧ o.lines.map (fun l => { l with inFlight := 0 }) = lines ∧
      u.orders.freeCells = s.orders.freeCells - lines.length ∧
      u.orders.admissionSeq = min 4294967295 (s.orders.admissionSeq + 1) ∧
      s.sameBut [.garments, .orders, .sched, .refs, .transport] u ∧
      (s.orphans = [] → bound = 0 ∧ o.lines = lines ∧ (∀ k, k ≠ slot → u.order k = s.order k) ∧
        (∀ d, u.refs.designs.find d = (s.refs.designs.find d).map fun e =>
          { e with count := e.count + (lines.filter fun l => l.design = d).length }) ∧
        (∀ k, u.refs.skus.find k = (s.refs.skus.find k).map fun e =>
          { e with count := e.count + (lines.filter fun l => l.sku = k).length }) ∧
        s.sameBut [.orders, .refs, .transport] u)

/-- The refusals of ADMIT ORDER, in the order of Table 2-3; a refused command changes nothing (R34). -/
def Obligations.AdmitOrderRefusals : Prop :=
  ∀ (s : State) (payload : List Byte), s.PortReady → payload.length ≤ 255 →
    payload.length = 6 + 3 * field payload 5 1 →
    let number := field payload 0 4
    let lines := admitLines payload 6 (field payload 5 1)
    let refused := fun st => ∃ u, Carries .admitOrder payload s u (refusedWith st) ∧ s.sameLine u
    let inRange := 1 ≤ number ∧ field payload 4 1 ≤ 7 ∧ 1 ≤ lines.length ∧ lines.length ≤ 16 ∧
      ∀ l ∈ lines, 1 ≤ l.quantity ∧ l.quantity ≤ 99
    let valid := ∀ l ∈ lines, (s.refs.designs.find l.design).isSome ∧ (s.refs.skus.find l.sku).isSome
    (¬ inRange → refused .badArgument) ∧
    (inRange → (s.findOrder number).isSome → refused .duplicate) ∧
    (inRange → s.findOrder number = none → (∀ k, k ≤ 63 → (s.order k).isSome) → refused .full) ∧
    (inRange → s.findOrder number = none → (∃ k, k ≤ 63 ∧ s.order k = none) → ¬ valid → refused .notFound) ∧
    (inRange → s.findOrder number = none → (∃ k, k ≤ 63 ∧ s.order k = none) → valid →
      s.orders.freeCells < lines.length + s.limits.holdReserve → refused .noCells)

/-- CANCEL ORDER makes an OPEN, FILLING or HELD order CANCELLING or frees it, and makes a FILLING bin that it names
VOID, whether garments are bound to it or not. A garment of it that an open verdict names keeps its binding; every other
is rebound to a line of another order that wants it, taking the line's design and, if BLANK, its pulses, or is unbound
where no line then wants it, as is a SPOILED one, so every garment still bound to the order is named in an open verdict.
An order with no garment bound is freed at once if it names no bin, with ORDER_FREED set and its cells and references
returned. An unknown number is refused NOT_FOUND, and a COMPLETE or CANCELLING order BAD_STATE (R40 to R42, R48, R54,
R56 to R59); that number 0 is among the unknown ones is the model's choice (log 34). -/
def Obligations.CancelOrderCancelsTheOrder : Prop :=
  ∀ (s : State) (payload : List Byte), s.PortReady → TablesOk s → s.sched.Safe → payload.length = 4 →
    (s.findOrder (field payload 0 4) = none → ∃ u, Carries .cancelOrder payload s u (refusedWith .notFound) ∧ s.sameLine u) ∧
    ∀ slot o, s.findOrder (field payload 0 4) = some (slot, o) →
      (o.state = .complete ∨ o.state = .cancelling →
        ∃ u, Carries .cancelOrder payload s u (refusedWith .badState) ∧ s.sameLine u) ∧
      (o.state ≠ .complete → o.state ≠ .cancelling → ∃ u,
        Carries .cancelOrder payload s u (accepted
          (beBytes 2 (u.liveGarments.filter fun g => g.binding.any fun b => b.slot == slot).length ++
            [if (u.order slot).isNone then 0x01#8 else 0x00#8])) ∧
        (∀ o', u.order slot = some o' → o' = { o with state := .cancelling, lines := o'.lines } ∧
          o'.lines.map (fun l => { l with inFlight := 0 }) = o.lines.map fun l => { l with inFlight := 0 }) ∧
        (∀ k, u.bin k = if o.bin = some k ∧ (s.bin k).state = .filling then { s.bin k with state := .void } else s.bin k) ∧
        s.sameBut [.garments, .orders, .sched, .refs, .bins, .causes, .transport] u ∧
        (TagsSafe s →
          let named := fun (g : Garment) => ∃ l v, s.verdictOf l = some v ∧ v.tag = g.tag
          let ofOrder := fun (g : Garment) => ∃ b, g.binding = some b ∧ b.slot = slot
          (∀ pos g, u.garments.records.find pos = some g → ofOrder g → named g) ∧
          ∀ pos g, s.garments.records.find pos = some g →
            let design := if g.stage = .printed then some g.design else none
            (named g ∨ ¬ ofOrder g → u.garments.records.find pos = some g) ∧
            (ofOrder g → ¬ named g → (u.garments.records.find pos = some { g with binding := none } ∧
                (g.spoiled = false → ∀ k i x l, ¬ u.Wants .all g.sku design k i x l)) ∨
              (g.spoiled = false ∧ ∃ k i x l, k ≠ slot ∧ s.Wants .all g.sku design k i x l ∧
                u.garments.records.find pos = some (s.boundRecord g ⟨k, i⟩ l.design)))) ∧
        ((∀ g ∈ s.liveGarments, ∀ b, g.binding = some b → b.slot ≠ slot) → (∀ l ∈ o.lines, l.inFlight = 0) →
          u.garments = s.garments ∧ u.sched = s.sched ∧ (∀ k, k ≠ slot → u.order k = s.order k) ∧
          (o.bin = none → u.order slot = none ∧ u.orders.freeCells = s.orders.freeCells + o.lines.length ∧
            u.port.causes = s.port.causes ||| Cause.orderFreed.field ∧ u.bins = s.bins ∧
            (∀ d, u.refs.designs.find d = (s.refs.designs.find d).map fun e =>
              { e with count := e.count - (o.lines.filter fun l => l.design = d).length }) ∧
            (∀ k, u.refs.skus.find k = (s.refs.skus.find k).map fun e =>
              { e with count := e.count - (o.lines.filter fun l => l.sku = k).length })) ∧
          (∀ bin, o.bin = some bin → u.order slot = some { o with state := .cancelling } ∧
            u.orders.freeCells = s.orders.freeCells ∧ u.refs = s.refs ∧ u.port.causes = s.port.causes ∧
            (∀ k, u.bin k = if k = bin ∧ (s.bin bin).state = .filling then { s.bin bin with state := .void }
              else s.bin k))))

/-- RELEASE HOLD makes every FAILED line of a HELD order ACTIVE with K at 0, and decides its state from its counts:
COMPLETE with its bin READY and ORDER_COMPLETE, OPEN, or FILLING; in the last two its lines are then offered the
orphans, and with no orphan to offer nothing else changes. An unknown number is refused NOT_FOUND and an order not HELD
BAD_STATE (R39, R61, R62, R65); that number 0 is among the unknown ones is the model's choice (log 34). -/
def Obligations.ReleaseHoldDecidesTheState : Prop :=
  ∀ (s : State) (payload : List Byte), s.PortReady → TablesOk s → payload.length = 4 →
    (s.findOrder (field payload 0 4) = none → ∃ u, Carries .releaseHold payload s u (refusedWith .notFound) ∧ s.sameLine u) ∧
    ∀ slot o, s.findOrder (field payload 0 4) = some (slot, o) →
      (o.state ≠ .held → ∃ u, Carries .releaseHold payload s u (refusedWith .badState) ∧ s.sameLine u) ∧
      (o.state = .held →
        let lines := o.lines.map fun l => if l.state = .failed then { l with state := .active, spoils := 0 } else l
        ((∀ l ∈ o.lines, l.binned = l.quantity) → ∃ u, Carries .releaseHold payload s u (accepted [0x04#8]) ∧
          u.order slot = some { o with state := .complete, lines := lines } ∧
          (∀ k, k ≠ slot → u.order k = s.order k) ∧
          (∀ k, u.bin k = if o.bin = some k then { s.bin k with state := .ready } else s.bin k) ∧
          { u.orders with slots := s.orders.slots } = s.orders ∧ u.port.causes = s.port.causes ||| Cause.orderComplete.field ∧
          s.sameBut [.orders, .bins, .causes, .transport] u) ∧
        ((∃ l ∈ o.lines, l.binned ≠ l.quantity) →
          let state := if ∀ l ∈ o.lines, l.binned = 0 then OrderState.opened else .filling
          ∃ u o', Carries .releaseHold payload s u (accepted (beBytes 1 state.code)) ∧ u.order slot = some o' ∧
            o' = { o with state := state, lines := o'.lines } ∧ o'.lines.map (fun l => { l with inFlight := 0 }) =
              lines.map (fun l => { l with inFlight := 0 }) ∧ { u.orders with slots := s.orders.slots } = s.orders ∧
            s.sameBut [.garments, .orders, .sched, .refs, .transport] u ∧
            (TagsSafe s → s.sched.Safe → ∃ v n, v.Offers (.order slot) u n ∧
              (∀ k, v.order k = if k = slot then some { o with state := state, lines := lines } else s.order k) ∧
              s.sameBut [.orders, .transport] v) ∧
            (s.orphans = [] → o'.lines = lines ∧ (∀ k, k ≠ slot → u.order k = s.order k) ∧
              s.sameBut [.orders, .transport] u)))

/-- SET SCHEDULER, with its arguments in range, replaces the whole configuration and sets every credit to its new weight;
otherwise it is refused BAD_ARGUMENT and changes nothing (R50). The layout of its 13 bytes, the weights from class 0 up
and no count bytes, is the model's choice (log 31, log 32). -/
def Obligations.SetSchedulerReplacesTheConfiguration : Prop :=
  ∀ (s : State) (payload : List Byte), s.PortReady → payload.length = 13 →
    let map := fields payload 0 1 8
    let weights := fields payload 8 1 4
    let mode := field payload 12 1
    let ok := (∀ c ∈ map, c ≤ 3) ∧ (∀ w ∈ weights, 1 ≤ w ∧ w ≤ 15) ∧ mode ≤ 1
    (ok → ∃ u, Carries .setScheduler payload s u (accepted []) ∧
      State.sameLine { s with sched := ⟨map, weights, weights, if mode = 0 then .strict else .weighted⟩ } u) ∧
    (¬ ok → ∃ u, Carries .setScheduler payload s u (refusedWith .badArgument) ∧ s.sameLine u)

/-! ## Queries, the walk and retirement -/

/-- The queries of orders, garments, the belt and bins return what the rules give and change no state; those that report
the time left on a running timer return a time within its period (R23, R43, R44, R98, R120, R155, R177, R192). The time
left is a free value (log 6). The model's own choices are some codes (log 16), groups without a count byte (log 32), no
owed pulses for a garment (log 33), NOT_FOUND for order number 0 (log 34), the byte of E-STOP (log 36), the work timeout
as an optional field (log 37), and each position followed by the platen that faces it (log 38). -/
def Obligations.QueriesReportAndChangeNothing : Prop :=
  ∀ (s : State) (payload : List Byte), s.PortReady →
    let answers := fun c r => ∃ u, Carries c payload s u r ∧ s.sameLine u
    let timed := fun c (low high : Nat) (r : Nat → Response) => ∃ (u : State) (x : Nat), low ≤ x ∧ x ≤ high ∧
      Carries c payload s u (r x) ∧ State.sameLine { s with freeReads := u.freeReads } u
    let l := Link.ofNumber (field payload 0 1)
    (payload.length = 4 → answers .queryOrder (match s.findOrder (field payload 0 4) with
      | none => refusedWith .notFound
      | some (slot, o) => accepted (o.bytes slot s.orders.freeCells))) ∧
    (payload.length = 2 → answers .listOrders (if 5 < field payload 0 1 ∨ 63 < field payload 1 1
      then refusedWith .badArgument else accepted (s.orderList (field payload 0 1) (field payload 1 1)))) ∧
    (payload.length = 6 → answers .queryGarment (match s.findTag (tagField payload 0) with
      | none => refusedWith .notFound
      | some (pos, g) => accepted (beBytes 1 (pos / 4) ++ beBytes 1 (pos % 4) ++ g.bytes))) ∧
    (payload.length = 3 → answers .queryBelt (if 1 < field payload 0 1 ∨ 511 < field payload 1 2
      then refusedWith .badArgument
      else accepted (s.beltHeader ++ pageBytes (s.beltList (field payload 0 1)) (field payload 1 2)))) ∧
    (payload.length = 1 → answers .queryBin (if 47 < field payload 0 1 then refusedWith .badArgument
      else accepted (s.binBytes (field payload 0 1)))) ∧
    (payload.length = 1 → l = none → answers .queryStation (refusedWith .badArgument)) ∧
    (payload.length = 1 → ∀ link, l = some link → timed .queryStation 0 (((s.station link).workTimer.getD 0) * 1000)
      fun x => accepted ((s.station link).bytes link x (s.limits.workTimeout link))) ∧
    (payload = [] → s.ring.cycle = .idle → answers .queryRing (accepted (s.ringBytes none))) ∧
    (payload = [] → s.ring.cycle = .moving → ∀ p, s.ring.moveTimer = some p →
      timed .queryRing 0 (p * 1000) fun x => accepted (s.ringBytes (some x))) ∧
    (payload = [] → timed .queryMeter 1 (max 1 s.meter.running) fun x => accepted (s.meter.bytes x))

/-- WALK FIRST returns the live record of the lowest position and WALK NEXT that of the lowest position after the cursor,
moving the cursor to it, or END where there is none; WALK NEXT is refused BAD_STATE while the cursor is NONE and answered
END again at END (R21). The bytes of a record are the model's reading: the codes of its flags and the zeros of an absent
item (log 16), with no owed pulses (log 33) and the position before the record (log 39). -/
def Obligations.WalkVisitsTheNextRecord : Prop :=
  ∀ s : State, s.PortReady → TablesOk s →
    let visits := fun c (from_ : Nat) =>
      (∀ pos g, from_ ≤ pos → s.garments.records.find pos = some g →
        (∀ j, from_ ≤ j → j < pos → s.garments.records.find j = none) →
        ∃ u, Carries c [] s u (accepted (0x01#8 :: (beBytes 1 (pos / 4) ++ beBytes 1 (pos % 4) ++ g.bytes))) ∧
          State.sameLine { s with garments.cursor := .pos pos } u) ∧
      ((∀ j, from_ ≤ j → s.garments.records.find j = none) →
        ∃ u, Carries c [] s u (accepted (0x00#8 :: List.replicate 50 0x00#8)) ∧
          State.sameLine { s with garments.cursor := .ended } u)
    visits .walkFirst 0 ∧ (∀ p, s.garments.cursor = .pos p → visits .walkNext (p + 1)) ∧
    (s.garments.cursor = .none → ∃ u, Carries .walkNext [] s u (refusedWith .badState) ∧ s.sameLine u) ∧
    (s.garments.cursor = .ended →
      ∃ u, Carries .walkNext [] s u (accepted (0x00#8 :: List.replicate 50 0x00#8)) ∧ s.sameLine u)

/-- RETIRE GARMENT removes the record; it is refused NOT_FOUND for a tag of no live record and IN_USE for one that an open
verdict names. The garment's platen, places, hold cell and reservations are given back, and a lane that is then free goes
to a WAIT open at UNLOAD; of an unbound garment the references are given back and nothing else changes. F of a bound
garment's line falls by one, its counts Bn and K and every state stand, and the line is then offered the orphans: printed
ones first, each group in load sequence order, each bound if the line wants it; with no ORDER garment unbound no other
order changes. An order being cancelled that is left with no garment and names no bin is freed (R18, R19, R24, R30, R41,
R42, R48, R51 to R54, R60 to R62, R141, R162, Table 1-6). -/
def Obligations.RetireGarmentRemovesTheRecord : Prop :=
  ∀ (s : State) (payload : List Byte), s.PortReady → payload.length = 6 →
    let tag := tagField payload 0
    (s.findTag tag = none → ∃ u, Carries .retireGarment payload s u (refusedWith .notFound) ∧ s.sameLine u) ∧
    ∀ pos g, s.findTag tag = some (pos, g) →
      ((∃ l v, s.verdictOf l = some v ∧ v.tag = tag) →
        ∃ u, Carries .retireGarment payload s u (refusedWith .inUse) ∧ s.sameLine u) ∧
      ((∀ l v, s.verdictOf l = some v → v.tag ≠ tag) → ∃ u served,
        Carries .retireGarment payload s u (accepted []) ∧ u.garments.records.find pos = none ∧
        s.GivesBack none g u served ∧ s.EndsBinding pos g u ∧ u.sent = s.sent ++ served ∧
        u.orders.admissionSeq = s.orders.admissionSeq ∧ { u.bins with overflow := s.bins.overflow } = s.bins ∧
        (TablesOk s → { u.ring with platens := s.ring.platens } = s.ring) ∧
        s.sameBut [.garments, .orders, .sched, .refs, .stations, .ring, .cure, .bins, .causes, .transport, .messages] u ∧
        (g.binding = none → s.sameBut [.garments, .orders, .refs, .stations, .ring, .cure, .bins, .transport, .messages] u))

/-! ## The line's configuration and the ring -/

/-- SET STATION writes the six positions in STOPPED, and SET PLATEN sets a platen that is not OCCUPIED OUT or EMPTY in
any ring state; out of range they are refused BAD_ARGUMENT, SET STATION BAD_STATE in any other ring state and SET PLATEN
IN_USE for an OCCUPIED platen (R102, R103). That the six positions carry no count byte, so that the payload of SET
STATION has 6 bytes, is the model's choice (log 32). -/
def Obligations.SetStationAndSetPlatenWriteTheRing : Prop :=
  ∀ (s : State) (payload : List Byte), s.PortReady →
    (payload.length = 6 →
      let p : Positions := ⟨field payload 0 1, field payload 1 1, field payload 2 1, field payload 3 1, field payload 4 1,
        field payload 5 1⟩
      let ok := p.load < p.pretreat ∧ p.pretreat < p.press ∧ p.press < p.printA ∧ p.printA < p.printB ∧
        p.printB < p.unload ∧ p.unload ≤ 23
      (ok → s.ring.state = .stopped → ∃ u, Carries .setStation payload s u (accepted []) ∧
        State.sameLine { s with ring.positions := p } u) ∧
      (¬ ok → ∃ u, Carries .setStation payload s u (refusedWith .badArgument) ∧ s.sameLine u) ∧
      (ok → s.ring.state ≠ .stopped → ∃ u, Carries .setStation payload s u (refusedWith .badState) ∧ s.sameLine u)) ∧
    (payload.length = 2 →
      let k := field payload 0 1
      let new := if field payload 1 1 = 1 then PlatenState.out else .empty
      (TablesOk s → k ≤ 23 → field payload 1 1 ≤ 1 → (s.platen k).state ≠ .occupied → ∃ u,
        Carries .setPlaten payload s u (accepted ({ s.platen k with state := new }.bytes)) ∧
        u.platen k = { s.platen k with state := new } ∧ (∀ j, j ≠ k → u.platen j = s.platen j) ∧
        State.sameLine { s with ring.platens := u.ring.platens } u) ∧
      (23 < k ∨ 1 < field payload 1 1 → ∃ u, Carries .setPlaten payload s u (refusedWith .badArgument) ∧ s.sameLine u) ∧
      (k ≤ 23 → field payload 1 1 ≤ 1 → (s.platen k).state = .occupied →
        ∃ u, Carries .setPlaten payload s u (refusedWith .inUse) ∧ s.sameLine u))

/-- START RING, STOP RING and RESUME RING change the ring state as the rules give, return the new state, and are refused
BAD_STATE otherwise. At START every platen that faces a station in CHECK or ACTIVE becomes held and an index starts if
there is none; at RESUME the platen that faces LOAD becomes held and the verify lap begins (R104 to R107). The bytes of
the ring states are the model's choice (log 16). -/
def Obligations.RingCommandsChangeTheRingState : Prop :=
  ∀ s : State, s.PortReady → RingSafe s →
    let badState := fun c => ∃ u, Carries c [] s u (refusedWith .badState) ∧ s.sameLine u
    let becomes := fun c (r : RingState) => ∃ u, Carries c [] s u (accepted (beBytes 1 r.code)) ∧
      State.sameLine { s with ring.state := r } u
    let watched := fun k => ∃ l ∈ Link.ring, (s.station l).working = true ∧ s.facing l = some k
    (s.ring.state = .stopped → ∃ u, Carries .startRing [] s u (accepted [0x02#8]) ∧ u.ring.state = .running ∧
      (∀ k, (watched k → u.platen k = { s.platen k with held := true }) ∧ (¬ watched k → u.platen k = s.platen k)) ∧
      ((∃ k, watched k) → u.ring.cycle = .idle ∧ u.ring.moveTimer = none) ∧
      ((¬ ∃ k, watched k) → u.ring.cycle = .moving ∧ u.ring.moveTimer = some s.limits.moveLimit) ∧
      s.sameBut [.ring, .transport] u) ∧
    (s.ring.state = .stopping ∨ s.ring.state = .running → becomes .startRing .running) ∧
    (s.ring.state = .halted ∨ s.ring.state = .verifying → badState .startRing ∧ badState .stopRing) ∧
    (s.ring.state = .running →
      becomes .stopRing (if s.ring.cycle = .idle ∧ s.anyHeld = false then .stopped else .stopping)) ∧
    (s.ring.state = .stopping ∨ s.ring.state = .stopped → becomes .stopRing s.ring.state) ∧
    (s.ring.state ≠ .halted ∨ s.ring.eStop = true ∨ (s.station .load).working = false → badState .resumeRing) ∧
    (s.ring.state = .halted → s.ring.eStop = false → (s.station .load).working = true → ∃ u k,
      Carries .resumeRing [] s u (accepted [0x04#8]) ∧ s.facing .load = some k ∧ u.ring.state = .verifying ∧
      u.ring.lapCount = 0 ∧ u.ring.lapSynced = false ∧ u.platen k = { s.platen k with held := true } ∧
      (∀ j, j ≠ k → u.platen j = s.platen j) ∧ u.ring.cycle = .idle ∧ u.ring.moveTimer = none ∧
      s.sameBut [.ring, .transport] u)

/-- SET METER clamps each level to its new size, writes period and pulse size, leaves the running period, and returns
sizes and levels; a period of 0 or a pulse size not 1 to 50 is refused BAD_ARGUMENT (R153, R154). -/
def Obligations.SetMeterClampsTheLevels : Prop :=
  ∀ (s : State) (payload : List Byte), s.PortReady → payload.length = 7 →
    let cbs := field payload 0 2
    let ebs := field payload 2 2
    let period := field payload 4 2
    let pulse := field payload 6 1
    let bc := min s.meter.bc cbs
    let be := min s.meter.be ebs
    (1 ≤ period → 1 ≤ pulse → pulse ≤ 50 → ∃ u, Carries .setMeter payload s u
        (accepted (beBytes 2 cbs ++ beBytes 2 ebs ++ beBytes 2 bc ++ beBytes 2 be)) ∧
      State.sameLine { s with meter := ⟨cbs, ebs, bc, be, period, s.meter.running, pulse⟩ } u) ∧
    (period = 0 ∨ pulse = 0 ∨ 50 < pulse →
      ∃ u, Carries .setMeter payload s u (refusedWith .badArgument) ∧ s.sameLine u)

/-- SET TUNNEL, with no garment on the belt, writes geometry and spacing, works out every entered lane's spaced field
afresh, and returns the exit position; SET WEIGHTS replaces weights, Tbase and Tstep. Out of range they are refused
BAD_ARGUMENT, and SET TUNNEL BAD_STATE with a garment on the belt. A WAIT open at UNLOAD takes the lowest lane that is
then free; with no WAIT or no free lane no reservation changes (R141, R162, R175, R176). That the 16 weights carry no
count byte, so that the payload of SET WEIGHTS has 34 bytes, is the model's choice (log 32), and so is that SET TUNNEL
spaces and hands out lanes while the CURE link is DOWN too (log 40). -/
def Obligations.SetTunnelAndSetWeightsWriteTheTunnel : Prop :=
  ∀ (s : State) (payload : List Byte), s.PortReady →
    (payload.length = 10 →
      let e0 := field payload 0 2
      let z1 := field payload 2 2
      let z2 := field payload 4 2
      let z3 := field payload 6 2
      let spacing := field payload 8 2
      let ok := e0 ≤ 500 ∧ (1 ≤ z1 ∧ z1 ≤ 2000) ∧ (1 ≤ z2 ∧ z2 ≤ 2000) ∧ (1 ≤ z3 ∧ z3 ≤ 2000) ∧ 1 ≤ spacing ∧
        spacing ≤ 500
      let spaced := fun k => match (s.lane k).lastEntry with
        | none => (s.lane k).spaced
        | some e => decide (spacing ≤ (s.cure.beltCount - e).toNat)
      let free := fun k => (s.lane k).reservation = none ∧ ((s.lane k).lastEntry = none ∨ spaced k = true)
      (ok → (∀ g ∈ s.liveGarments, g.onBelt = false) → ∃ u,
        Carries .setTunnel payload s u (accepted (beBytes 2 (e0 + z1 + z2 + z3))) ∧
        { u.cure with lanes := s.cure.lanes } =
          { s.cure with e0 := e0, z1 := z1, z2 := z2, z3 := z3, spacing := spacing } ∧
        (∀ k, k ≤ 3 → (u.lane k).lastEntry = (s.lane k).lastEntry ∧ (u.lane k).spaced = spaced k) ∧
        s.sameBut [.stations, .cure, .transport, .messages] u ∧
        ((∀ v, s.verdictOf .unload = some v → v.cls = .work) ∨ (∀ k, k ≤ 3 → ¬ free k) →
          (∀ k, k ≤ 3 → (u.lane k).reservation = (s.lane k).reservation) ∧ s.sameBut [.cure, .transport] u) ∧
        (∀ v n, s.verdictOf .unload = some v → v.cls = .wait → n ≤ 3 → free n → (∀ j, j < n → ¬ free j) →
          s.HandsLane v n u ∧ (∀ k, k ≤ 3 → k ≠ n → (u.lane k).reservation = (s.lane k).reservation) ∧
          (∀ l, l ≠ .unload → u.station l = s.station l) ∧ u.sent = s.sent ++ [laneMessage v n])) ∧
      (¬ ok → ∃ u, Carries .setTunnel payload s u (refusedWith .badArgument) ∧ s.sameLine u) ∧
      (ok → (∃ g ∈ s.liveGarments, g.onBelt = true) →
        ∃ u, Carries .setTunnel payload s u (refusedWith .badState) ∧ s.sameLine u)) ∧
    (payload.length = 34 →
      let weights := fields payload 0 2 16
      let tbase := field payload 32 1
      let tstep := field payload 33 1
      let ok := (∀ w ∈ weights, w ≤ 1023) ∧ (100 ≤ tbase ∧ tbase ≤ 250) ∧ 1 ≤ tstep ∧ tstep ≤ 20
      (ok → ∃ u, Carries .setWeights payload s u (accepted []) ∧
        u.cure = { s.cure with weights := weights, tbase := tbase, tstep := tstep } ∧ s.sameBut [.cure, .transport] u) ∧
      (¬ ok → ∃ u, Carries .setWeights payload s u (refusedWith .badArgument) ∧ s.sameLine u))

/-- SET LINE LIMITS of 22 bytes in range replaces every limit and sets CELLS_LOW where the free cells thereby fall below
the hold reserve; with no payload it changes nothing. Both return the limits in force. Out of range it is refused
BAD_ARGUMENT (R33, R201). -/
def Obligations.SetLineLimitsReplacesTheLimits : Prop :=
  ∀ (s : State) (payload : List Byte), s.PortReady →
    (payload = [] → ∃ u, Carries .setLineLimits payload s u (accepted s.limits.bytes) ∧ s.sameLine u) ∧
    (payload.length = 22 →
      let m := limitsOf payload
      let ok := (1 ≤ m.agePeriod ∧ m.agePeriod ≤ 60) ∧ (1 ≤ m.ageLimit ∧ m.ageLimit ≤ 15) ∧
        (1 ≤ m.lapLimit ∧ m.lapLimit ≤ 7) ∧ (1 ≤ m.reprintLimit ∧ m.reprintLimit ≤ 7) ∧
        (1 ≤ m.unloadWait ∧ m.unloadWait ≤ 120) ∧ m.holdReserve ≤ 128 ∧ m.retention ≤ 16 ∧
        (1 ≤ m.moveLimit ∧ m.moveLimit ≤ 30) ∧ ∀ t ∈ [m.toLoad, m.toPretreat, m.toPress, m.toPrintA, m.toPrintB,
          m.toUnload, m.toMatching], 1 ≤ t ∧ t ≤ 600
      (ok → ∃ u, Carries .setLineLimits payload s u (accepted payload) ∧
        (m.agePeriod, m.ageLimit, m.lapLimit, m.reprintLimit, m.unloadWait, m.holdReserve, m.retention, m.moveLimit) =
          (field payload 0 1, field payload 1 1, field payload 2 1, field payload 3 1, field payload 4 1,
            field payload 5 1, field payload 6 1, field payload 7 1) ∧
        (m.toLoad, m.toPretreat, m.toPress, m.toPrintA, m.toPrintB, m.toUnload, m.toMatching) =
          (field payload 8 2, field payload 10 2, field payload 12 2, field payload 14 2, field payload 16 2,
            field payload 18 2, field payload 20 2) ∧
        State.sameLine { s with
          limits := m
          port := { s.port with causes := if s.orders.freeCells < m.holdReserve ∧
              s.limits.holdReserve ≤ s.orders.freeCells then s.port.causes ||| Cause.cellsLow.field
            else s.port.causes } } u) ∧
      (¬ ok → ∃ u, Carries .setLineLimits payload s u (refusedWith .badArgument) ∧ s.sameLine u))

/-- SET STATION MODE to the mode a station already has changes only the attention mode; to a mode that the host may give
it sends MODE, sets STATION_MODE, and releases the hold of a ring station that falls to STANDBY with no open verdict;
any other mode is refused BAD_TRANSITION, and an unknown link, mode or setting BAD_ARGUMENT (R87, R88, R97, R108). That the MODE
goes out before the PASS of a WAIT withdrawn by the change, and before what a halt of the verify lap sends, is the
model's choice (log 15). -/
def Obligations.SetStationModeChangesTheMode : Prop :=
  ∀ (s : State) (payload : List Byte), s.PortReady → payload.length = 3 →
    let setting := field payload 2 1
    let refused := fun st => ∃ u, Carries .setStationMode payload s u (refusedWith st) ∧ s.sameLine u
    (7 < field payload 0 1 ∨ 3 < field payload 1 1 ∨ 2 < setting → refused .badArgument) ∧
    ∀ l m, l.number = field payload 0 1 → m.code = field payload 1 1 → setting ≤ 2 →
      let old := (s.station l).mode
      let attention := if setting = 0 then .all else if setting = 1 then .first else (s.station l).attention
      let mayChange := (old, m) ∈ [(StationMode.standby, StationMode.check), (.check, .active), (.active, .check),
        (.active, .standby), (.check, .standby)]
      (old = m → ∃ u, Carries .setStationMode payload s u (accepted (beBytes 1 m.code)) ∧
        u.station l = { s.station l with attention := attention } ∧ (∀ n, n ≠ l → u.station n = s.station n) ∧
        s.sameBut [.stations, .transport] u) ∧
      (old ≠ m → ¬ mayChange → refused .badTransition) ∧
      (mayChange → ∃ u, Carries .setStationMode payload s u (accepted (beBytes 1 m.code)) ∧
        (u.station l).mode = m ∧ (u.station l).attention = attention ∧ u.pendingCause .stationMode = true ∧
        s.sent ++ [⟨l, .mode m⟩] <+: u.sent ∧
        ((∀ v, s.verdictOf l = some v → v.cls = .work) → ¬ (l = .load ∧ m = .standby ∧ s.ring.state = .verifying) →
          u.station l = { s.station l with mode := m, attention := attention } ∧
          (∀ n, n ≠ l → u.station n = s.station n) ∧ u.sent = s.sent ++ [⟨l, .mode m⟩] ∧
          u.port.causes = s.port.causes ||| Cause.stationMode.field ∧
          u.ring = (if m = .standby ∧ s.verdictOf l = none then s.ringReleased (s.facing l) else s.ring) ∧
          s.sameBut [.stations, .ring, .causes, .messages, .transport] u))

/-- LINE RESET removes every garment record and every open verdict, returns every lane reservation and hold, refills the
meter, stops or halts the ring, lowers ACTIVE stations to CHECK, and frees every drained order; each removed record and
each line freed lowers the counts of the entries it names; its response counts the records removed and the slots freed
(R26, R47, R80, R99, R121, R157, R179, R193, R205). The exact list of messages, every LINE RESET NOTICE before every
MODE and each by link number, is the model's choice (log 15) on its one record of messages (log 9). -/
def Obligations.LineResetClearsTheLine : Prop :=
  ∀ s : State, s.PortReady → TablesOk s →
    let freed := s.orders.slots.filter fun e => decide (e.2.state = .cancelling ∧ e.2.bin = none)
    let active := fun l => decide ((s.station l).mode = .active)
    ∃ u, Carries .lineReset [] s u (accepted (beBytes 2 s.garments.records.length ++ beBytes 1 freed.length)) ∧
      u.garments = { s.garments with records := [], loadSeq := 0, cursor := .none, ageTimer := s.limits.agePeriod } ∧
      (∀ k, u.order k = match s.order k with
        | none => none
        | some o => if o.state = .cancelling ∧ o.bin = none then none
          else some { o with lines := o.lines.map fun l => { l with inFlight := 0 } }) ∧
      u.orders.freeCells = s.orders.freeCells + s.holdCells + (freed.map fun e => e.2.lines.length).sum ∧
      u.orders.admissionSeq = s.orders.admissionSeq ∧
      (∀ k, u.refs.skus.find k = (s.refs.skus.find k).map fun e =>
        { e with count := e.count - (s.liveGarments.filter fun g => g.sku = k).length -
          (freed.map fun f => (f.2.lines.filter fun l => l.sku = k).length).sum }) ∧
      (∀ k, u.refs.classes.find k = (s.refs.classes.find k).map fun e =>
        { e with count := e.count - (s.liveGarments.filter fun g => g.cls = k).length }) ∧
      (∀ k, u.refs.designs.find k = (s.refs.designs.find k).map fun e =>
        { e with count := e.count - (s.liveGarments.filter fun g => g.design = k).length -
          (freed.map fun f => (f.2.lines.filter fun l => l.design = k).length).sum }) ∧
      (∀ l, u.station l = { s.station l with
        verdict := none, workTimer := none, expired := none, mode := if active l then .check else (s.station l).mode }) ∧
      u.sent = s.sent ++ ((Link.all.filter fun l => (s.station l).up).map fun l => ⟨l, .lineResetNotice⟩) ++
        ((Link.all.filter active).map fun l => ⟨l, .mode .check⟩) ∧
      u.port.causes = s.port.causes ||| (if Link.all.any active then Cause.stationMode.field else 0#16) |||
        (if freed = [] then 0#16 else Cause.orderFreed.field) ∧
      (∀ k, u.platen k = if (s.platen k).state = .occupied then {} else { s.platen k with held := false }) ∧
      { u.ring with platens := s.ring.platens } = { s.ring with
        state := if s.ring.eStop then .halted else .stopped, cycle := .idle, moveTimer := none, lapCount := 0
        lapSynced := false } ∧
      u.meter = { s.meter with bc := s.meter.cbs, be := s.meter.ebs } ∧
      { u.cure with lanes := s.cure.lanes } = { s.cure with exitQueue := [] } ∧
      (∀ k, k ≤ 3 → u.lane k = { s.lane k with reservation := none }) ∧
      u.bins = { s.bins with overflow := [] } ∧
      s.sameBut [.garments, .orders, .refs, .stations, .ring, .meter, .cure, .bins, .causes, .messages, .transport] u

/-! ## Links -/

/-- A HELLO with the link's kind brings a DOWN link UP, in STANDBY and with the silence timer running, and is answered
MODE; any other HELLO on it is refused WRONG_KIND and any other message BAD_STATE, and the link stays DOWN (R84, R86,
R88). That a HELLO of a wrong length is refused WRONG_KIND as it stands here is the model's reading (log 13), that a
refused message of a wrong length, and an EMPTY, are echoed FFh and 0 too (log 14), and that a link is answered before
its first HELLO (log 35). -/
def Obligations.HelloBringsALinkUp : Prop :=
  ∀ (s : State) (l : Link) (payload : List Byte), (s.station l).up = false →
    let refused := fun c code kind => ∃ t, exec c s = .next t ∧
      s.Refuses l (s.station l) code kind (refuseEcho kind payload) t ∧ s.sameBut [.stations, .causes, .messages] t
    (payload.length = 3 ∧ field payload 0 1 = l.number → ∃ t, exec (.hello l payload) s = .next t ∧
      s.Answers l { s.station l with
          up := true, firmware := some (field payload 1 2), mode := .standby, silenceTimer := some 2000
          expired := none } (.mode .standby) t ∧
      t.port.causes = s.port.causes ||| Cause.stationMode.field ∧ s.sameBut [.stations, .causes, .messages] t) ∧
    (¬ (payload.length = 3 ∧ field payload 0 1 = l.number) → refused (.hello l payload) .wrongKind kindHello) ∧
    (∀ e ∈ [(Instr.status l payload, kindStatus), (.arrive l payload, kindArrive), (.empty l payload, kindEmpty),
        (.done l payload, kindDone), (.fail l payload, kindFail), (.abort l payload, kindAbort),
        (.advance l payload, kindAdvance), (.binCleared l payload, kindBinCleared)],
      refused e.1 .badState e.2) ∧
    ∀ kind, kind ≠ kindHello → refused (.unknownMessage l kind payload) .badState kind

/-- The silence timer of a link that is UP takes it DOWN at its expiry: OFFLINE, with no verdict, both timers stopped
and the expired-verdict memory cleared, MODE sent and STATION_MODE set. A HELLO of the link's kind on it is a restart:
the same loss, followed by STANDBY with the new firmware revision; one of another kind takes the link DOWN and is
refused WRONG_KIND. With no verdict open and no halt of a verify lap a facing ring platen's hold is released and nothing
else happens (R85, R86, R88, R108, R119). That the MODE goes out before the REFUSE is the model's choice (log 15), and
that kinds 8 and up are refused as R82 gives instead is its reading (log 13). -/
def Obligations.SilenceOrRestartLosesTheLink : Prop :=
  ∀ (s : State) (l : Link), (s.station l).up = true →
    let quiet := s.verdictOf l = none ∧ ¬ (l = .load ∧ s.ring.state = .verifying)
    let lost := fun (t : State) => (t.station l).up = false ∧ (t.station l).mode = .offline ∧
      (t.station l).verdict = none ∧ (t.station l).workTimer = none ∧ (t.station l).silenceTimer = none ∧
      (t.station l).expired = none ∧ t.pendingCause .stationMode = true ∧ ⟨l, .mode .offline⟩ ∈ t.sentSince s
    (∃ t, exec (.silenceExpiry l) s = .next t ∧ lost t ∧
      (quiet → s.Answers l { s.station l with
            up := false, mode := .offline, workTimer := none, silenceTimer := none, expired := none } (.mode .offline) t ∧
          t.port.causes = s.port.causes ||| Cause.stationMode.field ∧ t.ring = s.ringReleased (s.facing l) ∧
          s.sameBut [.stations, .ring, .causes, .messages] t)) ∧
    (∀ payload, payload.length = 3 → field payload 0 1 = l.number → ∃ t, exec (.hello l payload) s = .next t ∧
      (t.station l).up = true ∧ (t.station l).mode = .standby ∧ (t.station l).verdict = none ∧
      (t.station l).firmware = some (field payload 1 2) ∧ (t.station l).silenceTimer = some 2000 ∧
      (t.station l).expired = none ∧ t.pendingCause .stationMode = true ∧
      t.sent.getLast? = some ⟨l, .mode .standby⟩ ∧
      (quiet → s.Answers l { s.station l with
            up := true, firmware := some (field payload 1 2), mode := .standby, silenceTimer := some 2000
            expired := none } (.mode .standby) t ∧
          t.ring = s.ringReleased (s.facing l) ∧ s.sameBut [.stations, .ring, .causes, .messages] t)) ∧
    (∀ payload, payload.length = 3 → field payload 0 1 ≤ 7 → field payload 0 1 ≠ l.number →
      let refuse : Sent := ⟨l, .refuse .wrongKind kindHello 0xFF#8 0#48⟩
      ∃ t, exec (.hello l payload) s = .next t ∧ lost t ∧ (t.station l).refusalSeen = true ∧
        t.sent.getLast? = some refuse ∧
        (quiet → t.station l = { s.station l with
              up := false, mode := .offline, workTimer := none, silenceTimer := none, expired := none
              refusalSeen := true } ∧
            (∀ n, n ≠ l → t.station n = s.station n) ∧ t.sent = s.sent ++ [⟨l, .mode .offline⟩, refuse] ∧
            t.port.causes = (s.port.causes ||| Cause.stationMode.field |||
              (if (s.station l).attention = .all ∨ (s.station l).refusalSeen = false
                then Cause.stationRefusal.field else 0#16)) ∧
            t.ring = s.ringReleased (s.facing l) ∧ s.sameBut [.stations, .ring, .causes, .messages] t))

/-- STATUS is answered ACK with the mode and changes no more than the silence timer and the refusal-seen flag; a message
that fails a check of R82 on a link that is UP is refused BAD_REQUEST, without a touch; a discarded frame changes
nothing (R81, R82, R83, R86, R97). BAD_REQUEST for a HELLO of a wrong length or a kind above 7 is the model's reading
(log 13), and so is the echo of FFh and 0 for a message of a wrong length (log 14). -/
def Obligations.StatusUnknownAndDiscardedMessages : Prop :=
  ∀ (s : State) (l : Link) (payload : List Byte),
    (∀ frame, exec (.linkFrameDiscarded l frame) s = .next s) ∧
    (s.Hears l kindStatus payload → ∃ t, exec (.status l payload) s = .next t ∧
      s.Answers l (s.station l).answered (.ack kindStatus (s.station l).mode) t ∧ s.sameBut [.stations, .messages] t) ∧
    ((s.station l).up = true → ∀ e ∈ [(Instr.hello l payload, kindHello), (.status l payload, kindStatus),
        (.arrive l payload, kindArrive), (.empty l payload, kindEmpty), (.done l payload, kindDone),
        (.fail l payload, kindFail), (.abort l payload, kindAbort), (.advance l payload, kindAdvance),
        (.binCleared l payload, kindBinCleared)],
      messageOk l e.2 payload = false → ∃ t, exec e.1 s = .next t ∧
        s.Refuses l (s.station l).heard .badRequest e.2 (refuseEcho e.2 payload) t ∧
        s.sameBut [.stations, .causes, .messages] t) ∧
    ((s.station l).up = true → ∀ kind, ∃ t, exec (.unknownMessage l kind payload) s = .next t ∧
      s.Refuses l (s.station l).heard .badRequest kind (refuseEcho kind payload) t ∧
      s.sameBut [.stations, .causes, .messages] t)

/-! ## Reports at the ring -/

/-- An EMPTY for a platen recorded not OCCUPIED is answered PASS, and so is, at the four stations between LOAD and
UNLOAD, an ARRIVE for a garment SPOILED or UNVERIFIED. The hold is released; where no other platen is held an index
starts, or a STOPPING ring becomes STOPPED (R105, R108, R109, R114, R124). -/
def Obligations.EmptyPlatenOrSpoiledGarmentPasses : Prop :=
  ∀ (s : State) (l : Link) (payload : List Byte) (k : Nat),
    let released := fun (t : State) => t.ring = s.ringReleased (some k) ∧ (t.platen k).held = false ∧
      (∀ j, j ≠ k → t.platen j = s.platen j) ∧
      (TablesOk s → (∀ j, j ≠ k → (s.platen j).held = false) →
        (s.ring.state = .running → t.ring.cycle = .moving ∧ t.ring.moveTimer = some s.limits.moveLimit) ∧
        (s.ring.state = .stopping → t.ring.cycle = .idle ∧ t.ring.state = .stopped)) ∧
      ((∃ j, j ≠ k ∧ (s.platen j).held = true) → t.ring.cycle = .idle ∧ t.ring.state = s.ring.state)
    (s.Presents l kindEmpty payload k → (s.platen k).state ≠ .occupied → ∃ t, exec (.empty l payload) s = .next t ∧
      s.Answers l (s.station l).answered (.verdict (BitVec.ofNat 8 k) 0#48 .pass 0 0) t ∧ released t ∧
      s.sameBut [.stations, .ring, .messages] t) ∧
    ∀ pos g, s.Brings l payload k pos g → l ≠ .load → l ≠ .unload → (g.spoiled = true ∨ g.unverified = true) →
      ∃ t, exec (.arrive l payload) s = .next t ∧
        s.Answers l (s.station l).answered (.verdict (BitVec.ofNat 8 k) g.tag .pass 0 0) t ∧ released t ∧
        s.recordIs pos { g with age := 0 } t ∧ s.sameBut [.garments, .stations, .ring, .messages] t

/-- What a ring station's report meets before its decision list: PASS in STANDBY, NOT_HERE while the ring moves,
BAD_STATE while it is HALTED, PASS to stations other than LOAD while it is VERIFYING; a platen that does not face the
station halts the ring, at a later LOAD report of the verify lap too; one recorded OCCUPIED by another garment than the
one reported, or by any when EMPTY is reported, loses that garment; and a consistent report is answered PASS in CHECK,
on a STOPPED ring, or on a platen not held (R89, R112 to R115, R119, Table 1-6). The echo of a REFUSE is log 14's where
an EMPTY is refused. -/
def Obligations.ReportsAreCheckedBeforeTheLists : Prop :=
  ∀ (s : State) (l : Link) (kind : Byte) (payload : List Byte) (k : Nat), kind = kindArrive ∨ kind = kindEmpty →
    s.Hears l kind payload → l.isRing = true → s.verdictOf l = none → platenOf payload = some k →
    let done := exec (reportRow kind l payload) s
    let named := tagField payload 1
    let working := (s.station l).mode = .check ∨ (s.station l).mode = .active
    let passes := ∃ t, done = .next t ∧ s.Answers l (s.station l).answered (passFor kind payload) t ∧
      s.sameBut [.garments, .stations, .messages] t
    let refuses := fun code => ∃ t, done = .next t ∧
      s.Refuses l (s.station l).heard code kind (refuseEcho kind payload) t ∧
      s.sameBut [.garments, .stations, .causes, .messages] t
    let steady := s.ring.state ≠ .halted ∧ s.ring.state ≠ .verifying
    (¬ working → passes) ∧
    (working → s.ring.cycle = .moving → refuses .notHere) ∧
    (working → s.ring.cycle = .idle → s.ring.state = .halted → refuses .badState) ∧
    (working → s.ring.cycle = .idle → s.ring.state = .verifying → l ≠ .load → passes) ∧
    (working → s.ring.cycle = .idle →
      steady ∨ (s.ring.state = .verifying ∧ l = .load ∧ s.ring.lapSynced = true) → s.facing l ≠ some k →
      ∃ t, done = .next t ∧ t.ring.state = .halted ∧ t.anyHeld = false ∧ t.pendingCause .ringHalted = true ∧
        t.ring.offset = s.ring.offset ∧
        t.sent.getLast? = some ⟨l, .refuse .notHere kind (refuseEcho kind payload).1 (refuseEcho kind payload).2⟩) ∧
    (working → s.ring.cycle = .idle → steady → s.facing l = some k → (s.platen k).state = .occupied →
      ∀ tag pos g, (s.platen k).tag = some tag → (kind = kindArrive → named ≠ tag) →
        s.findTag tag = some (pos, g) → ∃ t, done = .next t ∧ t.garments.records.find pos = none ∧
          t.pendingCause .garmentLost = true ∧ (t.platen k).held = false ∧
          (g.location = .ring k → (t.platen k).state = .empty ∧ (t.platen k).tag = none) ∧
          (∀ b o, g.binding = some b → s.order b.slot = some o → o.state ≠ .cancelling →
            (∀ x ∈ s.liveGarments, x.binding = none → x.kind = .test) → t.order b.slot =
              some { o with lines := modifyAt o.lines b.line fun x => { x with inFlight := x.inFlight - 1 } }) ∧
          t.sent.getLast? = some ⟨l, if kind = kindArrive
            then .refuse .notHere kind (refuseEcho kind payload).1 (refuseEcho kind payload).2
            else passFor kind payload⟩) ∧
    (working → s.ring.cycle = .idle → steady → s.facing l = some k → (s.platen k).state ≠ .occupied →
      kind = kindArrive → l ≠ .load → ∃ t, done = .next t ∧
        s.Refuses l (s.station l).heard .notHere kind (refuseEcho kind payload) t ∧
        t.ring = s.ringReleased (some k) ∧ s.sameBut [.garments, .stations, .ring, .causes, .messages] t) ∧
    (working → s.ring.cycle = .idle → steady → s.facing l = some k →
      (kind = kindEmpty ∧ (s.platen k).state ≠ .occupied) ∨
        (kind = kindArrive ∧ (s.platen k).state = .occupied ∧ (s.platen k).tag = some named) ∨
        (kind = kindArrive ∧ (s.platen k).state ≠ .occupied ∧ l = .load) →
      (s.station l).mode = .check ∨ s.ring.state = .stopped ∨ (s.platen k).held = false →
      ∃ t, done = .next t ∧ s.Answers l (s.station l).answered (passFor kind payload) t ∧
        t.ring = s.ringReleased (some k) ∧
        (kind = kindEmpty → t.garments = s.garments) ∧
        (∀ pos g, kind = kindArrive → s.findTag named = some (pos, g) → s.recordIs pos { g with
          age := 0
          unverified := g.unverified && !decide (l = .load ∧ (s.platen k).state = .occupied) } t) ∧
        s.sameBut [.garments, .stations, .ring, .messages] t)

/-! ## Verdicts at the ring -/

/-- A tag that no pattern, no live record and no missing route turns away is learned at LOAD in the lowest free way of its
bucket, as a TEST of its pattern's design or as an ORDER bound to the line that a choice finds; its record has the fields
of Table 1-4, its platen becomes OCCUPIED, the counts of its SKU, class and design and the line's F rise by one, and LOAD
is given the design. A choice, here and wherever one is made, takes the highest class that holds a line wanting the
garment, in WEIGHTED mode of those with credit, which it spends, after a reload where none has credit; within the class
the line of the lowest admission sequence, then slot, then line index (R6, R8 to R10, R48, R51 to R53, R55, R71 to R73,
R101, R125 to R128). -/
def Obligations.LoadLearnsTheGarment : Prop :=
  (∀ (s : State) (set : LineSet) (sku : Nat) (design : Option Nat), TablesOk s →
    let wants := s.Wants set sku design
    let classOf := fun (o : Order) => s.sched.classMap.getD o.level 0
    let holds := fun c => ∃ slot i o l, wants slot i o l ∧ classOf o = c
    let credit := fun c => s.sched.credits.getD c 0
    let weight := fun c => s.sched.weights.getD c 0
    let choice := s.sched.choose (s.candidates set sku design)
    (s.candidates set sku design = [] ↔ ∀ slot i o l, ¬ wants slot i o l) ∧
    ((∀ slot i o l, ¬ wants slot i o l) → choice = none) ∧
    ∀ c slot i o l, c ≤ 3 → wants slot i o l → classOf o = c →
      (∀ slot' i' o' l', wants slot' i' o' l' → classOf o' = c → o.admission < o'.admission ∨
        (o.admission = o'.admission ∧ (slot < slot' ∨ (slot = slot' ∧ i ≤ i')))) →
      let takes := fun (credits : List Nat) =>
        choice = some (⟨slot, i, c, o.admission⟩, { s.sched with credits := credits })
      (s.sched.mode = .strict → (∀ j, c < j → j ≤ 3 → ¬ holds j) → takes s.sched.credits) ∧
      (s.sched.mode = .weighted → 0 < credit c → (∀ j, c < j → j ≤ 3 → holds j → credit j = 0) →
        takes (modifyAt s.sched.credits c (· - 1))) ∧
      (s.sched.mode = .weighted → (∀ j, j ≤ 3 → holds j → credit j = 0) → 0 < weight c →
        (∀ j, c < j → j ≤ 3 → holds j → weight j = 0) → takes (modifyAt s.sched.weights c (· - 1)))) ∧
  ∀ (s : State) (payload : List Byte) (k pos : Nat) (e : SkuEntry) (c : ClassEntry),
    let tag := tagField payload 1
    let sku := field payload 8 1
    let isActive := fun l => (s.station l).mode = .active
    let record := fun (kind : Kind) (design : Nat) (b : Option Binding) => ({
      tag := tag, kind := kind, loadSeq := s.garments.loadSeq, sku := sku, cls := e.cls, binding := b, design := design
      bridge := s.bridgeRule .a, stage := .blank, location := .ring k, full := s.fullPulses design e.cls, delivered := 0
      placing := true, wet := false, spoiled := false, unverified := false, laps := 0, ink := 0, dose := 0, target := 0
      ceiling := 0, result := .none, recures := 0, age := 0 } : Garment)
    let learned := fun (kind : Kind) (design : Nat) (b : Option Binding) (t : State) =>
      exec (.arrive .load payload) s = .next t ∧
      s.Gives .load { platen := some k, tag := tag, verdict := .load, param1 := design } t ∧
      t.garments = { s.garments with
        records := s.garments.records.put pos (record kind design b)
        loadSeq := min 4294967295 (s.garments.loadSeq + 1) } ∧
      t.refs = (s.countGarment (record kind design b) (· + 1)).refs ∧
      t.ring = { s.ring with platens := s.ring.platens.store {} k ⟨.occupied, some tag, true⟩ }
    s.Presents .load kindArrive payload k → (s.platen k).state = .empty → field payload 7 1 = 1 →
    s.findTag tag = none → s.refs.skus.find sku = some e → s.refs.classes.find e.cls = some c →
    (0 < c.rate → isActive .pretreat) → (0 < c.pressBase → isActive .press) → (isActive .printA ∨ isActive .printB) →
    s.freeWay tag = some pos →
    (∀ p, s.patternFor tag = some p → p.action = .test → ∃ t, learned .test p.design none t ∧
      s.sameBut [.garments, .refs, .stations, .ring, .messages] t) ∧
    (s.patternFor tag = none → ∀ (x : Candidate) (sched : Scheduler) (line : Line),
      s.sched.choose (s.candidates .all sku none) = some (x, sched) → s.line x.slot x.line = some line →
      ∃ t, learned .order line.design (some ⟨x.slot, x.line⟩) t ∧ t.sched = sched ∧
        t.orders = (s.modifyLine x.slot x.line fun l => { l with inFlight := l.inFlight + 1 }).orders ∧
        s.sameBut [.garments, .orders, .sched, .refs, .stations, .ring, .messages] t)

/-- What an ARRIVE at LOAD that learns nothing is answered, with the hold released and the record of its tag touched:
PASS on an OUT platen, on one OCCUPIED by the garment it names, which is then verified, and for the tag of a live
garment marked SPOILED or UNVERIFIED; else the refusals of Table 7-2, in its order (R11, R114, R124, R125, R128, R129).
That R124 comes before Table 7-2 for such a tag on an EMPTY platen is the model's reading (log 24). -/
def Obligations.LoadRefusesInOrder : Prop :=
  ∀ (s : State) (payload : List Byte) (k : Nat),
    let tag := tagField payload 1
    let sku := field payload 8 1
    let entry := s.refs.skus.find sku
    let cls := entry.bind fun e => s.refs.classes.find e.cls
    let isActive := fun l => (s.station l).mode = .active
    let routed := ∀ c, cls = some c → (0 < c.rate → isActive .pretreat) ∧ (0 < c.pressBase → isActive .press) ∧
      (isActive .printA ∨ isActive .printB)
    let blocked := ∃ p, s.patternFor tag = some p ∧ p.action = .block
    let touched := fun (verified : Bool) (t : State) =>
      (s.findTag tag = none → t.garments = s.garments) ∧
      ∀ pos g, s.findTag tag = some (pos, g) →
        s.recordIs pos { g with age := 0, unverified := g.unverified && !verified } t
    let passes := fun verified => ∃ t, exec (.arrive .load payload) s = .next t ∧
      s.Answers .load (s.station .load).answered (.verdict (BitVec.ofNat 8 k) tag .pass 0 0) t ∧ touched verified t ∧
      t.ring = s.ringReleased (some k) ∧ s.sameBut [.garments, .stations, .ring, .messages] t
    let refuses := fun code => ∃ t, exec (.arrive .load payload) s = .next t ∧
      s.Refuses .load (s.station .load).heard code kindArrive (BitVec.ofNat 8 k, tag) t ∧ touched false t ∧
      t.ring = s.ringReleased (some k) ∧ s.sameBut [.garments, .stations, .ring, .causes, .messages] t
    s.Presents .load kindArrive payload k →
    ((s.platen k).state = .out → passes false) ∧
    ((s.platen k).state = .occupied → (s.platen k).tag = some tag → passes true) ∧
    ((s.platen k).state = .empty →
      (∀ pos g, s.findTag tag = some (pos, g) → g.spoiled = true ∨ g.unverified = true → passes false) ∧
      ((∀ pos g, s.findTag tag = some (pos, g) → g.spoiled = false ∧ g.unverified = false) →
        (field payload 7 1 = 0 → refuses .badRequest) ∧
        (field payload 7 1 = 1 → blocked → refuses .blockedTag) ∧
        (field payload 7 1 = 1 → ¬ blocked → (s.findTag tag).isSome → refuses .duplicateTag) ∧
        (field payload 7 1 = 1 → ¬ blocked → s.findTag tag = none → cls = none → refuses .classInvalid) ∧
        (field payload 7 1 = 1 → ¬ blocked → s.findTag tag = none → cls.isSome → ¬ routed → refuses .noRoute) ∧
        (field payload 7 1 = 1 → ¬ blocked → s.findTag tag = none → cls.isSome → routed → s.freeWay tag = none →
          refuses .tableFull) ∧
        (field payload 7 1 = 1 → s.patternFor tag = none → s.findTag tag = none → cls.isSome → routed →
          (s.freeWay tag).isSome → s.candidates .all sku none = [] → refuses .noDemand)))

/-- The verdicts of PRETREAT, PRESS and the print bridges for a garment neither SPOILED nor UNVERIFIED: SPRAY with the
owed pulses from the committed bucket (GREEN) or else the excess bucket (YELLOW), or RED with METER_RED and PASS; PRESS
with the dwell; PRINT with design and underbase; and PASS where the station has no work on the garment (R122, R123,
R131, R133, R135, R147 to R149). -/
def Obligations.PretreatPressAndPrintGiveTheirVerdicts : Prop :=
  ∀ (s : State) (l : Link) (payload : List Byte) (k pos : Nat) (g : Garment), s.Brings l payload k pos g →
    g.spoiled = false → g.unverified = false →
    let c := s.classEntry g.cls
    let owed := g.full - g.delivered
    let seen := { g with age := 0 }
    let gives := fun v => ∃ t, exec (.arrive l payload) s = .next t ∧ s.Gives l v t ∧ s.recordIs pos seen t ∧
      s.sameBut [.garments, .stations, .messages] t
    let passes := fun causes => ∃ t, exec (.arrive l payload) s = .next t ∧
      s.Answers l (s.station l).answered (.verdict (BitVec.ofNat 8 k) g.tag .pass 0 0) t ∧
      s.recordIs pos seen t ∧ t.ring = s.ringReleased (some k) ∧ t.port.causes = s.port.causes ||| causes ∧
      s.sameBut [.garments, .stations, .ring, .causes, .messages] t
    let grants := fun (grant : Grant) (m : Meter) => ∃ t, exec (.arrive l payload) s = .next t ∧
      s.Gives l ⟨some k, g.tag, .spray, owed, 0, .work, some grant, none, false⟩ t ∧
      s.recordIs pos { seen with wet := decide (grant.colour = .yellow) } t ∧ t.meter = m ∧
      s.sameBut [.garments, .stations, .meter, .messages] t
    let sprays := 0 < c.rate ∧ g.stage = .blank ∧ 0 < owed
    let presses := 0 < c.pressBase ∧ (g.stage = .treated ∨ (g.stage = .blank ∧ c.rate = 0))
    let ready := g.stage ≠ .printed ∧ (0 < c.rate → g.stage ≠ .blank) ∧ (0 < c.pressBase → g.stage = .pressed)
    let prints := fun side => ready ∧ g.bridge = side
    let underbase := c.dark = true ∧ (s.designEntry g.design).underbase = true
    (l = .pretreat → sprays → owed ≤ s.meter.bc →
      grants ⟨.green, .committed⟩ { s.meter with bc := s.meter.bc - owed }) ∧
    (l = .pretreat → sprays → s.meter.bc < owed → owed ≤ s.meter.be →
      grants ⟨.yellow, .excess⟩ { s.meter with be := s.meter.be - owed }) ∧
    (l = .pretreat → sprays → s.meter.bc < owed → s.meter.be < owed → passes Cause.meterRed.field) ∧
    (l = .pretreat → ¬ sprays → passes 0#16) ∧
    (l = .press → presses →
      gives { platen := some k, tag := g.tag, verdict := .press,
              param1 := c.pressBase + (if g.wet then c.wetExtra else 0) }) ∧
    (l = .press → ¬ presses → passes 0#16) ∧
    (∀ side, l = (match side with | Bridge.a => Link.printA | .b => .printB) →
      (prints side → (underbase → gives { platen := some k, tag := g.tag, verdict := .print, param1 := g.design,
                                          param2 := 1 }) ∧
        (¬ underbase → gives { platen := some k, tag := g.tag, verdict := .print, param1 := g.design })) ∧
      (¬ prints side → passes 0#16))

/-- The verdicts of UNLOAD: RETURN for a SPOILED garment, an unbound unprinted ORDER and an unprinted garment at the lap
limit; TO_BELT with the lowest free lane, reserved for it, or WAIT for a PRINTED garment; PASS with one more lap for any
other (R137, R138, R140, R161). -/
def Obligations.UnloadGivesItsVerdicts : Prop :=
  ∀ (s : State) (payload : List Byte) (k pos : Nat) (g : Garment), s.Brings .unload payload k pos g →
    let seen := { g with age := 0 }
    let unwanted := g.spoiled = true ∨ (g.kind = .order ∧ g.binding = none ∧ g.stage ≠ .printed)
    let gives := fun v => ∃ t, exec (.arrive .unload payload) s = .next t ∧ s.Gives .unload v t ∧ s.recordIs pos seen t ∧
      s.sameBut [.garments, .stations, .messages] t
    let bridgeActive := (s.station (match g.bridge with | .a => .printA | .b => .printB)).mode = .active
    (unwanted ∨ (g.stage ≠ .printed ∧ s.limits.lapLimit ≤ g.laps) →
      gives { platen := some k, tag := g.tag, verdict := .ret }) ∧
    (¬ unwanted → g.stage = .printed → ∀ n, n ≤ 3 → (s.lane n).free = true → (∀ j, j < n → (s.lane j).free = false) →
      ∃ t, exec (.arrive .unload payload) s = .next t ∧
        s.Gives .unload { platen := some k, tag := g.tag, verdict := .toBelt, param1 := n, lane := some n } t ∧
        s.recordIs pos seen t ∧ t.lane n = { s.lane n with reservation := some g.tag } ∧
        (∀ j, j ≠ n → t.lane j = s.lane j) ∧ { t.cure with lanes := s.cure.lanes } = s.cure ∧
        s.sameBut [.garments, .stations, .cure, .messages] t) ∧
    (¬ unwanted → g.stage = .printed → (∀ n, n ≤ 3 → (s.lane n).free = false) →
      gives { platen := some k, tag := g.tag, verdict := .wait, cls := .wait }) ∧
    (TablesOk s → ¬ unwanted → g.stage ≠ .printed → g.laps < s.limits.lapLimit →
      ∃ t, exec (.arrive .unload payload) s = .next t ∧
        s.Answers .unload (s.station .unload).answered (.verdict (BitVec.ofNat 8 k) g.tag .pass 0 0) t ∧
        s.recordIs pos { seen with
          laps := g.laps + 1, bridge := if bridgeActive then g.bridge else s.bridgeRule g.bridge } t ∧
        t.ring = s.ringReleased (some k) ∧ s.sameBut [.garments, .stations, .ring, .messages] t)

/-- The first LOAD report of the verify lap sets the offset so that the reported platen faces LOAD, with the hold; each
report of a held platen there, ARRIVE or EMPTY, counts, and at 24 the ring is RUNNING, with the platens that face the
other ring stations in CHECK or ACTIVE held. An EMPTY of a platen not OCCUPIED is answered PASS; so is an ARRIVE of the
recorded garment, which is then no longer UNVERIFIED, and one on a platen not OCCUPIED; any other report of an OCCUPIED
platen retires the recorded garment LOST and empties the platen, with PASS to an EMPTY and NOT_HERE to an ARRIVE (R113
to R115, R118, R119). -/
def Obligations.VerifyLapSynchronisesAndCounts : Prop :=
  ∀ (s : State) (kind : Byte) (payload : List Byte) (k : Nat), kind = kindArrive ∨ kind = kindEmpty →
    s.Hears .load kind payload → platenOf payload = some k →
    (s.station .load).working = true → s.verdictOf .load = none → s.ring.cycle = .idle → s.ring.state = .verifying →
    (∀ j, s.facing .load = some j → (s.platen j).held = true) →
    (s.ring.lapSynced = false ∨ s.facing .load = some k) →
    let named := tagField payload 1
    let done := exec (reportRow kind .load payload) s
    let counted := fun (t : State) => t.ring.lapCount = s.ring.lapCount + 1 ∧ t.ring.positions = s.ring.positions ∧
      (s.ring.lapSynced = false → t.ring.lapSynced = true ∧ t.facing .load = some k ∧ t.ring.offset ≤ 23) ∧
      (s.ring.lapSynced = true → t.ring.offset = s.ring.offset) ∧
      (s.ring.lapCount < 23 → t.ring.state = .verifying ∧ (t.platen k).held = false) ∧
      (23 ≤ s.ring.lapCount → t.ring.state = .running ∧ ∀ l ∈ [Link.pretreat, .press, .printA, .printB, .unload], ∀ j,
        (s.station l).working = true → t.facing l = some j → (t.platen j).held = true)
    let passes := fun (garments : State → Prop) => ∃ t, done = .next t ∧
      s.Answers .load (s.station .load).answered (passFor kind payload) t ∧ counted t ∧ garments t ∧
      s.sameBut [.garments, .stations, .ring, .messages] t
    (kind = kindEmpty → (s.platen k).state ≠ .occupied → passes fun t => t.garments = s.garments) ∧
    (kind = kindArrive → (s.platen k).state ≠ .occupied → passes fun t =>
      (s.findTag named = none → t.garments = s.garments) ∧
      ∀ pos g, s.findTag named = some (pos, g) → s.recordIs pos { g with age := 0 } t) ∧
    (kind = kindArrive → (s.platen k).state = .occupied → (s.platen k).tag = some named →
      ∀ pos g, s.findTag named = some (pos, g) → passes fun t => s.recordIs pos { g with age := 0, unverified := false } t) ∧
    ((s.platen k).state = .occupied → ∀ tag pos g, (s.platen k).tag = some tag → (kind = kindArrive → named ≠ tag) →
      s.findTag tag = some (pos, g) → ∃ t, done = .next t ∧ counted t ∧ t.garments.records.find pos = none ∧
        t.pendingCause .garmentLost = true ∧
        (g.location = .ring k → (t.platen k).state = .empty ∧ (t.platen k).tag = none) ∧
        t.sent.getLast? = some ⟨.load, if kind = kindArrive
          then .refuse .notHere kind (refuseEcho kind payload).1 (refuseEcho kind payload).2
          else passFor kind payload⟩ ∧
        s.sameBut [.garments, .orders, .sched, .refs, .stations, .ring, .cure, .bins, .causes, .messages] t)

/-! ## Closing reports -/

/-- What the report that closes a LOAD, SPRAY, PRESS or PRINT verdict changes: PLACING clear; pulses credited, a shortfall
refunded and the stage TREATED at completion; PRESSED and not WET; PRINTED with the ink load, or SPOILED by a print that
had started. A LOAD ABORT removes the record, and F of its line falls by one with no offering. A garment of an order being
cancelled, at any station and whatever its verdict, is off that order at the close (R30, R41, R58, R59, R92, R108, R130,
R132, R134, R136, R144, R150, Table 1-6). -/
def Obligations.RingReportsChangeTheGarment : Prop :=
  ∀ (s : State) (l : Link) (kind : Byte) (payload : List Byte) (v : OpenVerdict) (pos : Nat) (g : Garment),
    s.Reports l kind payload v → s.findTag v.tag = some (pos, g) →
    (kind = kindDone ∨ kind = kindFail ∨ kind = kindAbort → v.accepts kind = true → TablesOk s → TagsSafe s →
      ∀ b o, g.binding = some b → s.order b.slot = some o → o.state = .cancelling →
        ∃ t, exec (closeRow kind l payload) s = .next t ∧ s.LeavesOrder pos b t) ∧
    (s.notCancelled g →
    let seen := { g with age := 0 }
    let becomes := fun g' => ∃ t, exec (closeRow kind l payload) s = .next t ∧ s.Closes l kind t ∧ s.recordIs pos g' t ∧
      t.ring = s.ringReleased v.platen ∧ s.sameBut [.garments, .stations, .ring, .messages] t
    let delivers := fun (m : Nat) (grant : Grant) => ∃ t,
      let given := { seen with delivered := min 3825 (g.delivered + m) }
      let refund := v.param1 - m
      exec (closeRow kind l payload) s = .next t ∧ s.Closes l kind t ∧
      s.recordIs pos (if g.stage = .blank ∧ given.full * 9 ≤ given.delivered * 10
        then { given with stage := .treated } else given) t ∧
      t.meter = (if v.param1 ≤ m then s.meter else match grant.bucket with
        | .committed => { s.meter with bc := min s.meter.cbs (s.meter.bc + refund) }
        | .excess => { s.meter with be := min s.meter.ebs (s.meter.be + refund) }) ∧
      t.ring = s.ringReleased v.platen ∧ s.sameBut [.garments, .stations, .ring, .meter, .messages] t
    (v.verdict = .load → kind = kindDone → becomes { seen with placing := false }) ∧
    (v.verdict = .load → kind = kindAbort → ∃ t, exec (.abort l payload) s = .next t ∧
      t.garments.records.find pos = none ∧ t.verdictOf l = none ∧
      t.sent.getLast? = some ⟨l, .ack kindAbort (s.station l).mode⟩ ∧
      (∀ k, v.platen = some k → g.location = .ring k → t.platen k = ⟨.empty, none, false⟩) ∧
      (TagsSafe s → ∀ b o, g.binding = some b → s.order b.slot = some o → t.order b.slot =
        some { o with lines := modifyAt o.lines b.line fun x => { x with inFlight := x.inFlight - 1 } })) ∧
    (v.verdict = .spray → ∀ grant, v.grant = some grant →
      (kind = kindDone → delivers (field payload 7 2) grant) ∧ (kind = kindFail → delivers 0 grant)) ∧
    (v.verdict = .press → kind = kindDone → becomes { seen with stage := .pressed, wet := false }) ∧
    (v.verdict = .press → kind = kindFail → becomes seen) ∧
    (v.verdict = .print → kind = kindDone →
      becomes { seen with stage := .printed, ink := min 999 (field payload 7 2) }) ∧
    (v.verdict = .print → kind = kindFail → becomes { seen with spoiled := decide (g.spoiled = true ∨ field payload 7 1 = 1) }))

/-- A DONE that closes TO_BELT or RECURE places the garment in the lane reserved for it, with its cure target and ceiling
fixed and, for a second pass, the retained dose; one that closes OVERFLOW locates the garment OVERFLOW and appends it to
the overflow list, and leaves one located OVERFLOW already in its place (R163 to R165, R181, R188). -/
def Obligations.PlacementsMoveTheGarment : Prop :=
  ∀ (s : State) (l : Link) (payload : List Byte) (v : OpenVerdict) (pos : Nat) (g : Garment),
    s.Reports l kindDone payload v → s.findTag v.tag = some (pos, g) → s.notCancelled g →
    let c := s.classEntry g.cls
    let ceiling := c.ceiling * 1000
    let target := min ceiling (c.targetBase * 1000 + g.ink * c.inkFactor)
    let places := fun n (g' : Garment) => ∃ t, exec (.done l payload) s = .next t ∧ s.Closes l kindDone t ∧
      s.recordIs pos g' t ∧ t.lane n = ⟨some s.cure.beltCount, false, none⟩ ∧ (∀ j, j ≠ n → t.lane j = s.lane j) ∧
      (∀ k, t.platen k = { s.platen k with
        state := if g.location = .ring k then .empty else (s.platen k).state
        tag := if g.location = .ring k then none else (s.platen k).tag
        held := if v.platen = some k then false else (s.platen k).held }) ∧
      t.cure.exitQueue = (if g.location = .exit then s.cure.exitQueue.filter (· ≠ v.tag) else s.cure.exitQueue) ∧
      t.bins.overflow = (if g.location = .overflow then s.bins.overflow.filter (· ≠ v.tag) else s.bins.overflow) ∧
      t.orders.freeCells = (if g.location = .overflow then s.orders.freeCells + 1 else s.orders.freeCells) ∧
      s.sameBut [.garments, .orders, .stations, .ring, .cure, .bins, .messages] t
    (∀ n, v.verdict = .toBelt → v.lane = some n → places n { g with
      age := 0, location := .belt n s.cure.beltCount, ceiling := ceiling, target := target, result := .none }) ∧
    (∀ n, v.verdict = .recure → v.lane = some n → places n { g with
      age := 0, location := .belt n s.cure.beltCount, ceiling := ceiling, target := target, result := .none
      dose := g.dose * s.limits.retention / 16, recures := 1 }) ∧
    (v.verdict = .overflow → g.location = .exit → ∃ t, exec (.done l payload) s = .next t ∧ s.Closes l kindDone t ∧
      s.recordIs pos { g with age := 0, location := .overflow } t ∧
      t.cure = { s.cure with exitQueue := s.cure.exitQueue.filter (· ≠ v.tag) } ∧
      t.bins = { s.bins with overflow := s.bins.overflow ++ [v.tag] } ∧ t.ring = s.ringReleased v.platen ∧
      s.sameBut [.garments, .stations, .ring, .cure, .bins, .messages] t) ∧
    (v.verdict = .overflow → g.location = .overflow → ∃ t, exec (.done l payload) s = .next t ∧ s.Closes l kindDone t ∧
      s.recordIs pos { g with age := 0 } t ∧ t.ring = s.ringReleased v.platen ∧
      s.sameBut [.garments, .stations, .ring, .messages] t)

/-- A DONE that closes RETURN, TEST_OUT, REJECT, SPARE or BIN retires the garment and sets the cause of its reason. It
gives back its platen, its place in the exit queue or on the overflow list, its hold cell and its lanes, a lane that
is then free going to a WAIT open at UNLOAD for another garment; that WAIT's VERDICT goes out before the ACK by the
model's choice (log 15). The last garment binned of an OPEN or FILLING order makes it COMPLETE and its bin READY, with
ORDER_COMPLETE, and any other makes it FILLING. F of a bound garment's line falls by one. A RETURN of a garment not
SPOILED changes nothing else of the order; a REJECT, or a RETURN of a SPOILED garment, charges the line of an OPEN,
FILLING or HELD order: K rises below the reprint limit, and at it an ACTIVE line becomes FAILED and the order HELD,
with ORDER_HELD; then the line is offered the orphans, in the order of an offering, and none where it can take none
(R16, R18, R20, R30, R35, R37, R48, R51 to R54, R60 to R62, R64, R139, R141, R162, R185 to R187, Table 1-6). -/
def Obligations.FinalReportsRetireTheGarment : Prop :=
  ∀ (s : State) (l : Link) (payload : List Byte) (v : OpenVerdict) (pos : Nat) (g : Garment),
    s.Reports l kindDone payload v → s.findTag v.tag = some (pos, g) →
    let retires := fun (cause : Option Cause) => ∃ t, exec (.done l payload) s = .next t ∧
      t.garments.records.find pos = none ∧ t.verdictOf l = none ∧
      t.sent.getLast? = some ⟨l, .ack kindDone (s.station l).mode⟩ ∧ (∀ f, cause = some f → t.pendingCause f = true) ∧
      (∀ k, v.platen = some k → (t.platen k).held = false) ∧
      (TagsSafe s → ∃ served, s.GivesBack (some l) g t served ∧
        t.station l = (s.station l).answered.without v.tag ∧
        t.sent = s.sent ++ served ++ [⟨l, .ack kindDone (s.station l).mode⟩]) ∧
      s.sameBut [.garments, .orders, .sched, .refs, .stations, .ring, .cure, .bins, .causes, .messages] t
    let alone := ∀ p x, s.garments.records.find p = some x → x.tag = v.tag → p = pos
    let spoils := v.verdict = .reject ∨ (v.verdict = .ret ∧ g.spoiled = true)
    (v.verdict = .ret → retires (if g.spoiled then some .garmentRejected else none)) ∧
    (v.verdict = .testOut → retires none) ∧ (v.verdict = .reject → retires (some .garmentRejected)) ∧
    (v.verdict = .spare → retires (some .garmentSpare)) ∧ (v.verdict = .bin → retires none) ∧
    (v.verdict = .bin → alone →
      ∀ b o bin, g.binding = some b → s.order b.slot = some o → o.bin = some bin →
      let lines := modifyAt o.lines b.line fun x => { x with inFlight := x.inFlight - 1, binned := x.binned + 1 }
      let open_ := o.state = .opened ∨ o.state = .filling
      let full := ∀ x ∈ lines, x.binned = x.quantity
      ∃ t, exec (.done l payload) s = .next t ∧
        (open_ → full → t.order b.slot = some { o with lines := lines, state := .complete } ∧
          (t.bin bin).state = .ready ∧ t.pendingCause .orderComplete = true) ∧
        (open_ → ¬ full → t.order b.slot = some { o with lines := lines, state := .filling }) ∧
        (¬ open_ → t.order b.slot = some { o with lines := lines })) ∧
    (v.verdict = .ret → g.spoiled = false → alone →
      ∀ b o, g.binding = some b → s.order b.slot = some o → o.state ≠ .cancelling →
      ∃ t, exec (.done l payload) s = .next t ∧ t.order b.slot =
        some { o with lines := modifyAt o.lines b.line fun x => { x with inFlight := x.inFlight - 1 } }) ∧
    (spoils → alone → TablesOk s →
      ∀ b o x, g.binding = some b → s.order b.slot = some o → o.lines[b.line]? = some x →
      let charged := o.state = .opened ∨ o.state = .filling ∨ o.state = .held
      let fails := charged ∧ s.limits.reprintLimit ≤ x.spoils ∧ x.state = .active
      let lines := modifyAt o.lines b.line fun x => { x with
        inFlight := x.inFlight - 1
        spoils := if charged ∧ x.spoils < s.limits.reprintLimit then x.spoils + 1 else x.spoils
        state := if fails then .failed else x.state }
      ∃ t, exec (.done l payload) s = .next t ∧
        (fails → t.pendingCause .orderHeld = true) ∧
        (o.state ≠ .cancelling → (t.order b.slot).isSome) ∧
        (o.state ≠ .cancelling → TagsSafe s → s.sched.Safe → ∃ u w n, u.Offers (.line b.slot b.line) w n ∧
          u.order b.slot = some { o with state := if fails then .held else o.state, lines := lines } ∧
          (∀ k, k ≠ b.slot → u.order k = s.order k) ∧
          u.garments = { s.garments with records := s.garments.records.erase pos } ∧
          u.refs = (s.countGarment g (· - 1)).refs ∧ s.namesSame v.tag u ∧
          s.sameBut [.garments, .orders, .refs, .stations, .ring, .cure, .bins, .causes, .messages] u ∧
          t.garments = w.garments ∧ t.orders = w.orders ∧ t.sched = w.sched ∧ t.refs = w.refs) ∧
        ∀ o', t.order b.slot = some o' →
          o' = { o with state := if fails then .held else o.state, lines := o'.lines } ∧
          o'.lines.map (fun x => { x with inFlight := 0 }) = lines.map (fun x => { x with inFlight := 0 }) ∧
          (fails ∨ (o.state ≠ .opened ∧ o.state ≠ .filling) ∨ x.state = .failed ∨
            (∀ y ∈ s.liveGarments, y.binding = none → y.kind = .test) → o'.lines = lines))

/-- An ARRIVE or EMPTY at a station with an open verdict for another platen is refused BUSY, and an ARRIVE of its platen
and tag has the verdict restated, unchanged. An ARRIVE of another tag or an EMPTY for its platen supersedes the verdict:
it is undone, and the report is answered afresh, with one reply. A ring station below CHECK then answers PASS. At a
working one the garment the platen is recorded with is lost, or withdrawn where the verdict was LOAD. MATCH then answers
PASS, or UNKNOWN_TAG to a tag of no garment if it is ACTIVE, and has given back a lane or a hold cell. A DONE, FAIL or
ABORT that matches no open verdict is refused TOO_LATE if it names the expired-verdict memory, else UNKNOWN_TAG if no
live garment carries its tag, else NOT_OPEN (R89, R91 to R93, R95, R108, R114, Table 5-8). When a superseded hold is
released is the model's reading (log 11), and so is the echo for an EMPTY (log 14). -/
def Obligations.ReportsAgainstTheOpenVerdict : Prop :=
  ∀ (s : State) (l : Link) (kind : Byte) (payload : List Byte), s.Hears l kind payload →
    let tag := tagField payload 1
    let matched := ∃ v, s.verdictOf l = some v ∧ platenOf payload = v.platen ∧ tag = v.tag ∧ v.accepts kind = true
    let refuses := fun code => ∃ t, exec (closeRow kind l payload) s = .next t ∧
      s.Refuses l (s.station l).heard code kind (refuseEcho kind payload) t ∧
      s.sameBut [.garments, .stations, .causes, .messages] t
    ((kind = kindArrive ∨ kind = kindEmpty) → ∀ v, s.verdictOf l = some v →
      (platenOf payload ≠ v.platen → ∃ t, exec (reportRow kind l payload) s = .next t ∧
        s.Refuses l (s.station l).heard .busy kind (refuseEcho kind payload) t ∧
        s.sameBut [.garments, .stations, .causes, .messages] t) ∧
      (kind = kindArrive → platenOf payload = v.platen → tag = v.tag → ∃ t, exec (.arrive l payload) s = .next t ∧
        s.Answers l (s.station l).answered
          (.verdict (platenByte v.platen) v.tag v.verdict v.param1 v.param2) t ∧
        s.sameBut [.garments, .stations, .messages] t) ∧
      (platenOf payload = v.platen → (kind = kindArrive → tag ≠ v.tag) →
        let done := exec (reportRow kind l payload) s
        let ended := fun (x : Station) => { x with verdict := none, workTimer := none }
        let passed := s.Answers l (ended (s.station l).answered) (passFor kind payload)
        let working := (s.station l).working = true
        (∀ pos g, s.findTag v.tag = some (pos, g) → s.notCancelled g → l.isRing = true → ¬ working →
          (kind = kindArrive → s.findTag tag = none) →
          (v.verdict ∈ [Verdict.spray, .print] → ∃ t, done = .next t ∧ passed t ∧
            s.recordIs pos { g with spoiled := true } t ∧
            t.ring = s.ringReleased v.platen ∧ s.sameBut [.garments, .stations, .ring, .messages] t) ∧
          (v.verdict ∈ [Verdict.press, .ret, .wait] → ∃ t, done = .next t ∧ passed t ∧
            t.ring = s.ringReleased v.platen ∧ s.sameBut [.stations, .ring, .messages] t) ∧
          (v.verdict ∈ [Verdict.load, .toBelt] → ∃ t, done = .next t ∧ t.garments.records.find pos = none ∧
            t.verdictOf l = none ∧ t.sent.getLast? = some ⟨l, passFor kind payload⟩ ∧
            (v.verdict = .toBelt → t.pendingCause .garmentLost = true))) ∧
        (∀ k pos g, v.platen = some k → s.findTag v.tag = some (pos, g) → g.location = .ring k →
          (s.platen k).state = .occupied → (s.platen k).tag = some v.tag →
          working → s.ring.cycle = .idle → s.ring.state ≠ .halted → s.ring.state ≠ .verifying → s.facing l = some k →
          (l.isRing = true → l ≠ .load → v.verdict ∈ [Verdict.spray, .print, .press, .ret, .wait, .toBelt] →
            ∃ t, done = .next t ∧ t.garments.records.find pos = none ∧ t.pendingCause .garmentLost = true ∧
              t.verdictOf l = none ∧ t.platen k = ⟨.empty, none, false⟩ ∧
              t.sent.getLast? = some ⟨l, if kind = kindArrive
                then .refuse .notHere kind (refuseEcho kind payload).1 (refuseEcho kind payload).2
                else passFor kind payload⟩) ∧
          (l = .load → v.verdict = .load → ∃ t, done = .next t ∧
            (∀ x, t.garments.records.find pos = some x → x.tag ≠ v.tag) ∧
            (kind = kindEmpty → t.garments.records.find pos = none ∧ t.verdictOf l = none ∧
              t.platen k = ⟨.empty, none, false⟩ ∧ t.sent.getLast? = some ⟨l, passFor kind payload⟩))) ∧
        (∀ pos g, l = .matching → s.findTag v.tag = some (pos, g) → s.notCancelled g → s.findTag tag = none →
          (∀ w, s.verdictOf .unload = some w → w.cls = .work) →
          v.verdict ∈ [Verdict.testOut, .reject, .recure, .spare, .bin, .overflow] →
          let undone := fun (t : State) => t.garments = s.garments ∧
            t.orders = { s.orders with
              freeCells := s.orders.freeCells + if v.verdict = .overflow ∧ v.holdTaken = true then 1 else 0 } ∧
            (∀ k, k ≤ 3 → t.lane k = if v.verdict = .recure ∧ (s.lane k).reservation = some v.tag
              then { s.lane k with reservation := none } else s.lane k) ∧
            { t.cure with lanes := s.cure.lanes } = s.cure
          ((s.station l).mode ≠ .active → ∃ t, done = .next t ∧ passed t ∧ undone t ∧
            s.sameBut [.garments, .orders, .stations, .cure, .messages] t) ∧
          ((s.station l).mode = .active → ∃ t, done = .next t ∧
            s.Refuses l (ended (s.station l).heard) .unknownTag kind (refuseEcho kind payload) t ∧ undone t ∧
            s.sameBut [.garments, .orders, .stations, .cure, .causes, .messages] t)))) ∧
    ((kind = kindDone ∨ kind = kindFail ∨ kind = kindAbort) → ¬ matched →
      let late := (s.station l).expired = some ⟨platenOf payload, tag⟩
      (late → refuses .tooLate) ∧ (¬ late → s.findTag tag = none → refuses .unknownTag) ∧
      (¬ late → (s.findTag tag).isSome → refuses .notOpen))

/-! ## Timers and the drive -/

/-- The work timer's expiry withdraws a WORK verdict, sets the expired-verdict memory, lowers an ACTIVE station to CHECK
and releases the hold, with the undo of Table 5-8: a sprayed or printed garment is SPOILED, a garment at LOAD or on its
way to the belt loses its record, a hold cell taken for OVERFLOW returns, and the lane of a RECURE is released and
handed to a WAIT open at UNLOAD. The unload wait limit ends a WAIT as PASS with one more lap. A garment of an order
being cancelled is then off that order (R41, R58, R59, R94, R95, R108, R141, R162). That the VERDICT of a WAIT served
goes out before the MODE is the model's choice (log 15). -/
def Obligations.TimersEndOpenVerdicts : Prop :=
  ∀ (s : State) (l : Link) (v : OpenVerdict) (pos : Nat) (g : Garment), s.verdictOf l = some v →
    s.findTag v.tag = some (pos, g) →
    (TablesOk s → TagsSafe s → ∀ b o, g.binding = some b → s.order b.slot = some o → o.state = .cancelling →
      (v.cls = .work → ∃ t, exec (.workTimeout l) s = .next t ∧ s.LeavesOrder pos b t) ∧
      (v.cls = .wait → l = .unload → ∃ t, exec .unloadWaitLimit s = .next t ∧ s.LeavesOrder pos b t)) ∧
    (s.notCancelled g →
    let falls := (s.station l).mode = .active
    let mode := if falls then StationMode.check else (s.station l).mode
    let withdrawn := fun (t : State) => t.verdictOf l = none ∧ (t.station l).workTimer = none ∧
      (t.station l).expired = some ⟨v.platen, v.tag⟩ ∧ (t.station l).mode = mode ∧
      (falls → t.pendingCause .stationMode = true ∧ t.sent.getLast? = some ⟨l, .mode .check⟩) ∧
      ∀ k, v.platen = some k → (t.platen k).held = false
    let leaves := fun (served : List Sent) (also : List Area) (more : State → Prop) => ∃ t,
      exec (.workTimeout l) s = .next t ∧ withdrawn t ∧
      t.ring = s.ringReleased v.platen ∧ (∀ n, n ≠ l → n ≠ .unload ∨ served = [] → t.station n = s.station n) ∧
      t.sent = s.sent ++ served ++ (if falls then [⟨l, .mode .check⟩] else []) ∧ more t ∧
      s.sameBut (also ++ [.stations, .ring, .causes, .messages]) t
    let lane := fun k => if (s.lane k).reservation = some v.tag then { s.lane k with reservation := none } else s.lane k
    (v.cls = .work → v.verdict ∈ [Verdict.spray, .print] → leaves [] [.garments] fun t =>
      s.recordIs pos { g with spoiled := true } t) ∧
    (v.cls = .work → v.verdict ∈ [Verdict.press, .ret, .testOut, .reject, .spare, .bin] → leaves [] [] fun _ => True) ∧
    (v.cls = .work → v.verdict = .overflow → leaves [] [.orders] fun t =>
      t.orders = { s.orders with freeCells := s.orders.freeCells + if v.holdTaken then 1 else 0 }) ∧
    (v.cls = .work → v.verdict = .recure →
      ((∀ w, s.verdictOf .unload = some w → w.cls = .work) ∨ (∀ k, k ≤ 3 → (lane k).free = false) →
        leaves [] [.cure] fun t => (∀ k, k ≤ 3 → t.lane k = lane k) ∧ { t.cure with lanes := s.cure.lanes } = s.cure) ∧
      (∀ w n, s.verdictOf .unload = some w → w.cls = .wait → n ≤ 3 → (lane n).free = true →
        (∀ j, j < n → (lane j).free = false) → leaves [laneMessage w n] [.cure] fun t =>
          s.HandsLane w n t ∧ (∀ k, k ≤ 3 → k ≠ n → t.lane k = lane k) ∧ { t.cure with lanes := s.cure.lanes } = s.cure)) ∧
    (v.cls = .work → v.verdict ∈ [Verdict.load, .toBelt] → ∃ t, exec (.workTimeout l) s = .next t ∧ withdrawn t ∧
      t.garments.records.find pos = none ∧ (v.verdict = .toBelt → t.pendingCause .garmentLost = true)) ∧
    (v.cls = .wait → l = .unload → ∃ t, exec .unloadWaitLimit s = .next t ∧
      s.Answers l { s.station l with verdict := none, workTimer := none }
        (.verdict (platenByte v.platen) v.tag .pass 0 0) t ∧
      s.recordIs pos { g with laps := min 7 (g.laps + 1) } t ∧ t.ring = s.ringReleased v.platen ∧
      s.sameBut [.garments, .stations, .ring, .messages] t))

/-- The expiry of the age timer raises by one, to 15 at most, the age of every record but a TEST, one in overflow and
one on a HALTED or VERIFYING ring, and retires LOST every such record that has then reached the age limit; the next
period runs with the age period in force (R12, R13, R15). -/
def Obligations.AgeExpiryAgesAndRetires : Prop :=
  ∀ s : State, TablesOk s →
    let exempt := fun (g : Garment) => g.kind = .test ∨ g.location = .overflow ∨
      ((∃ k, g.location = .ring k) ∧ (s.ring.state = .halted ∨ s.ring.state = .verifying))
    let age := fun (g : Garment) => min 15 (g.age + 1)
    let dies := fun (g : Garment) => ¬ exempt g ∧ s.limits.ageLimit ≤ age g
    ∃ t, exec .ageTimerExpiry s = .next t ∧ t.garments.ageTimer = s.limits.agePeriod ∧
      (∀ pos g, s.garments.records.find pos = some g →
        (dies g → t.garments.records.find pos = none ∧ t.pendingCause .garmentLost = true) ∧
        (¬ dies g → ∃ g', t.garments.records.find pos = some g' ∧ g'.tag = g.tag ∧
          (exempt g → g'.age = g.age) ∧ (¬ exempt g → g'.age = age g))) ∧
      ((∀ g ∈ s.liveGarments, ¬ dies g) → (∀ v, s.verdictOf .unload = some v → v.cls = .work) →
        (∀ pos g, s.garments.records.find pos = some g → exempt g → t.garments.records.find pos = some g) ∧
        (∀ pos g, s.garments.records.find pos = some g → ¬ exempt g →
          t.garments.records.find pos = some { g with age := age g }) ∧
        s.sameBut [.garments] t)

/-- At each refill timer expiry one token goes to the committed bucket if it is below its size, else to the excess
bucket if it is below its size, else it is dropped; the next period runs with P in force (R146). -/
def Obligations.RefillAddsOneToken : Prop :=
  ∀ s : State, let m := s.meter
    exec .refillTimerExpiry s = .next { s with meter :=
      if m.bc < m.cbs then { m with bc := m.bc + 1, running := m.period }
      else if m.be < m.ebs then { m with be := m.be + 1, running := m.period }
      else { m with running := m.period } }

/-- INDEX DONE of a MOVING ring turns every platen to the next position, touches every garment on the ring and makes new
holds by the ring state: RUNNING at the stations in CHECK or ACTIVE, VERIFYING at LOAD, STOPPING none and becomes STOPPED;
with no hold to make a RUNNING ring moves again (R11, R107, R109, R110). -/
def Obligations.IndexDoneTurnsTheRing : Prop :=
  ∀ s : State, RingSafe s → s.ring.cycle = .moving → ∃ t, exec .indexDone s = .next t ∧
    t.ring.offset = (s.ring.offset + 1) % 24 ∧ t.ring.positions = s.ring.positions ∧
    t.ring.state = (if s.ring.state = .stopping then .stopped else s.ring.state) ∧
    (∀ pos, t.garments.records.find pos = (s.garments.records.find pos).map fun g =>
      if g.onRing then { g with age := 0 } else g) ∧
    (∀ k, (t.platen k).state = (s.platen k).state ∧ (t.platen k).tag = (s.platen k).tag ∧ ((t.platen k).held = true ↔
      (s.ring.state = .running ∧ ∃ l ∈ Link.ring, (s.station l).working = true ∧ t.facing l = some k) ∨
      (s.ring.state = .verifying ∧ t.facing .load = some k))) ∧
    (s.ring.state = .running → (¬ ∃ l ∈ Link.ring, (s.station l).working = true) →
      t.ring.cycle = .moving ∧ t.ring.moveTimer = some s.limits.moveLimit) ∧
    (s.ring.state ≠ .running ∨ (∃ l ∈ Link.ring, (s.station l).working = true) →
      t.ring.cycle = .idle ∧ t.ring.moveTimer = none) ∧
    s.sameBut [.garments, .ring] t

/-- INDEX FAULT, an INDEX DONE out of place, the expiry of the move timer and the assertion of E-STOP halt the ring: the
drive stops, the open verdicts of the ring stations are undone one after another in order of link number, and then every
garment on the ring is UNVERIFIED, no hold is left, the lap is cleared and RING_HALTED is set; every record, platen and
field that no undo reaches stands. An INDEX DONE also touches the records on the ring. A ring already HALTED ignores them but for the level
of E-STOP, whose deassertion changes nothing else (R11, R41, R58, R95, R111, R116, R117, Table 5-8). That an INDEX DONE
ignored in HALTED makes no touch is the model's reading (log 30). -/
def Obligations.DriveFaultsHaltTheRing : Prop :=
  ∀ (s : State) (c : Instr),
    (c = .indexFault ∨ (c = .indexDone ∧ s.ring.cycle = .idle) ∨ (c = .moveTimerExpiry ∧ s.ring.cycle = .moving) ∨
      (c = .eStopAsserted ∧ s.ring.eStop = false)) →
    (s.ring.state ≠ .halted → ∃ t, exec c s = .next t ∧ t.ring.state = .halted ∧ t.ring.cycle = .idle ∧
      t.ring.moveTimer = none ∧ t.ring.lapCount = 0 ∧ t.ring.lapSynced = false ∧ t.anyHeld = false ∧
      (∀ l ∈ Link.ring, t.verdictOf l = none) ∧ (∀ g ∈ t.liveGarments, g.onRing = true → g.unverified = true) ∧
      t.pendingCause .ringHalted = true ∧ t.ring.offset = s.ring.offset ∧
      t.ring.eStop = (s.ring.eStop || decide (c = .eStopAsserted)) ∧
      ((∀ l ∈ Link.ring, s.verdictOf l = none) → t.port.causes = s.port.causes ||| Cause.ringHalted.field ∧
        s.sameBut [.garments, .ring, .causes] t) ∧
      (let x : State := { s with
          garments.records := if c = .indexDone
            then s.garments.records.mapVal fun g => if g.onRing then { g with age := 0 } else g else s.garments.records
          ring := { s.ring with eStop := s.ring.eStop || decide (c = .eStopAsserted), cycle := .idle, moveTimer := none } }
        ∃ u, x.UndoneInOrder Link.ring u ∧
          t = { u with
            garments.records := u.garments.records.mapVal fun g => if g.onRing then { g with unverified := true } else g
            ring := { u.ring with platens := t.ring.platens, state := .halted, lapCount := 0, lapSynced := false }
            port.causes := u.port.causes ||| Cause.ringHalted.field } ∧
          (TablesOk s → ∀ k, t.platen k = { u.platen k with held := false }))) ∧
    (s.ring.state = .halted →
      exec c s = .next { s with ring.eStop := s.ring.eStop || decide (c = .eStopAsserted) }) ∧
    exec .eStopDeasserted s = .next { s with ring.eStop := false }

/-! ## The tunnel and the put-wall -/

/-- An ADVANCE doses every garment on the belt by the weight of its zone, with the scorch check, moves the belt, and
takes every garment then at or past the exit off it with its result, into the exit queue in order of position, the
greatest first, and then of lane, the lowest first; lanes are spaced by the distance moved. A WAIT open
at UNLOAD takes the lowest lane that is then free, with a VERDICT; otherwise no reservation changes. The reply is ACK
(R141, R158, R159, R162, R166 to R171), after that VERDICT by the model's choice (log 15). -/
def Obligations.AdvanceDosesMovesAndExits : Prop :=
  ∀ (s : State) (payload : List Byte), s.Hears .cure kindAdvance payload →
    let d := field payload 0 1
    let time := max 1 (min 5000 (field payload 1 2))
    let heat := fun i => min 400 (field payload i 2)
    let x := s.cure.e0 + s.cure.z1 + s.cure.z2 + s.cure.z3
    let count := s.cure.beltCount + BitVec.ofNat 32 d
    let weight := fun (temperature : Nat) => if temperature < s.cure.tbase then 0
      else s.cure.weights.getD (min 15 ((temperature - s.cure.tbase) / s.cure.tstep)) 0
    let at_ := fun (p : Nat) => if p < s.cure.e0 then 0 else if p < s.cure.e0 + s.cure.z1 then weight (heat 3)
      else if p < s.cure.e0 + s.cure.z1 + s.cure.z2 then weight (heat 5) else if p < x then weight (heat 7) else 0
    let dosed := fun (g : Garment) (entry : BeltCount) =>
      min 16777215 (g.dose + time * at_ (s.cure.beltCount - entry).toNat / 16)
    let result := fun (g : Garment) (dose : Nat) =>
      if g.ceiling < dose ∧ g.result = .none then CureResult.over else g.result
    let spaced := fun k => match (s.lane k).lastEntry with
      | none => (s.lane k).spaced
      | some e => (s.lane k).spaced || decide (s.cure.spacing ≤ (count - e).toNat)
    let free := fun k => (s.lane k).reservation = none ∧ ((s.lane k).lastEntry = none ∨ spaced k = true)
    ∃ t, exec (.advance .cure payload) s = .next t ∧ t.cure.beltCount = count ∧
      (∀ pos g, s.garments.records.find pos = some g → (∀ n entry, g.location ≠ .belt n entry) →
        t.garments.records.find pos = some g) ∧
      (∀ pos g n entry, s.garments.records.find pos = some g → g.location = .belt n entry →
        let dose := dosed g entry
        let scored := result g dose
        t.garments.records.find pos = some (if x ≤ (count - entry).toNat
          then { g with
            dose := dose, age := 0, location := .exit
            result := if scored = .over then .over else if dose < g.target then .under else .good }
          else { g with dose := dose, age := 0, result := scored })) ∧
      (t.pendingCause .scorch = true ↔ s.pendingCause .scorch = true ∨ ∃ g ∈ s.liveGarments, ∃ n entry,
        g.location = .belt n entry ∧ g.ceiling < dosed g entry ∧ g.result = .none) ∧
      (∃ leaving, t.cure.exitQueue = s.cure.exitQueue ++ leaving ∧
        (∀ tag, tag ∈ leaving ↔ ∃ g ∈ s.liveGarments,
          ∃ n entry, g.tag = tag ∧ g.location = .belt n entry ∧ x ≤ (count - entry).toNat) ∧
        (TablesOk s → TagsSafe s → leaving.Nodup ∧ leaving.Pairwise fun a b => ∀ g ∈ s.liveGarments, ∀ h ∈ s.liveGarments,
          ∀ n entry m entry', g.tag = a → h.tag = b → g.location = .belt n entry → h.location = .belt m entry' →
          n ≤ 3 → m ≤ 3 → (count - entry').toNat < (count - entry).toNat ∨
            ((count - entry').toNat = (count - entry).toNat ∧ n ≤ m))) ∧
      (∀ k, k ≤ 3 → (t.lane k).lastEntry = (s.lane k).lastEntry ∧ (t.lane k).spaced = spaced k) ∧
      ((∀ v, s.verdictOf .unload = some v → v.cls = .work) ∨ (∀ k, k ≤ 3 → ¬ free k) →
        (∀ k, k ≤ 3 → (t.lane k).reservation = (s.lane k).reservation) ∧
        s.Answers .cure (s.station .cure).answered (.ack kindAdvance (s.station .cure).mode) t) ∧
      (∀ v n, s.verdictOf .unload = some v → v.cls = .wait → n ≤ 3 → free n → (∀ j, j < n → ¬ free j) →
        s.HandsLane v n t ∧ (∀ k, k ≤ 3 → k ≠ n → (t.lane k).reservation = (s.lane k).reservation) ∧
        t.station .cure = (s.station .cure).answered ∧
        (∀ l, l ≠ .unload → l ≠ .cure → t.station l = s.station l) ∧
        t.sent = s.sent ++ [laneMessage v n, ⟨.cure, .ack kindAdvance (s.station .cure).mode⟩]) ∧
      t.sent.getLast? = some ⟨.cure, .ack kindAdvance (s.station .cure).mode⟩ ∧
      s.sameBut [.garments, .stations, .cure, .causes, .messages] t

/-- MATCH below ACTIVE answers an ARRIVE PASS, and the garment stays where it is. The decisions of Table 10-3 on an
ARRIVE at an ACTIVE MATCH station with no verdict open, each before those below it: UNKNOWN_TAG, NOT_HERE, TEST_OUT,
REJECT, RECURE or RECURE_LATER, SPARE, BIN in the order's bin, BIN in the lowest FREE bin, OVERFLOW again, OVERFLOW with
a cell taken, NO_ROOM (R89, R161, R182 to R184). -/
def Obligations.MatchDecidesInOrder : Prop :=
  ∀ (s : State) (payload : List Byte), s.Hears .matching kindArrive payload → s.verdictOf .matching = none →
    let tag := tagField payload 1
    ((s.station .matching).mode ≠ .active → ∃ t, exec (.arrive .matching payload) s = .next t ∧
      s.Answers .matching (s.station .matching).answered (.verdict 0xFF#8 tag .pass 0 0) t ∧
      (s.findTag tag = none → t.garments = s.garments) ∧
      (∀ pos g, s.findTag tag = some (pos, g) → s.recordIs pos { g with age := 0 } t) ∧
      s.sameBut [.garments, .stations, .messages] t) ∧
    ((s.station .matching).mode = .active →
    let refuses := fun code => ∃ t, exec (.arrive .matching payload) s = .next t ∧
      s.Refuses .matching (s.station .matching).heard code kindArrive (0xFF#8, tag) t ∧
      s.sameBut [.garments, .stations, .causes, .messages] t
    (s.findTag tag = none → refuses .unknownTag) ∧
    ∀ pos g, s.findTag tag = some (pos, g) →
      let matchable := g.location = .exit ∨ g.location = .overflow
      let spoilt := field payload 9 1 = 1 ∨ g.spoiled = true ∨ g.result = .over ∨ (g.result = .under ∧ g.recures = 1)
      let gives := fun (v : OpenVerdict) (also : List Area) (more : State → Prop) => ∃ t,
        exec (.arrive .matching payload) s = .next t ∧ s.Gives .matching v t ∧ s.recordIs pos { g with age := 0 } t ∧
        more t ∧ s.sameBut (also ++ [.garments, .stations, .messages]) t
      let plain := fun v => gives v [] fun _ => True
      let good := matchable ∧ g.kind = .order ∧ ¬ spoilt ∧ g.result ≠ .under
      (¬ matchable → refuses .notHere) ∧
      (matchable → g.kind = .test → plain { platen := none, tag := tag, verdict := .testOut }) ∧
      (matchable → g.kind = .order → spoilt → plain { platen := none, tag := tag, verdict := .reject }) ∧
      (matchable → g.kind = .order → ¬ spoilt → g.result = .under →
        (∀ n, n ≤ 3 → (s.lane n).free = true → (∀ j, j < n → (s.lane j).free = false) →
          gives { platen := none, tag := tag, verdict := .recure, param1 := n, lane := some n } [.cure] fun t =>
            t.lane n = { s.lane n with reservation := some tag } ∧ ∀ j, j ≠ n → t.lane j = s.lane j) ∧
        ((∀ n, n ≤ 3 → (s.lane n).free = false) → refuses .recureLater)) ∧
      (good → g.binding = none → plain { platen := none, tag := tag, verdict := .spare }) ∧
      (good → ∀ b o, g.binding = some b → s.order b.slot = some o →
        (∀ bin, o.bin = some bin → plain { platen := none, tag := tag, verdict := .bin, param1 := bin }) ∧
        (o.bin = none → ∀ bin, bin ≤ 47 → (s.bin bin).state = .free → (∀ j, j < bin → (s.bin j).state ≠ .free) →
          gives { platen := none, tag := tag, verdict := .bin, param1 := bin } [.orders, .bins] fun t =>
            t.bin bin = ⟨.filling, some b.slot⟩ ∧ (∀ j, j ≠ bin → t.bin j = s.bin j) ∧
            t.order b.slot = some { o with bin := some bin } ∧ ∀ k, k ≠ b.slot → t.order k = s.order k) ∧
        (o.bin = none → (∀ j, j ≤ 47 → (s.bin j).state ≠ .free) →
          (g.location = .overflow → plain { platen := none, tag := tag, verdict := .overflow }) ∧
          (g.location = .exit → 0 < s.orders.freeCells →
            gives { platen := none, tag := tag, verdict := .overflow, holdTaken := true } [.orders, .causes] fun t =>
              t.orders = { s.orders with freeCells := s.orders.freeCells - 1 } ∧
              t.port.causes = if s.orders.freeCells = s.limits.holdReserve
                then s.port.causes ||| Cause.cellsLow.field else s.port.causes) ∧
          (g.location = .exit → s.orders.freeCells = 0 → refuses .noRoom))))

/-- BIN CLEARED frees the slot of a READY bin's order and empties a VOID bin that no open BIN verdict names, and is
acknowledged; the bin goes to the order of the first garment of the overflow list that is bound to an order naming no bin,
with BIN_ASSIGNED, and is else FREE. It is refused BAD_REQUEST above 47 and BAD_STATE otherwise (R41, R42, R189, R190). -/
def Obligations.BinClearedFreesTheBin : Prop :=
  ∀ (s : State) (payload : List Byte), s.Hears .matching kindBinCleared payload →
    let bin := field payload 0 1
    let refuses := fun code => ∃ t, exec (.binCleared .matching payload) s = .next t ∧
      s.Refuses .matching (s.station .matching).heard code kindBinCleared (0xFF#8, 0#48) t ∧
      s.sameBut [.stations, .causes, .messages] t
    let named := ∃ v, s.verdictOf .matching = some v ∧ v.verdict = .bin ∧ v.param1 = bin
    (47 < bin → refuses .badRequest) ∧
    (bin ≤ 47 → (s.bin bin).state = .free ∨ (s.bin bin).state = .filling → refuses .badState) ∧
    (bin ≤ 47 → (s.bin bin).state = .void → named → refuses .badState) ∧
    ∀ slot o, bin ≤ 47 → (s.bin bin).order = some slot → s.order slot = some o →
      ((s.bin bin).state = .ready ∨ ((s.bin bin).state = .void ∧ ¬ named)) →
      let idle := ∀ l ∈ o.lines, l.inFlight = 0
      let taker := s.bins.overflow.findSome? fun tag => (s.wantsBin tag).filter (· ≠ slot)
      ∃ t, exec (.binCleared .matching payload) s = .next t ∧
        s.Answers .matching (s.station .matching).answered (.ack kindBinCleared (s.station .matching).mode) t ∧
        ((s.bin bin).state = .ready ∨ (o.state = .cancelling ∧ idle) →
          t.order slot = none ∧ t.orders.freeCells = s.orders.freeCells + o.lines.length ∧
          t.pendingCause .orderFreed = true) ∧
        ((s.bin bin).state = .void → o.state = .cancelling → ¬ idle → t.order slot = some { o with bin := none } ∧
          t.orders.freeCells = s.orders.freeCells) ∧
        ((s.bin bin).state = .ready ∨ o.state = .cancelling →
          (taker = none → t.bin bin = ⟨.free, none⟩) ∧
          (∀ k x, taker = some k → s.order k = some x → t.bin bin = ⟨.filling, some k⟩ ∧
            t.order k = some { x with bin := some bin } ∧ t.pendingCause .binAssigned = true)) ∧
        (∀ j, j ≠ bin → t.bin j = s.bin j) ∧ t.bins.overflow = s.bins.overflow ∧
        s.sameBut [.orders, .refs, .stations, .bins, .causes, .messages] t
end

