-- ==== Sys2Proof/Laws/State.lean ====
section
/-! SUPPORT. Laws/State.lean: what each small update of the state leaves as it is, one lemma a field, all by `rfl`; and
reading back what an update has written. -/

namespace Sys2Proof.Machine

variable (s : State)

/-! ## raise -/

@[simp] theorem raise_garments (c : Cause) : (s.raise c).garments = s.garments := rfl
@[simp] theorem raise_orders (c : Cause) : (s.raise c).orders = s.orders := rfl
@[simp] theorem raise_sched (c : Cause) : (s.raise c).sched = s.sched := rfl
@[simp] theorem raise_refs (c : Cause) : (s.raise c).refs = s.refs := rfl
@[simp] theorem raise_stations (c : Cause) : (s.raise c).stations = s.stations := rfl
@[simp] theorem raise_ring (c : Cause) : (s.raise c).ring = s.ring := rfl
@[simp] theorem raise_meter (c : Cause) : (s.raise c).meter = s.meter := rfl
@[simp] theorem raise_cure (c : Cause) : (s.raise c).cure = s.cure := rfl
@[simp] theorem raise_bins (c : Cause) : (s.raise c).bins = s.bins := rfl
@[simp] theorem raise_limits (c : Cause) : (s.raise c).limits = s.limits := rfl
@[simp] theorem raise_sent (c : Cause) : (s.raise c).sent = s.sent := rfl
@[simp] theorem raise_shifted (c : Cause) : (s.raise c).shifted = s.shifted := rfl
@[simp] theorem raise_freeReads (c : Cause) : (s.raise c).freeReads = s.freeReads := rfl
@[simp] theorem raise_pending (c : Cause) : (s.raise c).pending = s.pending := rfl

/-! ## putRecord -/

@[simp] theorem putRecord_orders (p : Nat) (g : Garment) : (s.putRecord p g).orders = s.orders := rfl
@[simp] theorem putRecord_sched (p : Nat) (g : Garment) : (s.putRecord p g).sched = s.sched := rfl
@[simp] theorem putRecord_refs (p : Nat) (g : Garment) : (s.putRecord p g).refs = s.refs := rfl
@[simp] theorem putRecord_stations (p : Nat) (g : Garment) : (s.putRecord p g).stations = s.stations := rfl
@[simp] theorem putRecord_ring (p : Nat) (g : Garment) : (s.putRecord p g).ring = s.ring := rfl
@[simp] theorem putRecord_meter (p : Nat) (g : Garment) : (s.putRecord p g).meter = s.meter := rfl
@[simp] theorem putRecord_cure (p : Nat) (g : Garment) : (s.putRecord p g).cure = s.cure := rfl
@[simp] theorem putRecord_bins (p : Nat) (g : Garment) : (s.putRecord p g).bins = s.bins := rfl
@[simp] theorem putRecord_limits (p : Nat) (g : Garment) : (s.putRecord p g).limits = s.limits := rfl
@[simp] theorem putRecord_port (p : Nat) (g : Garment) : (s.putRecord p g).port = s.port := rfl
@[simp] theorem putRecord_sent (p : Nat) (g : Garment) : (s.putRecord p g).sent = s.sent := rfl
@[simp] theorem putRecord_shifted (p : Nat) (g : Garment) : (s.putRecord p g).shifted = s.shifted := rfl
@[simp] theorem putRecord_freeReads (p : Nat) (g : Garment) : (s.putRecord p g).freeReads = s.freeReads := rfl
@[simp] theorem putRecord_pending (p : Nat) (g : Garment) : (s.putRecord p g).pending = s.pending := rfl

/-! ## eraseRecord -/

@[simp] theorem eraseRecord_orders (p : Nat) : (s.eraseRecord p).orders = s.orders := rfl
@[simp] theorem eraseRecord_sched (p : Nat) : (s.eraseRecord p).sched = s.sched := rfl
@[simp] theorem eraseRecord_refs (p : Nat) : (s.eraseRecord p).refs = s.refs := rfl
@[simp] theorem eraseRecord_stations (p : Nat) : (s.eraseRecord p).stations = s.stations := rfl
@[simp] theorem eraseRecord_ring (p : Nat) : (s.eraseRecord p).ring = s.ring := rfl
@[simp] theorem eraseRecord_meter (p : Nat) : (s.eraseRecord p).meter = s.meter := rfl
@[simp] theorem eraseRecord_cure (p : Nat) : (s.eraseRecord p).cure = s.cure := rfl
@[simp] theorem eraseRecord_bins (p : Nat) : (s.eraseRecord p).bins = s.bins := rfl
@[simp] theorem eraseRecord_limits (p : Nat) : (s.eraseRecord p).limits = s.limits := rfl
@[simp] theorem eraseRecord_port (p : Nat) : (s.eraseRecord p).port = s.port := rfl
@[simp] theorem eraseRecord_sent (p : Nat) : (s.eraseRecord p).sent = s.sent := rfl
@[simp] theorem eraseRecord_shifted (p : Nat) : (s.eraseRecord p).shifted = s.shifted := rfl
@[simp] theorem eraseRecord_freeReads (p : Nat) : (s.eraseRecord p).freeReads = s.freeReads := rfl
@[simp] theorem eraseRecord_pending (p : Nat) : (s.eraseRecord p).pending = s.pending := rfl

/-! ## mapRecords -/

@[simp] theorem mapRecords_orders (f : Garment → Garment) : (s.mapRecords f).orders = s.orders := rfl
@[simp] theorem mapRecords_sched (f : Garment → Garment) : (s.mapRecords f).sched = s.sched := rfl
@[simp] theorem mapRecords_refs (f : Garment → Garment) : (s.mapRecords f).refs = s.refs := rfl
@[simp] theorem mapRecords_stations (f : Garment → Garment) : (s.mapRecords f).stations = s.stations := rfl
@[simp] theorem mapRecords_ring (f : Garment → Garment) : (s.mapRecords f).ring = s.ring := rfl
@[simp] theorem mapRecords_meter (f : Garment → Garment) : (s.mapRecords f).meter = s.meter := rfl
@[simp] theorem mapRecords_cure (f : Garment → Garment) : (s.mapRecords f).cure = s.cure := rfl
@[simp] theorem mapRecords_bins (f : Garment → Garment) : (s.mapRecords f).bins = s.bins := rfl
@[simp] theorem mapRecords_limits (f : Garment → Garment) : (s.mapRecords f).limits = s.limits := rfl
@[simp] theorem mapRecords_port (f : Garment → Garment) : (s.mapRecords f).port = s.port := rfl
@[simp] theorem mapRecords_sent (f : Garment → Garment) : (s.mapRecords f).sent = s.sent := rfl
@[simp] theorem mapRecords_shifted (f : Garment → Garment) : (s.mapRecords f).shifted = s.shifted := rfl
@[simp] theorem mapRecords_freeReads (f : Garment → Garment) : (s.mapRecords f).freeReads = s.freeReads := rfl
@[simp] theorem mapRecords_pending (f : Garment → Garment) : (s.mapRecords f).pending = s.pending := rfl

/-! ## modifyOrder -/

@[simp] theorem modifyOrder_garments (k : Nat) (f : Order → Order) : (s.modifyOrder k f).garments = s.garments := rfl
@[simp] theorem modifyOrder_sched (k : Nat) (f : Order → Order) : (s.modifyOrder k f).sched = s.sched := rfl
@[simp] theorem modifyOrder_refs (k : Nat) (f : Order → Order) : (s.modifyOrder k f).refs = s.refs := rfl
@[simp] theorem modifyOrder_stations (k : Nat) (f : Order → Order) : (s.modifyOrder k f).stations = s.stations := rfl
@[simp] theorem modifyOrder_ring (k : Nat) (f : Order → Order) : (s.modifyOrder k f).ring = s.ring := rfl
@[simp] theorem modifyOrder_meter (k : Nat) (f : Order → Order) : (s.modifyOrder k f).meter = s.meter := rfl
@[simp] theorem modifyOrder_cure (k : Nat) (f : Order → Order) : (s.modifyOrder k f).cure = s.cure := rfl
@[simp] theorem modifyOrder_bins (k : Nat) (f : Order → Order) : (s.modifyOrder k f).bins = s.bins := rfl
@[simp] theorem modifyOrder_limits (k : Nat) (f : Order → Order) : (s.modifyOrder k f).limits = s.limits := rfl
@[simp] theorem modifyOrder_port (k : Nat) (f : Order → Order) : (s.modifyOrder k f).port = s.port := rfl
@[simp] theorem modifyOrder_sent (k : Nat) (f : Order → Order) : (s.modifyOrder k f).sent = s.sent := rfl
@[simp] theorem modifyOrder_shifted (k : Nat) (f : Order → Order) : (s.modifyOrder k f).shifted = s.shifted := rfl
@[simp] theorem modifyOrder_freeReads (k : Nat) (f : Order → Order) : (s.modifyOrder k f).freeReads = s.freeReads := rfl
@[simp] theorem modifyOrder_pending (k : Nat) (f : Order → Order) : (s.modifyOrder k f).pending = s.pending := rfl

/-! ## countSku -/

@[simp] theorem countSku_garments (k : Nat) (f : Nat → Nat) : (s.countSku k f).garments = s.garments := rfl
@[simp] theorem countSku_orders (k : Nat) (f : Nat → Nat) : (s.countSku k f).orders = s.orders := rfl
@[simp] theorem countSku_sched (k : Nat) (f : Nat → Nat) : (s.countSku k f).sched = s.sched := rfl
@[simp] theorem countSku_stations (k : Nat) (f : Nat → Nat) : (s.countSku k f).stations = s.stations := rfl
@[simp] theorem countSku_ring (k : Nat) (f : Nat → Nat) : (s.countSku k f).ring = s.ring := rfl
@[simp] theorem countSku_meter (k : Nat) (f : Nat → Nat) : (s.countSku k f).meter = s.meter := rfl
@[simp] theorem countSku_cure (k : Nat) (f : Nat → Nat) : (s.countSku k f).cure = s.cure := rfl
@[simp] theorem countSku_bins (k : Nat) (f : Nat → Nat) : (s.countSku k f).bins = s.bins := rfl
@[simp] theorem countSku_limits (k : Nat) (f : Nat → Nat) : (s.countSku k f).limits = s.limits := rfl
@[simp] theorem countSku_port (k : Nat) (f : Nat → Nat) : (s.countSku k f).port = s.port := rfl
@[simp] theorem countSku_sent (k : Nat) (f : Nat → Nat) : (s.countSku k f).sent = s.sent := rfl
@[simp] theorem countSku_shifted (k : Nat) (f : Nat → Nat) : (s.countSku k f).shifted = s.shifted := rfl
@[simp] theorem countSku_freeReads (k : Nat) (f : Nat → Nat) : (s.countSku k f).freeReads = s.freeReads := rfl
@[simp] theorem countSku_pending (k : Nat) (f : Nat → Nat) : (s.countSku k f).pending = s.pending := rfl

/-! ## countClass -/

@[simp] theorem countClass_garments (k : Nat) (f : Nat → Nat) : (s.countClass k f).garments = s.garments := rfl
@[simp] theorem countClass_orders (k : Nat) (f : Nat → Nat) : (s.countClass k f).orders = s.orders := rfl
@[simp] theorem countClass_sched (k : Nat) (f : Nat → Nat) : (s.countClass k f).sched = s.sched := rfl
@[simp] theorem countClass_stations (k : Nat) (f : Nat → Nat) : (s.countClass k f).stations = s.stations := rfl
@[simp] theorem countClass_ring (k : Nat) (f : Nat → Nat) : (s.countClass k f).ring = s.ring := rfl
@[simp] theorem countClass_meter (k : Nat) (f : Nat → Nat) : (s.countClass k f).meter = s.meter := rfl
@[simp] theorem countClass_cure (k : Nat) (f : Nat → Nat) : (s.countClass k f).cure = s.cure := rfl
@[simp] theorem countClass_bins (k : Nat) (f : Nat → Nat) : (s.countClass k f).bins = s.bins := rfl
@[simp] theorem countClass_limits (k : Nat) (f : Nat → Nat) : (s.countClass k f).limits = s.limits := rfl
@[simp] theorem countClass_port (k : Nat) (f : Nat → Nat) : (s.countClass k f).port = s.port := rfl
@[simp] theorem countClass_sent (k : Nat) (f : Nat → Nat) : (s.countClass k f).sent = s.sent := rfl
@[simp] theorem countClass_shifted (k : Nat) (f : Nat → Nat) : (s.countClass k f).shifted = s.shifted := rfl
@[simp] theorem countClass_freeReads (k : Nat) (f : Nat → Nat) : (s.countClass k f).freeReads = s.freeReads := rfl
@[simp] theorem countClass_pending (k : Nat) (f : Nat → Nat) : (s.countClass k f).pending = s.pending := rfl

/-! ## countDesign -/

@[simp] theorem countDesign_garments (k : Nat) (f : Nat → Nat) : (s.countDesign k f).garments = s.garments := rfl
@[simp] theorem countDesign_orders (k : Nat) (f : Nat → Nat) : (s.countDesign k f).orders = s.orders := rfl
@[simp] theorem countDesign_sched (k : Nat) (f : Nat → Nat) : (s.countDesign k f).sched = s.sched := rfl
@[simp] theorem countDesign_stations (k : Nat) (f : Nat → Nat) : (s.countDesign k f).stations = s.stations := rfl
@[simp] theorem countDesign_ring (k : Nat) (f : Nat → Nat) : (s.countDesign k f).ring = s.ring := rfl
@[simp] theorem countDesign_meter (k : Nat) (f : Nat → Nat) : (s.countDesign k f).meter = s.meter := rfl
@[simp] theorem countDesign_cure (k : Nat) (f : Nat → Nat) : (s.countDesign k f).cure = s.cure := rfl
@[simp] theorem countDesign_bins (k : Nat) (f : Nat → Nat) : (s.countDesign k f).bins = s.bins := rfl
@[simp] theorem countDesign_limits (k : Nat) (f : Nat → Nat) : (s.countDesign k f).limits = s.limits := rfl
@[simp] theorem countDesign_port (k : Nat) (f : Nat → Nat) : (s.countDesign k f).port = s.port := rfl
@[simp] theorem countDesign_sent (k : Nat) (f : Nat → Nat) : (s.countDesign k f).sent = s.sent := rfl
@[simp] theorem countDesign_shifted (k : Nat) (f : Nat → Nat) : (s.countDesign k f).shifted = s.shifted := rfl
@[simp] theorem countDesign_freeReads (k : Nat) (f : Nat → Nat) : (s.countDesign k f).freeReads = s.freeReads := rfl
@[simp] theorem countDesign_pending (k : Nat) (f : Nat → Nat) : (s.countDesign k f).pending = s.pending := rfl

/-! ## modifyStation -/

@[simp] theorem modifyStation_garments (l : Link) (f : Station → Station) : (s.modifyStation l f).garments = s.garments := rfl
@[simp] theorem modifyStation_orders (l : Link) (f : Station → Station) : (s.modifyStation l f).orders = s.orders := rfl
@[simp] theorem modifyStation_sched (l : Link) (f : Station → Station) : (s.modifyStation l f).sched = s.sched := rfl
@[simp] theorem modifyStation_refs (l : Link) (f : Station → Station) : (s.modifyStation l f).refs = s.refs := rfl
@[simp] theorem modifyStation_ring (l : Link) (f : Station → Station) : (s.modifyStation l f).ring = s.ring := rfl
@[simp] theorem modifyStation_meter (l : Link) (f : Station → Station) : (s.modifyStation l f).meter = s.meter := rfl
@[simp] theorem modifyStation_cure (l : Link) (f : Station → Station) : (s.modifyStation l f).cure = s.cure := rfl
@[simp] theorem modifyStation_bins (l : Link) (f : Station → Station) : (s.modifyStation l f).bins = s.bins := rfl
@[simp] theorem modifyStation_limits (l : Link) (f : Station → Station) : (s.modifyStation l f).limits = s.limits := rfl
@[simp] theorem modifyStation_port (l : Link) (f : Station → Station) : (s.modifyStation l f).port = s.port := rfl
@[simp] theorem modifyStation_sent (l : Link) (f : Station → Station) : (s.modifyStation l f).sent = s.sent := rfl
@[simp] theorem modifyStation_shifted (l : Link) (f : Station → Station) : (s.modifyStation l f).shifted = s.shifted := rfl
@[simp] theorem modifyStation_freeReads (l : Link) (f : Station → Station) : (s.modifyStation l f).freeReads = s.freeReads := rfl
@[simp] theorem modifyStation_pending (l : Link) (f : Station → Station) : (s.modifyStation l f).pending = s.pending := rfl

/-! ## openRecord -/

@[simp] theorem openRecord_garments (l : Link) (r : OpenVerdict) : (s.openRecord l r).garments = s.garments := rfl
@[simp] theorem openRecord_orders (l : Link) (r : OpenVerdict) : (s.openRecord l r).orders = s.orders := rfl
@[simp] theorem openRecord_sched (l : Link) (r : OpenVerdict) : (s.openRecord l r).sched = s.sched := rfl
@[simp] theorem openRecord_refs (l : Link) (r : OpenVerdict) : (s.openRecord l r).refs = s.refs := rfl
@[simp] theorem openRecord_ring (l : Link) (r : OpenVerdict) : (s.openRecord l r).ring = s.ring := rfl
@[simp] theorem openRecord_meter (l : Link) (r : OpenVerdict) : (s.openRecord l r).meter = s.meter := rfl
@[simp] theorem openRecord_cure (l : Link) (r : OpenVerdict) : (s.openRecord l r).cure = s.cure := rfl
@[simp] theorem openRecord_bins (l : Link) (r : OpenVerdict) : (s.openRecord l r).bins = s.bins := rfl
@[simp] theorem openRecord_limits (l : Link) (r : OpenVerdict) : (s.openRecord l r).limits = s.limits := rfl
@[simp] theorem openRecord_port (l : Link) (r : OpenVerdict) : (s.openRecord l r).port = s.port := rfl
@[simp] theorem openRecord_sent (l : Link) (r : OpenVerdict) : (s.openRecord l r).sent = s.sent := rfl
@[simp] theorem openRecord_shifted (l : Link) (r : OpenVerdict) : (s.openRecord l r).shifted = s.shifted := rfl
@[simp] theorem openRecord_freeReads (l : Link) (r : OpenVerdict) : (s.openRecord l r).freeReads = s.freeReads := rfl
@[simp] theorem openRecord_pending (l : Link) (r : OpenVerdict) : (s.openRecord l r).pending = s.pending := rfl

/-! ## endRecord -/

@[simp] theorem endRecord_garments (l : Link) : (s.endRecord l).garments = s.garments := rfl
@[simp] theorem endRecord_orders (l : Link) : (s.endRecord l).orders = s.orders := rfl
@[simp] theorem endRecord_sched (l : Link) : (s.endRecord l).sched = s.sched := rfl
@[simp] theorem endRecord_refs (l : Link) : (s.endRecord l).refs = s.refs := rfl
@[simp] theorem endRecord_ring (l : Link) : (s.endRecord l).ring = s.ring := rfl
@[simp] theorem endRecord_meter (l : Link) : (s.endRecord l).meter = s.meter := rfl
@[simp] theorem endRecord_cure (l : Link) : (s.endRecord l).cure = s.cure := rfl
@[simp] theorem endRecord_bins (l : Link) : (s.endRecord l).bins = s.bins := rfl
@[simp] theorem endRecord_limits (l : Link) : (s.endRecord l).limits = s.limits := rfl
@[simp] theorem endRecord_port (l : Link) : (s.endRecord l).port = s.port := rfl
@[simp] theorem endRecord_sent (l : Link) : (s.endRecord l).sent = s.sent := rfl
@[simp] theorem endRecord_shifted (l : Link) : (s.endRecord l).shifted = s.shifted := rfl
@[simp] theorem endRecord_freeReads (l : Link) : (s.endRecord l).freeReads = s.freeReads := rfl
@[simp] theorem endRecord_pending (l : Link) : (s.endRecord l).pending = s.pending := rfl

/-! ## setRefusalSeen -/

@[simp] theorem setRefusalSeen_garments (l : Link) (b : Bool) : (s.setRefusalSeen l b).garments = s.garments := rfl
@[simp] theorem setRefusalSeen_orders (l : Link) (b : Bool) : (s.setRefusalSeen l b).orders = s.orders := rfl
@[simp] theorem setRefusalSeen_sched (l : Link) (b : Bool) : (s.setRefusalSeen l b).sched = s.sched := rfl
@[simp] theorem setRefusalSeen_refs (l : Link) (b : Bool) : (s.setRefusalSeen l b).refs = s.refs := rfl
@[simp] theorem setRefusalSeen_ring (l : Link) (b : Bool) : (s.setRefusalSeen l b).ring = s.ring := rfl
@[simp] theorem setRefusalSeen_meter (l : Link) (b : Bool) : (s.setRefusalSeen l b).meter = s.meter := rfl
@[simp] theorem setRefusalSeen_cure (l : Link) (b : Bool) : (s.setRefusalSeen l b).cure = s.cure := rfl
@[simp] theorem setRefusalSeen_bins (l : Link) (b : Bool) : (s.setRefusalSeen l b).bins = s.bins := rfl
@[simp] theorem setRefusalSeen_limits (l : Link) (b : Bool) : (s.setRefusalSeen l b).limits = s.limits := rfl
@[simp] theorem setRefusalSeen_port (l : Link) (b : Bool) : (s.setRefusalSeen l b).port = s.port := rfl
@[simp] theorem setRefusalSeen_sent (l : Link) (b : Bool) : (s.setRefusalSeen l b).sent = s.sent := rfl
@[simp] theorem setRefusalSeen_shifted (l : Link) (b : Bool) : (s.setRefusalSeen l b).shifted = s.shifted := rfl
@[simp] theorem setRefusalSeen_freeReads (l : Link) (b : Bool) : (s.setRefusalSeen l b).freeReads = s.freeReads := rfl
@[simp] theorem setRefusalSeen_pending (l : Link) (b : Bool) : (s.setRefusalSeen l b).pending = s.pending := rfl

/-! ## setMode -/

@[simp] theorem setMode_garments (l : Link) (m : StationMode) : (s.setMode l m).garments = s.garments := rfl
@[simp] theorem setMode_orders (l : Link) (m : StationMode) : (s.setMode l m).orders = s.orders := rfl
@[simp] theorem setMode_sched (l : Link) (m : StationMode) : (s.setMode l m).sched = s.sched := rfl
@[simp] theorem setMode_refs (l : Link) (m : StationMode) : (s.setMode l m).refs = s.refs := rfl
@[simp] theorem setMode_ring (l : Link) (m : StationMode) : (s.setMode l m).ring = s.ring := rfl
@[simp] theorem setMode_meter (l : Link) (m : StationMode) : (s.setMode l m).meter = s.meter := rfl
@[simp] theorem setMode_cure (l : Link) (m : StationMode) : (s.setMode l m).cure = s.cure := rfl
@[simp] theorem setMode_bins (l : Link) (m : StationMode) : (s.setMode l m).bins = s.bins := rfl
@[simp] theorem setMode_limits (l : Link) (m : StationMode) : (s.setMode l m).limits = s.limits := rfl
@[simp] theorem setMode_port (l : Link) (m : StationMode) : (s.setMode l m).port = s.port := rfl
@[simp] theorem setMode_sent (l : Link) (m : StationMode) : (s.setMode l m).sent = s.sent := rfl
@[simp] theorem setMode_shifted (l : Link) (m : StationMode) : (s.setMode l m).shifted = s.shifted := rfl
@[simp] theorem setMode_freeReads (l : Link) (m : StationMode) : (s.setMode l m).freeReads = s.freeReads := rfl
@[simp] theorem setMode_pending (l : Link) (m : StationMode) : (s.setMode l m).pending = s.pending := rfl

/-! ## heard -/

@[simp] theorem heard_garments (l : Link) : (s.heard l).garments = s.garments := rfl
@[simp] theorem heard_orders (l : Link) : (s.heard l).orders = s.orders := rfl
@[simp] theorem heard_sched (l : Link) : (s.heard l).sched = s.sched := rfl
@[simp] theorem heard_refs (l : Link) : (s.heard l).refs = s.refs := rfl
@[simp] theorem heard_ring (l : Link) : (s.heard l).ring = s.ring := rfl
@[simp] theorem heard_meter (l : Link) : (s.heard l).meter = s.meter := rfl
@[simp] theorem heard_cure (l : Link) : (s.heard l).cure = s.cure := rfl
@[simp] theorem heard_bins (l : Link) : (s.heard l).bins = s.bins := rfl
@[simp] theorem heard_limits (l : Link) : (s.heard l).limits = s.limits := rfl
@[simp] theorem heard_port (l : Link) : (s.heard l).port = s.port := rfl
@[simp] theorem heard_sent (l : Link) : (s.heard l).sent = s.sent := rfl
@[simp] theorem heard_shifted (l : Link) : (s.heard l).shifted = s.shifted := rfl
@[simp] theorem heard_freeReads (l : Link) : (s.heard l).freeReads = s.freeReads := rfl
@[simp] theorem heard_pending (l : Link) : (s.heard l).pending = s.pending := rfl

/-! ## setAttention -/

@[simp] theorem setAttention_garments (l : Link) (n : Nat) : (s.setAttention l n).garments = s.garments := rfl
@[simp] theorem setAttention_orders (l : Link) (n : Nat) : (s.setAttention l n).orders = s.orders := rfl
@[simp] theorem setAttention_sched (l : Link) (n : Nat) : (s.setAttention l n).sched = s.sched := rfl
@[simp] theorem setAttention_refs (l : Link) (n : Nat) : (s.setAttention l n).refs = s.refs := rfl
@[simp] theorem setAttention_ring (l : Link) (n : Nat) : (s.setAttention l n).ring = s.ring := rfl
@[simp] theorem setAttention_meter (l : Link) (n : Nat) : (s.setAttention l n).meter = s.meter := rfl
@[simp] theorem setAttention_cure (l : Link) (n : Nat) : (s.setAttention l n).cure = s.cure := rfl
@[simp] theorem setAttention_bins (l : Link) (n : Nat) : (s.setAttention l n).bins = s.bins := rfl
@[simp] theorem setAttention_limits (l : Link) (n : Nat) : (s.setAttention l n).limits = s.limits := rfl
@[simp] theorem setAttention_port (l : Link) (n : Nat) : (s.setAttention l n).port = s.port := rfl
@[simp] theorem setAttention_sent (l : Link) (n : Nat) : (s.setAttention l n).sent = s.sent := rfl
@[simp] theorem setAttention_shifted (l : Link) (n : Nat) : (s.setAttention l n).shifted = s.shifted := rfl
@[simp] theorem setAttention_freeReads (l : Link) (n : Nat) : (s.setAttention l n).freeReads = s.freeReads := rfl
@[simp] theorem setAttention_pending (l : Link) (n : Nat) : (s.setAttention l n).pending = s.pending := rfl

/-! ## send -/

@[simp] theorem send_garments (l : Link) (m : Message) : (s.send l m).garments = s.garments := rfl
@[simp] theorem send_orders (l : Link) (m : Message) : (s.send l m).orders = s.orders := rfl
@[simp] theorem send_sched (l : Link) (m : Message) : (s.send l m).sched = s.sched := rfl
@[simp] theorem send_refs (l : Link) (m : Message) : (s.send l m).refs = s.refs := rfl
@[simp] theorem send_stations (l : Link) (m : Message) : (s.send l m).stations = s.stations := rfl
@[simp] theorem send_ring (l : Link) (m : Message) : (s.send l m).ring = s.ring := rfl
@[simp] theorem send_meter (l : Link) (m : Message) : (s.send l m).meter = s.meter := rfl
@[simp] theorem send_cure (l : Link) (m : Message) : (s.send l m).cure = s.cure := rfl
@[simp] theorem send_bins (l : Link) (m : Message) : (s.send l m).bins = s.bins := rfl
@[simp] theorem send_limits (l : Link) (m : Message) : (s.send l m).limits = s.limits := rfl
@[simp] theorem send_port (l : Link) (m : Message) : (s.send l m).port = s.port := rfl
@[simp] theorem send_shifted (l : Link) (m : Message) : (s.send l m).shifted = s.shifted := rfl
@[simp] theorem send_freeReads (l : Link) (m : Message) : (s.send l m).freeReads = s.freeReads := rfl
@[simp] theorem send_pending (l : Link) (m : Message) : (s.send l m).pending = s.pending := rfl

/-! ## modifyPlaten -/

@[simp] theorem modifyPlaten_garments (k : Nat) (f : Platen → Platen) : (s.modifyPlaten k f).garments = s.garments := rfl
@[simp] theorem modifyPlaten_orders (k : Nat) (f : Platen → Platen) : (s.modifyPlaten k f).orders = s.orders := rfl
@[simp] theorem modifyPlaten_sched (k : Nat) (f : Platen → Platen) : (s.modifyPlaten k f).sched = s.sched := rfl
@[simp] theorem modifyPlaten_refs (k : Nat) (f : Platen → Platen) : (s.modifyPlaten k f).refs = s.refs := rfl
@[simp] theorem modifyPlaten_stations (k : Nat) (f : Platen → Platen) : (s.modifyPlaten k f).stations = s.stations := rfl
@[simp] theorem modifyPlaten_meter (k : Nat) (f : Platen → Platen) : (s.modifyPlaten k f).meter = s.meter := rfl
@[simp] theorem modifyPlaten_cure (k : Nat) (f : Platen → Platen) : (s.modifyPlaten k f).cure = s.cure := rfl
@[simp] theorem modifyPlaten_bins (k : Nat) (f : Platen → Platen) : (s.modifyPlaten k f).bins = s.bins := rfl
@[simp] theorem modifyPlaten_limits (k : Nat) (f : Platen → Platen) : (s.modifyPlaten k f).limits = s.limits := rfl
@[simp] theorem modifyPlaten_port (k : Nat) (f : Platen → Platen) : (s.modifyPlaten k f).port = s.port := rfl
@[simp] theorem modifyPlaten_sent (k : Nat) (f : Platen → Platen) : (s.modifyPlaten k f).sent = s.sent := rfl
@[simp] theorem modifyPlaten_shifted (k : Nat) (f : Platen → Platen) : (s.modifyPlaten k f).shifted = s.shifted := rfl
@[simp] theorem modifyPlaten_freeReads (k : Nat) (f : Platen → Platen) : (s.modifyPlaten k f).freeReads = s.freeReads := rfl
@[simp] theorem modifyPlaten_pending (k : Nat) (f : Platen → Platen) : (s.modifyPlaten k f).pending = s.pending := rfl

/-! ## setHeld -/

@[simp] theorem setHeld_garments (k : Nat) (b : Bool) : (s.setHeld k b).garments = s.garments := rfl
@[simp] theorem setHeld_orders (k : Nat) (b : Bool) : (s.setHeld k b).orders = s.orders := rfl
@[simp] theorem setHeld_sched (k : Nat) (b : Bool) : (s.setHeld k b).sched = s.sched := rfl
@[simp] theorem setHeld_refs (k : Nat) (b : Bool) : (s.setHeld k b).refs = s.refs := rfl
@[simp] theorem setHeld_stations (k : Nat) (b : Bool) : (s.setHeld k b).stations = s.stations := rfl
@[simp] theorem setHeld_meter (k : Nat) (b : Bool) : (s.setHeld k b).meter = s.meter := rfl
@[simp] theorem setHeld_cure (k : Nat) (b : Bool) : (s.setHeld k b).cure = s.cure := rfl
@[simp] theorem setHeld_bins (k : Nat) (b : Bool) : (s.setHeld k b).bins = s.bins := rfl
@[simp] theorem setHeld_limits (k : Nat) (b : Bool) : (s.setHeld k b).limits = s.limits := rfl
@[simp] theorem setHeld_port (k : Nat) (b : Bool) : (s.setHeld k b).port = s.port := rfl
@[simp] theorem setHeld_sent (k : Nat) (b : Bool) : (s.setHeld k b).sent = s.sent := rfl
@[simp] theorem setHeld_shifted (k : Nat) (b : Bool) : (s.setHeld k b).shifted = s.shifted := rfl
@[simp] theorem setHeld_freeReads (k : Nat) (b : Bool) : (s.setHeld k b).freeReads = s.freeReads := rfl
@[simp] theorem setHeld_pending (k : Nat) (b : Bool) : (s.setHeld k b).pending = s.pending := rfl

/-! ## emptyPlaten -/

@[simp] theorem emptyPlaten_garments (k : Nat) : (s.emptyPlaten k).garments = s.garments := rfl
@[simp] theorem emptyPlaten_orders (k : Nat) : (s.emptyPlaten k).orders = s.orders := rfl
@[simp] theorem emptyPlaten_sched (k : Nat) : (s.emptyPlaten k).sched = s.sched := rfl
@[simp] theorem emptyPlaten_refs (k : Nat) : (s.emptyPlaten k).refs = s.refs := rfl
@[simp] theorem emptyPlaten_stations (k : Nat) : (s.emptyPlaten k).stations = s.stations := rfl
@[simp] theorem emptyPlaten_meter (k : Nat) : (s.emptyPlaten k).meter = s.meter := rfl
@[simp] theorem emptyPlaten_cure (k : Nat) : (s.emptyPlaten k).cure = s.cure := rfl
@[simp] theorem emptyPlaten_bins (k : Nat) : (s.emptyPlaten k).bins = s.bins := rfl
@[simp] theorem emptyPlaten_limits (k : Nat) : (s.emptyPlaten k).limits = s.limits := rfl
@[simp] theorem emptyPlaten_port (k : Nat) : (s.emptyPlaten k).port = s.port := rfl
@[simp] theorem emptyPlaten_sent (k : Nat) : (s.emptyPlaten k).sent = s.sent := rfl
@[simp] theorem emptyPlaten_shifted (k : Nat) : (s.emptyPlaten k).shifted = s.shifted := rfl
@[simp] theorem emptyPlaten_freeReads (k : Nat) : (s.emptyPlaten k).freeReads = s.freeReads := rfl
@[simp] theorem emptyPlaten_pending (k : Nat) : (s.emptyPlaten k).pending = s.pending := rfl

/-! ## releaseAllHolds -/

@[simp] theorem releaseAllHolds_garments : (s.releaseAllHolds).garments = s.garments := rfl
@[simp] theorem releaseAllHolds_orders : (s.releaseAllHolds).orders = s.orders := rfl
@[simp] theorem releaseAllHolds_sched : (s.releaseAllHolds).sched = s.sched := rfl
@[simp] theorem releaseAllHolds_refs : (s.releaseAllHolds).refs = s.refs := rfl
@[simp] theorem releaseAllHolds_stations : (s.releaseAllHolds).stations = s.stations := rfl
@[simp] theorem releaseAllHolds_meter : (s.releaseAllHolds).meter = s.meter := rfl
@[simp] theorem releaseAllHolds_cure : (s.releaseAllHolds).cure = s.cure := rfl
@[simp] theorem releaseAllHolds_bins : (s.releaseAllHolds).bins = s.bins := rfl
@[simp] theorem releaseAllHolds_limits : (s.releaseAllHolds).limits = s.limits := rfl
@[simp] theorem releaseAllHolds_port : (s.releaseAllHolds).port = s.port := rfl
@[simp] theorem releaseAllHolds_sent : (s.releaseAllHolds).sent = s.sent := rfl
@[simp] theorem releaseAllHolds_shifted : (s.releaseAllHolds).shifted = s.shifted := rfl
@[simp] theorem releaseAllHolds_freeReads : (s.releaseAllHolds).freeReads = s.freeReads := rfl
@[simp] theorem releaseAllHolds_pending : (s.releaseAllHolds).pending = s.pending := rfl

/-! ## stopDrive -/

@[simp] theorem stopDrive_garments : (s.stopDrive).garments = s.garments := rfl
@[simp] theorem stopDrive_orders : (s.stopDrive).orders = s.orders := rfl
@[simp] theorem stopDrive_sched : (s.stopDrive).sched = s.sched := rfl
@[simp] theorem stopDrive_refs : (s.stopDrive).refs = s.refs := rfl
@[simp] theorem stopDrive_stations : (s.stopDrive).stations = s.stations := rfl
@[simp] theorem stopDrive_meter : (s.stopDrive).meter = s.meter := rfl
@[simp] theorem stopDrive_cure : (s.stopDrive).cure = s.cure := rfl
@[simp] theorem stopDrive_bins : (s.stopDrive).bins = s.bins := rfl
@[simp] theorem stopDrive_limits : (s.stopDrive).limits = s.limits := rfl
@[simp] theorem stopDrive_port : (s.stopDrive).port = s.port := rfl
@[simp] theorem stopDrive_sent : (s.stopDrive).sent = s.sent := rfl
@[simp] theorem stopDrive_shifted : (s.stopDrive).shifted = s.shifted := rfl
@[simp] theorem stopDrive_freeReads : (s.stopDrive).freeReads = s.freeReads := rfl
@[simp] theorem stopDrive_pending : (s.stopDrive).pending = s.pending := rfl

/-! ## clearLap -/

@[simp] theorem clearLap_garments : (s.clearLap).garments = s.garments := rfl
@[simp] theorem clearLap_orders : (s.clearLap).orders = s.orders := rfl
@[simp] theorem clearLap_sched : (s.clearLap).sched = s.sched := rfl
@[simp] theorem clearLap_refs : (s.clearLap).refs = s.refs := rfl
@[simp] theorem clearLap_stations : (s.clearLap).stations = s.stations := rfl
@[simp] theorem clearLap_meter : (s.clearLap).meter = s.meter := rfl
@[simp] theorem clearLap_cure : (s.clearLap).cure = s.cure := rfl
@[simp] theorem clearLap_bins : (s.clearLap).bins = s.bins := rfl
@[simp] theorem clearLap_limits : (s.clearLap).limits = s.limits := rfl
@[simp] theorem clearLap_port : (s.clearLap).port = s.port := rfl
@[simp] theorem clearLap_sent : (s.clearLap).sent = s.sent := rfl
@[simp] theorem clearLap_shifted : (s.clearLap).shifted = s.shifted := rfl
@[simp] theorem clearLap_freeReads : (s.clearLap).freeReads = s.freeReads := rfl
@[simp] theorem clearLap_pending : (s.clearLap).pending = s.pending := rfl

/-! ## setEStop -/

@[simp] theorem setEStop_garments (b : Bool) : (s.setEStop b).garments = s.garments := rfl
@[simp] theorem setEStop_orders (b : Bool) : (s.setEStop b).orders = s.orders := rfl
@[simp] theorem setEStop_sched (b : Bool) : (s.setEStop b).sched = s.sched := rfl
@[simp] theorem setEStop_refs (b : Bool) : (s.setEStop b).refs = s.refs := rfl
@[simp] theorem setEStop_stations (b : Bool) : (s.setEStop b).stations = s.stations := rfl
@[simp] theorem setEStop_meter (b : Bool) : (s.setEStop b).meter = s.meter := rfl
@[simp] theorem setEStop_cure (b : Bool) : (s.setEStop b).cure = s.cure := rfl
@[simp] theorem setEStop_bins (b : Bool) : (s.setEStop b).bins = s.bins := rfl
@[simp] theorem setEStop_limits (b : Bool) : (s.setEStop b).limits = s.limits := rfl
@[simp] theorem setEStop_port (b : Bool) : (s.setEStop b).port = s.port := rfl
@[simp] theorem setEStop_sent (b : Bool) : (s.setEStop b).sent = s.sent := rfl
@[simp] theorem setEStop_shifted (b : Bool) : (s.setEStop b).shifted = s.shifted := rfl
@[simp] theorem setEStop_freeReads (b : Bool) : (s.setEStop b).freeReads = s.freeReads := rfl
@[simp] theorem setEStop_pending (b : Bool) : (s.setEStop b).pending = s.pending := rfl

/-! ## setRingState -/

@[simp] theorem setRingState_garments (r : RingState) : (s.setRingState r).garments = s.garments := rfl
@[simp] theorem setRingState_orders (r : RingState) : (s.setRingState r).orders = s.orders := rfl
@[simp] theorem setRingState_sched (r : RingState) : (s.setRingState r).sched = s.sched := rfl
@[simp] theorem setRingState_refs (r : RingState) : (s.setRingState r).refs = s.refs := rfl
@[simp] theorem setRingState_stations (r : RingState) : (s.setRingState r).stations = s.stations := rfl
@[simp] theorem setRingState_meter (r : RingState) : (s.setRingState r).meter = s.meter := rfl
@[simp] theorem setRingState_cure (r : RingState) : (s.setRingState r).cure = s.cure := rfl
@[simp] theorem setRingState_bins (r : RingState) : (s.setRingState r).bins = s.bins := rfl
@[simp] theorem setRingState_limits (r : RingState) : (s.setRingState r).limits = s.limits := rfl
@[simp] theorem setRingState_port (r : RingState) : (s.setRingState r).port = s.port := rfl
@[simp] theorem setRingState_sent (r : RingState) : (s.setRingState r).sent = s.sent := rfl
@[simp] theorem setRingState_shifted (r : RingState) : (s.setRingState r).shifted = s.shifted := rfl
@[simp] theorem setRingState_freeReads (r : RingState) : (s.setRingState r).freeReads = s.freeReads := rfl
@[simp] theorem setRingState_pending (r : RingState) : (s.setRingState r).pending = s.pending := rfl

/-! ## modifyLane -/

@[simp] theorem modifyLane_garments (k : Nat) (f : Lane → Lane) : (s.modifyLane k f).garments = s.garments := rfl
@[simp] theorem modifyLane_orders (k : Nat) (f : Lane → Lane) : (s.modifyLane k f).orders = s.orders := rfl
@[simp] theorem modifyLane_sched (k : Nat) (f : Lane → Lane) : (s.modifyLane k f).sched = s.sched := rfl
@[simp] theorem modifyLane_refs (k : Nat) (f : Lane → Lane) : (s.modifyLane k f).refs = s.refs := rfl
@[simp] theorem modifyLane_stations (k : Nat) (f : Lane → Lane) : (s.modifyLane k f).stations = s.stations := rfl
@[simp] theorem modifyLane_ring (k : Nat) (f : Lane → Lane) : (s.modifyLane k f).ring = s.ring := rfl
@[simp] theorem modifyLane_meter (k : Nat) (f : Lane → Lane) : (s.modifyLane k f).meter = s.meter := rfl
@[simp] theorem modifyLane_bins (k : Nat) (f : Lane → Lane) : (s.modifyLane k f).bins = s.bins := rfl
@[simp] theorem modifyLane_limits (k : Nat) (f : Lane → Lane) : (s.modifyLane k f).limits = s.limits := rfl
@[simp] theorem modifyLane_port (k : Nat) (f : Lane → Lane) : (s.modifyLane k f).port = s.port := rfl
@[simp] theorem modifyLane_sent (k : Nat) (f : Lane → Lane) : (s.modifyLane k f).sent = s.sent := rfl
@[simp] theorem modifyLane_shifted (k : Nat) (f : Lane → Lane) : (s.modifyLane k f).shifted = s.shifted := rfl
@[simp] theorem modifyLane_freeReads (k : Nat) (f : Lane → Lane) : (s.modifyLane k f).freeReads = s.freeReads := rfl
@[simp] theorem modifyLane_pending (k : Nat) (f : Lane → Lane) : (s.modifyLane k f).pending = s.pending := rfl

/-! ## reserveLane -/

@[simp] theorem reserveLane_garments (k : Nat) (t : Tag) : (s.reserveLane k t).garments = s.garments := rfl
@[simp] theorem reserveLane_orders (k : Nat) (t : Tag) : (s.reserveLane k t).orders = s.orders := rfl
@[simp] theorem reserveLane_sched (k : Nat) (t : Tag) : (s.reserveLane k t).sched = s.sched := rfl
@[simp] theorem reserveLane_refs (k : Nat) (t : Tag) : (s.reserveLane k t).refs = s.refs := rfl
@[simp] theorem reserveLane_stations (k : Nat) (t : Tag) : (s.reserveLane k t).stations = s.stations := rfl
@[simp] theorem reserveLane_ring (k : Nat) (t : Tag) : (s.reserveLane k t).ring = s.ring := rfl
@[simp] theorem reserveLane_meter (k : Nat) (t : Tag) : (s.reserveLane k t).meter = s.meter := rfl
@[simp] theorem reserveLane_bins (k : Nat) (t : Tag) : (s.reserveLane k t).bins = s.bins := rfl
@[simp] theorem reserveLane_limits (k : Nat) (t : Tag) : (s.reserveLane k t).limits = s.limits := rfl
@[simp] theorem reserveLane_port (k : Nat) (t : Tag) : (s.reserveLane k t).port = s.port := rfl
@[simp] theorem reserveLane_sent (k : Nat) (t : Tag) : (s.reserveLane k t).sent = s.sent := rfl
@[simp] theorem reserveLane_shifted (k : Nat) (t : Tag) : (s.reserveLane k t).shifted = s.shifted := rfl
@[simp] theorem reserveLane_freeReads (k : Nat) (t : Tag) : (s.reserveLane k t).freeReads = s.freeReads := rfl
@[simp] theorem reserveLane_pending (k : Nat) (t : Tag) : (s.reserveLane k t).pending = s.pending := rfl

/-! ## moveBelt -/

@[simp] theorem moveBelt_garments (d : Nat) : (s.moveBelt d).garments = s.garments := rfl
@[simp] theorem moveBelt_orders (d : Nat) : (s.moveBelt d).orders = s.orders := rfl
@[simp] theorem moveBelt_sched (d : Nat) : (s.moveBelt d).sched = s.sched := rfl
@[simp] theorem moveBelt_refs (d : Nat) : (s.moveBelt d).refs = s.refs := rfl
@[simp] theorem moveBelt_stations (d : Nat) : (s.moveBelt d).stations = s.stations := rfl
@[simp] theorem moveBelt_ring (d : Nat) : (s.moveBelt d).ring = s.ring := rfl
@[simp] theorem moveBelt_meter (d : Nat) : (s.moveBelt d).meter = s.meter := rfl
@[simp] theorem moveBelt_bins (d : Nat) : (s.moveBelt d).bins = s.bins := rfl
@[simp] theorem moveBelt_limits (d : Nat) : (s.moveBelt d).limits = s.limits := rfl
@[simp] theorem moveBelt_port (d : Nat) : (s.moveBelt d).port = s.port := rfl
@[simp] theorem moveBelt_sent (d : Nat) : (s.moveBelt d).sent = s.sent := rfl
@[simp] theorem moveBelt_shifted (d : Nat) : (s.moveBelt d).shifted = s.shifted := rfl
@[simp] theorem moveBelt_freeReads (d : Nat) : (s.moveBelt d).freeReads = s.freeReads := rfl
@[simp] theorem moveBelt_pending (d : Nat) : (s.moveBelt d).pending = s.pending := rfl

/-! ## setBin -/

@[simp] theorem setBin_garments (k : Nat) (b : Bin) : (s.setBin k b).garments = s.garments := rfl
@[simp] theorem setBin_orders (k : Nat) (b : Bin) : (s.setBin k b).orders = s.orders := rfl
@[simp] theorem setBin_sched (k : Nat) (b : Bin) : (s.setBin k b).sched = s.sched := rfl
@[simp] theorem setBin_refs (k : Nat) (b : Bin) : (s.setBin k b).refs = s.refs := rfl
@[simp] theorem setBin_stations (k : Nat) (b : Bin) : (s.setBin k b).stations = s.stations := rfl
@[simp] theorem setBin_ring (k : Nat) (b : Bin) : (s.setBin k b).ring = s.ring := rfl
@[simp] theorem setBin_meter (k : Nat) (b : Bin) : (s.setBin k b).meter = s.meter := rfl
@[simp] theorem setBin_cure (k : Nat) (b : Bin) : (s.setBin k b).cure = s.cure := rfl
@[simp] theorem setBin_limits (k : Nat) (b : Bin) : (s.setBin k b).limits = s.limits := rfl
@[simp] theorem setBin_port (k : Nat) (b : Bin) : (s.setBin k b).port = s.port := rfl
@[simp] theorem setBin_sent (k : Nat) (b : Bin) : (s.setBin k b).sent = s.sent := rfl
@[simp] theorem setBin_shifted (k : Nat) (b : Bin) : (s.setBin k b).shifted = s.shifted := rfl
@[simp] theorem setBin_freeReads (k : Nat) (b : Bin) : (s.setBin k b).freeReads = s.freeReads := rfl
@[simp] theorem setBin_pending (k : Nat) (b : Bin) : (s.setBin k b).pending = s.pending := rfl

/-! ## returnCells -/

@[simp] theorem returnCells_garments (n : Nat) : (s.returnCells n).garments = s.garments := rfl
@[simp] theorem returnCells_sched (n : Nat) : (s.returnCells n).sched = s.sched := rfl
@[simp] theorem returnCells_refs (n : Nat) : (s.returnCells n).refs = s.refs := rfl
@[simp] theorem returnCells_stations (n : Nat) : (s.returnCells n).stations = s.stations := rfl
@[simp] theorem returnCells_ring (n : Nat) : (s.returnCells n).ring = s.ring := rfl
@[simp] theorem returnCells_meter (n : Nat) : (s.returnCells n).meter = s.meter := rfl
@[simp] theorem returnCells_cure (n : Nat) : (s.returnCells n).cure = s.cure := rfl
@[simp] theorem returnCells_bins (n : Nat) : (s.returnCells n).bins = s.bins := rfl
@[simp] theorem returnCells_limits (n : Nat) : (s.returnCells n).limits = s.limits := rfl
@[simp] theorem returnCells_port (n : Nat) : (s.returnCells n).port = s.port := rfl
@[simp] theorem returnCells_sent (n : Nat) : (s.returnCells n).sent = s.sent := rfl
@[simp] theorem returnCells_shifted (n : Nat) : (s.returnCells n).shifted = s.shifted := rfl
@[simp] theorem returnCells_freeReads (n : Nat) : (s.returnCells n).freeReads = s.freeReads := rfl
@[simp] theorem returnCells_pending (n : Nat) : (s.returnCells n).pending = s.pending := rfl

/-! ## takeCells -/

@[simp] theorem takeCells_garments (n : Nat) : (s.takeCells n).garments = s.garments := rfl
@[simp] theorem takeCells_sched (n : Nat) : (s.takeCells n).sched = s.sched := rfl
@[simp] theorem takeCells_refs (n : Nat) : (s.takeCells n).refs = s.refs := rfl
@[simp] theorem takeCells_stations (n : Nat) : (s.takeCells n).stations = s.stations := rfl
@[simp] theorem takeCells_ring (n : Nat) : (s.takeCells n).ring = s.ring := rfl
@[simp] theorem takeCells_meter (n : Nat) : (s.takeCells n).meter = s.meter := rfl
@[simp] theorem takeCells_cure (n : Nat) : (s.takeCells n).cure = s.cure := rfl
@[simp] theorem takeCells_bins (n : Nat) : (s.takeCells n).bins = s.bins := rfl
@[simp] theorem takeCells_limits (n : Nat) : (s.takeCells n).limits = s.limits := rfl
@[simp] theorem takeCells_port (n : Nat) : (s.takeCells n).port = s.port := rfl
@[simp] theorem takeCells_sent (n : Nat) : (s.takeCells n).sent = s.sent := rfl
@[simp] theorem takeCells_shifted (n : Nat) : (s.takeCells n).shifted = s.shifted := rfl
@[simp] theorem takeCells_freeReads (n : Nat) : (s.takeCells n).freeReads = s.freeReads := rfl
@[simp] theorem takeCells_pending (n : Nat) : (s.takeCells n).pending = s.pending := rfl

/-! ## setPort -/

@[simp] theorem setPort_garments (p : PortState) : (s.setPort p).garments = s.garments := rfl
@[simp] theorem setPort_orders (p : PortState) : (s.setPort p).orders = s.orders := rfl
@[simp] theorem setPort_sched (p : PortState) : (s.setPort p).sched = s.sched := rfl
@[simp] theorem setPort_refs (p : PortState) : (s.setPort p).refs = s.refs := rfl
@[simp] theorem setPort_stations (p : PortState) : (s.setPort p).stations = s.stations := rfl
@[simp] theorem setPort_ring (p : PortState) : (s.setPort p).ring = s.ring := rfl
@[simp] theorem setPort_meter (p : PortState) : (s.setPort p).meter = s.meter := rfl
@[simp] theorem setPort_cure (p : PortState) : (s.setPort p).cure = s.cure := rfl
@[simp] theorem setPort_bins (p : PortState) : (s.setPort p).bins = s.bins := rfl
@[simp] theorem setPort_limits (p : PortState) : (s.setPort p).limits = s.limits := rfl
@[simp] theorem setPort_sent (p : PortState) : (s.setPort p).sent = s.sent := rfl
@[simp] theorem setPort_shifted (p : PortState) : (s.setPort p).shifted = s.shifted := rfl
@[simp] theorem setPort_freeReads (p : PortState) : (s.setPort p).freeReads = s.freeReads := rfl
@[simp] theorem setPort_pending (p : PortState) : (s.setPort p).pending = s.pending := rfl

/-! ## setKept -/

@[simp] theorem setKept_garments (f : Option Frame) : (s.setKept f).garments = s.garments := rfl
@[simp] theorem setKept_orders (f : Option Frame) : (s.setKept f).orders = s.orders := rfl
@[simp] theorem setKept_sched (f : Option Frame) : (s.setKept f).sched = s.sched := rfl
@[simp] theorem setKept_refs (f : Option Frame) : (s.setKept f).refs = s.refs := rfl
@[simp] theorem setKept_stations (f : Option Frame) : (s.setKept f).stations = s.stations := rfl
@[simp] theorem setKept_ring (f : Option Frame) : (s.setKept f).ring = s.ring := rfl
@[simp] theorem setKept_meter (f : Option Frame) : (s.setKept f).meter = s.meter := rfl
@[simp] theorem setKept_cure (f : Option Frame) : (s.setKept f).cure = s.cure := rfl
@[simp] theorem setKept_bins (f : Option Frame) : (s.setKept f).bins = s.bins := rfl
@[simp] theorem setKept_limits (f : Option Frame) : (s.setKept f).limits = s.limits := rfl
@[simp] theorem setKept_sent (f : Option Frame) : (s.setKept f).sent = s.sent := rfl
@[simp] theorem setKept_shifted (f : Option Frame) : (s.setKept f).shifted = s.shifted := rfl
@[simp] theorem setKept_freeReads (f : Option Frame) : (s.setKept f).freeReads = s.freeReads := rfl
@[simp] theorem setKept_pending (f : Option Frame) : (s.setKept f).pending = s.pending := rfl

/-! ## setReading -/

@[simp] theorem setReading_garments (n : Option Nat) : (s.setReading n).garments = s.garments := rfl
@[simp] theorem setReading_orders (n : Option Nat) : (s.setReading n).orders = s.orders := rfl
@[simp] theorem setReading_sched (n : Option Nat) : (s.setReading n).sched = s.sched := rfl
@[simp] theorem setReading_refs (n : Option Nat) : (s.setReading n).refs = s.refs := rfl
@[simp] theorem setReading_stations (n : Option Nat) : (s.setReading n).stations = s.stations := rfl
@[simp] theorem setReading_ring (n : Option Nat) : (s.setReading n).ring = s.ring := rfl
@[simp] theorem setReading_meter (n : Option Nat) : (s.setReading n).meter = s.meter := rfl
@[simp] theorem setReading_cure (n : Option Nat) : (s.setReading n).cure = s.cure := rfl
@[simp] theorem setReading_bins (n : Option Nat) : (s.setReading n).bins = s.bins := rfl
@[simp] theorem setReading_limits (n : Option Nat) : (s.setReading n).limits = s.limits := rfl
@[simp] theorem setReading_sent (n : Option Nat) : (s.setReading n).sent = s.sent := rfl
@[simp] theorem setReading_shifted (n : Option Nat) : (s.setReading n).shifted = s.shifted := rfl
@[simp] theorem setReading_freeReads (n : Option Nat) : (s.setReading n).freeReads = s.freeReads := rfl
@[simp] theorem setReading_pending (n : Option Nat) : (s.setReading n).pending = s.pending := rfl

/-! ## shift -/

@[simp] theorem shift_garments (b : List Byte) : (s.shift b).garments = s.garments := rfl
@[simp] theorem shift_orders (b : List Byte) : (s.shift b).orders = s.orders := rfl
@[simp] theorem shift_sched (b : List Byte) : (s.shift b).sched = s.sched := rfl
@[simp] theorem shift_refs (b : List Byte) : (s.shift b).refs = s.refs := rfl
@[simp] theorem shift_stations (b : List Byte) : (s.shift b).stations = s.stations := rfl
@[simp] theorem shift_ring (b : List Byte) : (s.shift b).ring = s.ring := rfl
@[simp] theorem shift_meter (b : List Byte) : (s.shift b).meter = s.meter := rfl
@[simp] theorem shift_cure (b : List Byte) : (s.shift b).cure = s.cure := rfl
@[simp] theorem shift_bins (b : List Byte) : (s.shift b).bins = s.bins := rfl
@[simp] theorem shift_limits (b : List Byte) : (s.shift b).limits = s.limits := rfl
@[simp] theorem shift_port (b : List Byte) : (s.shift b).port = s.port := rfl
@[simp] theorem shift_sent (b : List Byte) : (s.shift b).sent = s.sent := rfl
@[simp] theorem shift_freeReads (b : List Byte) : (s.shift b).freeReads = s.freeReads := rfl
@[simp] theorem shift_pending (b : List Byte) : (s.shift b).pending = s.pending := rfl

/-! ## setCursor -/

@[simp] theorem setCursor_orders (c : Cursor) : (s.setCursor c).orders = s.orders := rfl
@[simp] theorem setCursor_sched (c : Cursor) : (s.setCursor c).sched = s.sched := rfl
@[simp] theorem setCursor_refs (c : Cursor) : (s.setCursor c).refs = s.refs := rfl
@[simp] theorem setCursor_stations (c : Cursor) : (s.setCursor c).stations = s.stations := rfl
@[simp] theorem setCursor_ring (c : Cursor) : (s.setCursor c).ring = s.ring := rfl
@[simp] theorem setCursor_meter (c : Cursor) : (s.setCursor c).meter = s.meter := rfl
@[simp] theorem setCursor_cure (c : Cursor) : (s.setCursor c).cure = s.cure := rfl
@[simp] theorem setCursor_bins (c : Cursor) : (s.setCursor c).bins = s.bins := rfl
@[simp] theorem setCursor_limits (c : Cursor) : (s.setCursor c).limits = s.limits := rfl
@[simp] theorem setCursor_port (c : Cursor) : (s.setCursor c).port = s.port := rfl
@[simp] theorem setCursor_sent (c : Cursor) : (s.setCursor c).sent = s.sent := rfl
@[simp] theorem setCursor_shifted (c : Cursor) : (s.setCursor c).shifted = s.shifted := rfl
@[simp] theorem setCursor_freeReads (c : Cursor) : (s.setCursor c).freeReads = s.freeReads := rfl
@[simp] theorem setCursor_pending (c : Cursor) : (s.setCursor c).pending = s.pending := rfl

/-! ## setSku -/

@[simp] theorem setSku_garments (k : Nat) (e : Option SkuEntry) : (s.setSku k e).garments = s.garments := rfl
@[simp] theorem setSku_orders (k : Nat) (e : Option SkuEntry) : (s.setSku k e).orders = s.orders := rfl
@[simp] theorem setSku_sched (k : Nat) (e : Option SkuEntry) : (s.setSku k e).sched = s.sched := rfl
@[simp] theorem setSku_stations (k : Nat) (e : Option SkuEntry) : (s.setSku k e).stations = s.stations := rfl
@[simp] theorem setSku_ring (k : Nat) (e : Option SkuEntry) : (s.setSku k e).ring = s.ring := rfl
@[simp] theorem setSku_meter (k : Nat) (e : Option SkuEntry) : (s.setSku k e).meter = s.meter := rfl
@[simp] theorem setSku_cure (k : Nat) (e : Option SkuEntry) : (s.setSku k e).cure = s.cure := rfl
@[simp] theorem setSku_bins (k : Nat) (e : Option SkuEntry) : (s.setSku k e).bins = s.bins := rfl
@[simp] theorem setSku_limits (k : Nat) (e : Option SkuEntry) : (s.setSku k e).limits = s.limits := rfl
@[simp] theorem setSku_port (k : Nat) (e : Option SkuEntry) : (s.setSku k e).port = s.port := rfl
@[simp] theorem setSku_sent (k : Nat) (e : Option SkuEntry) : (s.setSku k e).sent = s.sent := rfl
@[simp] theorem setSku_shifted (k : Nat) (e : Option SkuEntry) : (s.setSku k e).shifted = s.shifted := rfl
@[simp] theorem setSku_freeReads (k : Nat) (e : Option SkuEntry) : (s.setSku k e).freeReads = s.freeReads := rfl
@[simp] theorem setSku_pending (k : Nat) (e : Option SkuEntry) : (s.setSku k e).pending = s.pending := rfl

/-! ## setClass -/

@[simp] theorem setClass_garments (k : Nat) (e : Option ClassEntry) : (s.setClass k e).garments = s.garments := rfl
@[simp] theorem setClass_orders (k : Nat) (e : Option ClassEntry) : (s.setClass k e).orders = s.orders := rfl
@[simp] theorem setClass_sched (k : Nat) (e : Option ClassEntry) : (s.setClass k e).sched = s.sched := rfl
@[simp] theorem setClass_stations (k : Nat) (e : Option ClassEntry) : (s.setClass k e).stations = s.stations := rfl
@[simp] theorem setClass_ring (k : Nat) (e : Option ClassEntry) : (s.setClass k e).ring = s.ring := rfl
@[simp] theorem setClass_meter (k : Nat) (e : Option ClassEntry) : (s.setClass k e).meter = s.meter := rfl
@[simp] theorem setClass_cure (k : Nat) (e : Option ClassEntry) : (s.setClass k e).cure = s.cure := rfl
@[simp] theorem setClass_bins (k : Nat) (e : Option ClassEntry) : (s.setClass k e).bins = s.bins := rfl
@[simp] theorem setClass_limits (k : Nat) (e : Option ClassEntry) : (s.setClass k e).limits = s.limits := rfl
@[simp] theorem setClass_port (k : Nat) (e : Option ClassEntry) : (s.setClass k e).port = s.port := rfl
@[simp] theorem setClass_sent (k : Nat) (e : Option ClassEntry) : (s.setClass k e).sent = s.sent := rfl
@[simp] theorem setClass_shifted (k : Nat) (e : Option ClassEntry) : (s.setClass k e).shifted = s.shifted := rfl
@[simp] theorem setClass_freeReads (k : Nat) (e : Option ClassEntry) : (s.setClass k e).freeReads = s.freeReads := rfl
@[simp] theorem setClass_pending (k : Nat) (e : Option ClassEntry) : (s.setClass k e).pending = s.pending := rfl

/-! ## setDesign -/

@[simp] theorem setDesign_garments (k : Nat) (e : Option DesignEntry) : (s.setDesign k e).garments = s.garments := rfl
@[simp] theorem setDesign_orders (k : Nat) (e : Option DesignEntry) : (s.setDesign k e).orders = s.orders := rfl
@[simp] theorem setDesign_sched (k : Nat) (e : Option DesignEntry) : (s.setDesign k e).sched = s.sched := rfl
@[simp] theorem setDesign_stations (k : Nat) (e : Option DesignEntry) : (s.setDesign k e).stations = s.stations := rfl
@[simp] theorem setDesign_ring (k : Nat) (e : Option DesignEntry) : (s.setDesign k e).ring = s.ring := rfl
@[simp] theorem setDesign_meter (k : Nat) (e : Option DesignEntry) : (s.setDesign k e).meter = s.meter := rfl
@[simp] theorem setDesign_cure (k : Nat) (e : Option DesignEntry) : (s.setDesign k e).cure = s.cure := rfl
@[simp] theorem setDesign_bins (k : Nat) (e : Option DesignEntry) : (s.setDesign k e).bins = s.bins := rfl
@[simp] theorem setDesign_limits (k : Nat) (e : Option DesignEntry) : (s.setDesign k e).limits = s.limits := rfl
@[simp] theorem setDesign_port (k : Nat) (e : Option DesignEntry) : (s.setDesign k e).port = s.port := rfl
@[simp] theorem setDesign_sent (k : Nat) (e : Option DesignEntry) : (s.setDesign k e).sent = s.sent := rfl
@[simp] theorem setDesign_shifted (k : Nat) (e : Option DesignEntry) : (s.setDesign k e).shifted = s.shifted := rfl
@[simp] theorem setDesign_freeReads (k : Nat) (e : Option DesignEntry) : (s.setDesign k e).freeReads = s.freeReads := rfl
@[simp] theorem setDesign_pending (k : Nat) (e : Option DesignEntry) : (s.setDesign k e).pending = s.pending := rfl

/-! ## Reading back -/

@[simp] theorem stations_get_set (t : Stations) (l : Link) (x : Station) : (t.set l x).get l = x := by
  cases l <;> rfl

theorem stations_get_set_ne (t : Stations) {l m : Link} (h : m ≠ l) (x : Station) : (t.set l x).get m = t.get m := by
  cases l <;> cases m <;> first | rfl | exact absurd rfl h

@[simp] theorem station_modifyStation (l : Link) (f : Station → Station) :
    (s.modifyStation l f).station l = f (s.station l) :=
  stations_get_set ..

theorem station_modifyStation_ne {l m : Link} (h : m ≠ l) (f : Station → Station) :
    (s.modifyStation l f).station m = s.station m :=
  stations_get_set_ne _ h _

@[simp] theorem send_sent (l : Link) (m : Message) : (s.send l m).sent = s.sent ++ [⟨l, m⟩] := rfl

@[simp] theorem shift_shifted (b : List Byte) : (s.shift b).shifted = s.shifted ++ b := rfl

@[simp] theorem setPort_state (p : PortState) : (s.setPort p).port.state = p := rfl

@[simp] theorem setRingState_state (r : RingState) : (s.setRingState r).ring.state = r := rfl

@[simp] theorem setEStop_eStop (b : Bool) : (s.setEStop b).ring.eStop = b := rfl

end Sys2Proof.Machine
end

