-- ==== Sys2Proof/Laws/Tables.lean ====
section
/-! SUPPORT. Laws/Tables.lean: reading a table after a write, and the canonical form of tables under every operation. -/

namespace Sys2Proof.Machine

variable {α : Type}

/-! ## Reading -/

@[simp] theorem find_nil (i : Nat) : Table.find ([] : Table α) i = none := rfl

theorem find_cons (k : Nat) (v : α) (t : Table α) (i : Nat) :
    Table.find ((k, v) :: t) i = if i = k then some v else Table.find t i := rfl

@[simp] theorem find_put_same (t : Table α) (i : Nat) (v : α) : (t.put i v).find i = some v := by
  induction t with
  | nil => simp [Table.put, find_cons]
  | cons e t ih =>
    obtain ⟨k, w⟩ := e
    simp only [Table.put]
    split
    · simp [find_cons]
    · split
      · simp [find_cons]
      · rw [find_cons, if_neg ‹_›, ih]

theorem find_put_ne (t : Table α) {i j : Nat} (h : j ≠ i) (v : α) : (t.put i v).find j = t.find j := by
  induction t with
  | nil => simp [Table.put, find_cons, h]
  | cons e t ih =>
    obtain ⟨k, w⟩ := e
    simp only [Table.put]
    split
    · rename_i hk
      subst hk
      simp [find_cons, h]
    · split
      · simp [find_cons, h]
      · simp [find_cons, ih]

theorem find_put (t : Table α) (i j : Nat) (v : α) : (t.put i v).find j = if j = i then some v else t.find j := by
  split
  · rename_i h
    subst h
    exact find_put_same ..
  · rename_i h
    exact find_put_ne t h v

theorem find_erase (t : Table α) (i j : Nat) : (t.erase i).find j = if j = i then none else t.find j := by
  induction t with
  | nil => simp [Table.erase]
  | cons e t ih =>
    obtain ⟨k, w⟩ := e
    simp only [Table.erase] at ih ⊢
    by_cases hk : k = i
    · subst hk
      simp only [List.filter_cons, ne_eq, not_true_eq_false, decide_false, Bool.false_eq_true, if_false, ih, find_cons]
      split <;> rfl
    · simp only [List.filter_cons, ne_eq, hk, not_false_eq_true, decide_true, if_true, find_cons, ih]
      split
      · rename_i h
        subst h
        simp [hk]
      · rfl

theorem find_modify (t : Table α) (i j : Nat) (f : α → α) :
    (t.modify i f).find j = if j = i then (t.find i).map f else t.find j := by
  simp only [Table.modify]
  split
  · rename_i h
    split
    · rename_i hj
      rw [hj, h]
      rfl
    · rfl
  · rename_i v h
    rw [find_put, h]
    rfl

@[simp] theorem find_modify_same (t : Table α) (i : Nat) (f : α → α) : (t.modify i f).find i = (t.find i).map f := by
  simp [find_modify]

theorem find_modify_ne (t : Table α) {i j : Nat} (h : j ≠ i) (f : α → α) : (t.modify i f).find j = t.find j := by
  simp [find_modify, h]

theorem find_mapVal (t : Table α) (f : α → α) (i : Nat) : (t.mapVal f).find i = (t.find i).map f := by
  induction t with
  | nil => rfl
  | cons e t ih =>
    obtain ⟨k, w⟩ := e
    simp only [Table.mapVal, List.map_cons, find_cons] at ih ⊢
    split
    · rfl
    · exact ih

theorem look_store [DecidableEq α] (d : α) (t : Table α) (i j : Nat) (v : α) :
    (Table.store d t i v).look d j = if j = i then v else t.look d j := by
  simp only [Table.store, Table.look]
  split
  · rename_i h
    rw [find_erase]
    split
    · exact h.symm
    · rfl
  · rw [find_put]
    split <;> rfl

@[simp] theorem look_store_same [DecidableEq α] (d : α) (t : Table α) (i : Nat) (v : α) :
    (Table.store d t i v).look d i = v := by
  simp [look_store]

theorem look_store_ne [DecidableEq α] (d : α) (t : Table α) {i j : Nat} (h : j ≠ i) (v : α) :
    (Table.store d t i v).look d j = t.look d j := by
  simp [look_store, h]

/-! ## The canonical form -/

/-- Every number of a table is above `k`. -/
def above (k : Nat) (t : Table α) : Bool := t.all fun e => decide (k < e.1)

theorem wf_cons (k : Nat) (v : α) (t : Table α) : Table.wf ((k, v) :: t) = (above k t && Table.wf t) := rfl

theorem above_put (t : Table α) {k i : Nat} (v : α) (h : above k t = true) (hi : k < i) : above k (t.put i v) = true := by
  induction t with
  | nil => simp [Table.put, above, hi]
  | cons e t ih =>
    obtain ⟨j, w⟩ := e
    simp only [above, List.all_cons, Bool.and_eq_true, decide_eq_true_eq] at h ih ⊢
    simp only [Table.put]
    split
    · simp only [List.all_cons, Bool.and_eq_true, decide_eq_true_eq]
      exact ⟨hi, h.2⟩
    · split
      · simp only [List.all_cons, Bool.and_eq_true, decide_eq_true_eq]
        exact ⟨hi, h⟩
      · simp only [List.all_cons, Bool.and_eq_true, decide_eq_true_eq]
        exact ⟨h.1, ih h.2⟩

theorem above_mono (t : Table α) {j k : Nat} (h : above k t = true) (hj : j ≤ k) : above j t = true := by
  simp only [above, List.all_eq_true, decide_eq_true_eq] at h ⊢
  exact fun e he => lt_of_le_of_lt hj (h e he)

theorem above_filter (t : Table α) {k : Nat} (p : Nat × α → Bool) (h : above k t = true) :
    above k (t.filter p) = true := by
  simp only [above, List.all_eq_true, decide_eq_true_eq] at h ⊢
  exact fun e he => h e (List.mem_of_mem_filter he)

/-- A write keeps the canonical form. -/
theorem wf_put (t : Table α) (i : Nat) (v : α) (h : t.wf = true) : (t.put i v).wf = true := by
  induction t with
  | nil => rfl
  | cons e t ih =>
    obtain ⟨j, w⟩ := e
    rw [wf_cons, Bool.and_eq_true] at h
    simp only [Table.put]
    split
    · rename_i hij
      subst hij
      rw [wf_cons, Bool.and_eq_true]
      exact h
    · rename_i hij
      split
      · rename_i hlt
        rw [wf_cons, wf_cons, Bool.and_eq_true, Bool.and_eq_true]
        refine ⟨?_, h⟩
        have := above_mono t h.1 hlt.le
        simp only [above, List.all_cons, Bool.and_eq_true, decide_eq_true_eq] at this ⊢
        exact ⟨hlt, this⟩
      · rename_i hlt
        rw [wf_cons, Bool.and_eq_true]
        exact ⟨above_put t v h.1 (by omega), ih h.2⟩

theorem wf_filter (t : Table α) (p : Nat × α → Bool) (h : t.wf = true) : Table.wf (t.filter p) = true := by
  induction t with
  | nil => rfl
  | cons e t ih =>
    obtain ⟨j, w⟩ := e
    rw [wf_cons, Bool.and_eq_true] at h
    simp only [List.filter_cons]
    split
    · rw [wf_cons, Bool.and_eq_true]
      exact ⟨above_filter t p h.1, ih h.2⟩
    · exact ih h.2

/-- Removing an entry keeps the canonical form. -/
theorem wf_erase (t : Table α) (i : Nat) (h : t.wf = true) : (t.erase i).wf = true :=
  wf_filter t _ h

theorem wf_modify (t : Table α) (i : Nat) (f : α → α) (h : t.wf = true) : (t.modify i f).wf = true := by
  simp only [Table.modify]
  split
  · exact h
  · exact wf_put t i _ h

theorem wf_mapVal (t : Table α) (f : α → α) (h : t.wf = true) : (t.mapVal f).wf = true := by
  induction t with
  | nil => rfl
  | cons e t ih =>
    obtain ⟨j, w⟩ := e
    rw [wf_cons, Bool.and_eq_true] at h
    simp only [Table.mapVal, List.map_cons] at ih ⊢
    rw [wf_cons, Bool.and_eq_true]
    refine ⟨?_, ih h.2⟩
    have := h.1
    simp only [above, List.all_map] at this ⊢
    exact this

/-- A write of a table with a default keeps its canonical form. -/
theorem wfDefault_store [DecidableEq α] (d : α) (t : Table α) (i : Nat) (v : α) (h : t.wfDefault d = true) :
    (Table.store d t i v).wfDefault d = true := by
  simp only [Table.wfDefault, Bool.and_eq_true] at h ⊢
  simp only [Table.store]
  split
  · refine ⟨wf_erase t i h.1, ?_⟩
    simp only [List.all_eq_true] at h ⊢
    exact fun e he => h.2 e (List.mem_of_mem_filter he)
  · rename_i hv
    refine ⟨wf_put t i v h.1, ?_⟩
    have h2 := h.2
    clear h
    induction t with
    | nil => simp [Table.put, hv]
    | cons e t ih =>
      obtain ⟨j, w⟩ := e
      simp only [List.all_cons, Bool.and_eq_true] at h2
      simp only [Table.put]
      split
      · simp only [List.all_cons, Bool.and_eq_true]
        exact ⟨by simp [hv], h2.2⟩
      · split
        · simp only [List.all_cons, Bool.and_eq_true]
          exact ⟨by simp [hv], h2⟩
        · simp only [List.all_cons, Bool.and_eq_true]
          exact ⟨h2.1, ih h2.2⟩

theorem wfDefault_mapStore [DecidableEq α] (d : α) (t : Table α) (f : α → α) (h : t.wfDefault d = true) :
    (Table.mapStore d t f).wfDefault d = true := by
  simp only [Table.wfDefault, Bool.and_eq_true] at h ⊢
  refine ⟨wf_filter _ _ (wf_mapVal t f h.1), ?_⟩
  simp only [Table.mapStore, List.all_eq_true]
  exact fun e he => (List.mem_filter.mp he).2

/-! ## Members -/

/-- An entry that a lookup finds is an entry of the table. -/
theorem mem_of_find {t : Table α} {i : Nat} {v : α} (h : t.find i = some v) : (i, v) ∈ t := by
  induction t with
  | nil => simp at h
  | cons e t ih =>
    obtain ⟨k, w⟩ := e
    rw [find_cons] at h
    split at h
    · rename_i hk
      cases h
      subst hk
      exact List.mem_cons_self
    · exact List.mem_cons_of_mem _ (ih h)

/-- An entry after a write is the written one or an old one. -/
theorem mem_put {t : Table α} {i : Nat} {v : α} {e : Nat × α} (h : e ∈ t.put i v) : e = (i, v) ∨ e ∈ t := by
  induction t with
  | nil => exact Or.inl (by simpa [Table.put] using h)
  | cons x t ih =>
    obtain ⟨k, w⟩ := x
    simp only [Table.put] at h
    split at h
    · rcases List.mem_cons.mp h with h | h
      · exact Or.inl h
      · exact Or.inr (List.mem_cons_of_mem _ h)
    · split at h
      · rcases List.mem_cons.mp h with h | h
        · exact Or.inl h
        · exact Or.inr h
      · rcases List.mem_cons.mp h with h | h
        · exact Or.inr (h ▸ List.mem_cons_self)
        · rcases ih h with h | h
          · exact Or.inl h
          · exact Or.inr (List.mem_cons_of_mem _ h)

/-- In a canonical table an entry is what the lookup of its number finds. -/
theorem find_of_mem {t : Table α} (hw : t.wf = true) {e : Nat × α} (h : e ∈ t) : t.find e.1 = some e.2 := by
  induction t with
  | nil => cases h
  | cons x t ih =>
    obtain ⟨k, w⟩ := x
    rw [wf_cons, Bool.and_eq_true] at hw
    rcases List.mem_cons.mp h with h | h
    · subst h
      simp [find_cons]
    · have hk : k < e.1 := by
        have := hw.1
        simp only [above, List.all_eq_true, decide_eq_true_eq] at this
        exact this e h
      rw [find_cons, if_neg (by omega)]
      exact ih hw.2 h

/-! ## Lists -/

@[simp] theorem length_modifyAt {α : Type} (l : List α) (i : Nat) (f : α → α) : (modifyAt l i f).length = l.length := by
  induction l generalizing i with
  | nil => rfl
  | cons x xs ih => cases i <;> simp [modifyAt, ih]

/-- A property of every element stands when one is changed by a function that keeps it. -/
theorem forall_modifyAt {α : Type} {p : α → Prop} {f : α → α} (hf : ∀ x, p x → p (f x)) {l : List α}
    (h : ∀ x ∈ l, p x) {i : Nat} : ∀ x ∈ modifyAt l i f, p x := by
  induction l generalizing i with
  | nil => exact h
  | cons y ys ih =>
    obtain ⟨hy, hys⟩ := List.forall_mem_cons.mp h
    cases i
    · exact List.forall_mem_cons.mpr ⟨hf y hy, hys⟩
    · exact List.forall_mem_cons.mpr ⟨hy, ih hys⟩

end Sys2Proof.Machine
end

