-- ==== Sys2Proof/Laws/Tags.lean ====
section
/-! SUPPORT. Laws/Tags.lean: the lookup of a tag, and one record a tag in the bucket of that tag (R4, R10) under every
write of the Garment Table. -/

namespace Sys2Proof.Machine

/-! ## The lookup -/

theorem findTag_some {s : State} {tag : Tag} {pos : Nat} {g : Garment} (h : s.findTag tag = some (pos, g)) :
    s.garments.records.find pos = some g ∧ g.tag = tag ∧ pos ∈ tagWays tag := by
  unfold State.findTag at h
  obtain ⟨p, hp, hq⟩ := List.exists_of_findSome?_eq_some h
  cases hf : Table.find s.garments.records p with
  | none => simp only [hf] at hq; cases hq
  | some x =>
    simp only [hf] at hq
    split at hq
    · rename_i ht; simp only [Option.some.injEq, Prod.mk.injEq] at hq; obtain ⟨rfl, rfl⟩ := hq; exact ⟨hf, ht, hp⟩
    · cases hq

/-- A tag that the lookup does not find is carried by no record, where each record stands in its tag's bucket. -/
theorem findTag_none {s : State} {tag : Tag} (ok : TagsSafe s) (h : s.findTag tag = none) {pos : Nat} {g : Garment}
    (hg : s.garments.records.find pos = some g) : g.tag ≠ tag := by
  rintro rfl
  have := List.findSome?_eq_none_iff.mp h pos (ok.bucket pos g hg)
  simp [hg] at this

/-- The lookup finds the record that carries a tag, where no other carries it. -/
theorem findTag_of_find {s : State} (ok : TagsSafe s) {pos : Nat} {g : Garment}
    (hg : s.garments.records.find pos = some g) : s.findTag g.tag = some (pos, g) := by
  cases h : s.findTag g.tag with
  | none => exact absurd rfl (findTag_none ok h hg)
  | some e =>
    obtain ⟨p, x⟩ := e
    obtain ⟨hx, ht, _⟩ := findTag_some h
    obtain rfl := ok.single p pos x g hx hg ht
    rw [hx] at hg
    cases hg
    rfl

theorem freeWay_some {s : State} {tag : Tag} {pos : Nat} (h : s.freeWay tag = some pos) :
    pos ∈ tagWays tag ∧ s.garments.records.find pos = none := by
  unfold State.freeWay at h
  refine ⟨List.mem_of_find?_eq_some h, ?_⟩
  have := List.find?_some h
  simpa using this

/-! ## One record a tag -/

theorem TagsOk.nil : TagsOk [] := ⟨fun _ _ h => (by cases h), fun _ _ _ _ h => (by cases h)⟩

/-- A record written over one of the same tag. -/
theorem TagsOk.put_same {r : Table Garment} (ok : TagsOk r) {pos : Nat} {x g : Garment} (hx : r.find pos = some x)
    (ht : g.tag = x.tag) : TagsOk (r.put pos g) := by
  have old : ∀ p y, (r.put pos g).find p = some y → ∃ z, r.find p = some z ∧ z.tag = y.tag := by
    intro p y hy
    rw [find_put] at hy
    split at hy
    · rename_i e
      subst e
      cases hy
      exact ⟨x, hx, ht.symm⟩
    · exact ⟨y, hy, rfl⟩
  refine ⟨fun p y hy => ?_, fun p q y z hy hz e => ?_⟩
  · obtain ⟨w, hw, hwt⟩ := old p y hy
    exact hwt ▸ ok.bucket p w hw
  · obtain ⟨y', hy', hyt⟩ := old p y hy
    obtain ⟨z', hz', hzt⟩ := old q z hz
    exact ok.single p q y' z' hy' hz' (hyt.trans (e.trans hzt.symm))

/-- A record of a new tag written in its bucket. -/
theorem TagsOk.put_new {r : Table Garment} (ok : TagsOk r) {pos : Nat} {g : Garment} (hp : pos ∈ tagWays g.tag)
    (hn : ∀ q x, r.find q = some x → x.tag ≠ g.tag) : TagsOk (r.put pos g) := by
  refine ⟨fun p y hy => ?_, fun p q y z hy hz e => ?_⟩
  · rw [find_put] at hy
    split at hy
    · rename_i e
      subst e
      cases hy
      exact hp
    · exact ok.bucket p y hy
  · rw [find_put] at hy hz
    split at hy <;> split at hz
    · omega
    · cases hy
      exact absurd e.symm (hn q z hz)
    · cases hz
      exact absurd e (hn p y hy)
    · exact ok.single p q y z hy hz e

theorem TagsOk.erase {r : Table Garment} (ok : TagsOk r) (pos : Nat) : TagsOk (r.erase pos) := by
  have old : ∀ p y, (r.erase pos).find p = some y → r.find p = some y := by
    intro p y hy
    rw [find_erase] at hy
    split at hy
    · cases hy
    · exact hy
  exact ⟨fun p y hy => ok.bucket p y (old p y hy), fun p q y z hy hz => ok.single p q y z (old p y hy) (old q z hz)⟩

/-- Every record changed by a function that keeps its tag. -/
theorem TagsOk.mapVal {r : Table Garment} (ok : TagsOk r) {f : Garment → Garment} (hf : ∀ g, (f g).tag = g.tag) :
    TagsOk (r.mapVal f) := by
  have old : ∀ p y, (r.mapVal f).find p = some y → ∃ z, r.find p = some z ∧ z.tag = y.tag := by
    intro p y hy
    rw [find_mapVal, Option.map_eq_some_iff] at hy
    obtain ⟨z, hz, rfl⟩ := hy
    exact ⟨z, hz, (hf z).symm⟩
  refine ⟨fun p y hy => ?_, fun p q y z hy hz e => ?_⟩
  · obtain ⟨w, hw, hwt⟩ := old p y hy
    exact hwt ▸ ok.bucket p w hw
  · obtain ⟨y', hy', hyt⟩ := old p y hy
    obtain ⟨z', hz', hzt⟩ := old q z hz
    exact ok.single p q y' z' hy' hz' (hyt.trans (e.trans hzt.symm))

/-- What a tag's lookup finds, replaced by a record of the same tag. -/
theorem TagsOk.put_found {s : State} (ok : TagsSafe s) {tag : Tag} {pos : Nat} {x g : Garment}
    (h : s.findTag tag = some (pos, x)) (ht : g.tag = x.tag) : TagsOk (s.garments.records.put pos g) :=
  ok.put_same (findTag_some h).1 ht

/-- A record learned in the lowest free way of a tag that no record carries (R9, R10). -/
theorem TagsOk.put_free {s : State} (ok : TagsSafe s) {pos : Nat} {g : Garment} (hn : s.findTag g.tag = none)
    (hp : s.freeWay g.tag = some pos) : TagsOk (s.garments.records.put pos g) :=
  ok.put_new (freeWay_some hp).1 fun _ _ hx => findTag_none ok hn hx

end Sys2Proof.Machine
end

