-- ==== Sys2Proof/Laws/Quiet.lean ====
section
/-! SUPPORT. Laws/Quiet.lean: what the shared operations on garments, orders, verdicts, lanes and bins can never do. They
leave the ring's own state, the configuration, the port and the links as they are; they set cause flags and clear none;
they make no hold; they take back no message; they keep the buckets and the scheduler within their ranges, the tables
canonical and one record a tag; a verdict they leave open is a work verdict, or stands at an ACTIVE station. One lemma an operation, composed by
transitivity. -/

namespace Sys2Proof.Machine

/-! ## The relation -/

/-- The state with everything blanked that a quiet operation may change. -/
def State.fixed (s : State) : State :=
  { s with
    garments := { s.garments with records := [], loadSeq := 0 }
    orders := {}
    sched := { s.sched with credits := [] }
    refs := {}
    stations := {}
    ring := { s.ring with platens := [] }
    meter := {}
    cure := { s.cure with lanes := [], exitQueue := [] }
    bins := {}
    port := { s.port with causes := 0#16 }
    sent := [] }

/-- A station before and after a quiet operation. -/
structure KeepsLink (x y : Station) : Prop where
  up : y.up = x.up
  mode : y.mode = x.mode
  firmware : y.firmware = x.firmware
  attention : y.attention = x.attention
  silence : y.silenceTimer = x.silenceTimer
  verdict : y.verdict = x.verdict ∨ ∀ v, y.verdict = some v → v.cls = .work ∨ y.mode = .active

theorem KeepsLink.refl (x : Station) : KeepsLink x x := ⟨rfl, rfl, rfl, rfl, rfl, .inl rfl⟩

theorem KeepsLink.trans {x y z : Station} (h : KeepsLink x y) (k : KeepsLink y z) : KeepsLink x z where
  up := k.up.trans h.up
  mode := k.mode.trans h.mode
  firmware := k.firmware.trans h.firmware
  attention := k.attention.trans h.attention
  silence := k.silence.trans h.silence
  verdict := by
    rcases k.verdict with e | w
    · rcases h.verdict with e' | w'
      · exact .inl (e.trans e')
      · refine .inr fun v hv => ?_
        rw [k.mode]
        exact w' v (e ▸ hv)
    · exact .inr w

/-- The meter before and after a quiet operation: the configuration stands, and the levels stay within the sizes. -/
structure KeepsMeter (m n : Meter) : Prop where
  cbs : n.cbs = m.cbs
  ebs : n.ebs = m.ebs
  period : n.period = m.period
  running : n.running = m.running
  pulse : n.pulse = m.pulse
  ok : m.ok → n.ok

theorem KeepsMeter.refl (m : Meter) : KeepsMeter m m := ⟨rfl, rfl, rfl, rfl, rfl, id⟩

theorem KeepsMeter.trans {m n o : Meter} (h : KeepsMeter m n) (k : KeepsMeter n o) : KeepsMeter m o :=
  ⟨k.cbs.trans h.cbs, k.ebs.trans h.ebs, k.period.trans h.period, k.running.trans h.running, k.pulse.trans h.pulse,
    k.ok ∘ h.ok⟩

/-- A cause field before and after: every pending flag stays pending, and bits 13 to 15 stay 0 (R202). -/
structure CausesGrow (a b : BitVec 16) : Prop where
  keeps : b &&& a = a
  bits : a &&& ~~~causeBits = 0#16 → b &&& ~~~causeBits = 0#16

theorem CausesGrow.refl (a : BitVec 16) : CausesGrow a a := ⟨by simp, id⟩

theorem CausesGrow.trans {a b c : BitVec 16} (h : CausesGrow a b) (k : CausesGrow b c) : CausesGrow a c where
  keeps := by
    rw [← h.keeps, ← BitVec.and_assoc, k.keeps]
  bits := k.bits ∘ h.bits

theorem CausesGrow.or (a m : BitVec 16) (h : m &&& ~~~causeBits = 0#16) : CausesGrow a (a ||| m) where
  keeps := by
    ext i hi
    simp only [BitVec.getElem_and, BitVec.getElem_or]
    cases a[i] <;> simp
  bits ha := by
    have e : (a ||| m) &&& ~~~causeBits = (a &&& ~~~causeBits) ||| (m &&& ~~~causeBits) := by
      ext i hi
      simp only [BitVec.getElem_and, BitVec.getElem_or]
      cases a[i] <;> simp
    rw [e, ha, h]
    rfl

/-- What a quiet operation does to the whole state. -/
structure Quiet (s t : State) : Prop where
  fixed : t.fixed = s.fixed
  causes : CausesGrow s.port.causes t.port.causes
  held : t.anyHeld = true → s.anyHeld = true
  meter : KeepsMeter s.meter t.meter
  links : ∀ l, KeepsLink (s.station l) (t.station l)
  tables : TablesOk s → TablesOk t
  tags : TagsSafe s → TagsSafe t
  sched : s.sched.Safe → t.sched.Safe
  sent : s.sent <+: t.sent

theorem Quiet.refl (s : State) : Quiet s s :=
  ⟨rfl, .refl _, id, .refl _, fun _ => .refl _, id, id, id, List.prefix_rfl⟩

theorem Quiet.trans {s t u : State} (h : Quiet s t) (k : Quiet t u) : Quiet s u :=
  ⟨k.fixed.trans h.fixed, h.causes.trans k.causes, h.held ∘ k.held, h.meter.trans k.meter,
    fun l => (h.links l).trans (k.links l), k.tables ∘ h.tables, k.tags ∘ h.tags,
    k.sched ∘ h.sched, h.sent.trans k.sent⟩

theorem Quiet.foldl {α : Type} {f : State → α → State} (h : ∀ s a, Quiet s (f s a)) (l : List α) (s : State) :
    Quiet s (l.foldl f s) := by
  induction l generalizing s with
  | nil => exact .refl s
  | cons a l ih => exact (h s a).trans (ih _)

variable (s : State)

/-- What a quiet operation cannot reach, read off `fixed`. -/
theorem Quiet.ring_state {s t : State} (h : Quiet s t) : t.ring.state = s.ring.state := congrArg (·.ring.state) h.fixed
theorem Quiet.ring_cycle {s t : State} (h : Quiet s t) : t.ring.cycle = s.ring.cycle := congrArg (·.ring.cycle) h.fixed
theorem Quiet.ring_moveTimer {s t : State} (h : Quiet s t) : t.ring.moveTimer = s.ring.moveTimer :=
  congrArg (·.ring.moveTimer) h.fixed
theorem Quiet.ring_eStop {s t : State} (h : Quiet s t) : t.ring.eStop = s.ring.eStop := congrArg (·.ring.eStop) h.fixed
theorem Quiet.ring_offset {s t : State} (h : Quiet s t) : t.ring.offset = s.ring.offset :=
  congrArg (·.ring.offset) h.fixed
theorem Quiet.ring_positions {s t : State} (h : Quiet s t) : t.ring.positions = s.ring.positions :=
  congrArg (·.ring.positions) h.fixed
theorem Quiet.ring_lapCount {s t : State} (h : Quiet s t) : t.ring.lapCount = s.ring.lapCount :=
  congrArg (·.ring.lapCount) h.fixed
theorem Quiet.ring_lapSynced {s t : State} (h : Quiet s t) : t.ring.lapSynced = s.ring.lapSynced :=
  congrArg (·.ring.lapSynced) h.fixed
theorem Quiet.limits {s t : State} (h : Quiet s t) : t.limits = s.limits := by
  have := congrArg (·.limits) h.fixed
  exact this
theorem Quiet.pending {s t : State} (h : Quiet s t) : t.pending = s.pending := by
  have := congrArg (·.pending) h.fixed
  exact this
theorem Quiet.shifted {s t : State} (h : Quiet s t) : t.shifted = s.shifted := by
  have := congrArg (·.shifted) h.fixed
  exact this
theorem Quiet.port_state {s t : State} (h : Quiet s t) : t.port.state = s.port.state := congrArg (·.port.state) h.fixed
theorem Quiet.port_kept {s t : State} (h : Quiet s t) : t.port.kept = s.port.kept := congrArg (·.port.kept) h.fixed
theorem Quiet.port_mask {s t : State} (h : Quiet s t) : t.port.mask = s.port.mask := congrArg (·.port.mask) h.fixed
theorem Quiet.station_mode {s t : State} (h : Quiet s t) (l : Link) : (t.station l).mode = (s.station l).mode :=
  (h.links l).mode
theorem Quiet.station_up {s t : State} (h : Quiet s t) (l : Link) : (t.station l).up = (s.station l).up :=
  (h.links l).up

/-! ## Small updates -/

/-- An update that reaches none of stations, platens, meter and causes, and nothing fixed. -/
theorem Quiet.of_eq {s t : State} (f : t.fixed = s.fixed) (c : t.port.causes = s.port.causes)
    (p : t.ring.platens = s.ring.platens) (m : t.meter = s.meter) (st : t.stations = s.stations)
    (tb : TablesOk s → TablesOk t) (sn : s.sent <+: t.sent := by exact List.prefix_rfl)
    (tg : TagsSafe s → TagsSafe t := by exact id) (sc : s.sched.Safe → t.sched.Safe := by exact id) : Quiet s t where
  fixed := f
  causes := c ▸ .refl _
  held := by
    unfold State.anyHeld
    rw [p]
    exact id
  meter := m ▸ .refl _
  links l := by
    unfold State.station
    rw [st]
    exact .refl _
  tables := tb
  tags := tg
  sched := sc
  sent := sn

theorem quiet_putRecord (p : Nat) (g : Garment) (tg : TagsSafe s → TagsOk (s.garments.records.put p g)) :
    Quiet s (s.putRecord p g) :=
  .of_eq rfl rfl rfl rfl rfl (fun h => { h with records := wf_put _ _ _ h.records }) (tg := tg)
theorem quiet_eraseRecord (p : Nat) : Quiet s (s.eraseRecord p) :=
  .of_eq rfl rfl rfl rfl rfl (fun h => { h with records := wf_erase _ _ h.records }) (tg := fun h => h.erase p)
theorem quiet_mapRecords (f : Garment → Garment) (hf : ∀ g, (f g).tag = g.tag) : Quiet s (s.mapRecords f) :=
  .of_eq rfl rfl rfl rfl rfl (fun h => { h with records := wf_mapVal _ _ h.records }) (tg := fun h => h.mapVal hf)
theorem quiet_modifyOrder (k : Nat) (f : Order → Order) : Quiet s (s.modifyOrder k f) :=
  .of_eq rfl rfl rfl rfl rfl fun h => { h with slots := wf_modify _ _ _ h.slots }
theorem quiet_modifyLine (k n : Nat) (f : Line → Line) : Quiet s (s.modifyLine k n f) := quiet_modifyOrder ..
theorem quiet_countSku (k : Nat) (f : Nat → Nat) : Quiet s (s.countSku k f) :=
  .of_eq rfl rfl rfl rfl rfl fun h => { h with skus := wf_modify _ _ _ h.skus }
theorem quiet_countClass (k : Nat) (f : Nat → Nat) : Quiet s (s.countClass k f) :=
  .of_eq rfl rfl rfl rfl rfl fun h => { h with classes := wf_modify _ _ _ h.classes }
theorem quiet_countDesign (k : Nat) (f : Nat → Nat) : Quiet s (s.countDesign k f) :=
  .of_eq rfl rfl rfl rfl rfl fun h => { h with designs := wf_modify _ _ _ h.designs }
theorem quiet_countGarment (g : Garment) (f : Nat → Nat) : Quiet s (s.countGarment g f) :=
  ((quiet_countSku ..).trans (quiet_countClass ..)).trans (quiet_countDesign ..)
theorem quiet_send (l : Link) (m : Message) : Quiet s (s.send l m) :=
  .of_eq rfl rfl rfl rfl rfl (fun h => { h with }) (List.prefix_append ..)
theorem quiet_setBin (k : Nat) (b : Bin) : Quiet s (s.setBin k b) :=
  .of_eq rfl rfl rfl rfl rfl fun h => { h with bins := wfDefault_store _ _ _ _ h.bins }
theorem quiet_modifyLane (k : Nat) (f : Lane → Lane) : Quiet s (s.modifyLane k f) :=
  .of_eq rfl rfl rfl rfl rfl fun h => { h with lanes := wfDefault_store _ _ _ _ h.lanes }
theorem quiet_reserveLane (k : Nat) (t : Tag) : Quiet s (s.reserveLane k t) := quiet_modifyLane ..
theorem quiet_returnCells (n : Nat) : Quiet s (s.returnCells n) :=
  .of_eq rfl rfl rfl rfl rfl fun h => { h with }
theorem quiet_takeCells (n : Nat) : Quiet s (s.takeCells n) :=
  .of_eq rfl rfl rfl rfl rfl fun h => { h with }

theorem cause_field_bits (c : Cause) : c.field &&& ~~~causeBits = 0#16 := by cases c <;> rfl

theorem quiet_raise (c : Cause) : Quiet s (s.raise c) where
  sent := List.prefix_rfl
  tags := id
  sched := id
  tables h := { h with }
  fixed := rfl
  causes := .or _ _ (cause_field_bits c)
  held := id
  meter := .refl _
  links _ := .refl _

theorem quiet_raiseIf (b : Bool) (c : Cause) : Quiet s (s.raiseIf b c) := by
  unfold State.raiseIf
  split
  · exact quiet_raise s c
  · exact .refl s

theorem quiet_modifyStation (l : Link) (f : Station → Station) (h : KeepsLink (s.station l) (f (s.station l))) :
    Quiet s (s.modifyStation l f) where
  sent := List.prefix_rfl
  tags := id
  sched := id
  tables h := { h with }
  fixed := rfl
  causes := .refl _
  held := id
  meter := .refl _
  links m := by
    by_cases e : m = l
    · subst e
      rw [station_modifyStation]
      exact h
    · rw [station_modifyStation_ne s e]
      exact .refl _

/-- A write of a platen that does not raise its hold makes no hold. -/
theorem anyHeld_modifyPlaten (k : Nat) (f : Platen → Platen) (h : (f (s.platen k)).held = true → (s.platen k).held = true) :
    (s.modifyPlaten k f).anyHeld = true → s.anyHeld = true := by
  unfold State.anyHeld State.modifyPlaten Table.store
  simp only [List.any_eq_true]
  split
  · rintro ⟨e, he, hh⟩
    exact ⟨e, List.mem_of_mem_filter he, hh⟩
  · rintro ⟨e, he, hh⟩
    rcases mem_put he with rfl | he
    · have hk := h hh
      unfold State.platen Table.look at hk
      cases hf : Table.find s.ring.platens k with
      | none =>
        rw [hf] at hk
        exact absurd hk (by decide)
      | some p =>
        rw [hf] at hk
        exact ⟨(k, p), mem_of_find hf, hk⟩
    · exact ⟨e, he, hh⟩

/-- A platen that is held shows in `anyHeld`. -/
theorem anyHeld_of_held {s : State} {k : Nat} (h : (s.platen k).held = true) : s.anyHeld = true := by
  unfold State.platen Table.look at h
  unfold State.anyHeld
  simp only [List.any_eq_true]
  cases hf : Table.find s.ring.platens k with
  | none =>
    rw [hf] at h
    exact absurd h (by decide)
  | some p =>
    rw [hf] at h
    exact ⟨(k, p), mem_of_find hf, h⟩

theorem quiet_modifyPlaten (k : Nat) (f : Platen → Platen)
    (h : (f (s.platen k)).held = true → (s.platen k).held = true) : Quiet s (s.modifyPlaten k f) where
  sent := List.prefix_rfl
  tags := id
  sched := id
  tables h := { h with platens := wfDefault_store _ _ _ _ h.platens }
  fixed := rfl
  causes := .refl _
  held := anyHeld_modifyPlaten s k f h
  meter := .refl _
  links _ := .refl _

theorem quiet_release (k : Nat) : Quiet s (s.setHeld k false) :=
  quiet_modifyPlaten s k _ (by simp)

theorem quiet_emptyPlaten (k : Nat) : Quiet s (s.emptyPlaten k) :=
  quiet_modifyPlaten s k _ id

theorem quiet_releaseHold (p : Option Nat) : Quiet s (s.releaseHold p) := by
  unfold State.releaseHold
  split
  · exact quiet_release s _
  · exact .refl s

theorem quiet_setRefusalSeen (l : Link) (b : Bool) : Quiet s (s.setRefusalSeen l b) :=
  quiet_modifyStation s l _ ⟨rfl, rfl, rfl, rfl, rfl, .inl rfl⟩

theorem quiet_endRecord (l : Link) : Quiet s (s.endRecord l) :=
  quiet_modifyStation s l _ ⟨rfl, rfl, rfl, rfl, rfl, .inr (by simp)⟩

theorem quiet_openRecord (l : Link) (r : OpenVerdict) (h : r.cls = .work ∨ (s.station l).mode = .active) :
    Quiet s (s.openRecord l r) :=
  quiet_modifyStation s l _ ⟨rfl, rfl, rfl, rfl, rfl, .inr (by rintro v ⟨⟩; exact h)⟩

theorem quiet_modifyGarment (t : Tag) (f : Garment → Garment) (hf : ∀ g, (f g).tag = g.tag := by exact fun _ => rfl) :
    Quiet s (s.modifyGarment t f) := by
  unfold State.modifyGarment
  split
  · exact .refl s
  · rename_i h
    exact quiet_putRecord s _ _ fun ok => .put_found ok h (hf _)

theorem quiet_touch (t : Tag) : Quiet s (s.touch t) := quiet_modifyGarment s t _

theorem quiet_spoil (t : Tag) : Quiet s (s.spoil t) := quiet_modifyGarment s t _

/-! ## Replies -/

theorem quiet_replyVerdict (l : Link) (p : Option Nat) (t : Tag) (v : Verdict) (a b : Nat) :
    Quiet s (s.replyVerdict l p t v a b) :=
  (quiet_setRefusalSeen s l false).trans (quiet_send _ _ _)

theorem quiet_replyAck (l : Link) (k : Byte) : Quiet s (s.replyAck l k) :=
  (quiet_setRefusalSeen s l false).trans (quiet_send _ _ _)

theorem quiet_replyRefuse (l : Link) (c : RefusalCode) (k p : Byte) (t : Tag) : Quiet s (s.replyRefuse l c k p t) :=
  ((quiet_raiseIf s _ _).trans (quiet_setRefusalSeen _ l true)).trans (quiet_send _ _ _)

theorem quiet_answerPass (l : Link) (r : Report) : Quiet s (s.answerPass l r) := quiet_replyVerdict ..

theorem quiet_answerRefuse (l : Link) (r : Report) (c : RefusalCode) : Quiet s (s.answerRefuse l r c) := by
  unfold State.answerRefuse
  split <;> exact quiet_replyRefuse ..

theorem quiet_restate (l : Link) (v : OpenVerdict) : Quiet s (s.restate l v) := quiet_replyVerdict ..

theorem quiet_give (l : Link) (v : OpenVerdict) (h : v.cls = .work ∨ (s.station l).mode = .active) :
    Quiet s (s.give l v) :=
  (quiet_openRecord s l v h).trans (quiet_restate ..)

/-! ## Records replaced -/

theorem tag_treatIfComplete (g : Garment) : g.treatIfComplete.tag = g.tag := by
  unfold Garment.treatIfComplete
  split <;> rfl

theorem tag_repulse (g : Garment) : (s.repulse g).tag = g.tag := by
  unfold State.repulse
  dsimp only
  split
  · split
    · exact tag_treatIfComplete _
    · rfl
  · rfl

theorem garments_leaveLine (b : Option Binding) : (s.leaveLine b).garments = s.garments := by
  unfold State.leaveLine
  split <;> rfl

theorem garments_moveDesign (a b : Nat) : (s.moveDesign a b).garments = s.garments := by
  unfold State.moveDesign
  split <;> rfl

theorem garments_leavePlace (g : Garment) : (s.leavePlace g).garments = s.garments := by
  unfold State.leavePlace
  split <;> rfl

/-- After a quiet operation that leaves the Garment Table alone, the record that a tag's lookup found is replaced by one of
the same tag. -/
theorem Quiet.replace {s t : State} (q : Quiet s t) (e : t.garments = s.garments) {tag : Tag} {pos : Nat}
    {x g : Garment} (h : s.findTag tag = some (pos, x)) (ht : g.tag = x.tag) : Quiet s (t.putRecord pos g) := by
  refine q.trans (quiet_putRecord t pos g fun ok => ?_)
  rw [TagsSafe, e] at ok
  rw [e]
  exact .put_found ok h ht

/-! ## The meter -/

theorem keepsMeter_debit (m : Meter) (n : Nat) (g : Grant) : KeepsMeter m (m.debit n g) := by
  unfold Meter.debit
  split <;> exact ⟨rfl, rfl, rfl, rfl, rfl, by unfold Meter.ok; dsimp only; omega⟩

theorem keepsMeter_refund (m : Meter) (n : Nat) (g : Grant) : KeepsMeter m (m.refund n g) := by
  unfold Meter.refund refundTo
  split <;> exact ⟨rfl, rfl, rfl, rfl, rfl, by unfold Meter.ok; dsimp only; omega⟩

theorem quiet_meter (m : Meter) (h : KeepsMeter s.meter m) : Quiet s { s with meter := m } where
  sent := List.prefix_rfl
  tags := id
  sched := id
  tables h := { h with }
  fixed := rfl
  causes := .refl _
  held := id
  meter := h
  links _ := .refl _

theorem quiet_requestGrant (t : Tag) (n : Nat) : Quiet s (s.requestGrant t n).2 := by
  unfold State.requestGrant
  split
  · exact (quiet_meter s _ (keepsMeter_debit ..)).trans (quiet_modifyGarment ..)
  · exact quiet_raise ..

theorem quiet_settleDelivery (r : OpenVerdict) (m : Nat) : Quiet s (s.settleDelivery r m) := by
  have credit : Quiet s (s.creditPulses r.tag m) := quiet_modifyGarment ..
  have refund : ∀ t : State, Quiet t (t.refundShortfall r m) := by
    intro t
    unfold State.refundShortfall
    split
    · split
      · exact quiet_meter _ _ (keepsMeter_refund ..)
      · exact .refl _
    · exact .refl _
  exact (credit.trans (refund _)).trans (quiet_modifyGarment _ _ _ tag_treatIfComplete)

/-! ## The scheduler and the orders -/

theorem quiet_leaveLine (b : Option Binding) : Quiet s (s.leaveLine b) := by
  unfold State.leaveLine
  split
  · exact quiet_modifyLine ..
  · exact .refl s

theorem quiet_moveDesign (a b : Nat) : Quiet s (s.moveDesign a b) := by
  unfold State.moveDesign
  split
  · exact .refl s
  · exact (quiet_countDesign ..).trans (quiet_countDesign ..)

theorem quiet_bindGarment (t : Tag) (k n : Nat) : Quiet s (s.bindGarment t k n) := by
  unfold State.bindGarment
  split
  · rename_i h _
    refine (((quiet_leaveLine s _).trans (quiet_modifyLine ..)).trans (quiet_moveDesign ..)).replace ?_ h
      (tag_repulse ..)
    rw [garments_moveDesign]
    exact garments_leaveLine ..
  · exact .refl s

theorem quiet_unbindGarment (t : Tag) : Quiet s (s.unbindGarment t) := by
  unfold State.unbindGarment
  split
  · rename_i h
    exact (quiet_leaveLine s _).replace (garments_leaveLine ..) h rfl
  · exact .refl s

/-- A choice changes nothing of the scheduler but its credits (R51, R52). -/
theorem choose_keeps {c d : Scheduler} {cs : List Candidate} {x : Candidate} (h : c.choose cs = some (x, d)) :
    d.classMap = c.classMap ∧ d.weights = c.weights ∧ d.mode = c.mode := by
  unfold Scheduler.choose at h
  split at h
  · split at h
    · cases h
    · simp only [Option.map_eq_some_iff, Prod.mk.injEq] at h
      obtain ⟨_, _, _, rfl⟩ := h
      exact ⟨rfl, rfl, rfl⟩
  · split at h
    · simp only [Option.map_eq_some_iff, Prod.mk.injEq] at h
      obtain ⟨_, _, _, rfl⟩ := h
      exact ⟨rfl, rfl, rfl⟩
    · split at h
      · simp only [Option.map_eq_some_iff, Prod.mk.injEq] at h
        obtain ⟨_, _, _, rfl⟩ := h
        exact ⟨rfl, rfl, rfl⟩
      · cases h

/-- A choice keeps the scheduler within its ranges. -/
theorem choose_safe {c d : Scheduler} {cs : List Candidate} {x : Candidate} (h : c.choose cs = some (x, d))
    (safe : c.Safe) : d.Safe := by
  have spend : ∀ (e : Scheduler) (k : Nat), e.Safe → (e.spend k).Safe := fun e k s =>
    { s with
      creditsLength := (length_modifyAt ..).trans s.creditsLength
      credits := forall_modifyAt (p := (· ≤ 15)) (f := down1) (fun n hn => Nat.le_trans (Nat.sub_le n 1) hn) s.credits }
  have reload : c.reload.Safe :=
    { safe with creditsLength := safe.weightsLength, credits := fun k hk => (safe.weights k hk).2 }
  unfold Scheduler.choose at h
  split at h
  · split at h
    · cases h
    · simp only [Option.map_eq_some_iff, Prod.mk.injEq] at h
      obtain ⟨_, _, _, rfl⟩ := h
      exact safe
  · split at h
    · simp only [Option.map_eq_some_iff, Prod.mk.injEq] at h
      obtain ⟨_, _, _, rfl⟩ := h
      exact spend _ _ safe
    · split at h
      · simp only [Option.map_eq_some_iff, Prod.mk.injEq] at h
        obtain ⟨_, _, _, rfl⟩ := h
        exact spend _ _ reload
      · cases h

theorem quiet_credits {c : Scheduler} {cs : List Candidate} {x : Candidate} (h : s.sched.choose cs = some (x, c)) :
    Quiet s { s with sched := c } := by
  obtain ⟨h1, h2, h3⟩ := choose_keeps h
  refine .of_eq ?_ rfl rfl rfl rfl (fun h => { h with }) (sc := choose_safe h)
  unfold State.fixed
  simp only [h1, h2, h3]

theorem quiet_chooseAndBind (t : Tag) (set : LineSet) : Quiet s (s.chooseAndBind t set).1 := by
  unfold State.chooseAndBind
  split
  · exact .refl s
  · split
    · exact .refl s
    · rename_i h
      exact (quiet_credits s h).trans (quiet_bindGarment ..)

theorem quiet_offerCounted (set : LineSet) : Quiet s (s.offerCounted set).1 := by
  unfold State.offerCounted
  generalize s.orphans = l
  generalize 0 = n
  induction l generalizing s n with
  | nil => exact .refl s
  | cons t l ih => exact (quiet_chooseAndBind s t set).trans (ih _ _)

theorem quiet_offer (set : LineSet) : Quiet s (s.offer set) := quiet_offerCounted s set

theorem quiet_stageRule (t : Tag) : Quiet s (s.stageRule t) := by
  unfold State.stageRule
  split
  · exact .refl s
  · split
    · exact quiet_unbindGarment ..
    · dsimp only
      split
      · exact quiet_chooseAndBind ..
      · exact (quiet_chooseAndBind s t .all).trans (quiet_unbindGarment ..)

theorem quiet_readyBin (b : Option Nat) : Quiet s (s.readyBin b) := by
  unfold State.readyBin
  split
  · exact quiet_setBin ..
  · exact .refl s

theorem quiet_completeOrder (k : Nat) : Quiet s (s.completeOrder k) := by
  unfold State.completeOrder
  split
  · exact .refl s
  · exact ((quiet_modifyOrder s k _).trans (quiet_readyBin ..)).trans (quiet_raise ..)

theorem quiet_reexamine (k : Nat) : Quiet s (s.reexamine k) := by
  unfold State.reexamine
  split
  · exact .refl s
  · split
    · split
      · exact quiet_completeOrder ..
      · exact quiet_modifyOrder ..
    · exact .refl s

theorem quiet_chargeSpoil (k n : Nat) : Quiet s (s.chargeSpoil k n) := by
  unfold State.chargeSpoil
  split
  · split
    · split
      · exact quiet_modifyLine ..
      · split
        · exact ((quiet_modifyLine s k n _).trans (quiet_modifyOrder ..)).trans (quiet_raise ..)
        · exact .refl s
    · exact .refl s
  · exact .refl s

theorem quiet_countLine (f : Nat → Nat) (l : Line) : Quiet s (State.countLine f s l) :=
  (quiet_countDesign ..).trans (quiet_countSku ..)

theorem quiet_slots (t : Table Order) (w : s.orders.slots.wf = true → t.wf = true) :
    Quiet s { s with orders.slots := t } :=
  .of_eq rfl rfl rfl rfl rfl fun h => { h with slots := w h.slots }

theorem quiet_freeSlot (k : Nat) : Quiet s (s.freeSlot k) := by
  unfold State.freeSlot
  split
  · exact .refl s
  · exact (((quiet_returnCells s _).trans (Quiet.foldl (fun s l => quiet_countLine s down1 l) _ _)).trans
      (quiet_slots _ _ (wf_erase _ _))).trans (quiet_raise ..)

theorem quiet_drainTest (k : Nat) : Quiet s (s.drainTest k) := by
  unfold State.drainTest
  split
  · exact .refl s
  · split
    · exact quiet_freeSlot ..
    · exact .refl s

theorem quiet_reasonOnLine (r : Reason) (b : Binding) : Quiet s (s.reasonOnLine r b) := by
  unfold State.reasonOnLine
  split
  · exact (quiet_modifyLine ..).trans (quiet_reexamine ..)
  · exact (quiet_chargeSpoil ..).trans (quiet_offer ..)
  · exact (quiet_chargeSpoil ..).trans (quiet_offer ..)
  all_goals first | exact quiet_offer .. | exact .refl s

theorem quiet_endBinding (r : Reason) (b : Option Binding) : Quiet s (s.endBinding r b) := by
  unfold State.endBinding
  split
  · exact .refl s
  · exact ((quiet_leaveLine ..).trans (quiet_reasonOnLine ..)).trans (quiet_drainTest ..)

/-! ## Lanes and retirement -/

theorem quiet_releaseLanes (t : Tag) : Quiet s (s.releaseLanes t) :=
  Quiet.foldl (fun s k => quiet_modifyLane s k _) _ s

theorem quiet_mapLanes (f : Lane → Lane) : Quiet s (s.mapLanes f) :=
  Quiet.foldl (fun s k => quiet_modifyLane s k _) _ s

theorem quiet_serveWait : Quiet s s.serveWait := by
  unfold State.serveWait
  split
  · split
    · exact ((quiet_reserveLane s _ _).trans (quiet_openRecord _ _ _ (.inl rfl))).trans (quiet_send ..)
    · exact .refl s
  · exact .refl s

theorem quiet_raiseReason (r : Reason) : Quiet s (s.raiseReason r) := by
  unfold State.raiseReason
  split
  · exact quiet_raise ..
  · exact .refl s

theorem quiet_exitQueue (q : List Tag) : Quiet s { s with cure.exitQueue := q } :=
  .of_eq rfl rfl rfl rfl rfl fun h => { h with }

theorem quiet_overflow (q : List Tag) : Quiet s { s with bins.overflow := q } :=
  .of_eq rfl rfl rfl rfl rfl fun h => { h with }

theorem quiet_leavePlace (g : Garment) : Quiet s (s.leavePlace g) := by
  unfold State.leavePlace
  split
  · exact quiet_emptyPlaten ..
  · exact .refl s
  · exact quiet_exitQueue ..
  · exact (quiet_overflow s _).trans (quiet_returnCells ..)

theorem quiet_returnHold (r : OpenVerdict) : Quiet s (s.returnHold r) := by
  unfold State.returnHold
  split
  · exact quiet_returnCells ..
  · exact .refl s

theorem quiet_endNaming (t : Tag) (l : Link) : Quiet s (State.endNaming t s l) := by
  unfold State.endNaming
  split
  · exact .refl s
  · split
    · exact ((quiet_endRecord s l).trans (quiet_returnHold ..)).trans (quiet_releaseHold ..)
    · exact .refl s

theorem quiet_forgetExpired (t : Tag) (l : Link) : Quiet s (State.forgetExpired t s l) := by
  refine quiet_modifyStation s l _ ?_
  split
  · split
    · exact ⟨rfl, rfl, rfl, rfl, rfl, .inl rfl⟩
    · exact .refl _
  · exact .refl _

theorem quiet_removeRecord (r : Reason) (e : Nat × Garment) : Quiet s (State.removeRecord r s e) := by
  unfold State.removeRecord
  exact (((((quiet_eraseRecord s e.1).trans (quiet_countGarment ..)).trans (quiet_leavePlace ..)).trans
    ((quiet_releaseLanes ..).trans (quiet_raiseReason ..))).trans
    (Quiet.foldl (fun s l => quiet_endNaming s e.2.tag l) _ _)).trans
    (Quiet.foldl (fun s l => quiet_forgetExpired s e.2.tag l) _ _)

theorem quiet_retire (r : Reason) (t : Tag) : Quiet s (s.retire r t) := by
  unfold State.retire
  split
  · exact .refl s
  · exact ((quiet_removeRecord s r _).trans (quiet_serveWait _)).trans (quiet_endBinding ..)

/-! ## Ends of verdicts -/

theorem quiet_undoVerdict (w : Withdrawal) (l : Link) (r : OpenVerdict) : Quiet s (s.undoVerdict w l r) := by
  unfold State.undoVerdict
  split
  · exact quiet_retire ..
  · exact quiet_spoil ..
  · exact quiet_spoil ..
  · exact quiet_retire ..
  · split
    · exact quiet_send ..
    · exact .refl s
  · exact (quiet_releaseLanes ..).trans (quiet_serveWait _)
  · exact quiet_returnHold ..
  all_goals exact .refl s

theorem quiet_releaseWithdrawn (w : Withdrawal) (p : Option Nat) : Quiet s (s.releaseWithdrawn w p) := by
  unfold State.releaseWithdrawn
  split
  · exact .refl s
  · exact quiet_releaseHold ..

theorem quiet_afterVerdict (t : Tag) : Quiet s (s.afterVerdict t) := by
  unfold State.afterVerdict
  split
  · exact .refl s
  · split
    · exact .refl s
    · split
      · exact .refl s
      · split
        · exact (quiet_stageRule ..).trans (quiet_drainTest ..)
        · exact .refl s

theorem quiet_withdraw (w : Withdrawal) (l : Link) : Quiet s (State.withdraw w s l) := by
  unfold State.withdraw
  split
  · exact .refl s
  · exact (((quiet_endRecord s l).trans (quiet_undoVerdict ..)).trans (quiet_releaseWithdrawn ..)).trans
      (quiet_afterVerdict ..)

theorem quiet_place (t : Tag) (n : Nat) (r : Bool) : Quiet s (s.place t n r) := by
  unfold State.place
  split
  · exact .refl s
  · rename_i h
    exact ((quiet_leavePlace ..).trans (quiet_modifyLane ..)).replace (garments_leavePlace ..) h rfl

theorem quiet_placeOverflow (t : Tag) : Quiet s (s.placeOverflow t) := by
  unfold State.placeOverflow
  split
  · exact .refl s
  · split
    · exact .refl s
    · rename_i h _
      refine Quiet.trans ?_ (quiet_overflow ..)
      exact (quiet_leavePlace s _).replace (garments_leavePlace ..) h rfl

theorem quiet_closeVerdict (v : OpenVerdict) (k : Byte) (n : Nat) (b : Bool) : Quiet s (s.closeVerdict v k n b) := by
  unfold State.closeVerdict
  split
  · unfold State.closeLoad
    split
    · exact quiet_retire ..
    · exact quiet_modifyGarment ..
  · exact quiet_settleDelivery ..
  · unfold State.closePress
    split
    · exact quiet_modifyGarment ..
    · exact .refl s
  · unfold State.closePrint
    split
    · exact quiet_modifyGarment ..
    · split
      · exact quiet_spoil ..
      · exact .refl s
  · unfold State.closePlacement
    split
    · exact quiet_place ..
    · exact .refl s
  · unfold State.closePlacement
    split
    · exact quiet_place ..
    · exact .refl s
  · unfold State.closeReturn
    split
    · exact .refl s
    · exact quiet_retire ..
  · exact quiet_retire ..
  · exact quiet_retire ..
  · exact (quiet_retire ..).trans (quiet_raise ..)
  · exact quiet_retire ..
  · exact quiet_placeOverflow ..
  all_goals exact .refl s

theorem quiet_closeBy (l : Link) (v : OpenVerdict) (k : Byte) (n : Nat) (b : Bool) : Quiet s (s.closeBy l v k n b) :=
  ((((quiet_endRecord s l).trans (quiet_closeVerdict ..)).trans (quiet_releaseHold ..)).trans
    (quiet_afterVerdict ..)).trans (quiet_replyAck ..)

theorem quiet_takeClose (l : Link) (k : Byte) (p : List Byte) : Quiet s (s.takeClose l k p) := by
  unfold State.takeClose
  dsimp only
  split
  · exact quiet_replyRefuse ..
  · split
    · exact quiet_closeBy ..
    · exact quiet_replyRefuse ..

/-! ## Decision lists -/

theorem quiet_learn (p k : Nat) (g : Garment) (n : s.findTag g.tag = none) (w : s.freeWay g.tag = some p) :
    Quiet s (s.learn p k g) := by
  have enter : ∀ (t : State) (b : Option Binding), Quiet t (t.enterLine b) := by
    intro t b
    unfold State.enterLine
    split
    · exact quiet_modifyLine ..
    · exact .refl t
  have seq : ∀ t : State, Quiet t t.countLoad := fun t => .of_eq rfl rfl rfl rfl rfl fun h => { h with }
  exact ((((quiet_putRecord s p g fun ok => .put_free ok n w).trans (quiet_countGarment ..)).trans (enter ..)).trans (seq _)).trans
    (quiet_modifyPlaten _ _ _ id)

theorem quiet_giveLoad (p k : Nat) (g : Garment) (n : s.findTag g.tag = none) (w : s.freeWay g.tag = some p) :
    Quiet s (s.giveLoad p k g) :=
  (quiet_learn s p k g n w).trans (quiet_give _ _ _ (.inl rfl))

theorem quiet_loadList (r : Report) (k : Nat) (t : Tag) : Quiet s (s.loadList r k t) := by
  unfold State.loadList
  split
  · exact quiet_answerPass ..
  · exact quiet_answerPass ..
  · split
    · exact quiet_answerRefuse ..
    · unfold State.loadArrival
      dsimp only
      split
      · exact quiet_answerRefuse ..
      · split
        · exact quiet_answerRefuse ..
        · rename_i n
          have n : s.findTag t = none := Option.not_isSome_iff_eq_none.mp n
          split
          · exact quiet_answerRefuse ..
          · split
            · exact quiet_answerRefuse ..
            · split
              · exact quiet_answerRefuse ..
              · split
                · unfold State.loadTest
                  split
                  · exact quiet_answerRefuse ..
                  · rename_i w
                    exact quiet_giveLoad _ _ _ _ n w
                · unfold State.loadOrder
                  split
                  · exact quiet_answerRefuse ..
                  · rename_i w
                    split
                    · exact quiet_answerRefuse ..
                    · rename_i h
                      exact (quiet_credits s h).trans (quiet_giveLoad _ _ _ _ n w)

theorem quiet_pretreatList (r : Report) (k : Nat) (g : Garment) : Quiet s (s.pretreatList r k g) := by
  unfold State.pretreatList
  split
  · have q := quiet_requestGrant s g.tag g.owed
    split
    · rename_i h
      rw [h] at q
      exact q.trans (quiet_give _ _ _ (.inl rfl))
    · rename_i h
      rw [h] at q
      exact q.trans (quiet_answerPass ..)
  · exact quiet_answerPass ..

theorem quiet_unloadList (r : Report) (k : Nat) (g : Garment) (h : s.isActive .unload = true) :
    Quiet s (s.unloadList r k g) := by
  have ret : Quiet s (s.unloadReturn k g.tag) := quiet_give _ _ _ (.inl rfl)
  unfold State.unloadList
  split
  · exact ret
  · split
    · exact ret
    · split
      · unfold State.unloadPrinted
        split
        · exact (quiet_reserveLane ..).trans (quiet_give _ _ _ (.inl rfl))
        · exact quiet_give _ _ _ (.inr (by simpa [State.isActive] using h))
      · unfold State.unloadUnprinted
        split
        · exact ret
        · exact (quiet_modifyGarment ..).trans (quiet_answerPass ..)

theorem quiet_garmentList (l : Link) (r : Report) (k : Nat) (g : Garment) (h : s.isActive l = true) :
    Quiet s (s.garmentList l r k g) := by
  unfold State.garmentList
  split
  · exact quiet_loadList ..
  · exact quiet_pretreatList ..
  · unfold State.pressList
    dsimp only
    split
    · exact quiet_give _ _ _ (.inl rfl)
    · exact quiet_answerPass ..
  · unfold State.printList
    split
    · exact quiet_give _ _ _ (.inl rfl)
    · exact quiet_answerPass ..
  · unfold State.printList
    split
    · exact quiet_give _ _ _ (.inl rfl)
    · exact quiet_answerPass ..
  · exact quiet_unloadList _ _ _ _ h
  all_goals exact quiet_answerPass ..

theorem quiet_consistent (l : Link) (r : Report) (k : Nat) : Quiet s (s.consistent l r k) := by
  unfold State.consistent
  split
  · rename_i h
    unfold State.decisionList
    split
    · exact quiet_answerPass ..
    · split
      · split
        · exact quiet_loadList ..
        · exact quiet_answerPass ..
      · split
        · exact quiet_answerPass ..
        · exact quiet_garmentList _ _ _ _ _ h.1
  · exact quiet_answerPass ..

theorem quiet_tagCheck (l : Link) (r : Report) (k : Nat) : Quiet s (s.tagCheck l r k) := by
  have lose : Quiet s (s.loseRecorded k) := by
    unfold State.loseRecorded
    split
    · exact quiet_retire ..
    · exact .refl s
  unfold State.tagCheck
  dsimp only
  split
  · split
    · split
      · refine Quiet.trans ?_ (quiet_consistent ..)
        split
        · exact quiet_modifyGarment ..
        · exact .refl s
      · exact lose.trans (quiet_answerRefuse ..)
    · split
      · exact quiet_consistent ..
      · exact quiet_answerRefuse ..
  · split
    · exact lose.trans (quiet_answerPass ..)
    · exact quiet_consistent ..

theorem quiet_assignBin (b k : Nat) : Quiet s (s.assignBin b k) := (quiet_setBin ..).trans (quiet_modifyOrder ..)

theorem quiet_matchList (r : Report) : Quiet s (s.matchList r) := by
  unfold State.matchList
  split
  · exact quiet_answerRefuse ..
  · have key : ∀ g, Quiet s (s.matchGarment r g) := by
      intro g
      unfold State.matchGarment
      split
      · exact quiet_give _ _ _ (.inl rfl)
      · split
        · exact quiet_give _ _ _ (.inl rfl)
        · split
          · unfold State.matchRecure
            split
            · exact (quiet_reserveLane ..).trans (quiet_give _ _ _ (.inl rfl))
            · exact quiet_answerRefuse ..
          · split
            · exact quiet_give _ _ _ (.inl rfl)
            · unfold State.matchBound
              split
              · exact quiet_give _ _ _ (.inl rfl)
              · split
                · exact (quiet_assignBin ..).trans (quiet_give _ _ _ (.inl rfl))
                · unfold State.matchOverflow
                  split
                  · exact quiet_give _ _ _ (.inl rfl)
                  · split
                    · exact (quiet_takeCells ..).trans (quiet_give _ _ _ (.inl rfl))
                    · exact quiet_answerRefuse ..
    split
    · exact key _
    · exact key _
    · exact quiet_answerRefuse ..
    · exact quiet_answerRefuse ..

theorem quiet_handover (b : Nat) : Quiet s (s.handover b) := by
  unfold State.handover
  split
  · exact .refl s
  · exact (quiet_assignBin ..).trans (quiet_raise ..)

theorem quiet_emptyBin (b k : Nat) : Quiet s (s.emptyBin b k) := (quiet_setBin ..).trans (quiet_modifyOrder ..)

theorem quiet_clearBin {s t : State} {b : Nat} (h : s.clearBin b = some t) : Quiet s t := by
  unfold State.clearBin at h
  split at h
  · cases h
    exact ((quiet_emptyBin ..).trans (quiet_freeSlot ..)).trans (quiet_handover ..)
  · split at h
    · cases h
    · cases h
      exact ((quiet_emptyBin ..).trans (quiet_drainTest ..)).trans (quiet_handover ..)
  · cases h

theorem quiet_binCleared (b : Nat) : Quiet s (s.binCleared b) := by
  unfold State.binCleared
  split
  · exact quiet_replyRefuse ..
  · split
    · rename_i h
      exact (quiet_clearBin h).trans (quiet_replyAck ..)
    · exact quiet_replyRefuse ..

/-! ## Events -/

theorem tag_weighGarment (a : Advance) (g : Garment) : (s.weighGarment a g).tag = g.tag := by
  have d : (s.doseGarment a g).tag = g.tag := by
    unfold State.doseGarment
    split <;> rfl
  unfold State.weighGarment
  dsimp only
  split <;> exact d

theorem quiet_doseBelt (a : Advance) : Quiet s (s.doseBelt a) :=
  (quiet_raiseIf ..).trans (quiet_mapRecords _ _ (tag_weighGarment s a))

theorem quiet_exitBelt : Quiet s s.exitBelt :=
  (quiet_exitQueue ..).trans (quiet_mapRecords _ _ fun g => by split <;> rfl)

theorem quiet_spaceLanes : Quiet s s.spaceLanes := (quiet_mapLanes ..).trans (quiet_serveWait _)

/-- One age timer expiry's rise of the ages (R12). -/
theorem quiet_raiseAges : Quiet s s.raiseAges := quiet_mapRecords _ _ fun g => by split <;> rfl

/-- The touch of every record on the ring (R11). -/
theorem quiet_touchRing : Quiet s s.touchRing := quiet_mapRecords _ _ fun g => by split <;> rfl

theorem quiet_markUnverified : Quiet s s.markUnverified := quiet_mapRecords _ _ fun g => by split <;> rfl

theorem quiet_retireAged : Quiet s s.retireAged := by
  unfold State.retireAged
  exact ((Quiet.foldl (fun s e => quiet_removeRecord s .lost e) _ s).trans (quiet_serveWait _)).trans
    (Quiet.foldl (fun s (e : Nat × Garment) => quiet_endBinding s .lost e.2.binding) _ _)

theorem quiet_endWait (l : Link) : Quiet s (s.endWait l) := by
  unfold State.endWait
  split
  · exact .refl s
  · split
    · exact ((((quiet_endRecord s l).trans (quiet_modifyGarment ..)).trans (quiet_send ..)).trans
        (quiet_releaseHold ..)).trans (quiet_afterVerdict ..)
    · exact .refl s

theorem quiet_checkCells (b : State) : Quiet s (s.checkCells b) := quiet_raiseIf ..

end Sys2Proof.Machine
end

