-- ==== Sys2Proof/Laws/Ring.lean ====
section
/-! SUPPORT. Laws/Ring.lean: the ring's safety (`RingSafe`) through the operations that move the drive, make holds or
change the ring state. One lemma an operation; quiet operations keep it because they reach none of it. -/

namespace Sys2Proof.Machine

/-! ## What the safety looks at -/

/-- Two states with the same ring state, cycle, move timer and E-STOP level, the second with no hold unless the first has
one. -/
structure SameDrive (s t : State) : Prop where
  state : t.ring.state = s.ring.state
  cycle : t.ring.cycle = s.ring.cycle
  mt : t.ring.moveTimer = s.ring.moveTimer
  es : t.ring.eStop = s.ring.eStop
  held : t.anyHeld = true → s.anyHeld = true
theorem Quiet.sameDrive {s t : State} (h : Quiet s t) : SameDrive s t := ⟨h.ring_state, h.ring_cycle, h.ring_moveTimer, h.ring_eStop, h.held⟩
theorem SameDrive.refl (s : State) : SameDrive s s := ⟨rfl, rfl, rfl, rfl, id⟩
theorem SameDrive.trans {s t u : State} (h : SameDrive s t) (k : SameDrive t u) : SameDrive s u :=
  ⟨k.state.trans h.state, k.cycle.trans h.cycle, k.mt.trans h.mt, k.es.trans h.es, h.held ∘ k.held⟩
theorem SameDrive.of_ring {s t : State} (h : t.ring = s.ring) : SameDrive s t := by
  refine ⟨by rw [h], by rw [h], by rw [h], by rw [h], ?_⟩
  unfold State.anyHeld; rw [h]; exact id
theorem SameDrive.safe {s t : State} (h : SameDrive s t) (r : RingSafe s) : RingSafe t where
  eStop := by rw [h.es, h.state]; exact r.eStop
  moving := by
    rw [h.cycle, h.mt]; intro m
    refine ⟨?_, (r.moving m).2⟩
    cases e : t.anyHeld
    · rfl
    · exact absurd (h.held e) (by rw [(r.moving m).1]; decide)
  idle := by rw [h.cycle, h.mt]; exact r.idle
  still := by
    rw [h.cycle, h.state]; intro m
    refine ⟨(r.still m).1, ?_⟩
    cases e : t.anyHeld
    · rfl
    · exact absurd (h.held e) (by rw [(r.still m).2]; decide)
theorem RingSafe.test {s : State} (r : RingSafe s) : RingSafe s.ringTest := by
  unfold State.ringTest
  split
  · rename_i h
    have hs : ∀ (x : Ring), State.anyHeld { s with ring := { x with platens := s.ring.platens } } = s.anyHeld := fun _ => rfl
    split
    · rename_i e
      refine ⟨?_, ?_, r.idle, fun _ => ⟨h.1, h.2⟩⟩
      · intro x; have := r.eStop x; rw [e] at this; cases this
      · intro x; exact r.moving x
    · rename_i e
      refine ⟨r.eStop, fun _ => ⟨h.2, rfl⟩, ?_, ?_⟩
      · intro x; cases x
      · intro x; simp only [e] at x; rcases x with x | x <;> cases x
    · rename_i e
      refine ⟨r.eStop, fun _ => ⟨h.2, rfl⟩, ?_, ?_⟩
      · intro x; cases x
      · intro x; simp only [e] at x; rcases x with x | x <;> cases x
    · exact r
    · exact r
  · exact r
theorem unhold_none (t : Table Platen) : (Table.mapStore {} t Platen.unhold).any (fun e => e.2.held) = false := by
  unfold Table.mapStore Table.mapVal
  simp only [List.any_eq_false]
  intro e he
  have := List.mem_of_mem_filter he
  simp only [List.mem_map] at this
  obtain ⟨x, _, rfl⟩ := this
  simp [Platen.unhold]
theorem RingSafe.halt {s : State} (r : RingSafe s) : RingSafe s.halt := by
  unfold State.halt
  split
  · exact r
  · have q : SameDrive s.stopDrive (Link.ring.foldl (State.withdraw .halt) s.stopDrive) :=
      (Quiet.foldl (fun s l => quiet_withdraw s .halt l) Link.ring s.stopDrive).sameDrive
    have hc := q.cycle
    have hm := q.mt
    generalize Link.ring.foldl (State.withdraw .halt) s.stopDrive = u at hc hm
    refine ⟨fun _ => rfl, ?_, fun _ => ?_, fun _ => ⟨?_, ?_⟩⟩
    · intro x
      have : u.ring.cycle = .moving := x
      rw [hc] at this; cases this
    · show u.ring.moveTimer = none
      rw [hm]; rfl
    · show u.ring.cycle = .idle
      rw [hc]; rfl
    · exact unhold_none _
theorem RingSafe.settle {s b : State} (r : RingSafe s) : RingSafe (s.settleRing b) := by
  unfold State.settleRing; split
  · exact r
  · exact r.test
theorem RingSafe.finish {s b : State} (r : RingSafe s) : RingSafe (s.finish b) :=
  (quiet_checkCells _ _).sameDrive.safe r.settle
theorem sameDrive_modifyStation (s : State) (l f) : SameDrive s (s.modifyStation l f) := .of_ring rfl
theorem RingSafe.follow {s : State} (r : RingSafe s) (l) : RingSafe (s.followMode l) := by
  unfold State.followMode
  dsimp only
  have a : ∀ c : Prop, ∀ _ : Decidable c, RingSafe (if c then State.withdraw .modeFall s l else s) := by
    intro c _; split
    · exact (quiet_withdraw s _ l).sameDrive.safe r
    · exact r
  generalize hx : (if (s.station l).mode ≠ .active ∧ (s.verdictOf l).any (fun r => r.cls == .wait) then State.withdraw .modeFall s l else s) = u
  have ru : RingSafe u := hx ▸ a _ _
  have b : ∀ c : Prop, ∀ _ : Decidable c, RingSafe (if c then u.releaseHold (u.facing l) else u) := by
    intro c _; split
    · exact (quiet_releaseHold ..).sameDrive.safe ru
    · exact ru
  generalize hy : (if (u.station l).working = false ∧ (u.verdictOf l) = none then u.releaseHold (u.facing l) else u) = v
  have rv : RingSafe v := hy ▸ b _ _
  split
  · exact rv.halt
  · exact rv
theorem RingSafe.change {s : State} (r : RingSafe s) (l m) : RingSafe (s.changeMode l m) := by
  unfold State.changeMode
  refine RingSafe.follow ?_ l
  exact (SameDrive.of_ring (s := s) (t := ((s.setMode l m).send l (Message.mode m)).raise Cause.stationMode) rfl).safe r
theorem RingSafe.down {s : State} (r : RingSafe s) (l) : RingSafe (s.linkDown l) := by
  unfold State.linkDown
  refine RingSafe.change ?_ _ _
  refine (sameDrive_modifyStation ..).safe ((quiet_withdraw _ _ l).sameDrive.safe ((sameDrive_modifyStation ..).safe r))
theorem sameDrive_linkUp (s : State) (l n) : SameDrive s (s.linkUp l n) := .of_ring rfl
theorem RingSafe.restart {s : State} (r : RingSafe s) (l n) : RingSafe (s.restart l n) := by
  unfold State.restart
  refine (sameDrive_linkUp ..).safe (RingSafe.follow ?_ _)
  exact (sameDrive_modifyStation ..).safe ((quiet_withdraw _ _ l).sameDrive.safe ((sameDrive_modifyStation ..).safe r))
theorem RingSafe.workTimeout {s : State} (r : RingSafe s) (l) : RingSafe (s.workTimeout l) := by
  unfold State.workTimeout
  split
  · exact r
  · split
    · have r1 : RingSafe (State.modifyStation (State.withdraw .timeout s l) l fun x => { x with expired := some ⟨(‹OpenVerdict› : OpenVerdict).platen, (‹OpenVerdict› : OpenVerdict).tag⟩ }) :=
        (sameDrive_modifyStation ..).safe ((quiet_withdraw ..).sameDrive.safe r)
      dsimp only
      split
      · exact r1.change _ _
      · exact r1
    · exact r
/-- holding when idle and not still -/
structure CanHold (s : State) : Prop where
  safe : RingSafe s
  idle : s.ring.cycle = .idle
  go : s.ring.state ≠ .stopped ∧ s.ring.state ≠ .halted
theorem canHold_setHeld {s : State} (h : CanHold s) (k b) : CanHold (s.setHeld k b) := by
  refine ⟨⟨h.safe.eStop, ?_, h.safe.idle, ?_⟩, h.idle, h.go⟩
  · intro x; have : s.ring.cycle = .moving := x; rw [h.idle] at this; cases this
  · intro x; rcases x with x | x
    · exact absurd x h.go.1
    · exact absurd x h.go.2
theorem canHold_holdFacing {s : State} (h : CanHold s) (l) : CanHold (s.holdFacing l) := by
  unfold State.holdFacing; split
  · exact canHold_setHeld h _ _
  · exact h
theorem canHold_working {s : State} (h : CanHold s) (l) : CanHold (s.holdIfWorking l) := by
  unfold State.holdIfWorking; split
  · exact canHold_holdFacing h _
  · exact h
theorem canHold_foldl {s : State} (h : CanHold s) (ls : List Link) : CanHold (ls.foldl State.holdIfWorking s) := by
  induction ls generalizing s with
  | nil => exact h
  | cons l ls ih => exact ih (canHold_working h l)
theorem SameDrive.canHold {s t : State} (q : SameDrive s t) (h : CanHold s) : CanHold t := ⟨q.safe h.safe, q.cycle ▸ h.idle, q.state ▸ h.go⟩
theorem canHold_endLap {s : State} (h : CanHold s) (v : s.ring.state = .verifying) : CanHold s.endLap := by
  unfold State.endLap
  refine canHold_foldl (s := { s with ring := { s.ring with state := .running } })
    ⟨⟨?_, h.safe.moving, h.safe.idle, ?_⟩, h.idle, ?_⟩ _
  · intro x; have := h.safe.eStop x; rw [v] at this; cases this
  · intro x; rcases x with x | x <;> cases x
  · exact ⟨nofun, nofun⟩
theorem canHold_countLap {s : State} (h : CanHold s) (v : s.ring.state = .verifying) : CanHold s.countLap := by
  have c : CanHold { s with ring := { s.ring with lapCount := s.ring.lapCount + 1 } } :=
    ⟨⟨h.safe.eStop, h.safe.moving, h.safe.idle, h.safe.still⟩, h.idle, h.go⟩
  unfold State.countLap
  dsimp only
  split
  · exact canHold_endLap c v
  · exact c
theorem RingSafe.answerChecked {s : State} (r : RingSafe s) (l rp k) : RingSafe (s.answerChecked l rp k) := by
  unfold State.answerChecked
  dsimp only
  have q1 : SameDrive s (s.tagCheck l rp k) := (quiet_tagCheck ..).sameDrive
  generalize s.tagCheck l rp k = u at q1
  have q2 : SameDrive s (if (u.verdictOf l).isNone then u.setHeld k false else u) := by
    split
    · exact q1.trans (quiet_release ..).sameDrive
    · exact q1
  generalize (if (u.verdictOf l).isNone then u.setHeld k false else u) = v at q2
  split
  · rename_i h
    simp only [Bool.and_eq_true, beq_iff_eq] at h
    obtain ⟨⟨_, hv⟩, hh⟩ := h
    have idle : s.ring.cycle = .idle := by
      cases hc : s.ring.cycle
      · rfl
      · have := (r.moving hc).1; rw [anyHeld_of_held hh] at this; cases this
    have c : CanHold s := ⟨r, idle, by rw [hv]; decide⟩
    exact (canHold_countLap (q2.canHold c) (q2.state.trans hv)).safe
  · exact q2.safe r
theorem canHold_resync {s : State} (h : CanHold s) (k) : CanHold (s.resync k) := by
  have mv : ∀ old, CanHold (s.moveHold old k) := by
    intro old; unfold State.moveHold; split
    · exact canHold_setHeld (canHold_setHeld h _ _) _ _
    · exact h
  have fin : ∀ t : State, CanHold t → CanHold { t with ring := { t.ring with offset := facingPlaten t.ring.positions.load k, lapSynced := true } } :=
    fun t c => ⟨⟨c.safe.eStop, c.safe.moving, c.safe.idle, c.safe.still⟩, c.idle, c.go⟩
  unfold State.resync
  dsimp only
  split
  · split
    · exact fin _ h
    · exact fin _ (mv _)
  · exact fin _ h
theorem RingSafe.ringReport {s : State} (r : RingSafe s) (l rp) : RingSafe (s.ringReport l rp) := by
  unfold State.ringReport
  split
  · exact (quiet_answerRefuse ..).sameDrive.safe r
  · rename_i nm
    split
    · exact (quiet_answerRefuse ..).sameDrive.safe r
    · split
      · exact (quiet_answerPass ..).sameDrive.safe r
      · split
        · unfold State.platenCheck
          split
          · rename_i hv
            refine RingSafe.answerChecked ?_ _ _ _
            refine (canHold_resync ⟨r, ?_, by rw [hv.1]; decide⟩ _).safe
            cases hc : s.ring.cycle
            · rfl
            · exact absurd hc nm
          · split
            · exact r.answerChecked _ _ _
            · exact (quiet_answerRefuse ..).sameDrive.safe r.halt
        · exact (quiet_answerRefuse ..).sameDrive.safe r
theorem RingSafe.evaluate {s : State} (r : RingSafe s) (l rp) : RingSafe (s.evaluate l rp) := by
  unfold State.evaluate
  split
  · split
    · exact r.ringReport _ _
    · exact (quiet_answerPass ..).sameDrive.safe r
  · split
    · exact (quiet_matchList ..).sameDrive.safe r
    · exact (quiet_answerPass ..).sameDrive.safe r
theorem RingSafe.takeReport {s : State} (r : RingSafe s) (l rp) : RingSafe (s.takeReport l rp) := by
  unfold State.takeReport
  split
  · exact r.evaluate _ _
  · split
    · exact (quiet_answerRefuse ..).sameDrive.safe r
    · split
      · exact (quiet_restate ..).sameDrive.safe r
      · unfold State.supersede
        dsimp only
        have := RingSafe.evaluate ((quiet_withdraw s .supersession l).sameDrive.safe r) l rp
        split
        · exact (quiet_releaseHold ..).sameDrive.safe this
        · exact this
theorem RingSafe.receive {s : State} (r : RingSafe s) (l k p) (f : State → State) (hf : ∀ s, RingSafe s → RingSafe (f s)) : RingSafe (s.receive l k p f) := by
  have rr : ∀ (t : State) c, RingSafe t → RingSafe (t.refuseMessage l c k p) := fun t c h => (quiet_replyRefuse ..).sameDrive.safe h
  have rh : RingSafe (s.heard l) := (sameDrive_modifyStation ..).safe r
  unfold State.receive
  split
  · split
    · refine RingSafe.finish (hf _ ?_)
      unfold State.touchBy; split
      · exact (quiet_touch ..).sameDrive.safe rh
      · exact rh
    · exact rr _ _ rh
  · exact rr _ _ r

/-! ## The drive -/

theorem CanHold.test {s : State} (h : CanHold s) : RingSafe s.ringTest := h.safe.test

theorem RingSafe.stopDrive {s : State} (r : RingSafe s) : RingSafe s.stopDrive where
  eStop := r.eStop
  moving := by intro x; cases x
  idle := fun _ => rfl
  still := fun x => ⟨rfl, (r.still x).2⟩

theorem RingSafe.moveExpiry {s : State} (r : RingSafe s) : RingSafe s.moveExpiry := by
  unfold State.moveExpiry
  split
  · exact r.halt
  · exact r

/-- `holdAfterIndex` from an idle cycle with no hold. -/
theorem RingSafe.holdAfterIndex {s : State} (r : RingSafe s) (i : s.ring.cycle = .idle) (n : s.anyHeld = false) :
    RingSafe s.holdAfterIndex := by
  unfold State.holdAfterIndex
  split
  · rename_i e
    exact (canHold_foldl ⟨r, i, by rw [e]; decide⟩ _).safe
  · rename_i e
    exact (canHold_holdFacing ⟨r, i, by rw [e]; decide⟩ _).safe
  · rename_i e
    refine ⟨?_, r.moving, r.idle, fun _ => ⟨i, n⟩⟩
    intro x
    have := r.eStop x
    rw [e] at this
    cases this
  · exact r
  · exact r

theorem RingSafe.completeIndex {s : State} (r : RingSafe s) (m : s.ring.cycle = .moving) :
    RingSafe s.completeIndex := by
  unfold State.completeIndex
  dsimp only
  refine RingSafe.test (RingSafe.holdAfterIndex ?_ rfl (r.moving m).1)
  exact (quiet_touchRing _).sameDrive.safe
    ⟨r.stopDrive.eStop, r.stopDrive.moving, r.stopDrive.idle, r.stopDrive.still⟩

theorem RingSafe.indexDone {s : State} (r : RingSafe s) : RingSafe s.indexDone := by
  unfold State.indexDone
  split
  · exact r.completeIndex ‹_›
  · split
    · exact r
    · exact RingSafe.halt ((quiet_touchRing _).sameDrive.safe r)

/-- A halt from any state in which the ring is not yet HALTED. -/
theorem RingSafe.halt_of_not {s : State} (r : s.ring.state = .halted → RingSafe s) : RingSafe s.halt := by
  by_cases h : s.ring.state = .halted
  · exact (r h).halt
  · unfold State.halt
    rw [if_neg h]
    have q : SameDrive s.stopDrive (Link.ring.foldl (State.withdraw .halt) s.stopDrive) :=
      (Quiet.foldl (fun s l => quiet_withdraw s .halt l) Link.ring s.stopDrive).sameDrive
    have hc := q.cycle
    have hm := q.mt
    generalize Link.ring.foldl (State.withdraw .halt) s.stopDrive = u at hc hm
    refine ⟨fun _ => rfl, ?_, fun _ => ?_, fun _ => ⟨?_, ?_⟩⟩
    · intro x
      have : u.ring.cycle = .moving := x
      rw [hc] at this; cases this
    · show u.ring.moveTimer = none
      rw [hm]; rfl
    · show u.ring.cycle = .idle
      rw [hc]; rfl
    · exact unhold_none _

theorem RingSafe.assertEStop {s : State} (r : RingSafe s) : RingSafe s.assertEStop := by
  unfold State.assertEStop
  split
  · exact r
  · refine RingSafe.halt_of_not fun h => ⟨fun _ => h, r.moving, r.idle, r.still⟩

theorem RingSafe.deassert {s : State} (r : RingSafe s) : RingSafe (s.setEStop false) :=
  ⟨nofun, r.moving, r.idle, r.still⟩

theorem RingSafe.resetPart (s : State) : RingSafe s.resetPart := by
  unfold State.resetPart
  dsimp only
  split
  · exact RingSafe.halt_of_not fun h => by cases h
  · exact ⟨nofun, nofun, fun _ => rfl, fun _ => ⟨rfl, rfl⟩⟩

/-! ## LINE RESET -/

theorem cleared_none (t : Table Platen) :
    (Table.mapStore {} t Platen.cleared).any (fun e => e.2.held) = false := by
  unfold Table.mapStore Table.mapVal
  simp only [List.any_eq_false]
  intro e he
  have := List.mem_of_mem_filter he
  simp only [List.mem_map] at this
  obtain ⟨x, _, rfl⟩ := this
  unfold Platen.cleared
  split <;> simp

theorem RingSafe.clearRing (s : State) : RingSafe s.clearRing := by
  unfold State.clearRing
  refine ⟨fun h => ?_, fun h => ?_, fun _ => rfl, fun _ => ⟨rfl, cleared_none _⟩⟩
  · have h : s.ring.eStop = true := h
    show (if s.ring.eStop then RingState.halted else .stopped) = .halted
    rw [h]
    rfl
  · cases h

theorem RingSafe.lowerActive {s : State} (r : RingSafe s) (l : Link) : RingSafe (State.lowerActive s l) := by
  unfold State.lowerActive
  split
  · exact r.change _ _
  · exact r

theorem RingSafe.foldl {α : Type} {f : State → α → State} (h : ∀ s a, RingSafe s → RingSafe (f s a)) (l : List α)
    {s : State} (r : RingSafe s) : RingSafe (l.foldl f s) := by
  induction l generalizing s with
  | nil => exact r
  | cons a l ih => exact ih (h s a r)

theorem RingSafe.clearLinks {s : State} (r : RingSafe s) : RingSafe s.clearLinks := by
  unfold State.clearLinks
  refine RingSafe.foldl (fun s l r => r.lowerActive l) _ (RingSafe.foldl (fun s l r => ?_) _
    (RingSafe.foldl (fun s l r => (sameDrive_modifyStation ..).safe r) _ r))
  unfold State.noticeReset
  split
  · exact (quiet_send ..).sameDrive.safe r
  · exact r

theorem sameDrive_clearLists (s : State) : SameDrive s s.clearLists := by
  have q := (quiet_mapLanes s fun x => { x with reservation := none }).sameDrive
  unfold State.clearLists
  generalize s.mapLanes (fun x => { x with reservation := none }) = u at q
  exact q.trans (.of_ring rfl)

theorem sameDrive_refillMeter (s : State) : SameDrive s s.refillMeter := .of_ring rfl

theorem RingSafe.clearLine (s : State) : RingSafe s.clearLine := by
  unfold State.clearLine
  exact (sameDrive_refillMeter _).safe
    ((sameDrive_clearLists _).safe (RingSafe.clearRing _)).clearLinks

theorem RingSafe.lineReset (s : State) : RingSafe s.lineReset := by
  unfold State.lineReset State.freeDrained
  refine RingSafe.foldl (fun s k r => (quiet_freeSlot s k).sameDrive.safe r) _ (RingSafe.clearLine s)

/-! ## Whole messages and timers -/

theorem RingSafe.receiveHello {s : State} (r : RingSafe s) (l : Link) (p : List Byte) :
    RingSafe (s.receiveHello l p) := by
  unfold State.receiveHello
  split
  · split
    · split
      · exact (r.restart l _).finish
      · exact ((quiet_replyRefuse ..).sameDrive.safe (r.down l)).finish
    · exact (quiet_replyRefuse ..).sameDrive.safe ((sameDrive_modifyStation ..).safe r)
  · split
    · exact ((sameDrive_linkUp ..).safe r).finish
    · exact (quiet_replyRefuse ..).sameDrive.safe r

theorem sameDrive_moveBelt (s : State) (d : Nat) : SameDrive s (s.moveBelt d) := .of_ring rfl

theorem sameDrive_advance (s : State) (a : Advance) : SameDrive s (s.advance a) :=
  (((quiet_doseBelt s a).sameDrive.trans (sameDrive_moveBelt _ a.d)).trans (quiet_exitBelt _).sameDrive).trans
    (quiet_spaceLanes _).sameDrive

theorem RingSafe.ageExpiry {s : State} (r : RingSafe s) : RingSafe s.ageExpiry := by
  have q := ((quiet_raiseAges s).trans (quiet_retireAged _)).sameDrive
  unfold State.ageExpiry
  dsimp only
  generalize s.raiseAges.retireAged = u at q
  refine SameDrive.safe (s := u) (.of_ring ?_) (q.safe r)
  rfl

end Sys2Proof.Machine
end

