-- ==== Sys2Proof/Laws/Calm.lean ====
section
/-! SUPPORT. Laws/Calm.lean: the operations that are not quiet keep the buckets and the scheduler within their ranges, the
unused cause bits 0, the tables canonical and one record a tag all the same. One lemma an operation, composed by transitivity. -/

namespace Sys2Proof.Machine

/-- The second state keeps what the first has of five invariants, clears no cause and takes back no message. -/
structure Calm (s t : State) : Prop where
  grow : CausesGrow s.port.causes t.port.causes
  sent : s.sent <+: t.sent
  meter : s.meter.ok → t.meter.ok
  causes : CausesSafe s → CausesSafe t
  tables : TablesOk s → TablesOk t
  tags : TagsSafe s → TagsSafe t
  sched : s.sched.Safe → t.sched.Safe

theorem Calm.refl (s : State) : Calm s s := ⟨.refl _, List.prefix_rfl, id, id, id, id, id⟩

theorem Calm.trans {s t u : State} (h : Calm s t) (k : Calm t u) : Calm s u :=
  ⟨h.grow.trans k.grow, h.sent.trans k.sent, k.meter ∘ h.meter, k.causes ∘ h.causes, k.tables ∘ h.tables,
    k.tags ∘ h.tags, k.sched ∘ h.sched⟩

theorem Calm.foldl {α : Type} {f : State → α → State} (h : ∀ s a, Calm s (f s a)) (l : List α) (s : State) :
    Calm s (l.foldl f s) := by
  induction l generalizing s with
  | nil => exact .refl s
  | cons a l ih => exact (h s a).trans (ih _)

theorem Quiet.calm {s t : State} (h : Quiet s t) : Calm s t where
  grow := h.causes
  sent := h.sent
  meter := h.meter.ok
  causes := fun c => ⟨h.causes.bits c.1, by rw [h.port_mask]; exact c.2⟩
  tables := h.tables
  tags := h.tags
  sched := h.sched

/-- An update that reaches neither meter nor causes nor mask. -/
theorem Calm.of_eq {s t : State} (m : t.meter = s.meter) (c : t.port.causes = s.port.causes)
    (k : t.port.mask = s.port.mask) (tb : TablesOk s → TablesOk t)
    (sn : s.sent <+: t.sent := by exact List.prefix_rfl) (tg : TagsSafe s → TagsSafe t := by exact id)
    (sc : s.sched.Safe → t.sched.Safe := by exact id) : Calm s t where
  grow := c ▸ .refl _
  sent := sn
  meter := by rw [m]; exact id
  causes := by
    unfold CausesSafe
    rw [c, k]
    exact id
  tables := tb
  tags := tg
  sched := sc

variable (s : State)

/-! ## Holds, the index test, halts -/

theorem calm_modifyPlaten (k : Nat) (f : Platen → Platen) : Calm s (s.modifyPlaten k f) :=
  .of_eq rfl rfl rfl fun h => { h with platens := wfDefault_store _ _ _ _ h.platens }

theorem calm_holdFacing (l : Link) : Calm s (s.holdFacing l) := by
  unfold State.holdFacing
  split
  · exact calm_modifyPlaten ..
  · exact .refl _

theorem calm_holdIfWorking (l : Link) : Calm s (s.holdIfWorking l) := by
  unfold State.holdIfWorking
  split
  · exact calm_holdFacing ..
  · exact .refl _

theorem calm_ringTest : Calm s s.ringTest := by
  unfold State.ringTest
  split
  · split <;> exact .of_eq rfl rfl rfl fun h => { h with }
  · exact .refl _

theorem calm_settleRing (b : State) : Calm s (s.settleRing b) := by
  unfold State.settleRing
  split
  · exact .refl _
  · exact calm_ringTest _

theorem calm_finish (b : State) : Calm s (s.finish b) := (calm_settleRing ..).trans (quiet_checkCells ..).calm

theorem calm_releaseAllHolds : Calm s s.releaseAllHolds :=
  .of_eq rfl rfl rfl fun h => { h with platens := wfDefault_mapStore _ _ _ h.platens }

theorem calm_stopDrive : Calm s s.stopDrive := .of_eq rfl rfl rfl fun h => { h with }

theorem calm_clearLap : Calm s s.clearLap := .of_eq rfl rfl rfl fun h => { h with }

theorem calm_setRingState (x : RingState) : Calm s { s with ring.state := x } := .of_eq rfl rfl rfl fun h => { h with }

theorem calm_halt : Calm s s.halt := by
  unfold State.halt
  split
  · exact .refl _
  · have q : Calm s (Link.ring.foldl (State.withdraw .halt) s.stopDrive) :=
      (calm_stopDrive s).trans (Calm.foldl (fun s l => (quiet_withdraw s .halt l).calm) _ _)
    generalize Link.ring.foldl (State.withdraw .halt) s.stopDrive = u at q
    have r := ((q.trans (quiet_markUnverified u).calm).trans (calm_releaseAllHolds _)).trans (calm_clearLap _)
    dsimp only
    generalize u.markUnverified.releaseAllHolds.clearLap = v at r
    exact r.trans ((calm_setRingState v .halted).trans (quiet_raise _ .ringHalted).calm)

/-! ## Modes and links -/

theorem calm_modifyStation (l : Link) (f : Station → Station) : Calm s (s.modifyStation l f) :=
  .of_eq rfl rfl rfl fun h => { h with }

theorem calm_ite {c : Prop} [Decidable c] {s t u : State} (h : Calm s t) (k : Calm s u) :
    Calm s (if c then t else u) := by
  split
  · exact h
  · exact k

theorem calm_followMode (l : Link) : Calm s (s.followMode l) := by
  unfold State.followMode
  have a := calm_ite (c := (s.station l).mode ≠ .active ∧ (s.verdictOf l).any (fun r => r.cls == .wait))
    (quiet_withdraw s .modeFall l).calm (.refl s)
  generalize (if (s.station l).mode ≠ .active ∧ (s.verdictOf l).any (fun r => r.cls == .wait) then
    State.withdraw .modeFall s l else s) = u at a
  have b := calm_ite (c := (u.station l).working = false ∧ (u.verdictOf l) = none)
    (quiet_releaseHold u (u.facing l)).calm (.refl u)
  dsimp only
  generalize (if (u.station l).working = false ∧ (u.verdictOf l) = none then u.releaseHold (u.facing l) else u) = v at b
  exact a.trans (b.trans (calm_ite (calm_halt v) (.refl v)))

theorem calm_changeMode (l : Link) (m : StationMode) : Calm s (s.changeMode l m) :=
  (((calm_modifyStation s l _).trans (quiet_send _ l (.mode m)).calm).trans (quiet_raise _ _).calm).trans
    (calm_followMode _ l)

theorem calm_linkDown (l : Link) : Calm s (s.linkDown l) :=
  (((calm_modifyStation s l _).trans (quiet_withdraw _ .linkLoss l).calm).trans (calm_modifyStation _ l _)).trans
    (calm_changeMode _ l _)

theorem calm_linkUp (l : Link) (n : Nat) : Calm s (s.linkUp l n) :=
  ((calm_modifyStation s l _).trans (quiet_raise _ _).calm).trans (quiet_send _ l _).calm

theorem calm_restart (l : Link) (n : Nat) : Calm s (s.restart l n) :=
  ((((calm_modifyStation s l _).trans (quiet_withdraw _ .linkLoss l).calm).trans (calm_modifyStation _ l _)).trans
    (calm_followMode _ l)).trans (calm_linkUp _ l n)

theorem calm_workTimeout (l : Link) : Calm s (s.workTimeout l) := by
  unfold State.workTimeout
  split
  · exact .refl _
  · split
    · have q := (quiet_withdraw s .timeout l).calm
      generalize State.withdraw .timeout s l = u at q
      exact (q.trans (calm_modifyStation u l _)).trans (calm_ite (calm_changeMode _ l _) (.refl _))
    · exact .refl _

/-! ## Reports -/

theorem calm_endLap : Calm s s.endLap := by
  unfold State.endLap
  refine Calm.trans ?_ (Calm.foldl calm_holdIfWorking _ _)
  exact calm_setRingState s .running

theorem calm_countLap : Calm s s.countLap := by
  have c : Calm s { s with ring := { s.ring with lapCount := s.ring.lapCount + 1 } } :=
    .of_eq rfl rfl rfl fun h => { h with }
  unfold State.countLap
  exact c.trans (calm_ite (calm_endLap _) (.refl _))

theorem calm_answerChecked (l : Link) (r : Report) (k : Nat) : Calm s (s.answerChecked l r k) := by
  unfold State.answerChecked
  have q := (quiet_tagCheck s l r k).calm
  dsimp only
  generalize s.tagCheck l r k = u at q
  have b := calm_ite (c := (u.verdictOf l).isNone = true) (quiet_release u k).calm (.refl u)
  generalize (if (u.verdictOf l).isNone = true then u.setHeld k false else u) = v at b
  exact q.trans (b.trans (calm_ite (calm_countLap v) (.refl v)))

theorem calm_moveHold (a k : Nat) : Calm s (s.moveHold a k) := by
  unfold State.moveHold
  split
  · exact (calm_modifyPlaten ..).trans (calm_modifyPlaten ..)
  · exact .refl _

theorem calm_resync (k : Nat) : Calm s (s.resync k) := by
  have fin : ∀ t : State, Calm t
      { t with ring := { t.ring with offset := facingPlaten t.ring.positions.load k, lapSynced := true } } :=
    fun t => .of_eq rfl rfl rfl fun h => { h with }
  unfold State.resync
  dsimp only
  split
  · exact (calm_ite (.refl s) (calm_moveHold s _ k)).trans (fin _)
  · exact fin _

theorem calm_platenCheck (l : Link) (r : Report) (k : Nat) : Calm s (s.platenCheck l r k) := by
  unfold State.platenCheck
  split
  · exact (calm_resync s k).trans (calm_answerChecked ..)
  · split
    · exact calm_answerChecked ..
    · exact (calm_halt s).trans (quiet_answerRefuse ..).calm

theorem calm_ringReport (l : Link) (r : Report) : Calm s (s.ringReport l r) := by
  unfold State.ringReport
  split
  · exact (quiet_answerRefuse ..).calm
  · split
    · exact (quiet_answerRefuse ..).calm
    · split
      · exact (quiet_answerPass ..).calm
      · split
        · exact calm_platenCheck ..
        · exact (quiet_answerRefuse ..).calm

theorem calm_evaluate (l : Link) (r : Report) : Calm s (s.evaluate l r) := by
  unfold State.evaluate
  split
  · exact calm_ite (calm_ringReport ..) (quiet_answerPass ..).calm
  · exact calm_ite (quiet_matchList ..).calm (quiet_answerPass ..).calm

theorem calm_supersede (l : Link) (r : Report) (v : OpenVerdict) : Calm s (s.supersede l r v) := by
  unfold State.supersede
  exact ((quiet_withdraw s .supersession l).calm.trans (calm_evaluate _ l r)).trans
    (calm_ite (quiet_releaseHold ..).calm (.refl _))

theorem calm_takeReport (l : Link) (r : Report) : Calm s (s.takeReport l r) := by
  unfold State.takeReport
  split
  · exact calm_evaluate ..
  · exact calm_ite (quiet_answerRefuse ..).calm (calm_ite (quiet_restate ..).calm (calm_supersede ..))

theorem calm_moveBelt (d : Nat) : Calm s (s.moveBelt d) := .of_eq rfl rfl rfl fun h => { h with }

theorem calm_advance (a : Advance) : Calm s (s.advance a) :=
  (((quiet_doseBelt s a).calm.trans (calm_moveBelt _ a.d)).trans (quiet_exitBelt _).calm).trans
    (quiet_spaceLanes _).calm

theorem calm_touchBy (k : Byte) (p : List Byte) : Calm s (s.touchBy k p) := by
  unfold State.touchBy
  exact calm_ite (quiet_touch ..).calm (.refl _)

theorem calm_refuseMessage (l : Link) (c : RefusalCode) (k : Byte) (p : List Byte) :
    Calm s (s.refuseMessage l c k p) := (quiet_replyRefuse ..).calm

theorem calm_receive (l : Link) (k : Byte) (p : List Byte) {f : State → State} (hf : ∀ s, Calm s (f s)) :
    Calm s (s.receive l k p f) := by
  unfold State.receive
  have h := calm_modifyStation s l fun x => { x with silenceTimer := some silencePeriod }
  refine calm_ite (calm_ite ?_ (h.trans (calm_refuseMessage ..))) (calm_refuseMessage ..)
  exact ((h.trans (calm_touchBy _ k p)).trans (hf _)).trans (calm_finish ..)

theorem calm_receiveHello (l : Link) (p : List Byte) : Calm s (s.receiveHello l p) := by
  unfold State.receiveHello
  have h := calm_modifyStation s l fun x => { x with silenceTimer := some silencePeriod }
  refine calm_ite (calm_ite (calm_ite ?_ ?_) ?_) (calm_ite ?_ ?_)
  · exact (calm_restart ..).trans (calm_finish ..)
  · exact ((calm_linkDown s l).trans (calm_refuseMessage ..)).trans (calm_finish ..)
  · exact h.trans (calm_refuseMessage ..)
  · exact (calm_linkUp ..).trans (calm_finish ..)
  · exact calm_refuseMessage ..

/-! ## Timers, drive, resets -/

theorem calm_ageExpiry : Calm s s.ageExpiry := by
  have q := (quiet_raiseAges s).calm.trans (quiet_retireAged _).calm
  unfold State.ageExpiry
  dsimp only
  generalize s.raiseAges.retireAged = u at q
  exact q.trans (.of_eq rfl rfl rfl fun h => { h with })

theorem calm_holdAfterIndex : Calm s s.holdAfterIndex := by
  unfold State.holdAfterIndex
  split
  · exact Calm.foldl calm_holdIfWorking _ _
  · exact calm_holdFacing ..
  · exact .of_eq rfl rfl rfl fun h => { h with }
  · exact .refl _
  · exact .refl _

theorem calm_completeIndex : Calm s s.completeIndex := by
  unfold State.completeIndex
  have q : Calm s { s.stopDrive with ring.offset := (s.ring.offset + 1) % 24 } := .of_eq rfl rfl rfl fun h => { h with }
  dsimp only
  exact ((q.trans (quiet_touchRing _).calm).trans (calm_holdAfterIndex _)).trans (calm_ringTest _)

theorem calm_indexDone : Calm s s.indexDone := by
  unfold State.indexDone
  exact calm_ite (calm_completeIndex s) (calm_ite (.refl s) ((quiet_touchRing s).calm.trans (calm_halt _)))

theorem calm_moveExpiry : Calm s s.moveExpiry := by
  unfold State.moveExpiry
  exact calm_ite (calm_halt s) (.refl s)

theorem calm_setEStop (b : Bool) : Calm s (s.setEStop b) := .of_eq rfl rfl rfl fun h => { h with }

theorem calm_assertEStop : Calm s s.assertEStop := by
  unfold State.assertEStop
  exact calm_ite (.refl s) ((calm_setEStop s true).trans (calm_halt _))

theorem meter_refill_ok (m : Meter) (h : m.ok) : m.refill.ok := by
  unfold Meter.refill Meter.ok at *
  dsimp only
  split
  · exact ⟨by dsimp only; omega, h.2⟩
  · split
    · exact ⟨h.1, by dsimp only; omega⟩
    · exact h

theorem meter_configure_ok (m : Meter) (a b c d : Nat) : (m.configure a b c d).ok :=
  ⟨Nat.min_le_right .., Nat.min_le_right ..⟩

theorem calm_refill : Calm s { s with meter := s.meter.refill } :=
  ⟨.refl _, List.prefix_rfl, meter_refill_ok _, id, fun h => { h with }, id, id⟩

theorem calm_clearGarments : Calm s s.clearGarments := by
  unfold State.clearGarments
  have q := Calm.foldl (fun s g => (quiet_countGarment s g down1).calm) s.liveGarments s
  dsimp only
  generalize List.foldl (fun s g => s.countGarment g down1) s s.liveGarments = u at q
  exact q.trans (.of_eq rfl rfl rfl (fun h => { h with records := rfl }) (tg := fun _ => .nil))

theorem calm_clearOrders : Calm s s.clearOrders :=
  .of_eq rfl rfl rfl fun h => { h with slots := wf_mapVal _ _ h.slots }

theorem calm_clearRing : Calm s s.clearRing :=
  .of_eq rfl rfl rfl fun h => { h with platens := wfDefault_mapStore _ _ _ h.platens }

theorem calm_clearLists : Calm s s.clearLists := by
  have q := (quiet_mapLanes s fun x => { x with reservation := none }).calm
  unfold State.clearLists
  generalize s.mapLanes (fun x => { x with reservation := none }) = u at q
  exact q.trans (.of_eq rfl rfl rfl fun h => { h with })

theorem calm_clearLinks : Calm s s.clearLinks := by
  unfold State.clearLinks
  refine ((Calm.foldl (fun s l => calm_modifyStation s l _) _ _).trans (Calm.foldl (fun s l => ?_) _ _)).trans
    (Calm.foldl (fun s l => ?_) _ _)
  · unfold State.noticeReset
    exact calm_ite (quiet_send ..).calm (.refl _)
  · unfold State.lowerActive
    exact calm_ite (calm_changeMode ..) (.refl _)

theorem calm_refillMeter : Calm s s.refillMeter :=
  ⟨.refl _, List.prefix_rfl, fun _ => ⟨le_rfl, le_rfl⟩, id, fun h => { h with }, id, id⟩

theorem calm_clearLine : Calm s s.clearLine :=
  (((((calm_clearGarments s).trans (calm_clearOrders _)).trans (calm_clearRing _)).trans (calm_clearLists _)).trans
    (calm_clearLinks _)).trans (calm_refillMeter _)

theorem calm_lineReset : Calm s s.lineReset := by
  unfold State.lineReset State.freeDrained
  exact (calm_clearLine s).trans (Calm.foldl (fun s k => (quiet_freeSlot s k).calm) _ _)

end Sys2Proof.Machine
end

