-- ==== Sys2Proof/Laws/Stations.lean ====
section
/-! SUPPORT. Laws/Stations.lean: the safety of the stations (`StationsSafe`) through the operations that write a link's
state or a station's mode, and through those that write neither. -/

namespace Sys2Proof.Machine

/-! ## What the safety looks at -/

/-- Every station keeps its link state and its mode, and a verdict left open is the one before, a work verdict, or stands
at an ACTIVE station. -/
structure SameModes (s t : State) : Prop where
  up : ∀ l, (t.station l).up = (s.station l).up
  mode : ∀ l, (t.station l).mode = (s.station l).mode
  verdict : ∀ l, (t.station l).verdict = (s.station l).verdict ∨
    ∀ v, (t.station l).verdict = some v → v.cls = .work ∨ (t.station l).mode = .active

theorem Quiet.sameModes {s t : State} (h : Quiet s t) : SameModes s t :=
  ⟨fun l => (h.links l).up, fun l => (h.links l).mode, fun l => (h.links l).verdict⟩

theorem SameModes.refl (s : State) : SameModes s s := ⟨fun _ => rfl, fun _ => rfl, fun _ => .inl rfl⟩

theorem SameModes.trans {s t u : State} (h : SameModes s t) (k : SameModes t u) : SameModes s u where
  up l := (k.up l).trans (h.up l)
  mode l := (k.mode l).trans (h.mode l)
  verdict l := by
    rcases k.verdict l with e | w
    · rcases h.verdict l with e' | w'
      · exact .inl (e.trans e')
      · refine .inr fun v hv => ?_
        rw [k.mode l]
        exact w' v (e ▸ hv)
    · exact .inr w

theorem SameModes.foldl {α : Type} {f : State → α → State} (h : ∀ s a, SameModes s (f s a)) (l : List α) (s : State) :
    SameModes s (l.foldl f s) := by
  induction l generalizing s with
  | nil => exact .refl s
  | cons a l ih => exact (h s a).trans (ih _)

theorem SameModes.of_stations {s t : State} (h : t.stations = s.stations) : SameModes s t := by
  refine ⟨fun l => ?_, fun l => ?_, fun l => ?_⟩
  all_goals unfold State.station
  all_goals rw [h]
  exact .inl rfl

theorem SameModes.ite {c : Prop} [Decidable c] {s t u : State} (h : SameModes s t) (k : SameModes s u) :
    SameModes s (if c then t else u) := by
  split
  · exact h
  · exact k

theorem SameModes.one {s t : State} (h : SameModes s t) {l : Link} (r : StationSafe (s.station l)) :
    StationSafe (t.station l) where
  offline := by
    rw [h.up, h.mode]
    exact r.offline
  wait v hv hw := by
    rcases h.verdict l with e | w
    · rw [h.mode]
      exact r.wait v (e ▸ hv) hw
    · rcases w v hv with k | k
      · rw [k] at hw
        cases hw
      · exact k

theorem SameModes.safe {s t : State} (h : SameModes s t) (r : StationsSafe s) : StationsSafe t :=
  fun l => h.one (r l)

variable (s : State)

/-! ## Writing one station -/

/-- A write of one station that keeps its link state and mode, and its verdict or none. -/
theorem sameModes_modifyStation (l : Link) (f : Station → Station) (u : ∀ x, (f x).up = x.up)
    (m : ∀ x, (f x).mode = x.mode) (v : ∀ x, (f x).verdict = x.verdict ∨ (f x).verdict = none) :
    SameModes s (s.modifyStation l f) := by
  refine ⟨fun k => ?_, fun k => ?_, fun k => ?_⟩ <;> by_cases e : k = l
  · subst e; rw [station_modifyStation]; exact u _
  · rw [station_modifyStation_ne s e]
  · subst e; rw [station_modifyStation]; exact m _
  · rw [station_modifyStation_ne s e]
  · subst e
    rw [station_modifyStation]
    rcases v (s.station k) with h | h
    · exact .inl h
    · exact .inr fun w hw => by rw [h] at hw; cases hw
  · rw [station_modifyStation_ne s e]; exact .inl rfl

/-- Every station but one is safe. -/
def SafeBut (l : Link) (s : State) : Prop :=
  ∀ k, k ≠ l → StationSafe (s.station k)

theorem StationsSafe.but {s : State} (r : StationsSafe s) (l : Link) : SafeBut l s := fun k _ => r k

theorem SameModes.but {s t : State} (h : SameModes s t) {l : Link} (r : SafeBut l s) : SafeBut l t :=
  fun k hk => h.one (r k hk)

theorem SafeBut.modify {s : State} {l : Link} (r : SafeBut l s) (f : Station → Station) :
    SafeBut l (s.modifyStation l f) := fun k hk => by
  rw [station_modifyStation_ne s hk]
  exact r k hk

/-! ## The ring's operations write no mode -/

theorem sameModes_ring (x : Ring) : SameModes s { s with ring := x } := .of_stations rfl

theorem sameModes_ringTest : SameModes s s.ringTest := by
  unfold State.ringTest
  split
  · split <;> exact .of_stations rfl
  · exact .refl _

theorem sameModes_settleRing (b : State) : SameModes s (s.settleRing b) := by
  unfold State.settleRing
  exact .ite (.refl _) (sameModes_ringTest s)

theorem sameModes_finish (b : State) : SameModes s (s.finish b) :=
  (sameModes_settleRing s b).trans (quiet_checkCells ..).sameModes

theorem sameModes_holdFacing (l : Link) : SameModes s (s.holdFacing l) := by
  unfold State.holdFacing
  split <;> exact .of_stations rfl

theorem sameModes_holdIfWorking (l : Link) : SameModes s (s.holdIfWorking l) := by
  unfold State.holdIfWorking
  exact .ite (sameModes_holdFacing ..) (.refl _)

theorem sameModes_halt : SameModes s s.halt := by
  unfold State.halt
  split
  · exact .refl _
  · have q : SameModes s (Link.ring.foldl (State.withdraw .halt) s.stopDrive) :=
      (SameModes.of_stations (s := s) (t := s.stopDrive) rfl).trans
        (SameModes.foldl (fun s l => (quiet_withdraw s .halt l).sameModes) _ _)
    generalize Link.ring.foldl (State.withdraw .halt) s.stopDrive = u at q
    exact q.trans (.of_stations rfl)

/-! ## Modes and links -/

/-- A withdrawn verdict is gone, whatever stands in its place. -/
theorem withdraw_ends (w : Withdrawal) (l : Link) :
    ∀ v, ((State.withdraw w s l).station l).verdict = some v →
      v.cls = .work ∨ ((State.withdraw w s l).station l).mode = .active := by
  unfold State.withdraw
  cases e : s.verdictOf l with
  | none =>
    intro v hv
    have : s.verdictOf l = some v := hv
    rw [e] at this
    cases this
  | some r =>
    dsimp only
    have q : SameModes (s.endRecord l)
        ((((s.endRecord l).undoVerdict w l r).releaseWithdrawn w r.platen).afterVerdict r.tag) :=
      (((quiet_undoVerdict ..).trans (quiet_releaseWithdrawn ..)).trans (quiet_afterVerdict ..)).sameModes
    intro v hv
    rcases q.verdict l with h | h
    · rw [h] at hv
      unfold State.endRecord at hv
      rw [station_modifyStation] at hv
      cases hv
    · exact h v hv

theorem withdraw_modes (w : Withdrawal) (l : Link) : SameModes s (State.withdraw w s l) := (quiet_withdraw ..).sameModes

/-- What follows a change of mode writes no mode, and leaves the station no WAIT unless it is ACTIVE. -/
theorem follow_modes (l : Link) : SameModes s (s.followMode l) ∧
    ∀ v, ((s.followMode l).station l).verdict = some v → v.cls = .wait → ((s.followMode l).station l).mode = .active := by
  unfold State.followMode
  have a : SameModes s (if (s.station l).mode ≠ .active ∧ (s.verdictOf l).any (fun r => r.cls == .wait) then
      State.withdraw .modeFall s l else s) := .ite (withdraw_modes ..) (.refl s)
  have w : ∀ v, ((if (s.station l).mode ≠ .active ∧ (s.verdictOf l).any (fun r => r.cls == .wait) then
      State.withdraw .modeFall s l else s).station l).verdict = some v → v.cls = .work ∨
      ((if (s.station l).mode ≠ .active ∧ (s.verdictOf l).any (fun r => r.cls == .wait) then
      State.withdraw .modeFall s l else s).station l).mode = .active := by
    split
    · exact withdraw_ends s .modeFall l
    · rename_i c
      intro v hv
      by_contra m
      rw [not_or] at m
      refine c ⟨m.2, ?_⟩
      have : s.verdictOf l = some v := hv
      rw [this]
      cases e : v.cls
      · exact absurd e m.1
      · simp [e]
  generalize (if (s.station l).mode ≠ .active ∧ (s.verdictOf l).any (fun r => r.cls == .wait) then
    State.withdraw .modeFall s l else s) = u at a w
  dsimp only
  have b : SameModes u (if (u.station l).working = false ∧ u.verdictOf l = none then u.releaseHold (u.facing l) else u) :=
    .ite (quiet_releaseHold ..).sameModes (.refl _)
  generalize (if (u.station l).working = false ∧ u.verdictOf l = none then u.releaseHold (u.facing l) else u) = v at b
  have q := b.trans (SameModes.ite (c := l = .load ∧ v.ring.state = .verifying ∧ (v.station l).working = false)
    (sameModes_halt v) (.refl v))
  refine ⟨a.trans q, fun x hx hc => ?_⟩
  rcases q.verdict l with e | y
  · rcases w x (e ▸ hx) with k | k
    · rw [k] at hc
      cases hc
    · rw [q.mode]
      exact k
  · rcases y x hx with k | k
    · rw [k] at hc
      cases hc
    · exact k

theorem StationsSafe.follow {s : State} {l : Link} (r : SafeBut l s)
    (h : (s.station l).mode = .offline ↔ (s.station l).up = false) : StationsSafe (s.followMode l) := by
  obtain ⟨q, w⟩ := follow_modes s l
  intro k
  by_cases e : k = l
  · subst e
    exact ⟨by rw [q.up, q.mode]; exact h, w⟩
  · exact q.one (r k e)

theorem StationsSafe.change {s : State} {l : Link} {m : StationMode} (r : SafeBut l s)
    (h : m = .offline ↔ (s.station l).up = false) : StationsSafe (s.changeMode l m) := by
  unfold State.changeMode
  have q : SameModes (s.setMode l m) (((s.setMode l m).send l (.mode m)).raise .stationMode) :=
    ((quiet_send ..).trans (quiet_raise ..)).sameModes
  refine StationsSafe.follow (q.but (r.modify _)) ?_
  rw [q.mode, q.up]
  unfold State.setMode
  rw [station_modifyStation]
  exact h

theorem StationsSafe.down {s : State} (r : StationsSafe s) (l : Link) : StationsSafe (s.linkDown l) := by
  unfold State.linkDown
  have q := withdraw_modes (s.modifyStation l fun x => { x with up := false, silenceTimer := none }) .linkLoss l
  refine StationsSafe.change ((q.but ((r.but l).modify _)).modify _) ?_
  rw [station_modifyStation]
  show _ ↔ (State.station _ l).up = false
  rw [q.up, station_modifyStation]
  simp

theorem StationsSafe.linkUp {s : State} {l : Link} (r : SafeBut l s) (n : Nat)
    (v : ∀ v, (s.station l).verdict = some v → v.cls = .work) : StationsSafe (s.linkUp l n) := by
  unfold State.linkUp
  refine ((quiet_raise ..).trans (quiet_send ..)).sameModes.safe fun k => ?_
  by_cases e : k = l
  · subst e
    rw [station_modifyStation]
    refine ⟨by simp, fun w hw hc => ?_⟩
    rw [v w hw] at hc
    cases hc
  · exact r.modify _ k e

theorem StationsSafe.hello {s : State} (r : StationsSafe s) {l : Link} (d : (s.station l).up = false) (n : Nat) :
    StationsSafe (s.linkUp l n) := by
  refine StationsSafe.linkUp (r.but l) n fun v hv => ?_
  cases e : v.cls
  · rfl
  · have m := (r l).wait v hv e
    have o := (r l).offline.2 d
    rw [m] at o
    cases o

theorem StationsSafe.restart {s : State} (r : StationsSafe s) (l : Link) (n : Nat) : StationsSafe (s.restart l n) := by
  unfold State.restart
  have q := withdraw_modes (s.modifyStation l fun x => { x with up := false }) .linkLoss l
  have b := (q.but ((r.but l).modify _)).modify fun x => { x with mode := .standby }
  dsimp only
  generalize State.withdraw .linkLoss (s.modifyStation l fun x => { x with up := false }) l = u at b
  obtain ⟨p, w⟩ := follow_modes (u.setMode l .standby) l
  refine StationsSafe.linkUp (p.but b) n fun v hv => ?_
  cases e : v.cls
  · rfl
  · have m := w v hv e
    rw [p.mode] at m
    unfold State.setMode at m
    rw [station_modifyStation] at m
    cases m

theorem sameModes_heard (l : Link) : SameModes s (s.heard l) :=
  sameModes_modifyStation s l _ (fun _ => rfl) (fun _ => rfl) fun _ => .inl rfl

theorem StationsSafe.workTimeout {s : State} (r : StationsSafe s) (l : Link) : StationsSafe (s.workTimeout l) := by
  unfold State.workTimeout
  split
  · exact r
  · rename_i v _
    split
    · have a := (withdraw_modes s .timeout l).safe r
      generalize State.withdraw .timeout s l = u at a
      have b := (sameModes_modifyStation u l (fun x => { x with expired := some ⟨v.platen, v.tag⟩ }) (fun _ => rfl)
        (fun _ => rfl) fun _ => .inl rfl).safe a
      dsimp only
      generalize u.modifyStation l (fun x => { x with expired := some ⟨v.platen, v.tag⟩ }) = t at b
      split
      · rename_i m
        refine StationsSafe.change (b.but l) ?_
        have := (b l).offline
        rw [m] at this
        simp only [reduceCtorEq, false_iff] at this ⊢
        exact this
      · exact b
    · exact r

/-! ## Reports -/

theorem sameModes_endLap : SameModes s s.endLap := by
  unfold State.endLap
  refine SameModes.trans ?_ (SameModes.foldl sameModes_holdIfWorking _ _)
  exact sameModes_ring ..

theorem sameModes_countLap : SameModes s s.countLap := by
  unfold State.countLap
  exact (sameModes_ring s { s.ring with lapCount := s.ring.lapCount + 1 }).trans
    (.ite (sameModes_endLap _) (.refl _))

theorem sameModes_answerChecked (l : Link) (r : Report) (k : Nat) : SameModes s (s.answerChecked l r k) := by
  unfold State.answerChecked
  have q := (quiet_tagCheck s l r k).sameModes
  dsimp only
  generalize s.tagCheck l r k = u at q
  have b := SameModes.ite (c := (u.verdictOf l).isNone = true) (quiet_release u k).sameModes (.refl u)
  generalize (if (u.verdictOf l).isNone = true then u.setHeld k false else u) = v at b
  exact q.trans (b.trans (.ite (sameModes_countLap v) (.refl v)))

theorem sameModes_moveHold (a k : Nat) : SameModes s (s.moveHold a k) := by
  unfold State.moveHold
  exact .ite (.of_stations rfl) (.refl _)

theorem sameModes_resync (k : Nat) : SameModes s (s.resync k) := by
  unfold State.resync
  dsimp only
  split
  · exact (SameModes.ite (.refl s) (sameModes_moveHold s _ k)).trans (.of_stations rfl)
  · exact .of_stations rfl

theorem sameModes_ringReport (l : Link) (r : Report) : SameModes s (s.ringReport l r) := by
  unfold State.ringReport
  refine .ite (quiet_answerRefuse ..).sameModes (.ite (quiet_answerRefuse ..).sameModes
    (.ite (quiet_answerPass ..).sameModes ?_))
  split
  · unfold State.platenCheck
    exact .ite ((sameModes_resync ..).trans (sameModes_answerChecked ..)) (.ite (sameModes_answerChecked ..)
      ((sameModes_halt s).trans (quiet_answerRefuse ..).sameModes))
  · exact (quiet_answerRefuse ..).sameModes

theorem sameModes_evaluate (l : Link) (r : Report) : SameModes s (s.evaluate l r) := by
  unfold State.evaluate
  exact .ite (.ite (sameModes_ringReport ..) (quiet_answerPass ..).sameModes)
    (.ite (quiet_matchList ..).sameModes (quiet_answerPass ..).sameModes)

theorem sameModes_takeReport (l : Link) (r : Report) : SameModes s (s.takeReport l r) := by
  unfold State.takeReport
  split
  · exact sameModes_evaluate ..
  · refine .ite (quiet_answerRefuse ..).sameModes (.ite (quiet_restate ..).sameModes ?_)
    unfold State.supersede
    exact ((withdraw_modes s .supersession l).trans (sameModes_evaluate _ l r)).trans
      (.ite (quiet_releaseHold ..).sameModes (.refl _))

theorem sameModes_advance (a : Advance) : SameModes s (s.advance a) :=
  (((quiet_doseBelt s a).sameModes.trans (.of_stations (t := (s.doseBelt a).moveBelt a.d) rfl)).trans
    (quiet_exitBelt _).sameModes).trans (quiet_spaceLanes _).sameModes

theorem sameModes_receive (l : Link) (k : Byte) (p : List Byte) {f : State → State} (hf : ∀ s, SameModes s (f s)) :
    SameModes s (s.receive l k p f) := by
  unfold State.receive
  refine .ite (.ite ?_ ((sameModes_heard s l).trans (quiet_replyRefuse ..).sameModes)) (quiet_replyRefuse ..).sameModes
  have t : ∀ u : State, SameModes u (u.touchBy k p) := fun u => by
    unfold State.touchBy
    exact .ite (quiet_touch ..).sameModes (.refl _)
  exact (((sameModes_heard s l).trans (t _)).trans (hf _)).trans (sameModes_finish ..)

theorem StationsSafe.receiveHello {s : State} (r : StationsSafe s) (l : Link) (p : List Byte) :
    StationsSafe (s.receiveHello l p) := by
  unfold State.receiveHello
  split
  · split
    · split
      · exact (sameModes_finish ..).safe (r.restart l _)
      · exact ((quiet_replyRefuse ..).sameModes.trans (sameModes_finish ..)).safe (r.down l)
    · exact ((sameModes_heard s l).trans (quiet_replyRefuse ..).sameModes).safe r
  · rename_i d
    split
    · exact (sameModes_finish ..).safe (r.hello (by simpa using d) _)
    · exact (quiet_replyRefuse ..).sameModes.safe r

/-! ## Timers, drive, resets -/

theorem sameModes_ageExpiry : SameModes s s.ageExpiry := by
  have q := (quiet_raiseAges s).sameModes.trans (quiet_retireAged _).sameModes
  unfold State.ageExpiry
  dsimp only
  generalize s.raiseAges.retireAged = u at q
  exact q.trans (.of_stations rfl)

theorem sameModes_indexDone : SameModes s s.indexDone := by
  unfold State.indexDone
  refine .ite ?_ (.ite (.refl _) ((quiet_touchRing s).sameModes.trans (sameModes_halt _)))
  unfold State.completeIndex
  have q : SameModes s { s.stopDrive with ring.offset := (s.ring.offset + 1) % 24 } := .of_stations rfl
  have h : ∀ u : State, SameModes u u.holdAfterIndex := fun u => by
    unfold State.holdAfterIndex
    split
    · exact SameModes.foldl sameModes_holdIfWorking _ _
    · exact sameModes_holdFacing ..
    · exact .of_stations rfl
    · exact .refl _
    · exact .refl _
  dsimp only
  exact ((q.trans (quiet_touchRing _).sameModes).trans (h _)).trans (sameModes_ringTest _)

theorem sameModes_moveExpiry : SameModes s s.moveExpiry := by
  unfold State.moveExpiry
  exact .ite (sameModes_halt s) (.refl s)

theorem sameModes_assertEStop : SameModes s s.assertEStop := by
  unfold State.assertEStop
  exact .ite (.refl s) ((SameModes.of_stations (s := s) (t := s.setEStop true) rfl).trans (sameModes_halt _))

theorem stationSafe_reset (l : Link) : StationSafe (State.reset.station l) := by
  cases l <;> exact ⟨⟨fun _ => rfl, fun _ => rfl⟩, nofun⟩

theorem StationsSafe.resetPart (s : State) : StationsSafe s.resetPart := by
  unfold State.resetPart
  have q : StationsSafe { State.reset with
      sent := s.sent, shifted := s.shifted, freeReads := s.freeReads, pending := s.pending } :=
    fun l => stationSafe_reset l
  dsimp only
  generalize ({ State.reset with
    sent := s.sent, shifted := s.shifted, freeReads := s.freeReads, pending := s.pending } : State) = u at q
  split
  · exact ((SameModes.of_stations (s := u) (t := u.setEStop true) rfl).trans (sameModes_halt _)).safe q
  · exact q

theorem StationsSafe.foldl {α : Type} {f : State → α → State} (h : ∀ s a, StationsSafe s → StationsSafe (f s a))
    (l : List α) {s : State} (r : StationsSafe s) : StationsSafe (l.foldl f s) := by
  induction l generalizing s with
  | nil => exact r
  | cons a l ih => exact ih (h s a r)

theorem StationsSafe.lowerActive {s : State} (r : StationsSafe s) (l : Link) : StationsSafe (State.lowerActive s l) := by
  unfold State.lowerActive
  split
  · rename_i m
    refine StationsSafe.change (r.but l) ?_
    have := (r l).offline
    have m : (s.station l).mode = .active := by
      unfold State.isActive at m
      exact eq_of_beq m
    rw [m] at this
    simp only [reduceCtorEq, false_iff] at this ⊢
    exact this
  · exact r

theorem sameModes_clearLinksBefore : SameModes s
    (Link.all.foldl State.noticeReset (Link.all.foldl State.clearStation s)) := by
  refine (SameModes.foldl (fun s l => ?_) _ _).trans (SameModes.foldl (fun s l => ?_) _ _)
  · exact sameModes_modifyStation s l _ (fun _ => rfl) (fun _ => rfl) fun _ => .inr rfl
  · unfold State.noticeReset
    exact .ite (quiet_send ..).sameModes (.refl _)

theorem sameModes_clearGarments : SameModes s s.clearGarments := by
  unfold State.clearGarments
  have q := SameModes.foldl (fun s g => (quiet_countGarment s g down1).sameModes) s.liveGarments s
  dsimp only
  generalize List.foldl (fun s g => s.countGarment g down1) s s.liveGarments = u at q
  exact q.trans (.of_stations rfl)

theorem sameModes_clearLists : SameModes s s.clearLists := by
  have q := (quiet_mapLanes s fun x => { x with reservation := none }).sameModes
  unfold State.clearLists
  generalize s.mapLanes (fun x => { x with reservation := none }) = u at q
  exact q.trans (.of_stations rfl)

theorem StationsSafe.clearLine {s : State} (r : StationsSafe s) : StationsSafe s.clearLine := by
  have q : SameModes s s.clearGarments.clearOrders.clearRing.clearLists :=
    (((sameModes_clearGarments s).trans (.of_stations (t := s.clearGarments.clearOrders) rfl)).trans
      (.of_stations (t := s.clearGarments.clearOrders.clearRing) rfl)).trans (sameModes_clearLists _)
  unfold State.clearLine
  generalize s.clearGarments.clearOrders.clearRing.clearLists = u at q
  have c : StationsSafe u.clearLinks := by
    unfold State.clearLinks
    exact StationsSafe.foldl (fun _ l r => r.lowerActive l) _ ((sameModes_clearLinksBefore u).safe (q.safe r))
  generalize u.clearLinks = v at c
  exact (SameModes.of_stations (s := v) (t := v.refillMeter) rfl).safe c

theorem StationsSafe.lineReset {s : State} (r : StationsSafe s) : StationsSafe s.lineReset := by
  unfold State.lineReset State.freeDrained
  exact (SameModes.foldl (fun s k => (quiet_freeSlot s k).sameModes) _ _).safe r.clearLine

end Sys2Proof.Machine
end

