-- ==== Sys2Proof/Laws/Port.lean ====
section
/-! SUPPORT. Laws/Port.lean: what the owning blocks' changes keep: the ring's safety, the stations' safety and the five
invariants of `Calm`. One lemma an operation that is not a plain update, and one for all the host commands. -/

namespace Sys2Proof.Machine

/-- The second state keeps what the first has of all the invariants. -/
structure Sound (s t : State) : Prop where
  ring : RingSafe s → RingSafe t
  stations : StationsSafe s → StationsSafe t
  calm : Calm s t

theorem Sound.refl (s : State) : Sound s s := ⟨id, id, .refl s⟩

theorem Sound.trans {s t u : State} (h : Sound s t) (k : Sound t u) : Sound s u :=
  ⟨k.ring ∘ h.ring, k.stations ∘ h.stations, h.calm.trans k.calm⟩

theorem Quiet.sound {s t : State} (h : Quiet s t) : Sound s t := ⟨h.sameDrive.safe, h.sameModes.safe, h.calm⟩

theorem Sound.ite {c : Prop} [Decidable c] {s t u : State} (h : Sound s t) (k : Sound s u) :
    Sound s (if c then t else u) := by
  split
  · exact h
  · exact k

/-- An update that reaches neither ring nor stations nor meter nor causes nor mask. -/
theorem Sound.of_eq {s t : State} (r : t.ring = s.ring) (st : t.stations = s.stations) (m : t.meter = s.meter)
    (c : t.port.causes = s.port.causes) (k : t.port.mask = s.port.mask) (tb : TablesOk s → TablesOk t)
    (sn : s.sent <+: t.sent := by exact List.prefix_rfl) (tg : TagsSafe s → TagsSafe t := by exact id)
    (sc : s.sched.Safe → t.sched.Safe := by exact id) : Sound s t :=
  ⟨(SameDrive.of_ring r).safe, (SameModes.of_stations st).safe, .of_eq m c k tb sn tg sc⟩

/-- An update that reaches neither ring nor stations. -/
theorem Sound.of_calm {s t : State} (c : Calm s t) (r : t.ring = s.ring) (st : t.stations = s.stations) : Sound s t :=
  ⟨(SameDrive.of_ring r).safe, (SameModes.of_stations st).safe, c⟩

/-- The second state keeps what the first has of all the invariants, and takes back no message; it may clear causes. -/
structure Kept (s t : State) : Prop where
  ring : RingSafe s → RingSafe t
  stations : StationsSafe s → StationsSafe t
  meter : s.meter.ok → t.meter.ok
  causes : CausesSafe s → CausesSafe t
  tables : TablesOk s → TablesOk t
  tags : TagsSafe s → TagsSafe t
  sched : s.sched.Safe → t.sched.Safe
  sent : s.sent <+: t.sent

theorem Sound.kept {s t : State} (h : Sound s t) : Kept s t :=
  ⟨h.ring, h.stations, h.calm.meter, h.calm.causes, h.calm.tables, h.calm.tags, h.calm.sched,
    h.calm.sent⟩

theorem Kept.trans {s t u : State} (h : Kept s t) (k : Kept t u) : Kept s u :=
  ⟨k.ring ∘ h.ring, k.stations ∘ h.stations, k.meter ∘ h.meter, k.causes ∘ h.causes, k.tables ∘ h.tables,
    k.tags ∘ h.tags, k.sched ∘ h.sched, h.sent.trans k.sent⟩

variable (s : State)

theorem withRingState_fst : s.withRingState.1 = s := rfl

theorem refusing_fst (x : Status) : (s.refusing x).1 = s := rfl

theorem sound_finish (b : State) : Sound s (s.finish b) :=
  ⟨fun r => r.finish, (sameModes_finish s b).safe, calm_finish s b⟩

/-! ## The owning blocks -/

theorem quiet_moveClass (a b : Option Nat) : Quiet s (s.moveClass a b) := by
  unfold State.moveClass
  split
  · exact .refl s
  · cases a <;> cases b <;> dsimp only
    · exact .refl _
    · exact quiet_countClass ..
    · exact quiet_countClass ..
    · exact (quiet_countClass ..).trans (quiet_countClass ..)

theorem quiet_setSku (k : Nat) (e : Option SkuEntry) : Quiet s (s.setSku k e) :=
  .of_eq rfl rfl rfl rfl rfl fun h => by
    have w : (s.setSku k e).refs.skus.wf = true := by
      unfold State.setSku
      cases e
      · exact wf_erase _ _ h.skus
      · exact wf_put _ _ _ h.skus
    exact { h with skus := w }

theorem quiet_setClass (k : Nat) (e : Option ClassEntry) : Quiet s (s.setClass k e) :=
  .of_eq rfl rfl rfl rfl rfl fun h => by
    have w : (s.setClass k e).refs.classes.wf = true := by
      unfold State.setClass
      cases e
      · exact wf_erase _ _ h.classes
      · exact wf_put _ _ _ h.classes
    exact { h with classes := w }

theorem quiet_setDesign (k : Nat) (e : Option DesignEntry) : Quiet s (s.setDesign k e) :=
  .of_eq rfl rfl rfl rfl rfl fun h => by
    have w : (s.setDesign k e).refs.designs.wf = true := by
      unfold State.setDesign
      cases e
      · exact wf_erase _ _ h.designs
      · exact wf_put _ _ _ h.designs
    exact { h with designs := w }

theorem quiet_movePattern (a b : Option Nat) : Quiet s (s.movePattern a b) := by
  unfold State.movePattern
  split
  · exact .refl s
  · cases a <;> cases b <;> dsimp only
    · exact .refl _
    · exact quiet_countDesign ..
    · exact quiet_countDesign ..
    · exact (quiet_countDesign ..).trans (quiet_countDesign ..)

theorem quiet_addOrder (k n v : Nat) (ls : List Line) : Quiet s (s.addOrder k n v ls) := by
  have q := (quiet_takeCells s ls.length).trans (Quiet.foldl (fun s l => quiet_countLine s up1 l) ls _)
  unfold State.addOrder
  dsimp only
  generalize List.foldl (State.countLine up1) (s.takeCells ls.length) ls = u at q
  exact q.trans (.of_eq rfl rfl rfl rfl rfl fun h => { h with slots := wf_put _ _ _ h.slots })

theorem quiet_voidBin (b : Option Nat) : Quiet s (s.voidBin b) := by
  unfold State.voidBin
  split
  · split
    · exact quiet_setBin ..
    · exact .refl s
  · exact .refl s

theorem quiet_cancel (k : Nat) (o : Order) : Quiet s (s.cancel k o) := by
  unfold State.cancel
  dsimp only
  have q := (quiet_modifyOrder s k fun o => { o with state := .cancelling }).trans (quiet_voidBin _ o.bin)
  generalize (s.modifyOrder k fun o => { o with state := .cancelling }).voidBin o.bin = u at q
  exact q.trans ((Quiet.foldl quiet_stageRule _ _).trans (quiet_drainTest _ k))

theorem quiet_release_order (k : Nat) (o : Order) : Quiet s (s.release k o) := by
  unfold State.release
  dsimp only
  have q := quiet_modifyOrder s k fun o => { o with lines := o.lines.map Line.released }
  generalize s.modifyOrder k (fun o => { o with lines := o.lines.map Line.released }) = u at q
  split
  · exact q.trans (quiet_completeOrder u k)
  · exact q.trans ((quiet_modifyOrder u k _).trans (quiet_offer _ _))

theorem sound_setCursor (c : Cursor) : Sound s (s.setCursor c) := .of_eq rfl rfl rfl rfl rfl fun h => { h with }

theorem sound_walkFrom (p : Nat) : Sound s (s.walkFrom p).1 := by
  unfold State.walkFrom
  split <;> exact sound_setCursor ..

theorem sound_configureTunnel (a b c d e : Nat) : Sound s (s.configureTunnel a b c d e) := by
  unfold State.configureTunnel
  have q : Sound s { s with cure := { s.cure with e0 := a, z1 := b, z2 := c, z3 := d, spacing := e } } :=
    .of_eq rfl rfl rfl rfl rfl fun h => { h with }
  dsimp only
  exact q.trans ((quiet_mapLanes ..).trans (quiet_serveWait _)).sound

/-- A platen that is not OCCUPIED set OUT or EMPTY makes no hold. -/
theorem sound_setPlaten (k : Nat) (b : Bool) : Sound s (s.modifyPlaten k (Platen.setOut b)) :=
  (quiet_modifyPlaten s k _ id).sound

theorem calm_setRing (x : RingState) : Calm s (s.setRingState x) := .of_eq rfl rfl rfl fun h => { h with }

theorem sound_start : Sound s (runStartRing s).1 := by
  unfold runStartRing
  split <;> simp only [withRingState_fst, refusing_fst]
  · rename_i e
    refine ⟨fun r => ?_, ?_, ?_⟩
    · have c : CanHold (s.setRingState .running) := by
        have i := r.still (.inl e)
        refine ⟨⟨fun x => ?_, r.moving, r.idle, fun x => ?_⟩, i.1, ⟨nofun, nofun⟩⟩
        · have := r.eStop x
          rw [e] at this
          cases this
        · rcases x with x | x <;> cases x
      exact (canHold_foldl c _).test
    · exact (((SameModes.of_stations (s := s) (t := s.setRingState .running) rfl).trans
        (SameModes.foldl sameModes_holdIfWorking Link.ring _)).trans (sameModes_ringTest _)).safe
    · exact ((calm_setRing s .running).trans (Calm.foldl calm_holdIfWorking Link.ring _)).trans (calm_ringTest _)
  · rename_i e
    refine ⟨fun r => ⟨fun x => ?_, r.moving, r.idle, fun x => ?_⟩, ?_, calm_setRing s .running⟩
    · have := r.eStop x
      rw [e] at this
      cases this
    · rcases x with x | x <;> cases x
    · exact (SameModes.of_stations rfl).safe
  · exact .refl s
  · exact .refl s
  · exact .refl s

theorem sound_stop : Sound s (runStopRing s).1 := by
  unfold runStopRing
  split <;> simp only [withRingState_fst, refusing_fst]
  · rename_i e
    refine ⟨fun r => RingSafe.test ⟨fun x => ?_, r.moving, r.idle, fun x => ?_⟩, ?_, ?_⟩
    · have := r.eStop x
      rw [e] at this
      cases this
    · rcases x with x | x <;> cases x
    · exact ((SameModes.of_stations (s := s) (t := s.setRingState .stopping) rfl).trans (sameModes_ringTest _)).safe
    · exact (calm_setRing s .stopping).trans (calm_ringTest _)
  · exact .refl s
  · exact .refl s
  · exact .refl s
  · exact .refl s

theorem sound_resume : Sound s (runResumeRing s).1 := by
  unfold runResumeRing
  split <;> simp only [withRingState_fst, refusing_fst]
  · exact .refl s
  · rename_i h
    simp only [not_or, not_not] at h
    refine ⟨fun r => ?_, ?_, ?_⟩
    · have i := r.still (.inr h.1)
      have c : CanHold (s.setRingState .verifying).clearLap := by
        refine ⟨⟨fun x => absurd x h.2.1, r.moving, r.idle, fun x => ?_⟩, i.1, ⟨nofun, nofun⟩⟩
        rcases x with x | x <;> cases x
      exact (canHold_holdFacing c _).test
    · exact (((SameModes.of_stations (s := s) (t := (s.setRingState .verifying).clearLap) rfl).trans
        (sameModes_holdFacing _ .load)).trans (sameModes_ringTest _)).safe
    · exact (((calm_setRing s .verifying).trans (calm_clearLap _)).trans (calm_holdFacing _ .load)).trans
        (calm_ringTest _)

theorem sound_changeMode (l : Link) (m : StationMode) (h : StationsSafe s → (m = .offline ↔ (s.station l).up = false)) :
    Sound s (s.changeMode l m) :=
  ⟨fun r => r.change l m, fun r => StationsSafe.change (r.but l) (h r), calm_changeMode s l m⟩

theorem sameModes_setAttention (l : Link) (n : Nat) : SameModes s (s.setAttention l n) := by
  unfold State.setAttention
  exact sameModes_modifyStation s l _ (fun _ => rfl) (fun _ => rfl) fun _ => .inl rfl

theorem sound_setAttention (l : Link) (n : Nat) : Sound s (s.setAttention l n) :=
  ⟨(sameDrive_modifyStation ..).safe, (sameModes_setAttention s l n).safe, calm_modifyStation ..⟩

theorem sound_requestMode (l : Link) (m : StationMode) (n : Nat)
    (h : (s.station l).mode = m ∨ hostMayChange (s.station l).mode m = true) : Sound s (s.requestMode l m n).1 := by
  unfold State.requestMode
  refine Sound.trans ?_ (sound_setAttention ..)
  split
  · exact .refl s
  · rename_i e
    refine sound_changeMode s l m fun r => ?_
    have c := h.resolve_left e
    have o := (r l).offline
    have m1 : m ≠ .offline := by
      rintro rfl
      revert c
      cases (s.station l).mode <;> decide
    have m2 : (s.station l).mode ≠ .offline := by
      intro x
      rw [x] at c
      revert c
      cases m <;> decide
    constructor
    · exact fun x => absurd x m1
    · exact fun x => absurd (o.2 x) m2

theorem sound_setMeter (p : List Byte) : Sound s (runSetMeter p s).1 := by
  unfold runSetMeter State.refusing
  dsimp only
  split
  · exact .refl s
  · exact .of_calm ⟨.refl _, List.prefix_rfl, fun _ => meter_configure_ok .., id, fun h => { h with }, id, id⟩ rfl rfl

theorem sound_setMask (p : List Byte) : Sound s (runSetCauseMask p s).1 := by
  unfold runSetCauseMask State.refusing
  dsimp only
  split
  · exact .refl s
  · rename_i h
    exact .of_calm ⟨.refl _, List.prefix_rfl, id, fun c => ⟨c.1, not_not.1 h⟩, fun h => { h with }, id, id⟩ rfl rfl

theorem sound_setPattern (n : Nat) (p : Pattern) : Sound s (s.setPattern n p) := by
  have q := (quiet_movePattern s (s.garments.patterns.look {} n).names p.names).sound
  unfold State.setPattern
  dsimp only
  generalize s.movePattern (s.garments.patterns.look {} n).names p.names = t at q
  exact q.trans (.of_eq rfl rfl rfl rfl rfl fun h => { h with patterns := wfDefault_store _ _ _ _ h.patterns })

/-- READ CAUSES keeps the invariants. -/
theorem kept_readCauses : Kept s (runReadCauses s).1 := by
  have d : SameDrive s (runReadCauses s).1 := .of_ring rfl
  have m : SameModes s (runReadCauses s).1 := .of_stations rfl
  exact ⟨d.safe, m.safe, id, fun c => ⟨BitVec.zero_and, c.2⟩, fun h => { h with }, id, id, List.prefix_rfl⟩

/-- Every host command's change but that of READ CAUSES keeps the invariants and clears no cause. -/
theorem sound_ownerChange (c : HostCmd) (p : List Byte) (n : c ≠ .readCauses) : Sound s (ownerChange c p s).1 := by
  cases c <;> dsimp only [ownerChange]
  case lineReset =>
    unfold runLineReset
    dsimp only
    exact ⟨fun _ => RingSafe.lineReset s, fun r => r.lineReset, calm_lineReset s⟩
  case setCauseMask => exact sound_setMask s p
  case setPattern =>
    unfold runSetPattern
    dsimp only
    split
    · split
      · exact .refl s
      · split
        · exact .refl s
        · exact sound_setPattern ..
    · exact .refl s
  case setMeter => exact sound_setMeter s p
  case startRing => exact sound_start s
  case stopRing => exact sound_stop s
  case resumeRing => exact sound_resume s
  case walkFirst => exact sound_walkFrom s 0
  case readCauses => exact absurd rfl n
  case identify => exact .of_eq rfl rfl rfl rfl rfl fun h => { h with }
  case queryMeter => exact .of_eq rfl rfl rfl rfl rfl fun h => { h with }
  case setLineLimits =>
    unfold runSetLineLimits
    split
    · exact .refl s
    · split
      · exact .refl s
      · exact .of_eq rfl rfl rfl rfl rfl fun h => { h with }
  case loadSku =>
    unfold runLoadSku
    dsimp only
    split
    · exact .refl s
    · repeat' split
      all_goals first | exact .refl s | (dsimp only; exact ((quiet_moveClass ..).trans (quiet_setSku ..)).sound)
  case loadClass =>
    unfold runLoadClass
    dsimp only
    split
    · exact .refl s
    · repeat' split
      all_goals first | exact .refl s | (dsimp only; exact (quiet_setClass ..).sound)
  case loadDesign =>
    unfold runLoadDesign
    dsimp only
    split
    · exact .refl s
    · repeat' split
      all_goals first | exact .refl s | (dsimp only; exact (quiet_setDesign ..).sound)
  case readEntry =>
    unfold runReadEntry
    dsimp only
    repeat' split
    all_goals exact .refl s
  case admitOrder =>
    unfold runAdmitOrder
    dsimp only
    split
    · exact .refl s
    · split
      · exact .refl s
      · split
        · exact .refl s
        · split
          · exact .refl s
          · split
            · exact .refl s
            · exact ((quiet_addOrder ..).trans (quiet_offerCounted ..)).sound
  case cancelOrder =>
    unfold runCancelOrder
    split
    · exact .refl s
    · split
      · exact .refl s
      · exact (quiet_cancel ..).sound
  case releaseHold =>
    unfold runReleaseHold
    split
    · exact .refl s
    · split
      · exact .refl s
      · exact (quiet_release_order ..).sound
  case queryOrder =>
    unfold runQueryOrder
    split <;> exact .refl s
  case listOrders =>
    unfold runListOrders
    dsimp only
    split <;> exact .refl s
  case setScheduler =>
    unfold runSetScheduler
    dsimp only
    split
    · exact .refl s
    · rename_i h
      simp only [List.any_eq_true, decide_eq_true_eq, not_or, not_exists, not_and, not_lt] at h
      obtain ⟨hm, hw, -⟩ := h
      exact .of_eq rfl rfl rfl rfl rfl (fun h => { h with }) (sc := fun _ => {
        mapLength := rfl
        map := hm
        weightsLength := rfl
        weights := fun w hmem => ⟨Nat.pos_of_ne_zero fun e => (hw w hmem).1 e, (hw w hmem).2⟩
        creditsLength := rfl
        credits := fun w hmem => (hw w hmem).2 })
  case queryGarment =>
    unfold runQueryGarment
    split <;> exact .refl s
  case walkNext =>
    unfold runWalkNext
    split
    · exact .refl s
    · exact sound_walkFrom ..
    · exact .refl s
  case retireGarment =>
    unfold runRetireGarment
    dsimp only
    split
    · exact .refl s
    · split
      · exact .refl s
      · exact (quiet_retire ..).sound
  case setStation =>
    unfold runSetStation
    split
    · exact .refl s
    · split
      · exact .refl s
      · refine ⟨SameDrive.safe ⟨rfl, rfl, rfl, rfl, id⟩, SameModes.safe (.of_stations rfl),
          .of_eq rfl rfl rfl fun h => { h with }⟩
  case setStationMode =>
    unfold runSetStationMode
    split
    · split
      · exact .refl s
      · split
        · exact sound_requestMode s _ _ _ ‹_›
        · exact .refl s
    · exact .refl s
  case queryStation =>
    unfold runQueryStation
    split
    · exact .refl s
    · dsimp only
      split
      · exact .refl s
      · exact .of_eq rfl rfl rfl rfl rfl fun h => { h with }
  case setPlaten =>
    unfold runSetPlaten
    dsimp only
    split
    · exact .refl s
    · split
      · exact .refl s
      · split
        · exact .refl s
        · exact sound_setPlaten ..
  case queryRing =>
    unfold runQueryRing
    split
    · exact .of_eq rfl rfl rfl rfl rfl fun h => { h with }
    · exact .refl s
  case setTunnel =>
    unfold runSetTunnel
    dsimp only
    split
    · exact .refl s
    · split
      · exact .refl s
      · exact sound_configureTunnel ..
  case setWeights =>
    unfold runSetWeights
    dsimp only
    split
    · exact .refl s
    · exact .of_eq rfl rfl rfl rfl rfl fun h => { h with }
  case queryBelt =>
    unfold runQueryBelt
    dsimp only
    split <;> exact .refl s
  case queryBin =>
    unfold runQueryBin
    dsimp only
    split <;> exact .refl s

/-! ## The port -/

theorem sound_setPort (p : PortState) : Sound s (s.setPort p) := .of_eq rfl rfl rfl rfl rfl fun h => { h with }

theorem sound_setKept (f : Option Frame) : Sound s (s.setKept f) := .of_eq rfl rfl rfl rfl rfl fun h => { h with }

theorem sound_setReading (n : Option Nat) : Sound s (s.setReading n) := .of_eq rfl rfl rfl rfl rfl fun h => { h with }

theorem sound_shift (b : List Byte) : Sound s (s.shift b) := .of_eq rfl rfl rfl rfl rfl fun h => { h with }

theorem sound_takeFrame (f : Frame) : Sound s (s.takeFrame f) := by
  unfold State.takeFrame
  split
  · exact sound_setPort ..
  · exact .ite (sound_setPort ..) (sound_setPort ..)

theorem sound_commandTransaction (f : Frame) : Sound s (s.commandTransaction f) := by
  have q := (sound_shift s (List.replicate (f.bytes.length + 1) fillNoResponse)).trans (sound_setReading _ none)
  unfold State.commandTransaction
  dsimp only
  split
  · exact q.trans (sound_setKept ..)
  · exact q.trans (sound_takeFrame ..)
  · exact q.trans (sound_takeFrame ..)

theorem kept_ownerChange (c : HostCmd) (p : List Byte) : Kept s (ownerChange c p s).1 := by
  by_cases h : c = .readCauses
  · subst h
    exact kept_readCauses s
  · exact (sound_ownerChange s c p h).kept

theorem sound_completeCommand (n : ∀ p, s.port.state ≠ .executing .readCauses p) : Sound s s.completeCommand := by
  unfold State.completeCommand
  split
  · rename_i c p e
    have q := (sound_ownerChange s c p fun h => n p (h ▸ e)).trans (sound_finish _ s)
    dsimp only
    generalize (ownerChange c p s).1.finish s = t at q
    split
    · exact q.trans (sound_setPort ..)
    · exact q.trans ((sound_setKept ..).trans (sound_takeFrame ..))
  · exact .refl s
  · exact .refl s

theorem kept_completeCommand : Kept s s.completeCommand := by
  unfold State.completeCommand
  split
  · rename_i c p _
    have q := (kept_ownerChange s c p).trans (sound_finish _ s).kept
    dsimp only
    generalize (ownerChange c p s).1.finish s = t at q
    split
    · exact q.trans (sound_setPort ..).kept
    · exact q.trans ((sound_setKept ..).trans (sound_takeFrame ..)).kept
  · exact (Sound.refl s).kept
  · exact (Sound.refl s).kept

theorem sound_readOn (p n : Nat) : Sound s (s.readOn p n) := by
  unfold State.readOn State.readHeld
  dsimp only
  split
  · exact (sound_shift ..).trans (sound_setReading ..)
  · exact (sound_shift ..).trans (sound_setReading ..)
  · exact (sound_shift ..).trans (.ite ((sound_setPort ..).trans (sound_setReading ..)) (sound_setReading ..))

theorem sound_readTransaction (n : Nat) (e : Bool) : Sound s (s.readTransaction n e) := by
  have q : Sound s (s.readPiece n) := by
    unfold State.readPiece
    split
    · exact (sound_shift ..).trans (sound_readOn ..)
    · exact sound_readOn ..
  unfold State.readTransaction
  exact .ite (q.trans (sound_setReading ..)) q

/-! ## Whole messages and events -/

theorem sound_receive (l : Link) (k : Byte) (p : List Byte) {f : State → State} (hf : ∀ s, Sound s (f s)) :
    Sound s (s.receive l k p f) := by
  refine ⟨fun r => r.receive l k p f fun s => (hf s).ring, fun r => ?_,
    calm_receive s l k p fun s => (hf s).calm⟩
  have ht : ∀ u : State, Sound u (u.touchBy k p) := fun u => by
    unfold State.touchBy
    exact .ite (quiet_touch ..).sound (.refl u)
  have hh := (sameModes_heard s l).safe r
  unfold State.receive
  split
  · split
    · exact (sound_finish _ _).stations ((hf _).stations ((ht _).stations hh))
    · exact (quiet_replyRefuse ..).sound.stations hh
  · exact (quiet_replyRefuse ..).sound.stations r

theorem sound_takeReport (l : Link) (r : Report) : Sound s (s.takeReport l r) :=
  ⟨fun h => h.takeReport l r, (sameModes_takeReport s l r).safe, calm_takeReport s l r⟩

theorem sound_advance (a : Advance) : Sound s (s.advance a) :=
  ⟨(sameDrive_advance s a).safe, (sameModes_advance s a).safe, calm_advance s a⟩

theorem sound_receiveHello (l : Link) (p : List Byte) : Sound s (s.receiveHello l p) :=
  ⟨fun r => r.receiveHello l p, fun r => r.receiveHello l p, calm_receiveHello s l p⟩

theorem sound_heard (l : Link) : Sound s (s.heard l) :=
  ⟨(sameDrive_modifyStation ..).safe, (sameModes_heard s l).safe, calm_modifyStation ..⟩

theorem sound_linkDown (l : Link) : Sound s (s.linkDown l) :=
  ⟨fun r => r.down l, fun r => r.down l, calm_linkDown s l⟩

theorem sound_workTimeout (l : Link) : Sound s (s.workTimeout l) :=
  ⟨fun r => r.workTimeout l, fun r => r.workTimeout l, calm_workTimeout s l⟩

theorem sound_ageExpiry : Sound s s.ageExpiry :=
  ⟨fun r => r.ageExpiry, (sameModes_ageExpiry s).safe, calm_ageExpiry s⟩

theorem sound_halt : Sound s s.halt := ⟨fun r => r.halt, (sameModes_halt s).safe, calm_halt s⟩

theorem sound_moveExpiry : Sound s s.moveExpiry :=
  ⟨fun r => r.moveExpiry, (sameModes_moveExpiry s).safe, calm_moveExpiry s⟩

theorem sound_indexDone : Sound s s.indexDone :=
  ⟨fun r => r.indexDone, (sameModes_indexDone s).safe, calm_indexDone s⟩

theorem sound_assertEStop : Sound s s.assertEStop :=
  ⟨fun r => r.assertEStop, (sameModes_assertEStop s).safe, calm_assertEStop s⟩

theorem sound_deassert : Sound s (s.setEStop false) :=
  ⟨fun r => r.deassert, (SameModes.of_stations rfl).safe, calm_setEStop ..⟩

theorem scheduler_reset_safe : State.reset.sched.Safe := by constructor <;> decide

theorem kept_resetPart : Kept s s.resetPart := by
  refine ⟨fun _ => .resetPart s, fun _ => .resetPart s, ?_, ?_, ?_, ?_, ?_, ?_⟩
  all_goals
    unfold State.resetPart
    have m : ({ State.reset with
      sent := s.sent, shifted := s.shifted, freeReads := s.freeReads, pending := s.pending } : State).meter.ok :=
      ⟨Nat.le_refl 400, Nat.le_refl 600⟩
    have c : CausesSafe { State.reset with
      sent := s.sent, shifted := s.shifted, freeReads := s.freeReads, pending := s.pending } :=
      ⟨BitVec.zero_and, BitVec.zero_and⟩
    have t : TablesOk { State.reset with
      sent := s.sent, shifted := s.shifted, freeReads := s.freeReads, pending := s.pending } :=
      ⟨rfl, rfl, rfl, rfl, rfl, rfl, rfl, rfl, rfl⟩
    have e : s.sent = ({ State.reset with
      sent := s.sent, shifted := s.shifted, freeReads := s.freeReads, pending := s.pending } : State).sent := rfl
    dsimp only
    have g : TagsSafe { State.reset with
      sent := s.sent, shifted := s.shifted, freeReads := s.freeReads, pending := s.pending } := .nil
    have d : ({ State.reset with
      sent := s.sent, shifted := s.shifted, freeReads := s.freeReads, pending := s.pending } : State).sched.Safe :=
      scheduler_reset_safe
    generalize ({ State.reset with
      sent := s.sent, shifted := s.shifted, freeReads := s.freeReads, pending := s.pending } : State) = u at m c t e g d
    have q : Calm u (if s.ring.eStop then (u.setEStop true).halt else u) :=
      calm_ite ((calm_setEStop u true).trans (calm_halt _)) (.refl u)
  · exact fun _ => q.meter m
  · exact fun _ => q.causes c
  · exact fun _ => q.tables t
  · exact fun _ => q.tags g
  · exact fun _ => q.sched d
  · exact e ▸ q.sent

end Sys2Proof.Machine
end

