-- ==== Sys2Proof/Laws/Answer.lean ====
section
/-! SUPPORT. Laws/Answer.lean: what the shared ends of a change do: the settling of the ring and of CELLS_LOW at its end
(`finish`), the completion of a host command, the record of a tag after a write, and the answer to a message. -/

namespace Sys2Proof.Machine

/-! ## The end of a change -/

theorem finish_same {s t : State} (r : t.ring = s.ring) (c : t.orders.freeCells = s.orders.freeCells) (l
    : t.limits = s.limits) : t.finish s = t := by
  unfold State.finish State.settleRing State.heldPlatens State.checkCells
  rw [r]; simp [c, l, State.raiseIf]

theorem ringTest_eq (s : State) : s.ringTest = { s with ring := s.ringTest.ring } := by
  unfold State.ringTest; split
  · split <;> rfl
  · rfl
theorem settleRing_eq (s b : State) : s.settleRing b = { s with ring := (s.settleRing b).ring } := by
  unfold State.settleRing; split
  · rfl
  · exact ringTest_eq s
theorem raiseIf_eq (s : State) (b : Bool) (c : Cause) : s.raiseIf b c = { s with port.causes :=
    (s.raiseIf b c).port.causes } := by
  unfold State.raiseIf; split <;> rfl
theorem finish_eq (s b : State) : s.finish b = { s with ring := (s.finish b).ring, port.causes :=
    (s.finish b).port.causes } := by
  unfold State.finish State.checkCells; rw [raiseIf_eq, settleRing_eq s b]

@[simp] theorem finish_garments (s b : State) : (s.finish b).garments = s.garments := by rw [finish_eq]
@[simp] theorem finish_orders (s b : State) : (s.finish b).orders = s.orders := by rw [finish_eq]
@[simp] theorem finish_sched (s b : State) : (s.finish b).sched = s.sched := by rw [finish_eq]
@[simp] theorem finish_refs (s b : State) : (s.finish b).refs = s.refs := by rw [finish_eq]
@[simp] theorem finish_stations (s b : State) : (s.finish b).stations = s.stations := by rw [finish_eq]
@[simp] theorem finish_meter (s b : State) : (s.finish b).meter = s.meter := by rw [finish_eq]
@[simp] theorem finish_cure (s b : State) : (s.finish b).cure = s.cure := by rw [finish_eq]
@[simp] theorem finish_bins (s b : State) : (s.finish b).bins = s.bins := by rw [finish_eq]
@[simp] theorem finish_limits (s b : State) : (s.finish b).limits = s.limits := by rw [finish_eq]
@[simp] theorem finish_sent (s b : State) : (s.finish b).sent = s.sent := by rw [finish_eq]
@[simp] theorem finish_shifted (s b : State) : (s.finish b).shifted = s.shifted := by rw [finish_eq]
@[simp] theorem finish_freeReads (s b : State) : (s.finish b).freeReads = s.freeReads := by rw [finish_eq]
@[simp] theorem finish_pending (s b : State) : (s.finish b).pending = s.pending := by rw [finish_eq]
theorem finish_port (s b : State) : (s.finish b).port = { s.port with causes := (s.finish b).port.causes } := by rw
    [finish_eq]
@[simp] theorem finish_kept (s b : State) : (s.finish b).port.kept = s.port.kept := by rw [finish_port]
@[simp] theorem finish_mask (s b : State) : (s.finish b).port.mask = s.port.mask := by rw [finish_port]
@[simp] theorem finish_state (s b : State) : (s.finish b).port.state = s.port.state := by rw [finish_port]
@[simp] theorem finish_reading (s b : State) : (s.finish b).port.reading = s.port.reading := by rw [finish_port]
@[simp] theorem finish_resetIndicator (s b : State) :
    (s.finish b).port.resetIndicator = s.port.resetIndicator := by rw [finish_port]
@[simp] theorem finish_ring (s b : State) : (s.finish b).ring = (s.settleRing b).ring := by
  unfold State.finish State.checkCells; rw [raiseIf_eq]

/-! ## The completion of a host command -/

theorem built {s : State} {c p} {v : State} {r : Response} (k : s.port.kept = none) (h : ownerChange c p
    (s.taken c p) = (v, r)) :
   exec .responseBuilt (s.taken c p) = .next ((v.finish (s.taken c p)).setPort (.holding r.bytes)) := by
  have : (s.taken c p).port.state = .executing c p := rfl
  have k' : (s.taken c p).port.kept = none := k
  show Host.Outcome.next (s.taken c p).completeCommand = _
  unfold State.completeCommand
  simp only [this, h, k']

/-- From the frame's being taken to a command that the host sees carried out. -/
theorem carries_of_taken {s : State} {c p} {v : State} {r : Response} (hs : s.PortReady)
    (ht : exec (commandRow c (hostBytes p)) s = .next (s.taken c p)) (h : ownerChange c p (s.taken c p) = (v, r))
    (hk : v.port.kept = none) (hsh : v.shifted = (s.taken c p).shifted) :
    Carries c p s ((v.finish (s.taken c p)).setPort (.holding r.bytes)) r :=
  ⟨ht, built hs.kept h, rfl, (finish_kept ..).trans hk, (finish_shifted ..).trans hsh⟩

/-- A command that changes nothing but its answer leaves the line as it was. -/
theorem answers_of_taken {s : State} {c p} {r : Response} (hs : s.PortReady)
    (ht : exec (commandRow c (hostBytes p)) s = .next (s.taken c p))
    (h : ownerChange c p (s.taken c p) = (s.taken c p, r)) : ∃ u, Carries c p s u r ∧ s.sameLine u := by
  refine ⟨_, carries_of_taken hs ht h hs.kept rfl, ?_⟩
  rw [finish_same rfl rfl rfl]; rfl

/-! ## The record of a tag -/

theorem platen_setHeld (s : State) (k j : Nat) (b : Bool) : (s.setHeld k b).platen j = if j = k then
    { s.platen k with held := b } else s.platen j := by
  unfold State.setHeld State.modifyPlaten State.platen
  simp only
  rw [look_store]
theorem anyHeld_of_platen {s : State} {k : Nat} (h : (s.platen k).held = true) : s.anyHeld = true := by
  unfold State.platen Table.look at h
  cases hf : Table.find s.ring.platens k with
  | none => rw [hf] at h; cases h
  | some p =>
    rw [hf] at h
    unfold State.anyHeld; rw [List.any_eq_true]
    exact ⟨_, mem_of_find hf, h⟩
theorem held_false_of {s : State} (h : s.anyHeld = false) (k : Nat) : (s.platen k).held = false := by
  by_contra hc; rw [anyHeld_of_platen (by simpa using hc)] at h; cases h

/-- `findTag` over the records alone. -/
def lookTag (r : Table Garment) (tag : Tag) : Option (Nat × Garment) := (tagWays tag).findSome? fun pos =>
    match r.find pos with
    | some g => if g.tag = tag then some (pos, g) else none
    | none => none
theorem findTag_look (s : State) (tag : Tag) : s.findTag tag = lookTag s.garments.records tag := rfl
theorem lookTag_put_same {r : Table Garment} {tag : Tag} {pos : Nat} {g g' : Garment} (h : lookTag r tag = some
    (pos, g)) (ht : g'.tag = tag) :
    lookTag (r.put pos g') tag = some (pos, g') := by
  unfold lookTag at *
  generalize tagWays tag = ws at *
  induction ws with
  | nil => cases h
  | cons w ws ih =>
    rw [List.findSome?_cons] at h ⊢
    rw [find_put]
    by_cases hw : w = pos
    · subst hw; simp [ht]
    · simp only [hw, if_false]
      cases hf : Table.find r w with
      | none => simp only [hf] at h ⊢; exact ih h
      | some x =>
        simp only [hf] at h ⊢
        by_cases hx : x.tag = tag
        · simp [hx] at h; exact absurd h.1 hw
        · simp [hx] at h ⊢; exact ih h
theorem lookTag_put_other {r : Table Garment} {tag : Tag} {pos : Nat} {g g' : Garment} (h : r.find pos = some g) (hg
    : g.tag ≠ tag) (ht : g'.tag ≠ tag) :
    lookTag (r.put pos g') tag = lookTag r tag := by
  unfold lookTag
  congr 1
  funext w
  rw [find_put]
  by_cases hw : w = pos
  · subst hw; simp [h, hg, ht]
  · simp [hw]
theorem findTag_putRecord_same {s : State} {tag : Tag} {pos : Nat} {g g' : Garment} (h : s.findTag tag = some (pos,
    g)) (ht : g'.tag = tag) :
    (s.putRecord pos g').findTag tag = some (pos, g') := lookTag_put_same h ht
theorem modifyGarment_some {s : State} {tag : Tag} {pos : Nat} {g : Garment} (h : s.findTag tag = some (pos, g)) (f
    : Garment → Garment) :
    s.modifyGarment tag f = s.putRecord pos (f g) := by unfold State.modifyGarment; rw [h]
theorem modifyGarment_none {s : State} {tag : Tag} (h : s.findTag tag = none) (f : Garment → Garment) :
    s.modifyGarment tag f = s := by unfold State.modifyGarment; rw [h]
theorem put_put (r : Table Garment) (p : Nat) (g g' : Garment) : (r.put p g).put p g' = r.put p g' := by
  induction r with
  | nil => simp [Table.put]
  | cons e t ih =>
    obtain ⟨k, v⟩ := e
    simp only [Table.put]
    by_cases h1 : p = k
    · subst h1; simp [Table.put]
    · by_cases h2 : p < k
      · simp [h1, h2, Table.put]
      · simp [h1, h2, Table.put, ih]
theorem putRecord_putRecord (s : State) (p : Nat) (g g' : Garment) :
    (s.putRecord p g).putRecord p g' = s.putRecord p g' := by
  unfold State.putRecord; simp only [put_put]

/-! ## The answer to a message -/

theorem up_next {s : State} {l kind payload} (h : s.Hears l kind payload) (f : State → State) :
    s.receive l kind payload f = (f ((s.heard l).touchBy kind payload)).finish s := by
  unfold State.receive; rw [if_pos h.up, if_pos h.ok]
theorem touch_none {kind payload} (h : namesTag kind = false) (s : State) : s.touchBy kind payload = s := by
  unfold State.touchBy; simp [h]
theorem touchBy_names {kind payload} (h : namesTag kind = true) (s : State) : s.touchBy kind payload = s.touch
    (tagField payload 1) := by
  unfold State.touchBy; simp [h]
theorem touch_eq (s : State) (t : Tag) : s.touch t = { s with garments := { s.garments with records :=
    (s.touch t).garments.records } } := by
  unfold State.touch State.modifyGarment; split <;> rfl
theorem touchBy_eq (s : State) (k : Byte) (p : List Byte) : s.touchBy k p = { s with garments :=
    { s.garments with records := (s.touchBy k p).garments.records } } := by
  unfold State.touchBy; split; exact touch_eq .. ; rfl

theorem Answers.mk' {s t : State} {l : Link} {x : Station} {m : Message} (h1 : t.stations = s.stations.set l x) (h2
    : t.sent = s.sent ++ [⟨l, m⟩]) :
   s.Answers l x m t := by
  refine ⟨?_, ?_, h2⟩
  · unfold State.station; rw [h1, stations_get_set]
  · intro n hn; unfold State.station; rw [h1, stations_get_set_ne _ hn]
theorem set_set (t : Stations) (l : Link) (x y : Station) : (t.set l x).set l y = t.set l y := by cases l <;> rfl
theorem consistent_active {s : State} {l r k} (h : s.isActive l = true) (hr
    : s.ring.state = .running ∨ s.ring.state = .stopping) (hh : (s.platen k).held = true) :
   s.consistent l r k = s.decisionList l r k := by
  unfold State.consistent; rw [if_pos ⟨h, hr, hh⟩]
theorem take_ready {s : State} {l kind payload k} (h : s.Presents l kind payload k) {t : State} (hst : ∀ n,
    (t.station n).mode = (s.station n).mode ∧ (t.station n).verdict = (s.station n).verdict)
    (hr : t.ring = s.ring) {r : Report} (hp : r.platen = some k) :
    t.takeReport l r = (let v := t.tagCheck l r k; if (v.verdictOf l).isNone then v.setHeld k false else v) := by
  unfold State.takeReport
  have hv : t.verdictOf l = none := by unfold State.verdictOf; rw [(hst l).2]; exact h.noVerdict
  rw [hv]
  simp only
  unfold State.evaluate
  rw [if_pos h.atRing]
  have hw : (t.station l).working = true := by unfold Station.working; rw [(hst l).1, h.active]; rfl
  rw [if_pos hw]
  unfold State.ringReport
  have c1 : ¬ t.ring.cycle = .moving := by rw [hr, h.idle]; intro x; cases x
  have c2 : ¬ t.ring.state = .halted := by rw [hr]; rcases h.running with x | x <;> rw [x] <;> intro y <;> cases y
  have c3 : ¬ (t.ring.state = .verifying) := by rw [hr]; rcases h.running with x | x <;> rw [x] <;> intro y <;> cases y
  rw [if_neg c1, if_neg c2, if_neg (fun x => c3 x.1), hp]
  simp only
  unfold State.platenCheck
  rw [if_neg (fun x => c3 x.1)]
  have hf : t.facing l = some k := by unfold State.facing; rw [hr]; exact h.facing
  rw [if_pos hf]
  unfold State.answerChecked
  have c4 : (l == Link.load && t.ring.state == RingState.verifying && (t.platen k).held) = false := by
    have : (t.ring.state == RingState.verifying) = false := by simpa using c3
    rw [this]; simp
  simp only [c4]
  rfl
theorem ring_eq_platen {s t : State} (h : t.ring = s.ring) (k : Nat)
    : t.platen k = s.platen k := by unfold State.platen; rw [h]
theorem settle_ring {a b s : State} (h : a.ring = b.ring) (hl : a.limits = b.limits) : (a.settleRing s).ring =
    (b.settleRing s).ring := by
  unfold State.settleRing State.heldPlatens State.ringTest State.anyHeld
  rw [h, hl]
  split
  · exact h
  · split
    · split <;> simp_all
    · exact h
theorem finish_causes {a s : State} (h : a.orders.freeCells = s.orders.freeCells) (hl : a.limits = s.limits) :
    (a.finish s).port.causes = a.port.causes := by
  have e1 : (a.settleRing s).orders = a.orders := by rw [settleRing_eq]
  have e2 : (a.settleRing s).limits = a.limits := by rw [settleRing_eq]
  have e3 : (a.settleRing s).port = a.port := by rw [settleRing_eq]
  unfold State.finish State.checkCells State.raiseIf
  rw [if_neg, e3]
  rw [e1, e2, h, hl]; simp
theorem finish_port_eq {a s : State} (h : a.orders.freeCells = s.orders.freeCells) (hl : a.limits = s.limits) :
    (a.finish s).port = a.port := by
  rw [finish_port, finish_causes h hl]
theorem pass_next {s u : State} {l kind payload k tag} (hu : u = { s with
     stations := s.stations.set l (s.station l).answered, garments := u.garments, sent := s.sent ++ [⟨l, .verdict
         (BitVec.ofNat 8 k) tag .pass 0 0⟩], port.causes := u.port.causes })
    (_ : s.Presents l kind payload k) :
    let t := (u.setHeld k false).finish s
    s.Answers l (s.station l).answered (.verdict (BitVec.ofNat 8 k) tag .pass 0 0) t ∧ t.ring = s.ringReleased
        (some k) ∧ t.port.causes = u.port.causes ∧ t.garments = u.garments ∧ s.sameBut [.garments, .stations, .ring,
            .causes, .messages] t := by
  intro t
  have es : u.stations = s.stations.set l (s.station l).answered := by rw [hu]
  have esent : u.sent = s.sent ++ [⟨l, .verdict (BitVec.ofNat 8 k) tag .pass 0 0⟩] := by rw [hu]
  have er : u.ring = s.ring := by rw [hu]
  have el : u.limits = s.limits := by rw [hu]
  have eo : u.orders = s.orders := by rw [hu]
  have ep : u.port = { s.port with causes := u.port.causes } := by rw [hu]
  have fp : t.port = u.port := finish_port_eq (a := u.setHeld k false) (show u.orders.freeCells = _ by rw [eo])
      (show u.limits = _ from el)
  refine ⟨Answers.mk' ?_ ?_, ?_, ?_, ?_, ?_⟩
  · exact (finish_stations ..).trans es
  · exact (finish_sent ..).trans esent
  · show ((u.setHeld k false).finish s).ring = _
    rw [finish_ring]
    have sr : (u.setHeld k false).ring = (s.releaseHold (some k)).ring := by
      show (u.modifyPlaten k _).ring = (s.modifyPlaten k _).ring
      unfold State.modifyPlaten State.platen; simp only [er]
    exact settle_ring sr el
  · rw [fp]
  · exact finish_garments ..
  · constructor
    all_goals first | (intro hc; simp at hc; done) | skip
    · intro _; exact (finish_orders ..).trans (show u.orders = _ by rw [hu])
    · intro _; exact (finish_sched ..).trans (show u.sched = _ by rw [hu])
    · intro _; exact (finish_refs ..).trans (show u.refs = _ by rw [hu])
    · intro _; exact (finish_meter ..).trans (show u.meter = _ by rw [hu])
    · intro _; exact (finish_cure ..).trans (show u.cure = _ by rw [hu])
    · intro _; exact (finish_bins ..).trans (show u.bins = _ by rw [hu])
    · intro _; exact (finish_limits ..).trans (show u.limits = _ by rw [hu])
    · intro _; rw [fp, ep]; exact ⟨rfl, rfl⟩
    · intro _; rw [fp, ep]; refine ⟨rfl, rfl, rfl, ?_⟩; exact (finish_shifted ..).trans (show u.shifted = _ by rw [hu])
    · intro _; exact (finish_freeReads ..).trans (show u.freeReads = _ by rw [hu])
    · exact (finish_pending ..).trans (show u.pending = _ by rw [hu])

end Sys2Proof.Machine
end

