-- ==== Sys2Proof/Laws/Offering.lean ====
section
/-! SUPPORT. Laws/Offering.lean: the choice, the binding of an orphan and the offering in the terms of Sys2Proof/Safety.lean:
a choice takes the line that `State.Chosen` says, and an offering is an `Offering` of the orphans in their order. -/

namespace Sys2Proof.Machine

/-! ## The candidates -/

theorem fits_iff {l : Line} {sku : Nat} {design : Option Nat} :
    l.fits sku design = true ↔
      l.sku = sku ∧ l.state = .active ∧ l.inFlight + l.binned < l.quantity ∧ ∀ d, design = some d → l.design = d := by
  have demand : 0 < l.demand ↔ l.inFlight + l.binned < l.quantity := by unfold Line.demand; omega
  unfold Line.fits
  simp only [Bool.and_eq_true, Bool.or_eq_true, beq_iff_eq, decide_eq_true_eq, demand, and_assoc]
  cases design with
  | none => simp
  | some d => simp [eq_comm]

/-- The candidates of one order are the lines of the set that fit, from index `n` on. -/
theorem mem_lineCandidates {c : Scheduler} {set : LineSet} {sku : Nat} {design : Option Nat} {slot : Nat} {o : Order}
    {n : Nat} {ls : List Line} {x : Candidate} :
    x ∈ lineCandidates c set sku design slot o n ls ↔ ∃ j l, ls[j]? = some l ∧ set.has slot (n + j) = true ∧
      l.fits sku design = true ∧ x = ⟨slot, n + j, c.classOf o.level, o.admission⟩ := by
  induction ls generalizing n with
  | nil => simp [lineCandidates]
  | cons l ls ih =>
    have shift : (∃ j m, (l :: ls)[j]? = some m ∧ set.has slot (n + j) = true ∧ m.fits sku design = true ∧
          x = ⟨slot, n + j, c.classOf o.level, o.admission⟩) ↔
        (set.has slot n = true ∧ l.fits sku design = true ∧ x = ⟨slot, n, c.classOf o.level, o.admission⟩) ∨
          ∃ j m, ls[j]? = some m ∧ set.has slot (n + 1 + j) = true ∧ m.fits sku design = true ∧
            x = ⟨slot, n + 1 + j, c.classOf o.level, o.admission⟩ := by
      constructor
      · rintro ⟨j, m, hm, h⟩
        cases j with
        | zero => simp only [List.getElem?_cons_zero, Option.some.injEq] at hm; subst hm; exact .inl h
        | succ j =>
          refine .inr ⟨j, m, by simpa using hm, ?_⟩
          rwa [show n + 1 + j = n + (j + 1) by omega]
      · rintro (h | ⟨j, m, hm, h⟩)
        · exact ⟨0, l, rfl, h⟩
        · refine ⟨j + 1, m, by simpa using hm, ?_⟩
          rwa [show n + (j + 1) = n + 1 + j by omega]
    rw [shift, lineCandidates]
    split
    · rename_i h
      simp only [Bool.and_eq_true] at h
      rw [List.mem_cons, ih]
      simp [h.1, h.2]
    · rename_i h
      rw [ih, or_iff_right]
      rintro ⟨a, b, -⟩
      exact h (by simp [a, b])

/-- They stand in order of line. -/
theorem lineCandidates_order (c : Scheduler) (set : LineSet) (sku : Nat) (design : Option Nat) (slot : Nat) (o : Order)
    (n : Nat) (ls : List Line) :
    (lineCandidates c set sku design slot o n ls).Pairwise fun a b => a.slot = b.slot ∧ a.line < b.line := by
  induction ls generalizing n with
  | nil => exact .nil
  | cons l ls ih =>
    rw [lineCandidates]
    split
    · refine .cons (fun x hx => ?_) (ih _)
      obtain ⟨j, m, -, -, -, rfl⟩ := mem_lineCandidates.mp hx
      exact ⟨rfl, by dsimp only; omega⟩
    · exact ih _

theorem wf_pairwise {α : Type} {t : Table α} (h : t.wf = true) : t.Pairwise fun a b => a.1 < b.1 := by
  induction t with
  | nil => exact .nil
  | cons e t ih =>
    obtain ⟨k, v⟩ := e
    rw [wf_cons, Bool.and_eq_true] at h
    refine .cons (fun e he => ?_) (ih h.2)
    have := h.1
    simp only [above, List.all_eq_true, decide_eq_true_eq] at this
    exact this e he

variable {s : State} {set : LineSet} {sku : Nat} {design : Option Nat}

/-- The candidates are the lines that want the garment, with their class and admission sequence (R48). -/
theorem mem_candidates (wf : s.orders.slots.wf = true) {x : Candidate} :
    x ∈ s.candidates set sku design ↔
      ∃ o l, s.Wants set sku design x.slot x.line o l ∧ x.cls = s.classOf o ∧ x.admission = o.admission := by
  unfold State.candidates
  rw [List.mem_flatMap]
  constructor
  · rintro ⟨⟨k, o⟩, he, hx⟩
    dsimp only at hx
    split at hx
    · rename_i takes
      obtain ⟨j, l, hl, hs, hf, rfl⟩ := mem_lineCandidates.mp hx
      obtain ⟨h1, h2, h3, h4⟩ := fits_iff.mp hf
      simp only [Nat.zero_add] at hs ⊢
      refine ⟨o, l, ⟨find_of_mem wf he, hl, hs, ?_, h2, h1, h4, h3⟩, rfl, rfl⟩
      simpa [Order.takes] using takes
    · cases hx
  · rintro ⟨o, l, w, hc, ha⟩
    refine ⟨(x.slot, o), mem_of_find w.order, ?_⟩
    have takes : o.takes = true := by simpa [Order.takes] using w.taking
    dsimp only
    rw [if_pos takes, mem_lineCandidates]
    refine ⟨x.line, l, w.line, by simpa using w.inSet, fits_iff.mpr ⟨w.sku, w.active, w.demand, w.design⟩, ?_⟩
    cases x
    simp only [Candidate.mk.injEq, Nat.zero_add, true_and]
    exact ⟨hc, ha⟩

/-- They stand in order of slot and line. -/
theorem candidates_order (wf : s.orders.slots.wf = true) :
    (s.candidates set sku design).Pairwise fun a b => a.slot < b.slot ∨ (a.slot = b.slot ∧ a.line < b.line) := by
  have slot : ∀ (e : Nat × Order) (x : Candidate), x ∈ (if e.2.takes then
      lineCandidates s.sched set sku design e.1 e.2 0 e.2.lines else []) → x.slot = e.1 := by
    intro e x hx
    split at hx
    · obtain ⟨_, _, -, -, -, rfl⟩ := mem_lineCandidates.mp hx
      rfl
    · cases hx
  unfold State.candidates
  rw [List.pairwise_flatMap]
  refine ⟨fun e _ => ?_, (wf_pairwise wf).imp fun {a b} h x hx y hy => ?_⟩
  · split
    · exact (lineCandidates_order ..).imp fun h => .inr h
    · exact .nil
  · rw [slot a x hx, slot b y hy]
    exact .inl h

theorem candidates_nil (wf : s.orders.slots.wf = true) :
    s.candidates set sku design = [] ↔ ∀ slot i o l, ¬ s.Wants set sku design slot i o l := by
  rw [List.eq_nil_iff_forall_not_mem]
  constructor
  · intro h slot i o l w
    exact h ⟨slot, i, s.classOf o, o.admission⟩ ((mem_candidates wf).mpr ⟨o, l, w, rfl, rfl⟩)
  · intro h x hx
    obtain ⟨o, l, w, -⟩ := (mem_candidates wf).mp hx
    exact h _ _ o l w

/-! ## The choice -/

theorem earliest_eq_none {cs : List Candidate} : earliest cs = none ↔ cs = [] := by
  cases cs with
  | nil => simp [earliest]
  | cons c cs =>
    rw [earliest]
    cases earliest cs with
    | none => simp
    | some d => dsimp only; split <;> simp

/-- The earliest candidate is of the lowest admission sequence, and stands first among its equals (R53). -/
theorem earliest_spec {R : Candidate → Candidate → Prop} {cs : List Candidate} {x : Candidate} (order : cs.Pairwise R)
    (h : earliest cs = some x) :
    x ∈ cs ∧ ∀ y ∈ cs, x.admission < y.admission ∨ (x.admission = y.admission ∧ (y = x ∨ R x y)) := by
  induction cs generalizing x with
  | nil => cases h
  | cons c cs ih =>
    obtain ⟨hc, hcs⟩ := List.pairwise_cons.mp order
    rw [earliest] at h
    cases he : earliest cs with
    | none =>
      rw [earliest_eq_none] at he
      subst he
      cases h
      exact ⟨List.mem_cons_self, fun y hy => by simp at hy; subst hy; exact .inr ⟨rfl, .inl rfl⟩⟩
    | some d =>
      obtain ⟨hd, hmin⟩ := ih hcs he
      simp only [he] at h
      split at h
      · cases h
        refine ⟨List.mem_cons_of_mem _ hd, fun y hy => ?_⟩
        rcases List.mem_cons.mp hy with rfl | hy
        · left; assumption
        · exact hmin y hy
      · cases h
        refine ⟨List.mem_cons_self, fun y hy => ?_⟩
        rcases List.mem_cons.mp hy with rfl | hy
        · exact .inr ⟨rfl, .inl rfl⟩
        · have := hc y hy
          rcases hmin y hy with lt | ⟨eq, -⟩
          · left; omega
          · rcases Nat.lt_or_ge c.admission y.admission with lt | ge
            · exact .inl lt
            · exact .inr ⟨by omega, .inr this⟩

/-- The highest class of a kind, and none only where no class is of it. -/
theorem find_classesDown {p : Nat → Bool} {k : Nat} (h : classesDown.find? p = some k) :
    k ≤ 3 ∧ p k = true ∧ ∀ j, k < j → j ≤ 3 → p j = false := by
  simp only [classesDown, List.find?_cons, List.find?_nil] at h
  have done : ∀ n, n ≤ 3 → p n = true → (∀ j, n < j → j ≤ 3 → p j = false) → n = k →
      k ≤ 3 ∧ p k = true ∧ ∀ j, k < j → j ≤ 3 → p j = false := by
    rintro n a b c rfl
    exact ⟨a, b, c⟩
  cases h3 : p 3
  · cases h2 : p 2
    · cases h1 : p 1
      · cases h0 : p 0
        · simp [h3, h2, h1, h0] at h
        · refine done 0 (by omega) h0 (fun j a b => ?_) (by simpa [h3, h2, h1, h0] using h)
          interval_cases j <;> assumption
      · refine done 1 (by omega) h1 (fun j a b => ?_) (by simpa [h3, h2, h1] using h)
        interval_cases j <;> assumption
    · refine done 2 (by omega) h2 (fun j a b => ?_) (by simpa [h3, h2] using h)
      interval_cases j; assumption
  · exact done 3 (by omega) h3 (fun j a b => by omega) (by simpa [h3] using h)

theorem find_classesDown_none {p : Nat → Bool} (h : classesDown.find? p = none) : ∀ j, j ≤ 3 → p j = false := by
  simp only [classesDown, List.find?_eq_none, List.mem_cons, List.not_mem_nil, or_false, Bool.not_eq_true] at h
  intro j hj
  apply h
  omega

theorem getD_all {l : List Nat} {p : Nat → Prop} {n : Nat} (h : ∀ x ∈ l, p x) (hn : n < l.length) (d : Nat) :
    p (l.getD n d) := by
  rw [List.getD_eq_getElem?_getD, List.getElem?_eq_getElem hn]
  exact h _ (List.getElem_mem hn)

theorem class_le (safe : s.sched.Safe) (o : Order) : s.classOf o ≤ 3 := by
  unfold State.classOf
  by_cases h : o.level < s.sched.classMap.length
  · exact getD_all (p := (· ≤ 3)) safe.map h 0
  · rw [List.getD_eq_getElem?_getD, List.getElem?_eq_none (by omega)]
    exact Nat.zero_le 3

theorem weight_pos (safe : s.sched.Safe) {k : Nat} (h : k ≤ 3) : 0 < s.sched.weights.getD k 0 :=
  getD_all (p := (0 < ·)) (fun w hw => (safe.weights w hw).1) (by rw [safe.weightsLength]; omega) 0

theorem holds_iff (wf : s.orders.slots.wf = true) {k : Nat} :
    holdsCandidate (s.candidates set sku design) k = true ↔
      ∃ slot i o l, s.Wants set sku design slot i o l ∧ s.classOf o = k := by
  unfold holdsCandidate
  rw [List.any_eq_true]
  constructor
  · rintro ⟨x, hx, hk⟩
    obtain ⟨o, l, w, hc, -⟩ := (mem_candidates wf).mp hx
    exact ⟨_, _, o, l, w, hc ▸ by simpa using hk⟩
  · rintro ⟨slot, i, o, l, w, rfl⟩
    exact ⟨⟨slot, i, s.classOf o, o.admission⟩, (mem_candidates wf).mpr ⟨o, l, w, rfl, rfl⟩, by simp⟩

/-- The earliest candidate of a class is the line that R53 gives. -/
theorem earliestOf_spec (wf : s.orders.slots.wf = true) {k : Nat} {x : Candidate}
    (h : earliestOf (s.candidates set sku design) k = some x) :
    ∃ o l, s.Wants set sku design x.slot x.line o l ∧ s.classOf o = k ∧
      ∀ slot i o' l', s.Wants set sku design slot i o' l' → s.classOf o' = k → o.admission < o'.admission ∨
        (o.admission = o'.admission ∧ (x.slot < slot ∨ (x.slot = slot ∧ x.line ≤ i))) := by
  obtain ⟨hx, hmin⟩ := earliest_spec ((candidates_order wf).filter _) h
  rw [List.mem_filter] at hx
  obtain ⟨o, l, w, hc, ha⟩ := (mem_candidates wf).mp hx.1
  refine ⟨o, l, w, hc ▸ by simpa using hx.2, fun slot i o' l' w' hk => ?_⟩
  have := hmin ⟨slot, i, s.classOf o', o'.admission⟩
    (List.mem_filter.mpr ⟨(mem_candidates wf).mpr ⟨o', l', w', rfl, rfl⟩, by simp [hk]⟩)
  rw [ha] at this
  rcases this with lt | ⟨eq, rfl | h⟩
  · exact .inl lt
  · exact .inr ⟨eq, .inr ⟨rfl, Nat.le_refl _⟩⟩
  · refine .inr ⟨eq, ?_⟩
    dsimp only at h
    omega

/-- A choice takes the line that `State.Chosen` says, and changes the credits alone (R51 to R53). -/
theorem choose_chosen (wf : s.orders.slots.wf = true) (safe : s.sched.Safe) {x : Candidate} {c : Scheduler}
    (h : s.sched.choose (s.candidates set sku design) = some (x, c)) :
    c = { s.sched with credits := c.credits } ∧
      ∃ o l, s.Chosen set sku design x.slot x.line o l c.credits := by
  have le : ∀ {k : Nat}, (∀ j, k < j → j ≤ 3 → holdsCandidate (s.candidates set sku design) j = false) →
      ∀ slot i o l, s.Wants set sku design slot i o l → s.classOf o ≤ k := by
    intro k hk slot i o l w
    by_contra hn
    have := hk _ (by omega) (class_le safe o)
    rw [(holds_iff wf).mpr ⟨slot, i, o, l, w, rfl⟩] at this
    cases this
  unfold Scheduler.choose at h
  split at h
  · rename_i mode
    split at h
    · cases h
    · rename_i k hk
      simp only [Option.map_eq_some_iff, Prod.mk.injEq] at h
      obtain ⟨y, hy, rfl, rfl⟩ := h
      obtain ⟨o, l, w, hc, first⟩ := earliestOf_spec wf hy
      obtain ⟨-, -, high⟩ := find_classesDown hk
      exact ⟨rfl, o, l, w, hc ▸ first, fun _ => ⟨rfl, hc ▸ le high⟩, fun m => by simp [mode] at m⟩
  · rename_i mode
    split at h
    · rename_i k hk
      simp only [Option.map_eq_some_iff, Prod.mk.injEq] at h
      obtain ⟨y, hy, rfl, rfl⟩ := h
      obtain ⟨o, l, w, hc, first⟩ := earliestOf_spec wf hy
      obtain ⟨-, hp, high⟩ := find_classesDown hk
      simp only [Bool.and_eq_true, decide_eq_true_eq] at hp
      refine ⟨rfl, o, l, w, hc ▸ first, fun m => by simp [mode] at m, fun _ => .inl ⟨hc ▸ hp.2, hc ▸ rfl, ?_⟩⟩
      intro slot i o' l' w' lt
      have := high _ (hc ▸ lt) (class_le safe o')
      rw [(holds_iff wf).mpr ⟨slot, i, o', l', w', rfl⟩] at this
      simpa [Scheduler.credit] using this
    · rename_i none₁
      split at h
      · rename_i k hk
        simp only [Option.map_eq_some_iff, Prod.mk.injEq] at h
        obtain ⟨y, hy, rfl, rfl⟩ := h
        obtain ⟨o, l, w, hc, first⟩ := earliestOf_spec wf hy
        obtain ⟨-, -, high⟩ := find_classesDown hk
        refine ⟨rfl, o, l, w, hc ▸ first, fun m => by simp [mode] at m, fun _ => .inr ⟨hc ▸ rfl, ?_⟩⟩
        intro slot i o' l' w'
        refine ⟨hc ▸ le (fun j lt hj => ?_) slot i o' l' w', ?_⟩
        · have := high j lt hj
          rw [Bool.and_eq_false_iff] at this
          refine this.resolve_right fun hf => ?_
          simp only [decide_eq_false_iff_not] at hf
          exact hf (weight_pos safe hj)
        · have := find_classesDown_none none₁ _ (class_le safe o')
          rw [(holds_iff wf).mpr ⟨slot, i, o', l', w', rfl⟩] at this
          simpa [Scheduler.credit] using this
      · cases h

/-- A choice finds none only where no line wants the garment (R51, R52). -/
theorem choose_none (wf : s.orders.slots.wf = true) (safe : s.sched.Safe)
    (h : s.sched.choose (s.candidates set sku design) = none) :
    ∀ slot i o l, ¬ s.Wants set sku design slot i o l := by
  intro slot i o l w
  have hold : holdsCandidate (s.candidates set sku design) (s.classOf o) = true :=
    (holds_iff wf).mpr ⟨slot, i, o, l, w, rfl⟩
  have found : ∀ k, holdsCandidate (s.candidates set sku design) k = true →
      ∃ x, earliestOf (s.candidates set sku design) k = some x := by
    intro k hk
    cases he : earliestOf (s.candidates set sku design) k with
    | some x => exact ⟨x, rfl⟩
    | none =>
      unfold earliestOf at he
      rw [earliest_eq_none, List.filter_eq_nil_iff] at he
      unfold holdsCandidate at hk
      obtain ⟨y, hy, hp⟩ := List.any_eq_true.mp hk
      exact absurd hp (he y hy)
  unfold Scheduler.choose at h
  split at h
  · split at h
    · rename_i hn
      rw [find_classesDown_none hn _ (class_le safe o)] at hold
      cases hold
    · rename_i k hk
      obtain ⟨x, hx⟩ := found k (find_classesDown hk).2.1
      simp [hx] at h
  · split at h
    · rename_i k hk
      have := (find_classesDown hk).2.1
      simp only [Bool.and_eq_true] at this
      obtain ⟨x, hx⟩ := found k this.1
      simp [hx] at h
    · split at h
      · rename_i k hk
        have := (find_classesDown hk).2.1
        simp only [Bool.and_eq_true] at this
        obtain ⟨x, hx⟩ := found k this.1
        simp [hx] at h
      · rename_i hn
        have := find_classesDown_none hn _ (class_le safe o)
        rw [hold, Bool.true_and, decide_eq_false_iff_not] at this
        exact this (weight_pos safe (class_le safe o))

/-! ## The binding of an orphan -/

/-- The record of R54, worked out in any state that agrees on classes, pulse size and the areas of the designs. -/
theorem repulse_eq {u : State} {g : Garment} {b : Binding} {design : Nat} (classes : u.refs.classes = s.refs.classes)
    (meter : u.meter = s.meter) (area : ∀ d, (u.designEntry d).area = (s.designEntry d).area) :
    u.repulse { g with binding := some b, design := design } = s.boundRecord g b design := by
  have entry : ∀ c, u.classEntry c = s.classEntry c := fun c => by unfold State.classEntry; rw [classes]
  have full : u.fullPulses design g.cls = s.fullPulses design g.cls := by
    unfold State.fullPulses
    rw [area, entry, meter]
  unfold State.repulse State.boundRecord
  by_cases blank : g.stage = .blank
  · by_cases rate : 0 < (s.classEntry g.cls).rate
    · by_cases done : s.fullPulses design g.cls * 9 ≤ g.delivered * 10
      · simp [blank, rate, done, full, entry, Garment.treatIfComplete, Garment.completes]
      · simp [blank, done, full, entry, Garment.treatIfComplete, Garment.completes]
    · simp [blank, rate, full, entry]
  · simp [blank]

theorem area_countDesign (s : State) (k : Nat) (f : Nat → Nat) (d : Nat) :
    ((s.countDesign k f).designEntry d).area = (s.designEntry d).area := by
  unfold State.designEntry State.countDesign
  dsimp only
  rw [find_modify]
  split
  · rename_i e
    subst e
    cases s.refs.designs.find d <;> rfl
  · rfl

theorem area_moveDesign (s : State) (a b d : Nat) : ((s.moveDesign a b).designEntry d).area = (s.designEntry d).area := by
  unfold State.moveDesign
  split
  · rfl
  · rw [area_countDesign, area_countDesign]

/-- `bindGarment` binds an orphan as R54 says. -/
theorem bindGarment_orphan {tag : Tag} {pos slot i : Nat} {g : Garment} {l : Line} {credits : List Nat}
    (live : s.findTag tag = some (pos, g)) (free : g.binding = none) (line : s.line slot i = some l) :
    s.BindsOrphan pos g slot i l.design credits
      ({ s with sched := { s.sched with credits := credits } }.bindGarment tag slot i) := by
  have e : { s with sched := { s.sched with credits := credits } }.bindGarment tag slot i =
      (({ s with sched := { s.sched with credits := credits } }.modifyLine slot i Line.raiseF).moveDesign g.design
        l.design).putRecord pos (s.boundRecord g ⟨slot, i⟩ l.design) := by
    have hf : ({ s with sched := { s.sched with credits := credits } } : State).findTag tag = some (pos, g) := live
    have hl : ({ s with sched := { s.sched with credits := credits } } : State).line slot i = some l := line
    unfold State.bindGarment
    rw [hf, hl]
    dsimp only
    rw [free]
    change State.putRecord _ pos _ = _
    rw [repulse_eq (s := s)]
    · rfl
    · unfold State.moveDesign; split <;> rfl
    · unfold State.moveDesign; split <;> rfl
    · intro d; rw [area_moveDesign]; rfl
  rw [e]
  have orders : ∀ k, (s.modifyLine slot i Line.raiseF).order k = (s.order k).map fun o =>
      if k = slot then { o with lines := modifyAt o.lines i fun l => { l with inFlight := l.inFlight + 1 } } else o := by
    intro k
    unfold State.modifyLine State.modifyOrder State.order
    dsimp only
    rw [find_modify]
    by_cases h : k = slot
    · subst h
      simp only [if_true]
      rfl
    · simp only [h, if_false]
      cases s.orders.slots.find k <;> rfl
  by_cases hd : g.design = l.design
  · have m : ∀ u : State, u.moveDesign g.design l.design = u := fun u => by unfold State.moveDesign; rw [if_pos hd]
    rw [m]
    refine ⟨rfl, orders, rfl, rfl, fun d => ?_, rfl, ?_⟩
    · change s.refs.designs.find d = _
      cases s.refs.designs.find d <;> simp [hd]
    · constructor <;> intros <;> first | rfl | exact ⟨rfl, rfl⟩ | exact ⟨rfl, rfl, rfl, rfl⟩ | simp_all
  · have m : ∀ u : State, u.moveDesign g.design l.design =
        (u.countDesign g.design down1).countDesign l.design up1 := fun u => by
      unfold State.moveDesign; rw [if_neg hd]
    rw [m]
    refine ⟨rfl, orders, rfl, rfl, fun d => ?_, rfl, ?_⟩
    · change Table.find (Table.modify (Table.modify s.refs.designs g.design _) l.design _) d = _
      by_cases h1 : d = g.design
      · subst h1
        rw [find_modify_ne _ hd, find_modify_same]
        generalize s.refs.designs.find g.design = r
        cases r <;> simp [hd, down1]
      · by_cases h2 : d = l.design
        · subst h2
          rw [find_modify_same, find_modify_ne _ h1]
          generalize s.refs.designs.find l.design = r
          cases r <;> simp [hd, h1, up1]
        · rw [find_modify_ne _ h2, find_modify_ne _ h1]
          generalize s.refs.designs.find d = r
          cases r <;> simp [hd, h1, h2]
    · constructor <;> intros <;> first | rfl | exact ⟨rfl, rfl⟩ | exact ⟨rfl, rfl, rfl, rfl⟩ | simp_all

/-! ## The orphans -/

theorem mem_insertBy {α : Type} {key : α → Nat} {x y : α} {l : List α} : y ∈ insertBy key x l ↔ y = x ∨ y ∈ l := by
  induction l with
  | nil => simp [insertBy]
  | cons z l ih =>
    rw [insertBy]
    split
    · simp
    · simp only [List.mem_cons, ih]; tauto

theorem mem_sortBy {α : Type} {key : α → Nat} {y : α} {l : List α} : y ∈ sortBy key l ↔ y ∈ l := by
  induction l with
  | nil => simp [sortBy]
  | cons x l ih => rw [sortBy, mem_insertBy, List.mem_cons, ih]

/-- A sorted list is in order of its key, and of equals in the order that stood. -/
theorem sortBy_order {α : Type} {key : α → Nat} {R : α → α → Prop} {l : List α} (h : l.Pairwise R) :
    (sortBy key l).Pairwise fun a b => key a < key b ∨ (key a = key b ∧ R a b) := by
  have insert : ∀ (x : α) (ys : List α), (∀ y ∈ ys, R x y) →
      (ys.Pairwise fun a b => key a < key b ∨ (key a = key b ∧ R a b)) →
      (insertBy key x ys).Pairwise fun a b => key a < key b ∨ (key a = key b ∧ R a b) := by
    intro x ys hx hs
    induction ys with
    | nil => exact List.pairwise_singleton ..
    | cons y ys ih =>
      obtain ⟨hy, hys⟩ := List.pairwise_cons.mp hs
      rw [insertBy]
      split
      · rename_i le
        refine .cons (fun z hz => ?_) hs
        have := hx z hz
        rcases List.mem_cons.mp hz with rfl | hz
        · rcases Nat.lt_or_eq_of_le le with lt | eq
          · exact .inl lt
          · exact .inr ⟨eq, this⟩
        · rcases hy z hz with lt | ⟨eq, -⟩
          · left; omega
          · rcases Nat.lt_or_eq_of_le (eq ▸ le) with lt | eq
            · exact .inl lt
            · exact .inr ⟨eq, this⟩
      · rename_i nle
        refine .cons (fun z hz => ?_) (ih (fun z hz => hx z (List.mem_cons_of_mem _ hz)) hys)
        rcases mem_insertBy.mp hz with rfl | hz
        · left; omega
        · exact hy z hz
  induction l with
  | nil => exact .nil
  | cons x l ih =>
    obtain ⟨hx, hl⟩ := List.pairwise_cons.mp h
    exact insert x _ (fun y hy => hx y (mem_sortBy.mp hy)) (ih hl)

theorem mem_liveGarments (wf : s.garments.records.wf = true) {g : Garment} :
    g ∈ s.liveGarments ↔ ∃ pos, s.garments.records.find pos = some g := by
  unfold State.liveGarments
  rw [List.mem_map]
  constructor
  · rintro ⟨e, he, rfl⟩
    exact ⟨e.1, find_of_mem wf he⟩
  · rintro ⟨pos, h⟩
    exact ⟨(pos, g), mem_of_find h, rfl⟩

/-- The live records stand in order of position. -/
theorem liveGarments_order (wf : s.garments.records.wf = true) (tags : TagsSafe s) :
    s.liveGarments.Pairwise fun g h => ∀ p q,
      s.garments.records.find p = some g → s.garments.records.find q = some h → p < q := by
  unfold State.liveGarments
  rw [List.pairwise_map]
  refine (wf_pairwise wf).imp_of_mem fun {a b} ha hb h p q hp hq => ?_
  rw [tags.single p a.1 _ _ hp (find_of_mem wf ha) rfl, tags.single q b.1 _ _ hq (find_of_mem wf hb) rfl]
  exact h

theorem offerable_iff {g : Garment} : s.offerable g = true ↔
    g.kind = .order ∧ g.binding = none ∧ g.spoiled = false ∧ ∀ l v, s.verdictOf l = some v → v.tag ≠ g.tag := by
  have named : s.namedInVerdict g.tag = false ↔ ∀ l v, s.verdictOf l = some v → v.tag ≠ g.tag := by
    unfold State.namedInVerdict
    rw [List.any_eq_false]
    constructor
    · intro h l v hv e
      have := h l (by cases l <;> decide)
      simp [State.namedBy, hv, e] at this
    · intro h l _
      unfold State.namedBy
      split
      · rename_i v hv
        simpa using h l v hv
      · simp
  unfold State.offerable
  simp only [Bool.and_eq_true, beq_iff_eq, Bool.not_eq_true', named, and_assoc]

/-- The tags that an offering takes of one group, in load sequence order with ties by position. -/
theorem tagsInLoadOrder_spec (wf : s.garments.records.wf = true) (tags : TagsSafe s) (keep : Garment → Bool) :
    (∀ tag, tag ∈ s.tagsInLoadOrder keep ↔ ∃ pos g, s.garments.records.find pos = some g ∧ g.tag = tag ∧ keep g = true) ∧
      (s.tagsInLoadOrder keep).Pairwise fun a b => ∀ p g q h, s.garments.records.find p = some g → g.tag = a →
        s.garments.records.find q = some h → h.tag = b → g.loadSeq < h.loadSeq ∨ (g.loadSeq = h.loadSeq ∧ p < q) := by
  have live : ∀ g, g ∈ sortBy Garment.loadSeq (s.liveGarments.filter keep) ↔
      (∃ pos, s.garments.records.find pos = some g) ∧ keep g = true := fun g => by
    rw [mem_sortBy, List.mem_filter, mem_liveGarments wf]
  unfold State.tagsInLoadOrder
  refine ⟨fun tag => ?_, ?_⟩
  · rw [List.mem_map]
    constructor
    · rintro ⟨g, hg, rfl⟩
      obtain ⟨⟨pos, hp⟩, hk⟩ := (live g).mp hg
      exact ⟨pos, g, hp, rfl, hk⟩
    · rintro ⟨pos, g, hp, rfl, hk⟩
      exact ⟨g, (live g).mpr ⟨⟨pos, hp⟩, hk⟩, rfl⟩
  · rw [List.pairwise_map]
    refine (sortBy_order ((liveGarments_order wf tags).filter keep)).imp_of_mem ?_
    intro a b ha hb h p g q k hp ga hq kb
    obtain ⟨⟨p', hp'⟩, -⟩ := (live a).mp ha
    obtain ⟨⟨q', hq'⟩, -⟩ := (live b).mp hb
    obtain rfl := tags.single p p' g a hp hp' ga
    obtain rfl := tags.single q q' k b hq hq' kb
    rw [hp] at hp'
    rw [hq] at hq'
    cases hp'
    cases hq'
    exact h.imp id fun e => ⟨e.1, e.2 p q hp hq⟩

/-- The orphans are taken in the order of R62. -/
theorem orphans_order (wf : s.garments.records.wf = true) (tags : TagsSafe s) : s.OfferOrder s.orphans := by
  have first := tagsInLoadOrder_spec wf tags fun g => s.offerable g && g.stage == .printed
  have second := tagsInLoadOrder_spec wf tags fun g => s.offerable g && g.stage != .printed
  have stage : ∀ {keep : Garment → Bool} {tag : Tag} {p : Nat} {g : Garment},
      (∃ pos x, s.garments.records.find pos = some x ∧ x.tag = tag ∧ keep x = true) →
      s.garments.records.find p = some g → g.tag = tag → keep g = true := by
    rintro keep tag p g ⟨pos, x, hx, ht, hk⟩ hp hg
    obtain rfl := tags.single p pos g x hp hx (hg.trans ht.symm)
    rw [hp] at hx
    cases hx
    exact hk
  refine ⟨fun tag => ?_, ?_⟩
  · unfold State.orphans
    rw [List.mem_append, first.1, second.1]
    simp only [Bool.and_eq_true, offerable_iff, bne_iff_ne, beq_iff_eq]
    constructor
    · rintro (⟨pos, g, hp, rfl, ⟨a, b, c, d⟩, -⟩ | ⟨pos, g, hp, rfl, ⟨a, b, c, d⟩, -⟩) <;>
        exact ⟨pos, g, hp, rfl, a, b, c, d⟩
    · rintro ⟨pos, g, hp, rfl, a, b, c, d⟩
      by_cases h : g.stage = .printed
      · exact .inl ⟨pos, g, hp, rfl, ⟨a, b, c, d⟩, h⟩
      · exact .inr ⟨pos, g, hp, rfl, ⟨a, b, c, d⟩, h⟩
  · unfold State.orphans
    rw [List.pairwise_append]
    refine ⟨first.2.imp_of_mem ?_, second.2.imp_of_mem ?_, ?_⟩
    · intro a b ha hb h p g q k hp hg hq hk
      have := stage ((first.1 a).mp ha) hp hg
      have := stage ((first.1 b).mp hb) hq hk
      simp_all
    · intro a b ha hb h p g q k hp hg hq hk
      have := stage ((second.1 a).mp ha) hp hg
      have := stage ((second.1 b).mp hb) hq hk
      simp_all
    · intro a ha b hb p g q k hp hg hq hk
      have := stage ((first.1 a).mp ha) hp hg
      have := stage ((second.1 b).mp hb) hq hk
      simp_all

theorem State.OfferOrder.nodup {l : List Tag} (h : s.OfferOrder l) : l.Nodup := by
  refine h.inOrder.imp_of_mem fun {a b} ha _ hr e => ?_
  subst e
  obtain ⟨p, g, hp, ht, -⟩ := (h.offerable a).mp ha
  rcases hr p g p g hp ht hp ht with ⟨x, y⟩ | ⟨-, x | ⟨-, x⟩⟩
  · exact y x
  · exact Nat.lt_irrefl _ x
  · exact Nat.lt_irrefl _ x

/-! ## The offering -/

/-- The fold of an offering is an `Offering`, as long as the tags are those of unbound garments, each once. -/
theorem offering_foldl (set : LineSet) (tags : List Tag) (nodup : tags.Nodup) (s : State) (n : Nat) (tables : TablesOk s)
    (single : TagsSafe s) (safe : s.sched.Safe)
    (free : ∀ tag ∈ tags, ∃ pos g, s.findTag tag = some (pos, g) ∧ g.binding = none) :
    ∃ m, (tags.foldl (State.offerOne set) (s, n)).2 = n + m ∧
      Offering set tags s (tags.foldl (State.offerOne set) (s, n)).1 m := by
  induction tags generalizing s n with
  | nil => exact ⟨0, rfl, .done s⟩
  | cons tag tags ih =>
    obtain ⟨notIn, nodup⟩ := List.nodup_cons.mp nodup
    obtain ⟨pos, g, live, unbound⟩ := free tag List.mem_cons_self
    rw [List.foldl_cons]
    cases hc : s.sched.choose (s.candidates set g.sku g.designWanted) with
    | none =>
      have e : State.offerOne set (s, n) tag = (s, n) := by
        unfold State.offerOne State.chooseAndBind
        simp only [live, hc]
        rfl
      rw [e]
      obtain ⟨m, hm, more⟩ := ih nodup s n tables single safe fun x hx => free x (List.mem_cons_of_mem _ hx)
      exact ⟨m, hm, .stays tag live (choose_none tables.slots safe hc) more⟩
    | some r =>
      obtain ⟨x, c⟩ := r
      obtain ⟨ec, o, l, chosen⟩ := choose_chosen tables.slots safe hc
      have line : s.line x.slot x.line = some l := by
        unfold State.line
        rw [chosen.wants.order]
        exact chosen.wants.line
      have bound := bindGarment_orphan (credits := c.credits) live unbound line
      rw [← ec] at bound
      have quiet := quiet_chooseAndBind s tag set
      have e : State.offerOne set (s, n) tag = ({ s with sched := c }.bindGarment tag x.slot x.line, n + 1) := by
        unfold State.offerOne State.chooseAndBind
        simp only [live, hc]
        rfl
      have e' : (s.chooseAndBind tag set).1 = { s with sched := c }.bindGarment tag x.slot x.line := by
        unfold State.chooseAndBind
        simp only [live, hc]
      rw [e'] at quiet
      rw [e]
      generalize { s with sched := c }.bindGarment tag x.slot x.line = u at bound quiet
      have others : ∀ y ∈ tags, ∃ p h, u.findTag y = some (p, h) ∧ h.binding = none := by
        intro y hy
        obtain ⟨p, h, hp, hb⟩ := free y (List.mem_cons_of_mem _ hy)
        obtain ⟨fp, ft, -⟩ := findTag_some hp
        obtain ⟨gp, gt, -⟩ := findTag_some live
        have ne : p ≠ pos := by
          rintro rfl
          rw [fp] at gp
          cases gp
          exact notIn (by rw [← gt, ft]; exact hy)
        have : u.garments.records.find p = some h := by
          rw [bound.record]
          exact (find_put_ne _ ne _).trans fp
        exact ⟨p, h, ft ▸ findTag_of_find (quiet.tags single) this, hb⟩
      obtain ⟨m, hm, more⟩ := ih nodup u (n + 1) (quiet.tables tables) (quiet.tags single) (quiet.sched safe) others
      exact ⟨m + 1, by rw [hm]; omega, .binds tag live chosen bound more⟩

/-- What an offering does, said once: it examines the orphans in the order of R62, and binds each to the line that R51 to
R53 choose among the set's, where one wants it (R60, R62). -/
theorem offers_offerCounted (set : LineSet) (tables : TablesOk s) (single : TagsSafe s) (safe : s.sched.Safe) :
    s.Offers set (s.offerCounted set).1 (s.offerCounted set).2 := by
  have order := orphans_order tables.records single
  refine ⟨s.orphans, order, ?_⟩
  obtain ⟨m, hm, h⟩ := offering_foldl set s.orphans order.nodup s 0 tables single safe fun tag htag => by
    obtain ⟨p, g, hp, ht, -, hb, -⟩ := (order.offerable tag).mp htag
    exact ⟨p, g, ht ▸ findTag_of_find single hp, hb⟩
  unfold State.offerCounted
  rw [hm, Nat.zero_add]
  exact h

end Sys2Proof.Machine
end

