-- ==== Sys2Proof/Laws/Retire.lean ====
section
/-! SUPPORT. Laws/Retire.lean: what a retirement does. The operations on bindings reach the garment records, the orders,
the credits and two of the reference counts, and nothing else (`Binds`, `Charges`); the removal of a record does what
`Removed` says; and a retirement gives back what `State.GivesBack` of Sys2Proof/Safety.lean says. -/

namespace Sys2Proof.Machine

variable (s : State)

/-! ## What the end of a binding can reach -/

/-- The state with everything blanked that the end of a binding may change. -/
def State.aside (s : State) : State :=
  { s with
    garments := { s.garments with records := [] }
    orders := { s.orders with slots := [], freeCells := 0 }
    sched := { s.sched with credits := [] }
    refs := { s.refs with skus := [], designs := [] }
    bins := { s.bins with records := [] }
    port := { s.port with causes := 0#16 } }

/-- Orders before and after garments are bound to them and taken off: all but F of their lines stands. -/
structure Binds (s t : State) : Prop where
  aside : t.aside = s.aside
  cells : t.orders.freeCells = s.orders.freeCells
  causes : t.port.causes = s.port.causes
  bins : t.bins = s.bins
  skus : t.refs.skus = s.refs.skus
  shape : ∀ k, (t.order k).map Order.clearF = (s.order k).map Order.clearF

theorem Binds.refl : Binds s s := ⟨rfl, rfl, rfl, rfl, rfl, fun _ => rfl⟩

theorem Binds.trans {s t u : State} (h : Binds s t) (k : Binds t u) : Binds s u :=
  ⟨k.aside.trans h.aside, k.cells.trans h.cells, k.causes.trans h.causes, k.bins.trans h.bins, k.skus.trans h.skus,
    fun j => (k.shape j).trans (h.shape j)⟩

theorem order_modifyOrder (k j : Nat) (f : Order → Order) :
    (s.modifyOrder k f).order j = if j = k then (s.order k).map f else s.order j := by
  unfold State.order State.modifyOrder
  dsimp only
  rw [find_modify]

theorem clearF_modifyAt (ls : List Line) (i : Nat) (f : Line → Line)
    (hf : ∀ l, { f l with inFlight := 0 } = { l with inFlight := 0 }) :
    (modifyAt ls i f).map (fun l => { l with inFlight := 0 }) = ls.map fun l => { l with inFlight := 0 } := by
  induction ls generalizing i with
  | nil => rfl
  | cons x xs ih =>
    cases i with
    | zero => simp [modifyAt, hf x]
    | succ i => simp only [modifyAt, List.map_cons, ih i]

theorem binds_modifyLine (k i : Nat) (f : Line → Line)
    (hf : ∀ l, { f l with inFlight := 0 } = { l with inFlight := 0 }) : Binds s (s.modifyLine k i f) := by
  refine ⟨rfl, rfl, rfl, rfl, rfl, fun j => ?_⟩
  unfold State.modifyLine
  rw [order_modifyOrder]
  split
  · rename_i e
    subst e
    cases s.order j with
    | none => rfl
    | some o =>
      simp only [Option.map_some, Option.some.injEq]
      unfold Order.clearF
      simp only [clearF_modifyAt _ _ _ hf]
  · rfl

theorem binds_leaveLine (b : Option Binding) : Binds s (s.leaveLine b) := by
  unfold State.leaveLine
  split
  · exact binds_modifyLine s _ _ _ fun _ => rfl
  · exact .refl s

theorem binds_moveDesign (a b : Nat) : Binds s (s.moveDesign a b) := by
  unfold State.moveDesign
  split
  · exact .refl s
  · exact ⟨rfl, rfl, rfl, rfl, rfl, fun _ => rfl⟩

theorem binds_putRecord (p : Nat) (g : Garment) : Binds s (s.putRecord p g) := ⟨rfl, rfl, rfl, rfl, rfl, fun _ => rfl⟩

theorem binds_bindGarment (t : Tag) (k n : Nat) : Binds s (s.bindGarment t k n) := by
  unfold State.bindGarment
  split
  · exact (((binds_leaveLine s _).trans (binds_modifyLine _ _ _ Line.raiseF fun _ => rfl)).trans
      (binds_moveDesign ..)).trans (binds_putRecord ..)
  · exact .refl s

theorem binds_unbindGarment (t : Tag) : Binds s (s.unbindGarment t) := by
  unfold State.unbindGarment
  split
  · exact (binds_leaveLine s _).trans (binds_putRecord ..)
  · exact .refl s

theorem binds_credits {c : Scheduler} {cs : List Candidate} {x : Candidate} (h : s.sched.choose cs = some (x, c)) :
    Binds s { s with sched := c } := by
  obtain ⟨h1, h2, h3⟩ := choose_keeps h
  refine ⟨?_, rfl, rfl, rfl, rfl, fun _ => rfl⟩
  unfold State.aside
  simp only [h1, h2, h3]

theorem binds_chooseAndBind (t : Tag) (set : LineSet) : Binds s (s.chooseAndBind t set).1 := by
  unfold State.chooseAndBind
  split
  · exact .refl s
  · split
    · exact .refl s
    · rename_i h
      exact (binds_credits s h).trans (binds_bindGarment ..)

theorem binds_offer (set : LineSet) : Binds s (s.offer set) := by
  unfold State.offer State.offerCounted
  generalize s.orphans = l
  generalize 0 = n
  induction l generalizing s n with
  | nil => exact .refl s
  | cons t l ih => exact (binds_chooseAndBind s t set).trans (ih _ _)

theorem binds_stageRule (t : Tag) : Binds s (s.stageRule t) := by
  unfold State.stageRule
  split
  · exact .refl s
  · split
    · exact binds_unbindGarment ..
    · dsimp only
      split
      · exact binds_chooseAndBind ..
      · exact (binds_chooseAndBind s t .all).trans (binds_unbindGarment ..)

/-- The state before and after a retired garment's binding is charged to its order: no order comes or goes, and none gets
or loses a line. -/
structure Charges (s t : State) : Prop where
  aside : t.aside = s.aside
  cells : t.orders.freeCells = s.orders.freeCells
  lines : ∀ k, (t.order k).map (·.lines.length) = (s.order k).map (·.lines.length)

theorem Charges.refl : Charges s s := ⟨rfl, rfl, fun _ => rfl⟩

theorem Charges.trans {s t u : State} (h : Charges s t) (k : Charges t u) : Charges s u :=
  ⟨k.aside.trans h.aside, k.cells.trans h.cells, fun j => (k.lines j).trans (h.lines j)⟩

theorem Binds.charges {s t : State} (h : Binds s t) : Charges s t := by
  refine ⟨h.aside, h.cells, fun k => ?_⟩
  have := congrArg (Option.map fun o : Order => o.lines.length) (h.shape k)
  simpa [Option.map_map, Function.comp_def, Order.clearF] using this

theorem charges_modifyOrder (k : Nat) (f : Order → Order) (hf : ∀ o, (f o).lines.length = o.lines.length) :
    Charges s (s.modifyOrder k f) := by
  refine ⟨rfl, rfl, fun j => ?_⟩
  rw [order_modifyOrder]
  split
  · rename_i e
    subst e
    cases s.order j <;> simp [hf]
  · rfl

theorem charges_modifyLine (k i : Nat) (f : Line → Line) : Charges s (s.modifyLine k i f) :=
  charges_modifyOrder s k _ fun _ => length_modifyAt ..

theorem charges_raise (c : Cause) : Charges s (s.raise c) := ⟨rfl, rfl, fun _ => rfl⟩

theorem charges_completeOrder (k : Nat) : Charges s (s.completeOrder k) := by
  unfold State.completeOrder
  split
  · exact .refl s
  · rename_i o h
    refine Charges.trans (Charges.trans (charges_modifyOrder s k (fun o => { o with state := .complete }) fun _ => rfl) ?_)
      (charges_raise _ _)
    · unfold State.readyBin
      split
      · exact ⟨rfl, rfl, fun _ => rfl⟩
      · exact .refl _

theorem charges_reexamine (k : Nat) : Charges s (s.reexamine k) := by
  unfold State.reexamine
  split
  · exact .refl s
  · split
    · split
      · exact charges_completeOrder ..
      · exact charges_modifyOrder s k _ fun _ => rfl
    · exact .refl s

theorem charges_chargeSpoil (k n : Nat) : Charges s (s.chargeSpoil k n) := by
  unfold State.chargeSpoil
  split
  · split
    · split
      · exact charges_modifyLine ..
      · split
        · exact ((charges_modifyLine s ..).trans
            (charges_modifyOrder _ k (fun o => { o with state := .held }) fun _ => rfl)).trans (charges_raise _ _)
        · exact .refl s
    · exact .refl s
  · exact .refl s

theorem charges_reasonOnLine (r : Reason) (b : Binding) : Charges s (s.reasonOnLine r b) := by
  unfold State.reasonOnLine
  split
  · exact (charges_modifyLine s ..).trans (charges_reexamine ..)
  · exact (charges_chargeSpoil s ..).trans (binds_offer ..).charges
  · exact (charges_chargeSpoil s ..).trans (binds_offer ..).charges
  all_goals first | exact (binds_offer ..).charges | exact .refl s

/-! ## The freeing of an order -/

theorem countLine_foldl (ls : List Line) : ls.foldl (State.countLine down1) s =
    { s with refs := (ls.foldl (State.countLine down1) s).refs } ∧
      (ls.foldl (State.countLine down1) s).refs.classes = s.refs.classes := by
  induction ls generalizing s with
  | nil => exact ⟨rfl, rfl⟩
  | cons l ls ih =>
    obtain ⟨h1, h2⟩ := ih (State.countLine down1 s l)
    simp only [List.foldl_cons]
    refine ⟨?_, h2⟩
    rw [h1]
    rfl

/-- The freeing of an order, said once (R42). -/
theorem freeSlot_eq {k : Nat} {o : Order} (h : s.order k = some o) : ∃ refs : RefBlock, refs.classes = s.refs.classes ∧
    s.freeSlot k = ({ s with
      refs := refs
      orders := { s.orders with
        slots := s.orders.slots.erase k, freeCells := s.orders.freeCells + o.lines.length } } : State).raise .orderFreed := by
  unfold State.freeSlot
  rw [h]
  dsimp only
  obtain ⟨h1, h2⟩ := countLine_foldl (s.returnCells o.lines.length) o.lines
  refine ⟨_, h2, ?_⟩
  rw [h1]
  rfl

/-- The drain test frees the order or changes nothing (R41). -/
theorem drainTest_cases (k : Nat) : (s.drainTest k = s ∧ ∀ o, s.order k = some o → o.drained = false) ∨
    ∃ o, s.order k = some o ∧ o.drained = true ∧ s.drainTest k = s.freeSlot k := by
  unfold State.drainTest
  split
  · rename_i h
    exact .inl ⟨rfl, fun o ho => by rw [h] at ho; cases ho⟩
  · rename_i o h
    split
    · rename_i d
      exact .inr ⟨o, h, d, rfl⟩
    · rename_i d
      refine .inl ⟨rfl, fun x hx => ?_⟩
      rw [h] at hx
      cases hx
      simpa using d

theorem drainTest_aside (k : Nat) : (s.drainTest k).aside = s.aside := by
  rcases drainTest_cases s k with ⟨e, -⟩ | ⟨o, h, -, e⟩
  · rw [e]
  · obtain ⟨refs, hc, hf⟩ := freeSlot_eq s h
    rw [e, hf]
    unfold State.aside
    simp only [State.raise, hc]

theorem drainTest_order_ne {k j : Nat} (h : j ≠ k) : (s.drainTest k).order j = s.order j := by
  rcases drainTest_cases s k with ⟨e, -⟩ | ⟨o, ho, -, e⟩
  · rw [e]
  · obtain ⟨refs, -, hf⟩ := freeSlot_eq s ho
    rw [e, hf]
    show Table.find (Table.erase s.orders.slots k) j = _
    rw [find_erase, if_neg h]
    rfl

theorem drainTest_order (k : Nat) :
    (s.drainTest k).order k = (s.order k).bind fun o => if o.drained then none else some o := by
  rcases drainTest_cases s k with ⟨e, h⟩ | ⟨o, ho, d, e⟩
  · rw [e]
    cases ho : s.order k with
    | none => rfl
    | some o => simp [h o ho]
  · obtain ⟨refs, -, hf⟩ := freeSlot_eq s ho
    rw [e, hf, ho]
    show Table.find (Table.erase s.orders.slots k) k = _
    rw [find_erase, if_pos rfl]
    simp [d]

theorem drainTest_cells (k : Nat) :
    (s.drainTest k).orders.freeCells = s.orders.freeCells + (match s.order k with
      | some o => if o.drained then o.lines.length else 0
      | none => 0) := by
  rcases drainTest_cases s k with ⟨e, h⟩ | ⟨o, ho, d, e⟩
  · rw [e]
    cases ho : s.order k with
    | none => rfl
    | some o => simp [h o ho]
  · obtain ⟨refs, -, hf⟩ := freeSlot_eq s ho
    rw [e, hf, ho]
    simp [d, State.raise]

/-! ## The end of a binding -/

theorem endBinding_aside (r : Reason) (b : Option Binding) : (s.endBinding r b).aside = s.aside := by
  unfold State.endBinding
  split
  · rfl
  · rw [drainTest_aside]
    exact (charges_reasonOnLine _ r _).aside.trans (binds_leaveLine s _).aside

/-- The cells after the end of a binding: those of an order freed with it return (R42). -/
theorem endBinding_cells (r : Reason) (b : Option Binding) : let t := s.endBinding r b
    (∀ x o, b = some x → s.order x.slot = some o → t.order x.slot = none →
      t.orders.freeCells = s.orders.freeCells + o.lines.length) ∧
    ((∀ x, b = some x → t.order x.slot = none → s.order x.slot = none) → t.orders.freeCells = s.orders.freeCells) := by
  intro t
  cases b with
  | none => exact ⟨fun _ _ h => (by cases h), fun _ => rfl⟩
  | some b =>
    have c : Charges s ((s.leaveLine (some b)).reasonOnLine r b) :=
      (binds_leaveLine s _).charges.trans (charges_reasonOnLine ..)
    have e : t = ((s.leaveLine (some b)).reasonOnLine r b).drainTest b.slot := rfl
    rw [e]
    generalize (s.leaveLine (some b)).reasonOnLine r b = u at c
    have len := c.lines b.slot
    rw [drainTest_cells, c.cells]
    constructor
    · intro x o hx ho hn
      cases hx
      rw [drainTest_order] at hn
      rw [ho] at len
      cases hu : u.order b.slot with
      | none => rw [hu] at len; cases len
      | some o' =>
        rw [hu] at hn len
        simp only [Option.map_some, Option.some.injEq] at len
        simp only [Option.bind_some] at hn
        split at hn
        · rename_i d
          simp [d, len]
        · cases hn
    · intro h
      have h := h b rfl
      rw [drainTest_order] at h
      cases hu : u.order b.slot with
      | none => rfl
      | some o' =>
        rw [hu] at h len
        dsimp only
        split
        · rename_i d
          have := h (by simp [d])
          rw [this] at len
          cases len
        · rfl

/-! ## The verdicts that name a retired garment -/

theorem platen_setHeld_eq (k j : Nat) (b : Bool) :
    (s.setHeld k b).platen j = { s.platen j with held := if k = j then b else (s.platen j).held } := by
  unfold State.setHeld State.modifyPlaten State.platen
  dsimp only
  rw [look_store]
  by_cases h : j = k
  · subst h
    simp
  · rw [if_neg h, if_neg (Ne.symm h)]

theorem platen_releaseHold (p : Option Nat) (j : Nat) :
    (s.releaseHold p).platen j = { s.platen j with held := if p = some j then false else (s.platen j).held } := by
  unfold State.releaseHold
  cases p with
  | none => rfl
  | some k =>
    dsimp only
    rw [platen_setHeld_eq]
    simp

theorem releaseHold_eq (p : Option Nat) :
    s.releaseHold p = { s with ring.platens := (s.releaseHold p).ring.platens } := by
  unfold State.releaseHold
  split <;> rfl

@[simp] theorem stations_releaseHold (p : Option Nat) : (s.releaseHold p).stations = s.stations := by
  unfold State.releaseHold
  split <;> rfl

theorem returnHold_eq (v : OpenVerdict) :
    s.returnHold v = { s with orders.freeCells := s.orders.freeCells + if v.holdTaken then 1 else 0 } := by
  unfold State.returnHold
  split <;> rfl

@[simp] theorem stations_returnHold (v : OpenVerdict) : (s.returnHold v).stations = s.stations := by
  unfold State.returnHold
  split <;> rfl

theorem platen_returnHold (v : OpenVerdict) (k : Nat) : (s.returnHold v).platen k = s.platen k := by
  unfold State.returnHold
  split <;> rfl

/-- The hold cells taken at the verdicts of some links that name a tag. -/
def State.heldFor (s : State) (tag : Tag) (ls : List Link) : Nat :=
  (ls.filter fun n => (s.verdictOf n).any fun v => v.tag = tag ∧ v.holdTaken).length

/-- Whether a verdict of some links names a tag and a platen. -/
def State.holdsFor (s : State) (tag : Tag) (k : Nat) (ls : List Link) : Bool :=
  ls.any fun n => (s.verdictOf n).any fun v => v.tag = tag ∧ v.platen = some k

/-- A station whose verdict, if it names a tag, has ended. -/
def Station.unnamed (x : Station) (tag : Tag) : Station :=
  { x with
    verdict := x.verdict.filter fun v => v.tag ≠ tag
    workTimer := if x.verdict.any fun v => v.tag = tag then none else x.workTimer }

/-- What the end of some links' verdicts that name a tag does (R20). -/
structure EndsNaming (tag : Tag) (ls : List Link) (s t : State) : Prop where
  rest : t = { s with
    stations := t.stations, ring.platens := t.ring.platens, orders.freeCells := s.orders.freeCells + s.heldFor tag ls }
  platens : ∀ k, t.platen k = { s.platen k with held := (s.platen k).held && !s.holdsFor tag k ls }
  named : ∀ n ∈ ls, t.station n = (s.station n).unnamed tag
  others : ∀ n, n ∉ ls → t.station n = s.station n

theorem unnamed_same {x : Station} {tag : Tag} (h : ∀ v, x.verdict = some v → v.tag ≠ tag) : x.unnamed tag = x := by
  unfold Station.unnamed
  cases hx : x.verdict with
  | none => cases x; cases hx; rfl
  | some v =>
    have := h v hx
    cases x
    cases hx
    simp [Option.filter, this]

theorem unnamed_ended {x : Station} {tag : Tag} {v : OpenVerdict} (h : x.verdict = some v) (e : v.tag = tag) :
    x.unnamed tag = { x with verdict := none, workTimer := none } := by
  unfold Station.unnamed
  simp [h, Option.filter, e]

theorem endsNaming_one (tag : Tag) (l : Link) : EndsNaming tag [l] s (State.endNaming tag s l) := by
  unfold State.endNaming
  split
  · rename_i h
    have e : s.heldFor tag [l] = 0 := by simp [State.heldFor, h]
    refine ⟨by rw [e]; rfl, fun k => ?_, fun n hn => ?_, fun _ _ => rfl⟩
    · simp [State.holdsFor, h]
    · rw [List.mem_singleton.mp hn]
      exact (unnamed_same fun v hv => by rw [show (s.station l).verdict = s.verdictOf l from rfl, h] at hv; cases hv).symm
  · rename_i v h
    split
    · rename_i ht
      have cells : s.heldFor tag [l] = if v.holdTaken then 1 else 0 := by
        cases hh : v.holdTaken <;> simp [State.heldFor, h, ht, hh]
      have st : ∀ n, (((s.endRecord l).returnHold v).releaseHold v.platen).station n = (s.endRecord l).station n := fun n => by
        unfold State.station
        rw [stations_releaseHold, stations_returnHold]
      refine ⟨?_, fun k => ?_, fun n hn => ?_, fun n hn => ?_⟩
      · rw [releaseHold_eq, returnHold_eq, cells]
        rfl
      · rw [platen_releaseHold, platen_returnHold]
        by_cases hk : v.platen = some k
        · simp [State.holdsFor, h, ht, hk]
          exact ⟨rfl, rfl⟩
        · have : s.holdsFor tag k [l] = false := by simp [State.holdsFor, h, hk]
          simp only [hk, if_false, this, Bool.not_false, Bool.and_true]
          rfl
      · rw [List.mem_singleton.mp hn, st, unnamed_ended (x := s.station l) h ht]
        exact station_modifyStation s l _
      · rw [st]
        exact station_modifyStation_ne s (by simpa using hn) _
    · rename_i ht
      have e : s.heldFor tag [l] = 0 := by simp [State.heldFor, h, ht]
      refine ⟨by rw [e]; rfl, fun k => ?_, fun n hn => ?_, fun _ _ => rfl⟩
      · simp [State.holdsFor, h, ht]
      · rw [List.mem_singleton.mp hn]
        exact (unnamed_same fun w hw => by
          rw [show (s.station l).verdict = s.verdictOf l from rfl, h] at hw; cases hw; exact ht).symm

theorem EndsNaming.cons {tag : Tag} {l : Link} {ls : List Link} {s t u : State} (h : EndsNaming tag [l] s t)
    (hl : l ∉ ls) (k : EndsNaming tag ls t u) : EndsNaming tag (l :: ls) s u := by
  have same : ∀ n ∈ ls, t.verdictOf n = s.verdictOf n := fun n hn => by
    unfold State.verdictOf
    rw [h.others n (by simp only [List.mem_singleton]; rintro rfl; exact hl hn)]
  have cells : t.heldFor tag ls = s.heldFor tag ls := by
    unfold State.heldFor
    rw [List.filter_congr fun n hn => by rw [same n hn]]
  have holds : ∀ j, t.holdsFor tag j ls = s.holdsFor tag j ls := fun j => by
    unfold State.holdsFor
    rw [Bool.eq_iff_iff, List.any_eq_true, List.any_eq_true]
    constructor
    · rintro ⟨n, hn, hh⟩
      exact ⟨n, hn, by rw [← same n hn]; exact hh⟩
    · rintro ⟨n, hn, hh⟩
      exact ⟨n, hn, by rw [same n hn]; exact hh⟩
  refine ⟨?_, fun j => ?_, fun n hn => ?_, fun n hn => ?_⟩
  · have e : s.heldFor tag (l :: ls) = s.heldFor tag [l] + s.heldFor tag ls := by
      unfold State.heldFor
      rw [show l :: ls = [l] ++ ls from rfl, List.filter_append, List.length_append]
    have a := h.rest
    have b := k.rest
    rw [cells] at b
    rw [e, b, a, Nat.add_assoc]
  · rw [k.platens, h.platens, holds]
    have : s.holdsFor tag j (l :: ls) = (s.holdsFor tag j [l] || s.holdsFor tag j ls) := by
      unfold State.holdsFor
      simp
    rw [this]
    simp [Bool.and_assoc]
  · rcases List.mem_cons.mp hn with e | hm
    · rw [e, k.others l hl, h.named l (List.mem_singleton.mpr rfl)]
    · rw [k.named n hm, h.others n (by simp only [List.mem_singleton]; rintro rfl; exact hl hm)]
  · rw [k.others n fun x => hn (List.mem_cons_of_mem _ x), h.others n (by
      simp only [List.mem_singleton]; rintro rfl; exact hn List.mem_cons_self)]

theorem endsNaming_foldl (tag : Tag) (ls : List Link) (nodup : ls.Nodup) :
    EndsNaming tag ls s (ls.foldl (State.endNaming tag) s) := by
  induction ls generalizing s with
  | nil => exact ⟨rfl, fun k => by simp [State.holdsFor], fun n hn => (by cases hn), fun _ _ => rfl⟩
  | cons l ls ih =>
    obtain ⟨hl, nodup⟩ := List.nodup_cons.mp nodup
    exact (endsNaming_one s tag l).cons hl (ih _ nodup)

/-- The expired-verdict memories of a tag cleared, on every link. -/
theorem forgetExpired_foldl (tag : Tag) (ls : List Link) (nodup : ls.Nodup) :
    let t := ls.foldl (State.forgetExpired tag) s
    t = { s with stations := t.stations } ∧
      (∀ n ∈ ls, t.station n = { s.station n with expired := (s.station n).expired.filter fun e => e.tag ≠ tag }) ∧
      ∀ n, n ∉ ls → t.station n = s.station n := by
  induction ls generalizing s with
  | nil => exact ⟨rfl, fun n hn => (by cases hn), fun _ _ => rfl⟩
  | cons l ls ih =>
    obtain ⟨hl, nodup⟩ := List.nodup_cons.mp nodup
    obtain ⟨h1, h2, h3⟩ := ih (State.forgetExpired tag s l) nodup
    dsimp only [List.foldl_cons]
    have one : (State.forgetExpired tag s l).station l =
        { s.station l with expired := (s.station l).expired.filter fun e => e.tag ≠ tag } := by
      unfold State.forgetExpired
      rw [station_modifyStation]
      cases hx : (s.station l).expired with
      | none =>
        generalize s.station l = x at hx
        cases x
        cases hx
        rfl
      | some e =>
        dsimp only
        by_cases he : e.tag = tag
        · simp [he, Option.filter]
        · rw [if_neg he]
          generalize s.station l = x at hx
          cases x
          cases hx
          simp [he, Option.filter]
    refine ⟨by rw [h1]; rfl, fun n hn => ?_, fun n hn => ?_⟩
    · rcases List.mem_cons.mp hn with e | hm
      · rw [e, h3 l hl, one]
      · rw [h2 n hm]
        have : n ≠ l := by rintro rfl; exact hl hm
        unfold State.forgetExpired
        rw [station_modifyStation_ne s this]
    · rw [h3 n fun x => hn (List.mem_cons_of_mem _ x)]
      exact station_modifyStation_ne s (by rintro rfl; exact hn List.mem_cons_self) _

/-! ## The removal of a record -/

theorem lane_modifyLane (k j : Nat) (f : Lane → Lane) :
    (s.modifyLane k f).lane j = if j = k then f (s.lane k) else s.lane j := by
  unfold State.lane State.modifyLane
  dsimp only
  rw [look_store]
  rfl

theorem lanes_foldl (tag : Tag) (ks : List Nat) :
    let t := ks.foldl (fun s k => s.modifyLane k (Lane.releaseFor tag)) s
    t = { s with cure.lanes := t.cure.lanes } := by
  induction ks generalizing s with
  | nil => rfl
  | cons k ks ih =>
    have h := ih (s.modifyLane k (Lane.releaseFor tag))
    dsimp only at h ⊢
    rw [List.foldl_cons]
    generalize List.foldl _ _ ks = u at h ⊢
    rw [h]
    rfl

/-- The lanes after the reservations of a tag are released (R18). -/
theorem releaseLanes_spec (tag : Tag) :
    s.releaseLanes tag = { s with cure.lanes := (s.releaseLanes tag).cure.lanes } ∧
      ∀ k, k ≤ 3 → (s.releaseLanes tag).lane k = (s.lane k).releaseFor tag := by
  refine ⟨lanes_foldl s tag laneNumbers, fun k hk => ?_⟩
  unfold State.releaseLanes laneNumbers
  simp only [List.foldl_cons, List.foldl_nil, lane_modifyLane]
  interval_cases k <;> simp

/-- The place of a garment given back (R18). -/
theorem leavePlace_eq (g : Garment) : s.leavePlace g = { s with
    ring.platens := (s.leavePlace g).ring.platens
    cure.exitQueue := if g.location = .exit then s.cure.exitQueue.filter (· ≠ g.tag) else s.cure.exitQueue
    bins.overflow := if g.location = .overflow then s.bins.overflow.filter (· ≠ g.tag) else s.bins.overflow
    orders.freeCells := s.orders.freeCells + if g.location = .overflow then 1 else 0 } := by
  unfold State.leavePlace
  cases h : g.location <;> rfl

theorem leavePlace_platen (g : Garment) (k : Nat) : (s.leavePlace g).platen k = { s.platen k with
    state := if g.location = .ring k then .empty else (s.platen k).state
    tag := if g.location = .ring k then none else (s.platen k).tag } := by
  unfold State.leavePlace
  cases h : g.location with
  | ring n =>
    unfold State.emptyPlaten State.modifyPlaten State.platen
    dsimp only
    rw [look_store]
    by_cases e : k = n
    · subst e
      simp
    · have : n ≠ k := Ne.symm e
      simp [e, this]
  | belt => simp
  | exit =>
    simp
    rfl
  | overflow =>
    simp
    rfl

/-- What the removal of a record does, said once (R17, R18, R20). -/
structure Removed (reason : Reason) (s : State) (pos : Nat) (g : Garment) (t : State) : Prop where
  rest : t = { s with
    garments := { s.garments with records := s.garments.records.erase pos }
    refs := (s.countGarment g down1).refs
    orders := { s.orders with freeCells :=
      s.orders.freeCells + (if g.location = .overflow then 1 else 0) + s.heldFor g.tag Link.all }
    stations := t.stations
    ring := { s.ring with platens := t.ring.platens }
    cure := { s.cure with
      lanes := t.cure.lanes
      exitQueue := if g.location = .exit then s.cure.exitQueue.filter (· ≠ g.tag) else s.cure.exitQueue }
    bins := { s.bins with
      overflow := if g.location = .overflow then s.bins.overflow.filter (· ≠ g.tag) else s.bins.overflow }
    port := (s.raiseReason reason).port }
  platens : ∀ k, t.platen k = {
    state := if g.location = .ring k then .empty else (s.platen k).state
    tag := if g.location = .ring k then none else (s.platen k).tag
    held := (s.platen k).held && !s.holdsFor g.tag k Link.all }
  lanes : ∀ k, k ≤ 3 → t.lane k = (s.lane k).releaseFor g.tag
  stations : ∀ n, t.station n = (s.station n).without g.tag

theorem raiseReason_eq (r : Reason) : s.raiseReason r = { s with port := (s.raiseReason r).port } := by
  unfold State.raiseReason
  split <;> rfl

theorem mem_linkAll (l : Link) : l ∈ Link.all := by cases l <;> decide

theorem removed_removeRecord (reason : Reason) (pos : Nat) (g : Garment) :
    Removed reason s pos g (State.removeRecord reason s (pos, g)) := by
  unfold State.removeRecord
  dsimp only
  have a : (s.eraseRecord pos).countGarment g down1 = { s with
      garments := { s.garments with records := s.garments.records.erase pos }
      refs := (s.countGarment g down1).refs } := rfl
  rw [a]
  generalize hu : ({ s with
      garments := { s.garments with records := s.garments.records.erase pos }
      refs := (s.countGarment g down1).refs } : State) = u
  have b := leavePlace_eq u g
  have bp := leavePlace_platen u g
  generalize u.leavePlace g = v at b bp
  obtain ⟨c, cl⟩ := releaseLanes_spec v g.tag
  generalize v.releaseLanes g.tag = w at c cl
  have d := raiseReason_eq w reason
  have dp : (w.raiseReason reason).port = (s.raiseReason reason).port := by
    unfold State.raiseReason
    rw [c, b, ← hu]
    split <;> rfl
  rw [dp] at d
  generalize w.raiseReason reason = x at d
  have e := endsNaming_foldl x g.tag Link.all (by decide)
  generalize Link.all.foldl (State.endNaming g.tag) x = y at e
  obtain ⟨f1, f2, -⟩ := forgetExpired_foldl y g.tag Link.all (by decide)
  generalize Link.all.foldl (State.forgetExpired g.tag) y = z at f1 f2
  have xs : x.stations = s.stations := by rw [d, c, b, ← hu]
  have xv : ∀ n, x.verdictOf n = s.verdictOf n := fun n => by
    unfold State.verdictOf State.station
    rw [xs]
  have cells : x.heldFor g.tag Link.all = s.heldFor g.tag Link.all := by
    unfold State.heldFor
    simp only [xv]
  have holds : ∀ k, x.holdsFor g.tag k Link.all = s.holdsFor g.tag k Link.all := fun k => by
    unfold State.holdsFor
    simp only [xv]
  have er := e.rest
  rw [cells] at er
  refine ⟨?_, fun k => ?_, fun k hk => ?_, fun n => ?_⟩
  · rw [f1, er, d, c, b, ← hu]
  · have p1 : z.platen k = y.platen k := by rw [f1]; rfl
    have p2 : x.platen k = v.platen k := by rw [d, c]; rfl
    have p3 : u.platen k = s.platen k := by rw [← hu]; rfl
    rw [p1, e.platens, holds, p2, bp, p3]
  · have p1 : z.lane k = w.lane k := by rw [f1, er, d]; rfl
    have p2 : v.lane k = s.lane k := by rw [b, ← hu]; rfl
    rw [p1, cl k hk, p2]
  · rw [f2 n (mem_linkAll n), e.named n (mem_linkAll n)]
    have : x.station n = s.station n := by unfold State.station; rw [xs]
    rw [this]
    rfl

/-! ## The lane handed out -/

theorem serveWait_idle (h : (∀ w, s.verdictOf .unload = some w → w.cls = .work) ∨
    ∀ k, k ≤ 3 → (s.lane k).free = false) : s.serveWait = s := by
  unfold State.serveWait
  split
  · rename_i w k hw hk
    rcases h with h | h
    · simp [h w hw]
    · have m := List.mem_of_find?_eq_some hk
      have f := List.find?_some hk
      have : k ≤ 3 := by
        simp only [laneNumbers, List.mem_cons, List.not_mem_nil, or_false] at m
        omega
      rw [h k this] at f
      cases f
  · rfl

theorem freeLane_eq {n : Nat} (hn : n ≤ 3) (free : (s.lane n).free = true)
    (lowest : ∀ j, j < n → (s.lane j).free = false) : s.freeLane = some n := by
  unfold State.freeLane laneNumbers
  interval_cases n <;> simp_all

/-- A lane handed to the WAIT open at UNLOAD (R141, R162). -/
theorem serveWait_hands {w : OpenVerdict} {n : Nat} (hw : s.verdictOf .unload = some w) (wait : w.cls = .wait)
    (hn : n ≤ 3) (free : (s.lane n).free = true) (lowest : ∀ j, j < n → (s.lane j).free = false) :
    s.serveWait = { s with
      cure.lanes := s.serveWait.cure.lanes
      stations := s.serveWait.stations
      sent := s.sent ++ [laneMessage w n] } ∧ s.HandsLane w n s.serveWait ∧
    (∀ l, l ≠ .unload → s.serveWait.station l = s.station l) ∧ ∀ k, k ≠ n → s.serveWait.lane k = s.lane k := by
  have e : s.serveWait = ((s.reserveLane n w.tag).openRecord .unload (w.toBelt n)).send .unload
      (.verdict (platenByte w.platen) w.tag .toBelt n 0) := by
    unfold State.serveWait
    rw [hw, freeLane_eq s hn free lowest]
    simp only [wait, if_true]
  rw [e]
  refine ⟨rfl, ⟨?_, ?_⟩, fun l hl => ?_, fun k hk => ?_⟩
  · show ((s.reserveLane n w.tag).openRecord .unload (w.toBelt n)).station .unload = _
    unfold State.openRecord
    rw [station_modifyStation]
    rfl
  · show ((s.reserveLane n w.tag).lane n).reservation = _
    unfold State.reserveLane
    rw [lane_modifyLane, if_pos rfl]
  · show ((s.reserveLane n w.tag).openRecord .unload (w.toBelt n)).station l = _
    unfold State.openRecord
    rw [station_modifyStation_ne _ hl]
    rfl
  · show (s.reserveLane n w.tag).lane k = _
    unfold State.reserveLane
    rw [lane_modifyLane, if_neg hk]

/-! ## Retirement -/

/-- A retirement whose garment no report or undo holds gives back what `State.GivesBack` says (R18, R20, R42, R141,
R162). -/
theorem givesBack_retire {tag : Tag} {pos : Nat} {g : Garment} (h : s.findTag tag = some (pos, g)) (reason : Reason) :
    ∃ served, s.GivesBack none g (s.retire reason tag) served ∧ (s.retire reason tag).sent = s.sent ++ served := by
  unfold State.retire
  rw [h]
  dsimp only
  have r := removed_removeRecord s reason pos g
  generalize State.removeRecord reason s (pos, g) = u at r
  have uv : u.verdictOf .unload = (s.verdictOf .unload).filter fun v => v.tag ≠ g.tag := by
    show (u.station .unload).verdict = _
    rw [r.stations]
    rfl
  have served : ∃ served, u.serveWait = { u with
        cure.lanes := u.serveWait.cure.lanes, stations := u.serveWait.stations, sent := u.sent ++ served } ∧
      (((∀ w, s.verdictOf .unload = some w → w.cls = .work ∨ w.tag = g.tag) ∨ (∀ k, k ≤ 3 → (u.lane k).free = false)) →
        served = [] ∧ u.serveWait = u) ∧
      (∀ w n, s.verdictOf .unload = some w → w.cls = .wait → w.tag ≠ g.tag → n ≤ 3 → (u.lane n).free = true →
        (∀ j, j < n → (u.lane j).free = false) → served = [laneMessage w n] ∧ u.HandsLane w n u.serveWait ∧
        ∀ k, k ≠ n → u.serveWait.lane k = u.lane k) ∧
      ∀ l, (l ≠ .unload ∨ served = []) → u.serveWait.station l = u.station l := by
    by_cases idle : (∀ w, s.verdictOf .unload = some w → w.cls = .work ∨ w.tag = g.tag) ∨
        ∀ k, k ≤ 3 → (u.lane k).free = false
    · have e : u.serveWait = u := serveWait_idle u (by
        rcases idle with i | i
        · refine .inl fun w hw => ?_
          rw [uv] at hw
          obtain ⟨hs, ht⟩ := Option.filter_eq_some_iff.mp hw
          exact (i w hs).resolve_right (by simpa using ht)
        · exact .inr i)
      refine ⟨[], ?_, fun _ => ⟨rfl, e⟩, fun w n hw wait ne hn free low => ?_, fun l _ => by rw [e]⟩
      · rw [e]
        simp
      · rcases idle with i | i
        · rcases i w hw with x | x
          · rw [wait] at x
            cases x
          · exact absurd x ne
        · rw [i n hn] at free
          cases free
    · have idle' := idle
      simp only [not_or, not_forall, Bool.not_eq_false] at idle
      obtain ⟨⟨w, hw, work, ne⟩, k, hk, fk⟩ := idle
      have wait : w.cls = .wait := by cases hc : w.cls <;> simp_all
      have ex : ∃ j, (u.lane j).free = true := ⟨k, fk⟩
      have hn := (Nat.find_min' ex fk).trans hk
      have free := Nat.find_spec ex
      have low : ∀ j, j < Nat.find ex → (u.lane j).free = false := fun j hj => by simpa using Nat.find_min ex hj
      generalize Nat.find ex = n at hn free low
      have uw : u.verdictOf .unload = some w := by
        rw [uv, hw]
        simp [ne]
      obtain ⟨e, ha, ho, hl⟩ := serveWait_hands u uw wait hn free low
      refine ⟨[laneMessage w n], e, fun i => absurd i idle', fun w' n' hw' _ _ _ free' low' => ?_,
        fun l hl' => ho l (hl'.resolve_right (by simp))⟩
      have ew : w = w' := by
        rw [hw] at hw'
        exact Option.some.inj hw'
      subst ew
      have en : n = n' := by
        rcases Nat.lt_trichotomy n n' with x | x | x
        · rw [low' n x] at free
          cases free
        · exact x
        · rw [low n' x] at free'
          cases free'
      subst en
      exact ⟨rfl, ha, hl⟩
  obtain ⟨served, wr, wi, wh, wo⟩ := served
  generalize u.serveWait = w at wr wi wh wo
  have a := endBinding_aside w reason g.binding
  have c := endBinding_cells w reason g.binding
  generalize w.endBinding reason g.binding = t at a c
  have tring : t.ring = w.ring := congrArg (·.ring) a
  have tcure : t.cure = w.cure := congrArg (·.cure) a
  have tst : t.stations = w.stations := congrArg (·.stations) a
  have tsent : t.sent = w.sent := congrArg (·.sent) a
  have tover : t.bins.overflow = w.bins.overflow := congrArg (·.bins.overflow) a
  have tcls : t.refs.classes = w.refs.classes := congrArg (·.refs.classes) a
  have tplaten : ∀ k, t.platen k = u.platen k := fun k => by
    unfold State.platen
    rw [tring, wr]
  have tlane : ∀ k, t.lane k = w.lane k := fun k => by
    unfold State.lane
    rw [tcure]
  have tstation : ∀ l, t.station l = w.station l := fun l => by
    unfold State.station
    rw [tst]
  have order : ∀ k, w.order k = s.order k := fun k => by
    rw [wr, r.rest]
    rfl
  have cells : w.orders.freeCells = s.orders.freeCells + (if g.location = .overflow then 1 else 0) +
      s.heldFor g.tag Link.all := by
    rw [wr]
    show u.orders.freeCells = _
    rw [r.rest]
  refine ⟨served, ⟨fun k => ?_, ?_, ?_, ?_, ?_, ?_, fun n hn hu => ?_, fun k => ?_⟩, ?_⟩
  · rw [tplaten, r.platens]
    rfl
  · rw [tcure, wr]
    show u.cure.exitQueue = _
    rw [r.rest]
  · rw [tover, wr]
    show u.bins.overflow = _
    rw [r.rest]
  · have held : (Link.all.filter fun n => some n ≠ none ∧ (s.verdictOf n).any fun v => v.tag = g.tag ∧ v.holdTaken).length =
        s.heldFor g.tag Link.all := by
      unfold State.heldFor
      simp
    dsimp only
    rw [held, ← cells]
    exact ⟨fun b o hb ho => c.1 b o hb ((order _).trans ho), fun hk => c.2 fun b hb hn => (order _).trans (hk b hb hn)⟩
  · have lane : ∀ k, k ≤ 3 → u.lane k = if (s.lane k).reservation = some g.tag
        then { s.lane k with reservation := none } else s.lane k := fun k hk => by
      rw [r.lanes k hk]
      rfl
    refine ⟨fun i => ?_, fun w n hw wait ne hn free low => ?_⟩
    · obtain ⟨e1, e2⟩ := wi (i.imp_right fun j k hk => by rw [lane k hk]; exact j k hk)
      refine ⟨e1, fun k hk => ?_⟩
      rw [tlane, e2, lane k hk]
    · obtain ⟨e1, e2, e3⟩ := wh w n hw wait ne hn (by rw [lane n hn]; exact free)
        fun j hj => by rw [lane j (by omega)]; exact low j hj
      refine ⟨e1, ⟨?_, ?_⟩, fun k hk kn => ?_⟩
      · rw [tstation, e2.station, r.stations]
        have : u.limits = s.limits := by rw [r.rest]
        rw [this]
        simp [Station.without]
      · rw [tlane]
        exact e2.lane
      · rw [tlane, e3 k kn, lane k hk]
  · show ({ t.cure with lanes := s.cure.lanes, exitQueue := s.cure.exitQueue } : Cure) = s.cure
    rw [tcure, wr]
    show ({ u.cure with lanes := s.cure.lanes, exitQueue := s.cure.exitQueue } : Cure) = s.cure
    rw [r.rest]
  · rw [tstation, wo n hu, r.stations]
  · rw [tcls, wr]
    show u.refs.classes.find k = _
    rw [r.rest]
    show (Table.modify s.refs.classes g.cls _).find k = _
    rw [find_modify]
    split
    · rename_i e
      subst e
      rfl
    · simp
  · rw [tsent, wr]
    show u.sent ++ served = _
    rw [r.rest]

end Sys2Proof.Machine
end

