-- ==== Sys2Proof/WellFormed.lean ====
section
/-! DEFINITION. WellFormed.lean: which terms of `Instr` are commands of the part. A row of the opcode table stands for a
set of frames or events; a term whose operands belong to another row is ill-formed. -/

namespace Sys2Proof

/-- A link message that its row names: the payload has the length Table 5-2 gives for the kind and the link's kind may
send it (R82, checks 1 and 2). A message that fails either is the row UNKNOWN_MESSAGE. -/
def messageRowOk (l : Link) (kind : Byte) (payload : List Byte) : Bool :=
  messageLength kind == some payload.length && maySend l kind

/-- Whether a term is a command of the part.
A host command may be any bytes after its code (R194). An unknown command's code is neither 00h, which begins a read
transaction, nor one of Table 11-2. A HELLO may have any framed length (R84). A discarded frame fails the framing checks
(R81). An unknown message is framed and is no message the link may send (R82). CURE has no work timer (R93). -/
def Instr.wellFormed : Instr → Bool
  | .unknownCommand code _ => code != 0x00#8 && (HostCmd.ofCode code).isNone
  | .hello _ payload => decide (payload.length ≤ 32)
  | .status l payload => messageRowOk l kindStatus payload
  | .arrive l payload => messageRowOk l kindArrive payload
  | .empty l payload => messageRowOk l kindEmpty payload
  | .done l payload => messageRowOk l kindDone payload
  | .fail l payload => messageRowOk l kindFail payload
  | .abort l payload => messageRowOk l kindAbort payload
  | .advance l payload => messageRowOk l kindAdvance payload
  | .binCleared l payload => messageRowOk l kindBinCleared payload
  | .linkFrameDiscarded _ frame => !framingOk frame
  | .unknownMessage l kind payload =>
    decide (payload.length ≤ 32) && kind != kindHello && !messageRowOk l kind payload
  | .workTimeout l => l != .cure
  | .identify _ | .readCauses _ | .setCauseMask _ | .lineReset _ | .setLineLimits _ | .loadSku _ | .loadClass _
  | .loadDesign _ | .readEntry _ | .setPattern _ | .admitOrder _ | .cancelOrder _ | .releaseHold _ | .queryOrder _
  | .listOrders _ | .setScheduler _ | .queryGarment _ | .walkFirst _ | .walkNext _ | .retireGarment _ | .setStation _
  | .setStationMode _ | .queryStation _ | .setPlaten _ | .startRing _ | .stopRing _ | .resumeRing _ | .queryRing _
  | .setMeter _ | .queryMeter _ | .setTunnel _ | .setWeights _ | .queryBelt _ | .queryBin _ | .readTransaction _ _
  | .keptFrameTaken | .silenceExpiry _ | .unloadWaitLimit | .ageTimerExpiry | .refillTimerExpiry | .moveTimerExpiry
  | .indexDone | .indexFault | .eStopAsserted | .eStopDeasserted | .reset | .responseBuilt => true

end Sys2Proof
end

