-- ==== Sys2Proof/Tests/Slice0.lean ====
section
/-! SUPPORT. Tests/Slice0.lean: the well-formedness smoke, worked values of the spec, and for every statement with
hypotheses a state and operands that meet them, clause by clause. -/

namespace Sys2Proof.Tests

open Sys2Proof.Machine

/-! ## Well-formedness: one ill-formed term a check, refused -/

theorem test_wf_unknown_command_names_a_row : (Instr.unknownCommand 0x23#8 []).wellFormed = false := by decide
theorem test_wf_unknown_command_code_zero : (Instr.unknownCommand 0x00#8 []).wellFormed = false := by decide
theorem test_wf_hello_too_long : (Instr.hello .load (List.replicate 33 0#8)).wellFormed = false := by decide
theorem test_wf_status_length : (Instr.status .load [0#8]).wellFormed = false := by decide
theorem test_wf_arrive_from_cure : (Instr.arrive .cure (List.replicate 10 0#8)).wellFormed = false := by decide
theorem test_wf_empty_from_match : (Instr.empty .matching [0#8]).wellFormed = false := by decide
theorem test_wf_done_length : (Instr.done .press (List.replicate 8 0#8)).wellFormed = false := by decide
theorem test_wf_fail_from_load : (Instr.fail .load (List.replicate 8 0#8)).wellFormed = false := by decide
theorem test_wf_abort_from_unload : (Instr.abort .unload (List.replicate 7 0#8)).wellFormed = false := by decide
theorem test_wf_advance_from_unload : (Instr.advance .unload (List.replicate 9 0#8)).wellFormed = false := by decide
theorem test_wf_bin_cleared_from_cure : (Instr.binCleared .cure [0#8]).wellFormed = false := by decide
theorem test_wf_discarded_frame_is_good :
    (Instr.linkFrameDiscarded .load (buildFrame kindStatus [])).wellFormed = false := by decide +kernel
theorem test_wf_unknown_message_is_known : (Instr.unknownMessage .load kindStatus []).wellFormed = false := by decide
theorem test_wf_work_timeout_of_cure : (Instr.workTimeout .cure).wellFormed = false := by decide
theorem test_wf_good_terms :
    (Instr.unknownCommand 0x7F#8 []).wellFormed ∧ (Instr.hello .load [0#8, 0#8, 1#8]).wellFormed ∧
      (Instr.status .cure []).wellFormed ∧ (Instr.arrive .matching (List.replicate 10 0#8)).wellFormed ∧
      (Instr.unknownMessage .cure kindArrive (List.replicate 10 0#8)).wellFormed ∧
      (Instr.linkFrameDiscarded .load [1#8]).wellFormed ∧ Instr.indexDone.wellFormed := by decide

/-! ## Worked values -/

/-- The check value of the CRC of R81 over the characters 1 to 9. -/
theorem test_crc_check_value :
    crc16 [0x31#8, 0x32#8, 0x33#8, 0x34#8, 0x35#8, 0x36#8, 0x37#8, 0x38#8, 0x39#8] = 0x29B1#16 := by decide +kernel

/-- The buckets of two tags (R4). -/
theorem test_tag_buckets : tagBucket 0x00A41C7730F2#48 = 13 ∧ tagBucket 0x0000000000CB#48 = 75 := by decide

/-- A dose of 900 × 40 in pulses of 3 (R143). -/
theorem test_pulses : pulsesFor 900 40 3 = 120 := by decide

/-- No row has bits, so no word spells a command, and `withFetchWord` changes nothing. -/
theorem test_no_word_spells_a_command (s : State) (nbits w : Nat) :
    decodeTableWord nbits w = none ∧ s.withFetchWord nbits w = s := ⟨rfl, rfl⟩

/-- Every host row answers its own code (Table 11-2). -/
theorem test_host_codes : HostCmd.all.all (fun c => HostCmd.ofCode c.code == some c) = true ∧ HostCmd.all.length = 34 := by
  decide

/-! ## A small line -/

/-- A station that is UP and ACTIVE. -/
def busy : Station := { up := true, firmware := some 1, mode := .active, silenceTimer := some 2000 }

/-- The tag of the one garment; its bucket is 75. -/
def tag0 : Tag := 0x0000000000CB#48

/-- A garment of SKU 1, class 2 and design 3, at a location. -/
def item (loc : Location) : Garment :=
  ⟨tag0, .order, 0, 1, 2, none, 3, .a, .blank, loc, 120, 0, false, false, false, false, 0, 0, 0, 0, 0, .none, 0, 0⟩

/-- A line with one SKU, class and design, all stations ACTIVE, and the ring RUNNING with nothing on it. Every platen that
faces a station is held. -/
def line0 : State :=
  { refs := {
      skus := [(1, ⟨2, 0⟩)]
      classes := [(2, ⟨true, 40, 20, 5, 5, 20, 10, 0⟩)]
      designs := [(3, ⟨900, true, 0⟩)] }
    stations := ⟨busy, busy, busy, busy, busy, busy, busy, busy⟩
    ring := { state := .running, platens := [(0, ⟨.empty, none, true⟩), (4, ⟨.empty, none, true⟩),
      (7, ⟨.empty, none, true⟩), (11, ⟨.empty, none, true⟩), (15, ⟨.empty, none, true⟩), (20, ⟨.empty, none, true⟩)] } }

/-- The line with a garment, on its platen if it is on the ring. -/
def withItem (g : Garment) (s : State) : State :=
  let s := s.putRecord 300 g
  match g.location with
  | .ring k => s.modifyPlaten k fun p => { p with state := .occupied, tag := some g.tag }
  | .exit => { s with cure.exitQueue := [g.tag] }
  | .overflow => { s with bins.overflow := [g.tag] }
  | .belt _ _ => s

/-- The line with an order of one line in slot 0. -/
def withOrder (o : Order) (s : State) : State :=
  { s with orders := { slots := [(0, o)], freeCells := 383, admissionSeq := 1 } }

/-- An order of number 7 with two garments of design 3 on SKU 1 wanted. -/
def order0 : Order := ⟨7, 0, 0, .opened, none, [⟨3, 1, 2, 0, 0, 0, .active⟩]⟩

/-- The line with a verdict open. -/
def withVerdict (l : Link) (v : OpenVerdict) (s : State) : State :=
  s.openRecord l v

/-- The payload of an ARRIVE of `tag0` with SKU 1. -/
def arrive0 (platen : Byte) (defect : Byte) : List Byte :=
  [platen, 0#8, 0#8, 0#8, 0#8, 0#8, 0xCB#8, 1#8, 1#8, defect]

/-- The payload of a DONE of `tag0`. -/
def done0 (platen : Byte) (result : Byte) : List Byte :=
  [platen, 0#8, 0#8, 0#8, 0#8, 0#8, 0xCB#8, 0#8, result]

theorem ready (s : State) (k : s.port.kept = none) (h : s.port.state = .idle) : s.PortReady :=
  ⟨k, fun _ _ e => by rw [h] at e; cases e⟩

theorem ready_line0 : line0.PortReady := ready _ rfl rfl

theorem tables_line0 : TablesOk line0 := by constructor <;> decide

/-- The line with the order, one garment of it, and the garment's references counted. -/
def shop (loc : Location) : State :=
  withItem { item loc with binding := some ⟨0, 0⟩ } (withOrder { order0 with lines := [⟨3, 1, 2, 1, 0, 0, .active⟩] } line0)

/-! ## Witnesses: the queue, reset, invariants -/

theorem test_queue_may_be_empty : State.reset.pending = [] := rfl

theorem test_reset_with_and_without_e_stop : line0.ring.eStop = false ∧ (line0.setEStop true).ring.eStop = true := by decide

/-- A state of all five invariants that takes a step: the ring is RUNNING and a WAIT stands at UNLOAD. -/
theorem test_invariants_meet_a_step :
    let s := { withVerdict .unload { platen := some 20, tag := tag0, verdict := .wait, cls := .wait } line0 with
      pending := [.indexFault] }
    RingSafe s ∧ StationsSafe s ∧ s.meter.ok ∧ CausesSafe s ∧ TablesOk s ∧ (∃ t, step s = .next t) := by
  refine ⟨?_, ?_, ?_, ?_, ?_, _, rfl⟩
  · constructor <;> decide
  · intro l
    cases l <;> refine ⟨by decide, ?_⟩ <;> intro v hv hc <;> rfl
  · unfold Meter.ok; decide
  · unfold CausesSafe; decide
  · constructor <;> decide

theorem test_a_flag_may_be_pending :
    let s := line0.raise .cellsLow
    (∃ t, exec .ageTimerExpiry s = .next t) ∧ s.pendingCause .cellsLow = true ∧
      ((line0.setPort (.executing .identify [])).raise .scorch).pendingCause .scorch = true :=
  ⟨⟨_, rfl⟩, by decide, by decide⟩

/-! ## Witnesses: the port -/

theorem test_good_frame : ([1#8, 1#8, 2#8] : List Byte).length ≤ 255 ∧ HostCmd.loadSku.lengthFits [1#8, 1#8, 2#8] = true := by
  decide

theorem test_bad_frames :
    ([] : List Byte) = [] ∧ HostCmd.identify.lengthFits [0#8] = false ∧ ([] : List Byte).length ≠ (1#8 : Byte).toNat ∧
      HostCmd.ofCode 0x7F#8 = none ∧ (0x7F#8 : Byte) ≠ 0x00#8 := by decide

/-- A command being carried out, without and with a good frame kept. -/
theorem test_running_command :
    let s := line0.setPort (.executing .queryMeter [])
    s.port.state = .executing .queryMeter [] ∧ s.port.kept = none ∧
      (s.setKept (some ⟨HostCmd.identify.code, hostBytes []⟩)).port.kept = some ⟨HostCmd.identify.code, hostBytes []⟩ ∧
      HostCmd.identify.lengthFits [] = true := by decide

theorem test_reading_states :
    (line0.setPort (.holding [0#8, 0#8, 0#8])).port.reading = none ∧ line0.port.state = .idle ∧
      (line0.setPort (.executing .queryMeter [])).port.state = .executing .queryMeter [] := by decide

theorem test_masks : (BitVec.ofNat 16 (field [0x1F#8, 0xFF#8] 0 2)).toNat < 8192 ∧
    8192 ≤ (BitVec.ofNat 16 (field [0x20#8, 0x00#8] 0 2)).toNat := by decide

/-! ## Witnesses: reference tables and patterns -/

theorem test_load_sku_clauses :
    let s := line0
    yesNo (field [1#8, 1#8, 2#8] 1 1) = some true ∧ field [1#8, 1#8, 2#8] 2 1 ≤ 31 ∧
      (s.refs.classes.find (field [1#8, 1#8, 2#8] 2 1)).isSome ∧ yesNo (field [1#8, 0#8, 0#8] 1 1) = some false ∧
      (s.refs.skus.find (field [1#8, 1#8, 2#8] 0 1)).all (fun e => e.count == 0) := by decide

/-- The payload of a LOAD CLASS at the ends of its ranges. -/
def class0 : List Byte := [31#8, 1#8, 1#8, 255#8, 60#8, 30#8, 0x3E#8, 0x7F#8, 0x3E#8, 0x80#8, 0x07#8, 0xD0#8]

theorem test_load_class_clauses :
    class0.length = 12 ∧ yesNo (field class0 1 1) = some true ∧ field class0 0 1 ≤ 31 ∧ field class0 2 1 = 1 ∧
      field class0 4 1 ≤ 60 ∧ field class0 5 1 ≤ 30 ∧ field class0 8 2 = 16000 ∧ field class0 6 2 < field class0 8 2 ∧
      field class0 10 2 = 2000 ∧ line0.refs.classes.find (field class0 0 1) = none := by decide

theorem test_load_design_clauses :
    let p : List Byte := [4#8, 1#8, 0x05#8, 0xDC#8, 0#8]
    p.length = 5 ∧ yesNo (field p 1 1) = some true ∧ field p 2 2 = 1500 ∧ field p 4 1 = 0 ∧
      line0.refs.designs.find (field p 0 1) = none := by decide

theorem test_read_entry_clauses :
    field [0#8, 1#8] 0 1 = 0 ∧ (field [1#8, 31#8] 0 1 = 1 ∧ field [1#8, 31#8] 1 1 ≤ 31) ∧ field [2#8, 3#8] 0 1 = 2 ∧
      2 < field [3#8, 0#8] 0 1 ∧ 31 < field [1#8, 32#8] 1 1 := by decide

/-- The payload of a SET PATTERN of entry 7 with action TEST and design 3. -/
def pattern0 : List Byte :=
  [7#8, 1#8, 0#8, 0#8, 0#8, 0#8, 0#8, 0xCB#8, 0#8, 0#8, 0#8, 0#8, 0#8, 0#8, 0#8, 3#8]

theorem test_set_pattern_clauses :
    pattern0.length = 16 ∧ yesNo (field pattern0 1 1) = some true ∧ yesNo (field pattern0 14 1) = some false ∧
      field pattern0 0 1 ≤ 7 ∧ (line0.refs.designs.find (field pattern0 15 1)).isSome := by decide

/-! ## Witnesses: orders -/

/-- The payload of an ADMIT ORDER of one line. -/
def admit0 (number quantity : Byte) : List Byte := [0#8, 0#8, 0#8, number, 7#8, 1#8, 3#8, 1#8, quantity]

/-- A line whose every order slot is taken. -/
def fullLine : State :=
  { line0 with orders := { slots := (List.range 64).map fun k => (k, { order0 with number := k + 8 }), freeCells := 320 } }

theorem test_admit_hypotheses :
    let p := admit0 9#8 99#8
    let lines := admitLines p 6 (field p 5 1)
    p.length = 6 + 3 * field p 5 1 ∧ field p 0 4 = 9 ∧ field p 4 1 ≤ 7 ∧ lines.length = 1 ∧
      (∀ l ∈ lines, 1 ≤ l.quantity ∧ l.quantity ≤ 99) ∧ line0.findOrder 9 = none ∧ line0.order 0 = none ∧
      (∀ l ∈ lines, (line0.refs.designs.find l.design).isSome ∧ (line0.refs.skus.find l.sku).isSome) ∧
      lines.length + line0.limits.holdReserve ≤ line0.orders.freeCells ∧ line0.orphans = [] ∧
      (withItem (item .exit) line0).orphans = [tag0] := by decide

theorem test_admit_refusal_clauses :
    let lines := fun p => admitLines p 6 (field p 5 1)
    (¬ ∀ l ∈ lines (admit0 9#8 100#8), l.quantity ≤ 99) ∧ ((withOrder order0 line0).findOrder 7).isSome ∧
      (∀ k, k ≤ 63 → (fullLine.order k).isSome) ∧ fullLine.findOrder 7 = none ∧
      (¬ ∀ l ∈ lines (admit0 9#8 1#8), ((State.reset).refs.designs.find l.design).isSome) ∧ State.reset.order 0 = none ∧
      ({ line0 with orders.freeCells := 32 } : State).orders.freeCells < 1 + line0.limits.holdReserve := by decide

theorem test_cancel_clauses :
    let s := withOrder order0 line0
    let t := withOrder { order0 with bin := some 47 } (line0.setBin 47 ⟨.filling, some 0⟩)
    s.findOrder 7 = some (0, order0) ∧ s.findOrder 8 = none ∧ (∀ l ∈ order0.lines, l.inFlight = 0) ∧
      s.liveGarments = [] ∧ t.findOrder 7 = some (0, { order0 with bin := some 47 }) ∧ TablesOk s ∧ TablesOk t ∧
      ((withOrder { order0 with state := .complete } line0).findOrder 7).map (fun e => e.2.state) = some .complete := by
  refine ⟨by decide, by decide, by decide, by decide, by decide, ?_, ?_, by decide⟩ <;> constructor <;> decide

theorem test_release_hold_clauses :
    let s := withOrder { order0 with state := .held, lines := [⟨3, 1, 2, 0, 2, 3, .failed⟩] } line0
    let t := withOrder { order0 with state := .held, lines := [⟨3, 1, 2, 0, 0, 3, .failed⟩] } line0
    (s.findOrder 7).map (fun e => (e.1, e.2.state)) = some (0, .held) ∧
      (∀ o, s.order 0 = some o → ∀ l ∈ o.lines, l.binned = l.quantity) ∧
      (t.findOrder 7).map (fun e => (e.1, e.2.state)) = some (0, .held) ∧
      (∃ o, t.order 0 = some o ∧ ∃ l ∈ o.lines, l.binned ≠ l.quantity) ∧ t.orphans = [] ∧ TablesOk s ∧ TablesOk t ∧
      s.findOrder 8 = none ∧ (withOrder order0 line0).findOrder 7 = some (0, order0) ∧ order0.state ≠ .held := by
  refine ⟨by decide, ?_, by decide, ⟨_, rfl, by decide⟩, by decide, ?_, ?_, by decide, by decide, by decide⟩
  · intro o h; cases h; decide
  all_goals constructor <;> decide

theorem test_set_scheduler_clauses :
    let p : List Byte := [0#8, 0#8, 1#8, 1#8, 2#8, 2#8, 3#8, 3#8, 1#8, 15#8, 3#8, 6#8, 1#8]
    p.length = 13 ∧ (∀ c ∈ fields p 0 1 8, c ≤ 3) ∧ (∀ w ∈ fields p 8 1 4, 1 ≤ w ∧ w ≤ 15) ∧ field p 12 1 ≤ 1 ∧
      ¬ (∀ w ∈ fields (List.replicate 13 0#8) 8 1 4, 1 ≤ w ∧ w ≤ 15) := by decide

/-! ## Witnesses: queries, the walk, retirement -/

theorem test_query_clauses :
    let s := withVerdict .unload { platen := some 20, tag := tag0, verdict := .wait, cls := .wait } line0
    let m : State := { line0 with ring := { line0.ring with platens := [], cycle := .moving, moveTimer := some 5 } }
    Link.ofNumber (field [8#8] 0 1) = none ∧ Link.ofNumber (field [5#8] 0 1) = some .unload ∧
      (s.station .unload).workTimer = some 30 ∧ line0.ring.cycle = .idle ∧ m.ring.cycle = .moving ∧
      m.ring.moveTimer = some 5 := by decide

theorem test_walk_clauses :
    let s := withItem (item .exit) line0
    s.garments.records.find 300 = some (item .exit) ∧ (∀ j, j < 300 → s.garments.records.find j = none) ∧
      line0.garments.records = [] ∧ (s.setCursor (.pos 300)).garments.cursor = .pos 300 ∧ s.garments.cursor = .none ∧
      (s.setCursor .ended).garments.cursor = .ended := by
  refine ⟨by decide, ?_, by decide, by decide, by decide, by decide⟩
  intro j hj
  exact if_neg (by omega)

theorem test_retire_clauses :
    let s := withItem (item .exit) line0
    let v := withVerdict .matching { platen := none, tag := tag0, verdict := .spare } s
    s.findTag (tagField [0#8, 0#8, 0#8, 0#8, 0#8, 0xCB#8] 0) = some (300, item .exit) ∧ (item .exit).binding = none ∧
      (∀ l, s.verdictOf l = none) ∧ (∃ x, v.verdictOf .matching = some x ∧ x.tag = tag0) ∧ line0.findTag tag0 = none := by
  refine ⟨by decide, by decide, ?_, ⟨_, rfl, rfl⟩, by decide⟩
  intro l; cases l <;> rfl

/-! ## Witnesses: the line's configuration and the ring -/

theorem test_set_station_and_platen_clauses :
    let p : List Byte := [0#8, 4#8, 7#8, 11#8, 15#8, 23#8]
    let q := positionsOf p
    (q.load < q.pretreat ∧ q.pretreat < q.press ∧ q.press < q.printA ∧ q.printA < q.printB ∧ q.printB < q.unload ∧
      q.unload ≤ 23) ∧ State.reset.ring.state = .stopped ∧ line0.ring.state ≠ .stopped ∧
      ¬ ((positionsOf (List.replicate 6 0#8)).load < (positionsOf (List.replicate 6 0#8)).pretreat) ∧
      field [23#8, 1#8] 0 1 ≤ 23 ∧ field [23#8, 1#8] 1 1 ≤ 1 ∧ (line0.platen 23).state ≠ .occupied ∧
      23 < field [24#8, 1#8] 0 1 ∧ ((withItem (item (.ring 0)) line0).platen 0).state = .occupied := by decide

/-- A RUNNING line with no hold, as a ring that an index has moved. -/
def calmRing (r : RingState) (c : Cycle) : State :=
  { line0 with ring := { line0.ring with state := r, platens := [], cycle := c, moveTimer := if c = .moving then some 5 else none } }

theorem test_ring_command_clauses :
    RingSafe (calmRing .stopped .idle) ∧ RingSafe (calmRing .running .moving) ∧ RingSafe (calmRing .halted .idle) ∧
      RingSafe (calmRing .stopping .moving) ∧ RingSafe line0 ∧
      ((calmRing .stopped .idle).station .load).working = true ∧ (calmRing .stopped .idle).facing .load = some 0 ∧
      (State.reset.station .load).working = false ∧ (calmRing .halted .idle).ring.eStop = false := by
  refine ⟨?_, ?_, ?_, ?_, ?_, by decide, by decide, by decide, by decide⟩ <;> constructor <;> decide

theorem test_set_meter_clauses :
    let p : List Byte := [0#8, 10#8, 0#8, 20#8, 0#8, 1#8, 50#8]
    p.length = 7 ∧ 1 ≤ field p 4 2 ∧ 1 ≤ field p 6 1 ∧ field p 6 1 ≤ 50 ∧ field (List.replicate 7 0#8) 4 2 = 0 := by decide

theorem test_set_tunnel_and_weights_clauses :
    let p : List Byte := [0x01#8, 0xF4#8, 0x07#8, 0xD0#8, 0#8, 1#8, 0#8, 1#8, 0x01#8, 0xF4#8]
    let w : List Byte := List.replicate 32 0#8 ++ [250#8, 20#8]
    p.length = 10 ∧ field p 0 2 = 500 ∧ field p 2 2 = 2000 ∧ field p 4 2 = 1 ∧ field p 6 2 = 1 ∧ field p 8 2 = 500 ∧
      line0.liveGarments = [] ∧ field (List.replicate 10 0#8) 8 2 = 0 ∧
      (withItem (item (.belt 0 0#32)) line0).liveGarments.any Garment.onBelt = true ∧ w.length = 34 ∧
      (∀ x ∈ fields w 0 2 16, x ≤ 1023) ∧ field w 32 1 = 250 ∧ field w 33 1 = 20 ∧
      field (List.replicate 34 0#8) 32 1 < 100 := by decide

theorem test_set_line_limits_clauses :
    let p : List Byte := [60#8, 15#8, 7#8, 7#8, 120#8, 128#8, 16#8, 30#8, 0x02#8, 0x58#8, 0x02#8, 0x58#8, 0x02#8, 0x58#8,
      0x02#8, 0x58#8, 0x02#8, 0x58#8, 0x02#8, 0x58#8, 0#8, 1#8]
    p.length = 22 ∧ (limitsOf p).ok = true ∧ (limitsOf (List.replicate 22 0#8)).ok = false := by decide

theorem test_set_station_mode_clauses :
    Link.unload.number = field [5#8, 1#8, 2#8] 0 1 ∧ StationMode.standby.code = field [5#8, 1#8, 2#8] 1 1 ∧
      (line0.station .unload).mode = .active ∧ line0.verdictOf .unload = none ∧ 7 < field [8#8, 0#8, 0#8] 0 1 ∧
      3 < field [0#8, 4#8, 0#8] 1 1 ∧ 2 < field [0#8, 0#8, 3#8] 2 1 ∧ StationMode.offline.code = field [5#8, 0#8, 2#8] 1 1 ∧
      ((StationMode.active, StationMode.offline) ∉ [(StationMode.standby, StationMode.check), (.check, .active),
        (.active, .check), (.active, .standby), (.check, .standby)]) := by decide

/-! ## Witnesses: links -/

theorem test_link_clauses :
    (State.reset.station .press).up = false ∧ field [2#8, 1#8, 2#8] 0 1 = Link.press.number ∧
      field [3#8, 1#8, 2#8] 0 1 ≠ Link.press.number ∧ (line0.station .press).up = true ∧
      line0.verdictOf .press = none ∧ line0.ring.state ≠ .verifying ∧ messageOk .press kindStatus [] = true ∧
      messageOk .press kindStatus [0#8] = false ∧ messageOk .press kindHello [8#8, 0#8, 0#8] = false := by decide

/-! ## Witnesses: the ring -/

theorem presents_empty : line0.Presents .press kindEmpty [7#8] 7 := by
  refine ⟨⟨?_, ?_⟩, ?_, ?_, ?_, ?_, ?_, ?_, ?_, ?_⟩ <;> decide

/-- Garments brought to PRETREAT on platen 4. -/
theorem brings_pretreat :
    ∀ g ∈ [item (.ring 4), { item (.ring 4) with spoiled := true }, { item (.ring 4) with stage := .treated }],
      (withItem g line0).Brings .pretreat (arrive0 4#8 0#8) 4 300 g := by
  intro g hg
  fin_cases hg
  all_goals refine ⟨⟨⟨?_, ?_⟩, ?_, ?_, ?_, ?_, ?_, ?_, ?_, ?_⟩, ?_, ?_, ?_, ?_⟩ <;> decide

theorem test_empty_or_spoiled_passes_clauses :
    line0.Presents .press kindEmpty [7#8] 7 ∧ (line0.platen 7).state ≠ .occupied ∧ TablesOk line0 ∧
      (∃ j, j ≠ 7 ∧ (line0.platen j).held = true) ∧
      (let s : State := { line0 with ring := { line0.ring with state := .stopping, platens := [(7, ⟨.empty, none, true⟩)] } }
       s.Presents .press kindEmpty [7#8] 7 ∧ ∀ j, j ≠ 7 → (s.platen j).held = false) ∧
      (withItem { item (.ring 4) with spoiled := true } line0).Brings .pretreat (arrive0 4#8 0#8) 4 300
        { item (.ring 4) with spoiled := true } := by
  refine ⟨presents_empty, by decide, tables_line0, ⟨0, by decide, by decide⟩, ⟨?_, ?_⟩, brings_pretreat _ (by simp)⟩
  · refine ⟨⟨?_, ?_⟩, ?_, ?_, ?_, ?_, ?_, ?_, ?_, ?_⟩ <;> decide
  · intro j hj
    have : Table.find (α := Platen) [(7, ⟨.empty, none, true⟩)] j = none := if_neg hj
    simp only [State.platen, Table.look, this, Option.getD_none]

theorem test_checks_before_the_lists_clauses :
    let p : List Byte := arrive0 7#8 0#8
    let other := withItem { item (.ring 7) with tag := 0x0000000001CA#48 } line0
    line0.Hears .press kindArrive p ∧ platenOf p = some 7 ∧ (line0.station .press).mode = .active ∧
      line0.facing .press = some 7 ∧ line0.facing .printA ≠ some 7 ∧ (line0.platen 7).state ≠ .occupied ∧
      (other.platen 7).state = .occupied ∧ (other.platen 7).tag = some 0x0000000001CA#48 ∧
      (other.findTag 0x0000000001CA#48).isSome ∧ (calmRing .running .moving).Hears .press kindArrive p ∧
      (calmRing .halted .idle).Hears .press kindArrive p ∧ (calmRing .verifying .idle).Hears .press kindArrive p ∧
      (line0.setMode .press .standby).Hears .press kindArrive p := by
  refine ⟨⟨?_, ?_⟩, ?_, ?_, ?_, ?_, ?_, ?_, ?_, ?_, ⟨?_, ?_⟩, ⟨?_, ?_⟩, ⟨?_, ?_⟩, ⟨?_, ?_⟩⟩ <;> decide

/-- The line with a pattern that gives `tag0` design 3, or blocks it. -/
def patterned (a : PatternAction) : State :=
  { line0 with garments.patterns := [(0, ⟨true, tag0, 0#48, a, 3⟩)] }

theorem test_load_learns_clauses :
    let p := arrive0 0#8 0#8
    let s := withOrder order0 line0
    (patterned .test).Presents .load kindArrive p 0 ∧ s.Presents .load kindArrive p 0 ∧ (s.platen 0).state = .empty ∧
      field p 7 1 = 1 ∧ s.findTag (tagField p 1) = none ∧ s.refs.skus.find (field p 8 1) = some ⟨2, 0⟩ ∧
      (s.refs.classes.find 2).isSome ∧ (∀ l, (s.station l).mode = .active) ∧ s.freeWay (tagField p 1) = some 300 ∧
      ((patterned .test).patternFor (tagField p 1)).map Pattern.action = some .test ∧ s.patternFor (tagField p 1) = none ∧
      (s.sched.choose (s.candidates .all 1 none)).map (fun e => (e.1.slot, e.1.line)) = some (0, 0) ∧
      (s.line 0 0).isSome := by
  refine ⟨?_, ?_, by decide, by decide, by decide, by decide, by decide, ?_, by decide, by decide, by decide, by decide,
    by decide⟩
  · refine ⟨⟨?_, ?_⟩, ?_, ?_, ?_, ?_, ?_, ?_, ?_, ?_⟩ <;> decide
  · refine ⟨⟨?_, ?_⟩, ?_, ?_, ?_, ?_, ?_, ?_, ?_, ?_⟩ <;> decide
  · intro l; cases l <;> rfl

theorem test_load_refusal_clauses :
    let p := arrive0 0#8 0#8
    let noSku := p.set 7 0#8
    let fullBucket : State := { line0 with garments.records := [(300, { item .exit with tag := 0x01CA#48 }),
      (301, { item .exit with tag := 0x02C9#48 }), (302, { item .exit with tag := 0x03C8#48 }),
      (303, { item .exit with tag := 0x04CF#48 })] }
    line0.Presents .load kindArrive p 0 ∧ line0.Presents .load kindArrive noSku 0 ∧ field noSku 7 1 = 0 ∧
      ((patterned .block).patternFor tag0).map Pattern.action = some .block ∧
      ((withItem (item .exit) line0).findTag tag0).isSome ∧
      ({ line0 with refs.skus := [] } : State).refs.skus.find 1 = none ∧
      ((line0.setMode .pretreat .check).station .pretreat).mode ≠ .active ∧ fullBucket.freeWay tag0 = none ∧
      fullBucket.findTag tag0 = none ∧ line0.candidates .all 1 none = [] ∧ line0.patternFor tag0 = none := by
  refine ⟨?_, ?_, by decide, by decide, by decide, by decide, by decide, by decide, by decide, by decide, by decide⟩
  · refine ⟨⟨?_, ?_⟩, ?_, ?_, ?_, ?_, ?_, ?_, ?_, ?_⟩ <;> decide
  · refine ⟨⟨?_, ?_⟩, ?_, ?_, ?_, ?_, ?_, ?_, ?_, ?_⟩ <;> decide

theorem test_spray_clauses :
    let g := item (.ring 4)
    let s := withItem g line0
    let c := s.classEntry g.cls
    s.Brings .pretreat (arrive0 4#8 0#8) 4 300 g ∧ g.spoiled = false ∧ g.unverified = false ∧ 0 < c.rate ∧
      g.stage = .blank ∧ 0 < g.owed ∧ g.owed ≤ s.meter.bc ∧
      (withItem { g with stage := .treated } line0).Brings .pretreat (arrive0 4#8 0#8) 4 300 { g with stage := .treated } ∧
      { s.meter with bc := 0 }.bc < g.owed ∧ g.owed ≤ s.meter.be :=
  ⟨brings_pretreat _ (by simp), rfl, rfl, by decide, by decide, by decide, by decide, brings_pretreat _ (by simp),
    by decide, by decide⟩

theorem test_press_and_print_clauses :
    let g := { item (.ring 7) with stage := .treated, wet := true }
    let h := { item (.ring 11) with stage := .pressed }
    (withItem g line0).Brings .press (arrive0 7#8 0#8) 7 300 g ∧ 0 < ((withItem g line0).classEntry g.cls).pressBase ∧
      (withItem h line0).Brings .printA (arrive0 11#8 0#8) 11 300 h ∧ h.bridge = .a ∧
      ((withItem h line0).classEntry h.cls).dark = true ∧ ((withItem h line0).designEntry h.design).underbase = true := by
  refine ⟨?_, by decide, ?_, by decide, by decide, by decide⟩
  all_goals refine ⟨⟨⟨?_, ?_⟩, ?_, ?_, ?_, ?_, ?_, ?_, ?_, ?_⟩, ?_, ?_, ?_, ?_⟩ <;> decide

theorem test_unload_clauses :
    let g := { item (.ring 20) with stage := .printed }
    let h := { item (.ring 20) with binding := some ⟨0, 0⟩ }
    (withItem g line0).Brings .unload (arrive0 20#8 0#8) 20 300 g ∧ g.spoiled = false ∧ (line0.lane 0).free = true ∧
      (withItem h line0).Brings .unload (arrive0 20#8 0#8) 20 300 h ∧ h.laps < line0.limits.lapLimit ∧
      ({ line0 with cure.lanes := [(0, ⟨none, false, some 1#48⟩), (1, ⟨none, false, some 2#48⟩),
        (2, ⟨none, false, some 3#48⟩), (3, ⟨none, false, some 4#48⟩)] } : State).freeLane = none := by
  refine ⟨?_, by decide, by decide, ?_, by decide, by decide⟩
  all_goals refine ⟨⟨⟨?_, ?_⟩, ?_, ?_, ?_, ?_, ?_, ?_, ?_, ?_⟩, ?_, ?_, ?_, ?_⟩ <;> decide

/-- A VERIFYING line whose LOAD platen is held, after `n` readings. -/
def lap (n : Nat) (synced : Bool) : State :=
  { line0 with ring := { line0.ring with
      state := .verifying, platens := [(0, ⟨.empty, none, true⟩)], lapCount := n, lapSynced := synced } }

theorem test_verify_lap_clauses :
    (lap 0 false).Hears .load kindEmpty [5#8] ∧ platenOf [5#8] = some 5 ∧ ((lap 0 false).station .load).working = true ∧
      (lap 0 false).verdictOf .load = none ∧ (lap 0 false).facing .load = some 0 ∧ ((lap 0 false).platen 0).held = true ∧
      (lap 23 true).Hears .load kindEmpty [0#8] ∧ (lap 23 true).ring.lapSynced = true ∧ 23 ≤ (lap 23 true).ring.lapCount := by
  refine ⟨⟨?_, ?_⟩, ?_, ?_, ?_, ?_, ?_, ⟨?_, ?_⟩, ?_, ?_⟩ <;> decide

/-! ## Witnesses: closing reports -/

/-- A garment on a platen, with a verdict for it open at a station. -/
def worked (l : Link) (k : Nat) (v : Verdict) : State :=
  withVerdict l { platen := some k, tag := tag0, verdict := v, param1 := 120, grant := if v = .spray then some ⟨.green, .committed⟩ else none,
                  lane := if v = .toBelt then some 0 else none } (withItem (item (.ring k)) line0)

theorem test_ring_report_clauses :
    (worked .load 0 .load).Hears .load kindDone (done0 0#8 0#8) ∧
      (worked .load 0 .load).Hears .load kindAbort ((done0 0#8 0#8).take 7) ∧
      (worked .pretreat 4 .spray).Hears .pretreat kindDone (done0 4#8 100#8) ∧
      (worked .pretreat 4 .spray).Hears .pretreat kindFail ((done0 4#8 0#8).take 8) ∧
      (worked .press 7 .press).Hears .press kindDone (done0 7#8 0#8) ∧
      (worked .printA 11 .print).Hears .printA kindFail ((done0 11#8 0#8).take 8) ∧
      ((worked .printA 11 .print).verdictOf .printA).map (fun v => (v.platen, v.tag)) = some (some 11, tag0) ∧
      platenOf (done0 11#8 0#8) = some 11 ∧ tagField (done0 11#8 0#8) 1 = tag0 ∧
      (worked .printA 11 .print).findTag tag0 = some (300, item (.ring 11)) ∧
      (worked .printA 11 .print).notCancelled (item (.ring 11)) := by
  refine ⟨⟨?_, ?_⟩, ⟨?_, ?_⟩, ⟨?_, ?_⟩, ⟨?_, ?_⟩, ⟨?_, ?_⟩, ⟨?_, ?_⟩, ?_, ?_, ?_, ?_, ?_⟩
  all_goals first | decide | (intro b o h; cases h)

/-- The line with a garment in the exit queue and a verdict for it open at MATCH. -/
def matched (v : Verdict) (s : State) : State :=
  withVerdict .matching { platen := none, tag := tag0, verdict := v, lane := if v = .recure then some 3 else none } s

theorem test_placement_clauses :
    (worked .unload 20 .toBelt).Hears .unload kindDone (done0 20#8 0#8) ∧
      ((worked .unload 20 .toBelt).verdictOf .unload).map OpenVerdict.lane = some (some 0) ∧
      (matched .recure (withItem (item .exit) line0)).Hears .matching kindDone (done0 255#8 0#8) ∧
      ((matched .recure (withItem (item .exit) line0)).verdictOf .matching).map OpenVerdict.lane = some (some 3) ∧
      platenOf (done0 255#8 0#8) = none ∧
      (matched .overflow (withItem (item .exit) line0)).findTag tag0 = some (300, item .exit) := by
  refine ⟨⟨?_, ?_⟩, ?_, ⟨?_, ?_⟩, ?_, ?_, ?_⟩ <;> decide

theorem test_final_report_clauses :
    let s := matched .bin (withOrder { order0 with bin := some 0, lines := [⟨3, 1, 1, 1, 0, 0, .active⟩] }
      (withItem { item .exit with binding := some ⟨0, 0⟩ } line0))
    s.Hears .matching kindDone (done0 255#8 0#8) ∧ (s.findTag tag0).map (fun e => e.2.binding) = some (some ⟨0, 0⟩) ∧
      (s.order 0).map Order.bin = some (some 0) ∧
      (worked .unload 20 .ret).Hears .unload kindDone (done0 20#8 0#8) ∧
      (∀ v, (matched v line0).Hears .matching kindDone (done0 255#8 0#8)) := by
  refine ⟨⟨?_, ?_⟩, ?_, ?_, ⟨?_, ?_⟩, ?_⟩
  all_goals first | decide | exact fun v => ⟨rfl, by decide⟩

theorem test_open_verdict_report_clauses :
    let s := worked .press 7 .press
    let late : State := (line0.modifyStation .press fun x => { x with expired := some ⟨some 7, tag0⟩ })
    s.Hears .press kindArrive (arrive0 8#8 0#8) ∧ platenOf (arrive0 8#8 0#8) ≠ some 7 ∧
      s.Hears .press kindArrive (arrive0 7#8 0#8) ∧ late.Hears .press kindDone (done0 7#8 0#8) ∧
      (late.station .press).expired = some ⟨platenOf (done0 7#8 0#8), tagField (done0 7#8 0#8) 1⟩ ∧
      late.verdictOf .press = none ∧ line0.findTag tag0 = none ∧
      ((withItem (item (.ring 7)) line0).findTag tag0).isSome ∧ (line0.station .press).expired = none := by
  refine ⟨⟨?_, ?_⟩, ?_, ⟨?_, ?_⟩, ⟨?_, ?_⟩, ?_, ?_, ?_, ?_, ?_⟩ <;> decide

/-! ## Witnesses: timers and the drive -/

theorem test_timer_clauses :
    let w := withVerdict .unload { platen := some 20, tag := tag0, verdict := .wait, cls := .wait }
      (withItem (item (.ring 20)) line0)
    ((worked .press 7 .press).verdictOf .press).map OpenVerdict.cls = some .work ∧
      ((worked .printB 15 .print).verdictOf .printB).map OpenVerdict.verdict = some .print ∧
      ((worked .load 0 .load).verdictOf .load).map OpenVerdict.verdict = some .load ∧
      (w.verdictOf .unload).map OpenVerdict.cls = some .wait ∧ w.findTag tag0 = some (300, item (.ring 20)) ∧
      w.notCancelled (item (.ring 20)) := by
  refine ⟨?_, ?_, ?_, ?_, ?_, ?_⟩
  all_goals first | decide | (intro b o h; cases h)

theorem test_age_clauses :
    let s := withItem { item .exit with age := 11 } line0
    TablesOk s ∧ s.garments.records.find 300 = some { item .exit with age := 11 } ∧ s.limits.ageLimit ≤ min 15 (11 + 1) ∧
      TablesOk line0 ∧ line0.liveGarments = [] := by
  refine ⟨?_, ?_, ?_, tables_line0, ?_⟩
  · constructor <;> decide
  all_goals decide

theorem test_drive_clauses :
    RingSafe (calmRing .running .moving) ∧ (calmRing .running .moving).ring.cycle = .moving ∧
      ((calmRing .running .moving).station .load).working = true ∧ line0.ring.cycle = .idle ∧
      line0.ring.eStop = false ∧ line0.ring.state ≠ .halted ∧ (calmRing .halted .idle).ring.state = .halted ∧
      (∀ l, line0.verdictOf l = none) := by
  refine ⟨?_, ?_, ?_, ?_, ?_, ?_, ?_, ?_⟩
  · constructor <;> decide
  all_goals first | decide | (intro l; cases l <;> rfl)

/-! ## Witnesses: the tunnel and the put-wall -/

theorem test_advance_clauses :
    let s := withItem (item (.belt 0 0#32)) { line0 with cure.beltCount := 930#32 }
    s.Hears .cure kindAdvance [10#8, 0#8, 100#8, 0#8, 150#8, 0#8, 150#8, 0#8, 150#8] ∧
      s.garments.records.find 300 = some (item (.belt 0 0#32)) ∧ (withItem (item .exit) s).garments.records.find 300 =
        some (item .exit) := by
  refine ⟨⟨?_, ?_⟩, ?_, ?_⟩ <;> decide

theorem test_match_clauses :
    let p := arrive0 255#8 0#8
    let bound := { item .exit with binding := some ⟨0, 0⟩, result := .good }
    let taken : State := { line0 with bins.records := binNumbers.map fun k => (k, ⟨.filling, some 1⟩) }
    line0.Hears .matching kindArrive p ∧ (line0.station .matching).mode = .active ∧ line0.verdictOf .matching = none ∧
      line0.findTag tag0 = none ∧ (withItem (item (.ring 4)) line0).findTag tag0 = some (300, item (.ring 4)) ∧
      (withItem bound (withOrder order0 line0)).findTag tag0 = some (300, bound) ∧
      (withItem bound (withOrder order0 line0)).order 0 = some order0 ∧ (line0.bin 0).state = .free ∧
      (∀ j, j ≤ 47 → (taken.bin j).state ≠ .free) ∧ (line0.lane 0).free = true ∧
      (withItem { item .exit with kind := .test } line0).findTag tag0 = some (300, { item .exit with kind := .test }) ∧
      (withItem { item .exit with result := .under } line0).findTag tag0 =
        some (300, { item .exit with result := .under }) ∧
      ({ line0 with orders.freeCells := 0 } : State).orders.freeCells = 0 := by
  refine ⟨⟨?_, ?_⟩, ?_, ?_, ?_, ?_, ?_, ?_, ?_, ?_, ?_, ?_, ?_, ?_⟩ <;> decide

theorem test_bin_cleared_clauses :
    let r := (withOrder { order0 with state := .complete, bin := some 47 } line0).setBin 47 ⟨.ready, some 0⟩
    let v := (withOrder { order0 with state := .cancelling, bin := some 47 } line0).setBin 47 ⟨.void, some 0⟩
    line0.Hears .matching kindBinCleared [47#8] ∧ 47 < field [48#8] 0 1 ∧ (line0.bin 47).state = .free ∧
      r.bin 47 = ⟨.ready, some 0⟩ ∧ (r.order 0).isSome ∧ v.bin 47 = ⟨.void, some 0⟩ ∧ v.verdictOf .matching = none ∧
      ((withVerdict .matching { platen := none, tag := tag0, verdict := .bin, param1 := 47 } v).verdictOf .matching).map
        (fun x => (x.verdict, x.param1)) = some (.bin, 47) := by
  refine ⟨⟨?_, ?_⟩, ?_, ?_, ?_, ?_, ?_, ?_, ?_⟩ <;> decide

theorem test_bin_handover_clause :
    let r := { line0 with orders.slots := [(0, { order0 with state := .complete, bin := some 47 }), (1, order0)] }
    let h := withItem { item .overflow with binding := some ⟨1, 0⟩, result := .good } (r.setBin 47 ⟨.ready, some 0⟩)
    h.bin 47 = ⟨.ready, some 0⟩ ∧ h.order 1 = some order0 ∧
      (h.bins.overflow.findSome? fun tag => (h.wantsBin tag).filter (· ≠ 0)) = some 1 := by
  refine ⟨?_, ?_, ?_⟩ <;> decide

/-! ## Witnesses: one record a tag -/

/-- One record in the bucket of its tag is one record a tag. -/
theorem tags_single (pos : Nat) (g : Garment) (h : pos ∈ tagWays g.tag) : TagsOk [(pos, g)] := by
  have find : ∀ q x, Table.find [(pos, g)] q = some x → q = pos ∧ x = g := by
    intro q x hq
    by_cases e : q = pos
    · subst e
      exact ⟨rfl, by simpa [Table.find] using hq.symm⟩
    · rw [show Table.find [(pos, g)] q = none from if_neg e] at hq
      cases hq
  refine ⟨fun q x hq => ?_, fun a b x y ha hb _ => ?_⟩
  · obtain ⟨rfl, rfl⟩ := find q x hq
    exact h
  · rw [(find a x ha).1, (find b y hb).1]

theorem test_tags_safe_meets_a_step :
    let s := { shop .exit with pending := [.workTimeout .matching] }
    TagsSafe s ∧ TablesOk s ∧ ∃ t, step s = .next t :=
  ⟨tags_single 300 _ (by decide), by constructor <;> decide, _, rfl⟩

/-! ## Witnesses: refusals of the reference tables and patterns -/

theorem test_load_sku_refusal_clauses :
    let used : State := { line0 with refs.skus := [(1, ⟨2, 1⟩)] }
    yesNo (field [1#8, 2#8, 2#8] 1 1) = none ∧ 31 < field [1#8, 1#8, 32#8] 2 1 ∧
      yesNo (field [1#8, 1#8, 32#8] 1 1) = some true ∧ used.refs.skus.find 1 = some ⟨2, 1⟩ ∧
      field [1#8, 1#8, 31#8] 2 1 ≤ 31 ∧ line0.refs.skus.find 1 = some ⟨2, 0⟩ ∧
      line0.refs.classes.find (field [1#8, 1#8, 31#8] 2 1) = none := by decide

theorem test_load_class_refusal_clauses :
    let used : State := { line0 with refs.classes := [(31, ⟨true, 40, 20, 5, 5, 20, 10, 1⟩)] }
    31 < field (class0.set 0 32#8) 0 1 ∧ yesNo (field (class0.set 1 2#8) 1 1) = none ∧
      field (class0.set 4 61#8) 4 1 = 61 ∧ ¬ field (class0.set 7 0x80#8) 6 2 < field (class0.set 7 0x80#8) 8 2 ∧
      field (class0.set 9 0x81#8) 8 2 = 16001 ∧ field (class0.set 2 2#8) 2 1 = 2 ∧
      (used.refs.classes.find (field class0 0 1)).map ClassEntry.count = some 1 := by decide

theorem test_load_design_refusal_clauses :
    let used : State := { line0 with refs.designs := [(4, ⟨900, true, 1⟩)] }
    yesNo (field [4#8, 2#8, 0#8, 1#8, 0#8] 1 1) = none ∧ field [4#8, 1#8, 0#8, 0#8, 0#8] 2 2 = 0 ∧
      field [4#8, 1#8, 0x05#8, 0xDD#8, 0#8] 2 2 = 1501 ∧ field [4#8, 1#8, 0#8, 1#8, 2#8] 4 1 = 2 ∧
      field [4#8, 1#8, 0#8, 1#8, 1#8] 2 2 = 1 ∧ (used.refs.designs.find 4).map DesignEntry.count = some 1 := by decide

theorem test_set_pattern_refusal_clauses :
    7 < field (pattern0.set 0 8#8) 0 1 ∧ yesNo (field (pattern0.set 1 2#8) 1 1) = none ∧
      yesNo (field (pattern0.set 14 2#8) 14 1) = none ∧ line0.refs.designs.find (field (pattern0.set 15 4#8) 15 1) = none := by
  decide

/-! ## Witnesses: orders with garments -/

/-- The line with an unbound garment in the exit queue, an orphan that an order may take. -/
def orphaned : State := withItem (item .exit) line0

theorem test_admit_with_an_orphan :
    orphaned.PortReady ∧ TablesOk orphaned ∧ TagsSafe orphaned ∧ orphaned.orphans = [tag0] ∧
      orphaned.findOrder 9 = none ∧ orphaned.order 0 = none ∧
      ((orphaned.addOrder 0 9 7 (admitLines (admit0 9#8 99#8) 6 1)).offerCounted (.order 0)).2 = 1 :=
  ⟨ready _ rfl rfl, by constructor <;> decide, tags_single 300 _ (by decide), by decide, by decide, by decide, by decide⟩

/-- The shop with a second order, number 8, in slot 1, of two lines: the first wants another design. -/
def twoOrders (loc : Location) : State :=
  let s := shop loc
  { s with orders := { s.orders with
      slots := s.orders.slots ++ [(1, { order0 with
        number := 8, admission := 1, lines := [⟨4, 1, 1, 0, 0, 0, .active⟩, ⟨3, 1, 1, 0, 0, 0, .active⟩] })] } }

theorem test_cancel_bound_clauses :
    let s := twoOrders .exit
    let named := withVerdict .matching { platen := none, tag := tag0, verdict := .spare } s
    s.PortReady ∧ TablesOk s ∧ TagsSafe s ∧ (s.findOrder 7).map (fun e => (e.1, e.2.state)) = some (0, .opened) ∧
      s.garments.records.find 300 = some { item .exit with binding := some ⟨0, 0⟩ } ∧ (∀ l, s.verdictOf l = none) ∧
      s.Wants .all 1 none 1 0 { order0 with
        number := 8, admission := 1, lines := [⟨4, 1, 1, 0, 0, 0, .active⟩, ⟨3, 1, 1, 0, 0, 0, .active⟩] }
        ⟨4, 1, 1, 0, 0, 0, .active⟩ ∧
      TagsSafe named ∧ (∃ v, named.verdictOf .matching = some v ∧ v.tag = tag0) := by
  refine ⟨ready _ rfl rfl, ?_, tags_single 300 _ (by decide), by decide, by decide, ?_, ?_,
    tags_single 300 _ (by decide), _, rfl, rfl⟩
  · constructor <;> decide
  · intro l; cases l <;> rfl
  · refine ⟨rfl, rfl, rfl, Or.inl rfl, rfl, rfl, ?_, by decide⟩
    intro d h; cases h

theorem test_cancel_spoiled_and_void_clauses :
    let s := withItem { item .exit with binding := some ⟨0, 0⟩, spoiled := true }
      ((withOrder { order0 with state := .filling, bin := some 47 } line0).setBin 47 ⟨.filling, some 0⟩)
    TablesOk s ∧ TagsSafe s ∧ (s.order 0).map Order.bin = some (some 47) ∧ (s.bin 47).state = .filling ∧
      (s.garments.records.find 300).map Garment.spoiled = some true :=
  ⟨by constructor <;> decide, tags_single 300 _ (by decide), by decide, by decide, by decide⟩

theorem test_retire_bound_clause :
    (shop .exit).findTag tag0 = some (300, { item .exit with binding := some ⟨0, 0⟩ }) ∧
      ((shop .exit).order 0).map Order.state = some .opened ∧ (∀ l, (shop .exit).verdictOf l = none) ∧
      ∀ x ∈ (shop .exit).liveGarments, x.binding = none → x.kind = .test := by
  refine ⟨by decide, by decide, ?_, by decide⟩
  intro l; cases l <;> rfl

/-- What a choice is told of: `order0`'s line wants SKU 1, and ranks first as the only one that does. -/
theorem test_choice_clauses :
    let s := withOrder order0 line0
    let strict : State := { s with sched.mode := .strict }
    let spent : State := { s with sched.credits := [0, 0, 0, 0] }
    TablesOk s ∧ s.Wants .all 1 none 0 0 order0 ⟨3, 1, 2, 0, 0, 0, .active⟩ ∧
      s.Wants .all 1 (some 3) 0 0 order0 ⟨3, 1, 2, 0, 0, 0, .active⟩ ∧
      (∀ slot i o l, s.Wants .all 1 none slot i o l → s.sched.classMap.getD o.level 0 = 0 ∧
        (order0.admission < o.admission ∨ (order0.admission = o.admission ∧ (0 < slot ∨ (0 = slot ∧ 0 ≤ i))))) ∧
      strict.sched.mode = .strict ∧ s.sched.mode = .weighted ∧ 0 < s.sched.credits.getD 0 0 ∧
      (∀ j, j ≤ 3 → spent.sched.credits.getD j 0 = 0) ∧ 0 < spent.sched.weights.getD 0 0 := by
  refine ⟨by constructor <;> decide, ⟨rfl, rfl, rfl, Or.inl rfl, rfl, rfl, ?_, by decide⟩,
    ⟨rfl, rfl, rfl, Or.inl rfl, rfl, rfl, ?_, by decide⟩, ?_, rfl, rfl, by decide, by decide, by decide⟩
  · intro d h; cases h
  · intro d h; cases h; rfl
  · intro slot i o l h
    have e := h.order
    by_cases z : slot = 0
    · subst z
      cases e
      exact ⟨rfl, Or.inr ⟨rfl, Or.inr ⟨rfl, Nat.zero_le _⟩⟩⟩
    · rw [show (withOrder order0 line0).order slot = none from if_neg z] at e
      cases e

/-! ## Witnesses: reports at the ring -/

/-- What `Hears` asks for, as one test. -/
theorem hears {s : State} {l : Link} {k : Byte} {p : List Byte}
    (h : ((s.station l).up && messageOk l k p) = true) : s.Hears l k p := by
  rw [Bool.and_eq_true] at h
  exact ⟨h.1, h.2⟩

theorem test_hello_of_another_kind_clauses :
    (line0.station .load).up = true ∧ field [7#8, 0#8, 9#8] 0 1 ≤ 7 ∧ field [7#8, 0#8, 9#8] 0 1 ≠ Link.load.number ∧
      line0.verdictOf .load = none ∧ line0.ring.state ≠ .verifying := by decide

theorem test_report_pass_clauses :
    let checked := withItem (item (.ring 7)) (line0.setMode .press .check)
    let still := withItem (item (.ring 7)) (calmRing .stopped .idle)
    let loose := withItem (item (.ring 7)) (calmRing .running .idle)
    let p := arrive0 7#8 0#8
    (checked.Hears .press kindArrive p ∧ (checked.station .press).mode = .check ∧ (checked.platen 7).tag = some tag0 ∧
      (checked.platen 7).state = .occupied ∧ checked.facing .press = some 7) ∧
      (still.Hears .press kindArrive p ∧ still.ring.state = .stopped ∧ (still.platen 7).tag = some tag0) ∧
      (loose.Hears .press kindArrive p ∧ (loose.platen 7).held = false ∧ (loose.platen 7).tag = some tag0) ∧
      ((line0.setMode .load .check).Hears .load kindArrive (arrive0 0#8 0#8) ∧ (line0.platen 0).state ≠ .occupied) ∧
      (line0.setMode .press .check).Hears .press kindEmpty [7#8] := by
  refine ⟨⟨hears ?_, ?_, ?_, ?_, ?_⟩, ⟨hears ?_, ?_, ?_⟩, ⟨hears ?_, ?_, ?_⟩, ⟨hears ?_, ?_⟩, hears ?_⟩ <;> decide

theorem test_report_bound_lost_clause :
    let s := (shop (.ring 7)).modifyPlaten 7 fun p => { p with held := true }
    s.Hears .press kindEmpty [7#8] ∧ (s.platen 7).state = .occupied ∧ (s.platen 7).tag = some tag0 ∧
      s.findTag tag0 = some (300, { item (.ring 7) with binding := some ⟨0, 0⟩ }) ∧ (s.order 0).isSome ∧
      ∀ x ∈ s.liveGarments, x.binding = none → x.kind = .test := by
  refine ⟨hears ?_, ?_, ?_, ?_, ?_, ?_⟩ <;> decide

theorem test_load_pass_clauses :
    let out := line0.modifyPlaten 0 fun p => { p with state := .out }
    let own := withItem (item (.ring 0)) line0
    let bad := withItem { item .exit with unverified := true } line0
    let p := arrive0 0#8 0#8
    (out.Presents .load kindArrive p 0 ∧ (out.platen 0).state = .out) ∧
      (own.Presents .load kindArrive p 0 ∧ (own.platen 0).state = .occupied ∧ (own.platen 0).tag = some (tagField p 1)) ∧
      (bad.Presents .load kindArrive p 0 ∧ (bad.platen 0).state = .empty ∧
        (bad.findTag (tagField p 1)).map (fun e => e.2.unverified) = some true) := by
  refine ⟨⟨⟨hears ?_, ?_, ?_, ?_, ?_, ?_, ?_, ?_, ?_⟩, ?_⟩, ⟨⟨hears ?_, ?_, ?_, ?_, ?_, ?_, ?_, ?_, ?_⟩, ?_, ?_⟩,
    ⟨⟨hears ?_, ?_, ?_, ?_, ?_, ?_, ?_, ?_, ?_⟩, ?_, ?_⟩⟩ <;> decide

theorem test_verify_lap_arrive_clauses :
    let s := fun n b => withItem { item (.ring 0) with unverified := true } (lap n b)
    let p := arrive0 0#8 0#8
    (s 22 true).Hears .load kindArrive p ∧ (s 23 true).Hears .load kindArrive p ∧
      ((s 22 true).platen 0).state = .occupied ∧ ((s 22 true).platen 0).tag = some (tagField p 1) ∧
      ((s 22 true).findTag tag0).isSome ∧ ((s 23 true).platen 0).held = true ∧
      (s 0 false).Hears .load kindEmpty [0#8] ∧ (s 23 true).Hears .load kindEmpty [0#8] ∧
      tagField (p.set 6 0#8) 1 ≠ tag0 ∧ (s 23 true).Hears .load kindArrive (p.set 6 0#8) ∧
      (lap 22 true).Hears .load kindArrive p ∧ ((lap 22 true).platen 0).state ≠ .occupied ∧
      (lap 1 true).facing .load ≠ some 5 ∧ (lap 1 true).Hears .load kindEmpty [5#8] := by
  refine ⟨hears ?_, hears ?_, ?_, ?_, ?_, ?_, hears ?_, hears ?_, ?_, hears ?_, hears ?_, ?_, ?_, hears ?_⟩ <;> decide

/-! ## Witnesses: cancelled orders, charges and supersession -/

/-- The shop whose order is being cancelled. -/
def cancelled (loc : Location) : State :=
  (shop loc).modifyOrder 0 fun o => { o with state := .cancelling }

theorem test_cancelled_close_and_timer_clauses :
    let s := withVerdict .press { platen := some 7, tag := tag0, verdict := .press } (cancelled (.ring 7))
    let w := withVerdict .unload { platen := some 20, tag := tag0, verdict := .wait, cls := .wait } (cancelled (.ring 20))
    s.Reports .press kindDone (done0 7#8 0#8) { platen := some 7, tag := tag0, verdict := .press } ∧ TablesOk s ∧
      TagsSafe s ∧ s.findTag tag0 = some (300, { item (.ring 7) with binding := some ⟨0, 0⟩ }) ∧
      (s.order 0).map Order.state = some .cancelling ∧
      ({ platen := some 7, tag := tag0, verdict := .press } : OpenVerdict).accepts kindDone = true ∧
      TablesOk w ∧ TagsSafe w ∧ (w.verdictOf .unload).map OpenVerdict.cls = some .wait ∧
      (w.order 0).map Order.state = some .cancelling := by
  refine ⟨⟨hears ?_, rfl, ?_, ?_⟩, ?_, tags_single 300 _ ?_, ?_, ?_, ?_, ?_, tags_single 300 _ ?_, ?_, ?_⟩
  all_goals first | decide | (constructor <;> decide)

theorem test_load_abort_bound_clause :
    let s := withVerdict .load { platen := some 0, tag := tag0, verdict := .load } (shop (.ring 0))
    s.Reports .load kindAbort ((done0 0#8 0#8).take 7) { platen := some 0, tag := tag0, verdict := .load } ∧ TagsSafe s ∧
      (s.order 0).map Order.state = some .opened := by
  refine ⟨⟨hears ?_, rfl, ?_, ?_⟩, tags_single 300 _ ?_, ?_⟩ <;> decide

/-- The line with a bound garment at UNLOAD, whose line has been charged `k` times, with a RETURN open for it. -/
def returning (spoiled : Bool) (k : Nat) : State :=
  withVerdict .unload { platen := some 20, tag := tag0, verdict := .ret }
    (withItem { item (.ring 20) with binding := some ⟨0, 0⟩, spoiled := spoiled }
      (withOrder { order0 with lines := [⟨3, 1, 2, 1, 0, k, .active⟩] } line0))

theorem test_charge_clauses :
    (∀ b, (returning b 3).Reports .unload kindDone (done0 20#8 0#8) { platen := some 20, tag := tag0, verdict := .ret }) ∧
      (∀ p x, (returning true 3).garments.records.find p = some x → x.tag = tag0 → p = 300) ∧
      TablesOk (returning true 2) ∧ TablesOk (returning true 3) ∧ (returning true 2).limits.reprintLimit = 3 ∧
      ((returning true 2).order 0).map (fun o => o.lines.map Line.spoils) = some [2] ∧
      ((returning true 3).order 0).map (fun o => o.lines.map Line.spoils) = some [3] ∧
      ∀ y ∈ (returning true 2).liveGarments, y.binding = none → y.kind = .test := by
  refine ⟨fun b => ⟨hears ?_, rfl, ?_, ?_⟩, ?_, ?_, ?_, ?_, ?_, ?_, ?_⟩
  · revert b; decide
  · decide
  · decide
  · intro p x h _
    by_cases e : p = 300
    · exact e
    · rw [show (returning true 3).garments.records.find p = none from if_neg e] at h
      cases h
  all_goals first | decide | (constructor <;> decide)

theorem test_supersession_clauses :
    let below := (worked .pretreat 4 .spray).setMode .pretreat .standby
    let p := arrive0 4#8 0#8
    let load := (worked .load 0 .load).modifyPlaten 0 fun x => { x with held := true }
    let put := matched .recure (withItem (item .exit) line0)
    (below.Hears .pretreat kindEmpty [4#8] ∧ platenOf [4#8] = some 4 ∧ (below.station .pretreat).working = false ∧
      (below.verdictOf .pretreat).map OpenVerdict.verdict = some .spray ∧
      below.findTag tag0 = some (300, item (.ring 4)) ∧ below.notCancelled (item (.ring 4))) ∧
      ((worked .pretreat 4 .spray).Hears .pretreat kindArrive (p.set 6 0#8) ∧ tagField (p.set 6 0#8) 1 ≠ tag0 ∧
        (worked .pretreat 4 .spray).findTag (tagField (p.set 6 0#8) 1) = none ∧
        ((worked .pretreat 4 .spray).station .pretreat).working = true ∧
        ((worked .pretreat 4 .spray).platen 4).state = .occupied ∧ ((worked .pretreat 4 .spray).platen 4).tag = some tag0 ∧
        (worked .pretreat 4 .spray).facing .pretreat = some 4 ∧ (worked .pretreat 4 .spray).ring.cycle = .idle ∧
        (worked .pretreat 4 .spray).ring.state = .running) ∧
      (load.Hears .load kindEmpty [0#8] ∧ (load.platen 0).tag = some tag0 ∧
        (load.verdictOf .load).map OpenVerdict.verdict = some .load) ∧
      (put.Hears .matching kindArrive ((arrive0 255#8 0#8).set 6 0#8) ∧
        put.findTag (tagField ((arrive0 255#8 0#8).set 6 0#8) 1) = none ∧
        (put.verdictOf .matching).map OpenVerdict.verdict = some .recure ∧ put.notCancelled (item .exit) ∧
        put.verdictOf .unload = none) := by
  refine ⟨⟨hears ?_, ?_, ?_, ?_, ?_, ?_⟩, ⟨hears ?_, ?_, ?_, ?_, ?_, ?_, ?_, ?_, ?_⟩, ⟨hears ?_, ?_, ?_⟩,
    ⟨hears ?_, ?_, ?_, ?_, ?_⟩⟩
  all_goals first | decide | (intro b o h; cases h)

/-! ## Witnesses: a lane for the WAIT at UNLOAD -/

/-- The line with a WAIT open at UNLOAD and the given lanes reserved for other garments. -/
def waiting (taken : List Nat) : State :=
  withVerdict .unload { platen := some 20, tag := tag0, verdict := .wait, cls := .wait }
    (withItem { item (.ring 20) with stage := .printed }
      { line0 with cure.lanes := taken.map fun k => (k, ⟨none, false, some 1#48⟩) })

theorem test_wait_and_lane_clauses :
    ((waiting [0, 1, 2]).verdictOf .unload).map OpenVerdict.cls = some .wait ∧ ((waiting [0, 1, 2]).lane 3).free = true ∧
      (∀ j, j < 3 → ((waiting [0, 1, 2]).lane j).free = false) ∧
      (∀ k, k ≤ 3 → ((waiting [0, 1, 2, 3]).lane k).free = false) ∧
      (waiting [0, 1, 2]).Hears .cure kindAdvance (List.replicate 9 0#8) ∧ ((waiting []).lane 0).free = true ∧
      (∀ g ∈ (waiting [0, 1, 2]).liveGarments, g.onBelt = false) := by
  refine ⟨?_, ?_, ?_, ?_, hears ?_, ?_, ?_⟩ <;> decide

/-- The line with a WAIT open at UNLOAD, every lane reserved, the last for a garment with RECURE open at MATCH. -/
def recuring (unload : Bool) : State :=
  let other := { item .exit with tag := 0x01CA#48 }
  let s := { (if unload then waiting [0, 1, 2] else withItem (item (.ring 20))
    { line0 with cure.lanes := (waiting [0, 1, 2]).cure.lanes }) with cure.exitQueue := [other.tag] }
  withVerdict .matching { platen := none, tag := other.tag, verdict := .recure, lane := some 3, param1 := 3 }
    ((s.putRecord 301 other).modifyLane 3 fun x => { x with reservation := some other.tag })

theorem test_work_timeout_undo_clauses :
    let held := withVerdict .matching { platen := none, tag := tag0, verdict := .overflow, holdTaken := true }
      (withItem (item .exit) line0)
    ((held.verdictOf .matching).map fun v => (v.cls, v.verdict)) = some (.work, .overflow) ∧
      held.findTag tag0 = some (300, item .exit) ∧ held.notCancelled (item .exit) ∧
      (((recuring true).verdictOf .matching).map fun v => (v.cls, v.verdict, v.tag)) = some (.work, .recure, 0x01CA#48) ∧
      ((recuring true).findTag 0x01CA#48).isSome ∧ ((recuring true).verdictOf .unload).map OpenVerdict.cls = some .wait ∧
      ((recuring true).lane 3).reservation = some 0x01CA#48 ∧ (∀ j, j < 3 → ((recuring true).lane j).free = false) ∧
      (recuring false).verdictOf .unload = none ∧ ((recuring false).findTag 0x01CA#48).isSome := by
  refine ⟨?_, ?_, ?_, ?_, ?_, ?_, ?_, ?_, ?_, ?_⟩
  all_goals first | decide | (intro b o h; cases h)

theorem test_match_below_active_clause :
    let s := withItem (item .exit) (line0.setMode .matching .check)
    s.Hears .matching kindArrive (arrive0 255#8 0#8) ∧ (s.station .matching).mode ≠ .active ∧
      s.verdictOf .matching = none ∧ s.findTag tag0 = some (300, item .exit) ∧
      (line0.setMode .matching .standby).findTag tag0 = none := by
  refine ⟨hears ?_, ?_, ?_, ?_, ?_⟩ <;> decide

/-! ## Witnesses: the scheduler's ranges and offerings -/

theorem sched_line0 : line0.sched.Safe := scheduler_reset_safe

theorem test_scheduler_safe_meets_a_step :
    ({ line0 with pending := [.indexFault] } : State).sched.Safe ∧
      ∃ t, step { line0 with pending := [.indexFault] } = .next t :=
  ⟨scheduler_reset_safe, _, rfl⟩

/-- The line with an orphan in the exit queue and a HELD order whose FAILED line wants it. -/
def heldWithOrphan : State :=
  withItem (item .exit) (withOrder { order0 with state := .held, lines := [⟨3, 1, 2, 0, 0, 3, .failed⟩] } line0)

/-- A second record beside that of `tag0`, in the next way of its bucket. -/
theorem tags_pair (g h : Garment) (hg : g.tag = tag0) (hh : h.tag = 0x01CA#48) : TagsOk [(300, g), (301, h)] := by
  have one : TagsOk [(300, g)] := tags_single 300 g (by rw [hg]; decide)
  refine one.put_new (pos := 301) (g := h) (by rw [hh]; decide) fun q x hx => ?_
  by_cases e : q = 300
  · subst e
    cases hx
    rw [hg, hh]
    decide
  · rw [show Table.find [(300, g)] q = none from if_neg e] at hx
    cases hx

/-- A bound garment that an orphan of another tag waits to follow onto its line. -/
def followed (loc : Location) : State :=
  (shop loc).putRecord 301 { item .overflow with tag := 0x01CA#48, stage := .printed }

theorem test_offering_clauses :
    orphaned.sched.Safe ∧ (twoOrders .exit).sched.Safe ∧
      (TablesOk heldWithOrphan ∧ TagsSafe heldWithOrphan ∧ heldWithOrphan.sched.Safe ∧ heldWithOrphan.orphans = [tag0] ∧
        (heldWithOrphan.findOrder 7).map (fun e => e.2.state) = some .held) ∧
      (TablesOk (followed .exit) ∧ TagsSafe (followed .exit) ∧ (followed .exit).sched.Safe ∧
        (followed .exit).orphans = [0x01CA#48] ∧ ((followed .exit).findTag tag0).isSome ∧
        ((followed .exit).order 0).map Order.state = some .opened ∧ ∀ l, (followed .exit).verdictOf l = none) ∧
      TagsSafe (returning true 2) ∧ (returning true 2).sched.Safe ∧ ((returning true 2).order 0).map Order.state = some .opened := by
  refine ⟨sched_line0, sched_line0, ⟨?_, tags_single 300 _ ?_, sched_line0, ?_, ?_⟩,
    ⟨?_, tags_pair _ _ rfl rfl, sched_line0, ?_, ?_, ?_, ?_⟩, tags_single 300 _ ?_, sched_line0, ?_⟩
  all_goals first | decide | (constructor <;> decide) | (intro l; cases l <;> rfl)

/-- An offering that binds: RELEASE HOLD's, once the order is OPEN. -/
theorem test_an_offering_binds :
    let s := withItem (item .exit) (withOrder order0 line0)
    s.Offers (.order 0) (s.offer (.order 0)) 1 := by
  have tables : TablesOk (withItem (item .exit) (withOrder order0 line0)) := by constructor <;> decide
  have count : ((withItem (item .exit) (withOrder order0 line0)).offerCounted (.order 0)).2 = 1 := by decide
  have h := offers_offerCounted (.order 0) tables (tags_single 300 _ (by decide)) sched_line0
  rw [count] at h
  exact h

/-! ## Witnesses: OVERFLOW again, verdicts undone without a write, garments that leave the belt together -/

theorem test_overflow_again_clause :
    let v : OpenVerdict := { platen := none, tag := tag0, verdict := .overflow }
    let s := withVerdict .matching v (withItem (item .overflow) line0)
    s.Reports .matching kindDone (done0 255#8 0#8) v ∧ s.findTag tag0 = some (300, item .overflow) ∧
      s.notCancelled (item .overflow) := by
  refine ⟨⟨hears ?_, rfl, ?_, ?_⟩, ?_, ?_⟩
  all_goals first | decide | (intro b o h; cases h)

theorem test_supersession_below_check_clause :
    let s := (worked .press 7 .press).setMode .press .standby
    s.Hears .press kindEmpty [7#8] ∧ (s.station .press).working = false ∧
      (s.verdictOf .press).map OpenVerdict.verdict = some .press ∧ s.findTag tag0 = some (300, item (.ring 7)) ∧
      s.notCancelled (item (.ring 7)) := by
  refine ⟨hears ?_, ?_, ?_, ?_, ?_⟩
  all_goals first | decide | (intro b o h; cases h)

theorem test_exit_order_clause :
    let a := item (.belt 1 0#32)
    let b := { item (.belt 0 5#32) with tag := 0x01CA#48 }
    let s := (withItem a { line0 with cure.beltCount := 930#32 }).putRecord 301 b
    s.Hears .cure kindAdvance [100#8, 0#8, 100#8, 0#8, 150#8, 0#8, 150#8, 0#8, 150#8] ∧ TablesOk s ∧ TagsSafe s ∧
      s.liveGarments = [a, b] ∧ s.cure.e0 + s.cure.z1 + s.cure.z2 + s.cure.z3 ≤ (s.cure.beltCount + 100#32 - 5#32).toNat := by
  refine ⟨hears ?_, ?_, tags_pair _ _ rfl rfl, rfl, ?_⟩
  all_goals first | decide | (constructor <;> decide)

/-! ## Witnesses: what a retirement gives back, and what a halt undoes -/

/-- A garment in the exit queue whose tag is not that of the WAIT. -/
def other : Garment := { item .exit with tag := 0x01CA#48 }

/-- The line with a WAIT open at UNLOAD and every lane reserved, the last for a garment in the exit queue. -/
def queued : State :=
  ((waiting [0, 1, 2]).putRecord 301 other).modifyLane 3 fun x => { x with reservation := some other.tag }

/-- The payload of a DONE of `other` at MATCH. -/
def doneOther : List Byte := [255#8, 0#8, 0#8, 0#8, 0#8, 1#8, 0xCA#8, 0#8, 0#8]

theorem test_lane_given_back_clauses :
    queued.findTag other.tag = some (301, other) ∧ (queued.lane 3).reservation = some other.tag ∧
      (∀ j, j < 3 → (queued.lane j).free = false) ∧ (queued.verdictOf .unload).map OpenVerdict.cls = some .wait ∧
      (∀ l v, queued.verdictOf l = some v → v.tag ≠ other.tag) ∧ TablesOk queued ∧
      (withVerdict .matching { platen := none, tag := other.tag, verdict := .reject } queued).Reports .matching kindDone
        doneOther { platen := none, tag := other.tag, verdict := .reject } ∧
      TagsSafe (withVerdict .matching { platen := none, tag := other.tag, verdict := .reject } queued) := by
  refine ⟨?_, ?_, ?_, ?_, ?_, ?_, ⟨hears ?_, rfl, ?_, ?_⟩, tags_pair _ _ rfl rfl⟩
  all_goals first | decide | (constructor <;> decide) | skip
  intro l v h
  cases l <;> cases h
  decide

theorem test_bound_garment_given_back_clauses :
    let left := cancelled .overflow
    let named := left.modifyOrder 0 fun o => { o with bin := some 3 }
    (shop .overflow).findTag tag0 = some (300, { item .overflow with binding := some ⟨0, 0⟩ }) ∧
      (shop (.ring 4)).findTag tag0 = some (300, { item (.ring 4) with binding := some ⟨0, 0⟩ }) ∧
      ((shop .overflow).order 0).map Order.state = some .opened ∧ TablesOk left ∧
      (∃ o, left.order 0 = some o ∧ o.LeftEmpty 0) ∧ ∃ o, named.order 0 = some o ∧ ¬ o.LeftEmpty 0 := by
  refine ⟨by decide, by decide, by decide, ?_, ⟨_, rfl, by decide, by decide, by decide⟩, _, rfl, ?_⟩
  · constructor <;> decide
  · rintro ⟨-, h, -⟩
    cases h

/-- A halt meets each kind of ring verdict, of a live garment and of none, and a garment of an order being cancelled. -/
theorem test_halt_clauses :
    let wait := withVerdict .unload { platen := some 20, tag := tag0, verdict := .wait, cls := .wait }
      (withItem (item (.ring 20)) line0)
    let gone := withVerdict .press { platen := some 7, tag := tag0, verdict := .press } line0
    let off := withVerdict .press { platen := some 7, tag := tag0, verdict := .press } (cancelled (.ring 7))
    (∀ e ∈ [(Link.pretreat, 4, Verdict.spray), (.press, 7, .press), (.load, 0, .load), (.unload, 20, .toBelt)],
      ((worked e.1 e.2.1 e.2.2).verdictOf e.1).map OpenVerdict.verdict = some e.2.2 ∧
        (worked e.1 e.2.1 e.2.2).findTag tag0 = some (300, item (.ring e.2.1)) ∧
        (worked e.1 e.2.1 e.2.2).ring.state ≠ .halted ∧ (worked e.1 e.2.1 e.2.2).ring.cycle = .idle) ∧
      TagsSafe (worked .load 0 .load) ∧ (∀ k, (worked .press 7 .press).notCancelled (item (.ring k))) ∧
      (wait.verdictOf .unload).map OpenVerdict.verdict = some .wait ∧ (wait.station .unload).up = true ∧
      (gone.verdictOf .press).isSome ∧ gone.findTag tag0 = none ∧ TablesOk off ∧ TagsSafe off ∧
      (off.order 0).map Order.state = some .cancelling := by
  refine ⟨?_, tags_single 300 _ ?_, fun k b o h => (by cases h), ?_, ?_, ?_, ?_, ?_, tags_single 300 _ ?_, ?_⟩
  all_goals first | decide | (constructor <;> decide)

/-- An INDEX DONE out of place touches the garment on the ring and halts the ring (R11, R111). -/
theorem test_unbidden_index_done_touches :
    let s := withItem { item (.ring 4) with age := 9 } line0
    (s.indexDone.garments.records.find 300).map Garment.age = some 0 ∧ s.indexDone.ring.state = .halted ∧
      s.halt.indexDone = s.halt := by decide

end Sys2Proof.Tests
end

section
/-! SUPPORT. The Order Table at reset (R45). A halt with no open verdict touches nothing but the garments, the ring and
the causes, so an E-STOP asserted as the reset ends leaves the Order Table, the limits and the bins at their reset
values. -/

namespace Sys2Proof.Machine

variable {s t u : State} {changed : List Area}

/-! ## Frames in a row -/

theorem State.sameBut.trans (h : s.sameBut changed t) (k : t.sameBut changed u) : s.sameBut changed u where
  garments m := (k.garments m).trans (h.garments m)
  orders m := (k.orders m).trans (h.orders m)
  sched m := (k.sched m).trans (h.sched m)
  refs m := (k.refs m).trans (h.refs m)
  stations m := (k.stations m).trans (h.stations m)
  ring m := (k.ring m).trans (h.ring m)
  meter m := (k.meter m).trans (h.meter m)
  cure m := (k.cure m).trans (h.cure m)
  bins m := (k.bins m).trans (h.bins m)
  limits m := (k.limits m).trans (h.limits m)
  causes m := (k.causes m).trans (h.causes m)
  settings m := by
    obtain ⟨mask, indicator⟩ := h.settings m
    rw [← mask, ← indicator]
    exact k.settings m
  transport m := by
    obtain ⟨state, kept, reading, shifted⟩ := h.transport m
    rw [← state, ← kept, ← reading, ← shifted]
    exact k.transport m
  messages m := (k.messages m).trans (h.messages m)
  reads m := (k.reads m).trans (h.reads m)
  queue := k.queue.trans h.queue

/-! ## A halt with no open verdict -/

theorem withdraw_of_noVerdict (why : Withdrawal) {l : Link} (h : s.verdictOf l = none) : State.withdraw why s l = s := by
  rw [State.withdraw, h]

theorem foldl_withdraw_of_noVerdict (why : Withdrawal) (h : ∀ l, s.verdictOf l = none) (ls : List Link) :
    ls.foldl (State.withdraw why) s = s := by
  induction ls with
  | nil => rfl
  | cons l ls ih => rw [List.foldl_cons, withdraw_of_noVerdict why (h l), ih]

theorem sameBut_halt_of_noVerdict (h : ∀ l, s.verdictOf l = none) : s.sameBut [.garments, .ring, .causes] s.halt := by
  unfold State.halt
  split
  case isTrue => constructor <;> simp
  case isFalse =>
    have undone : Link.ring.foldl (State.withdraw .halt) s.stopDrive = s.stopDrive :=
      foldl_withdraw_of_noVerdict (s := s.stopDrive) .halt h _
    rw [undone]
    constructor <;> simp [State.raise, State.markUnverified]

/-! ## Reset -/

/-- The part with every register at its reset value, before the level of E-STOP counts: `State.resetPart` adds only the
halt of an asserted E-STOP to it. -/
def State.resetRegisters (s : State) : State :=
  { State.reset with sent := s.sent, shifted := s.shifted, freeReads := s.freeReads, pending := s.pending }

theorem sameBut_setEStop (level : Bool) : s.sameBut [.garments, .ring, .causes] (s.setEStop level) := by
  constructor <;> simp [State.setEStop]

theorem resetRegisters_noVerdict (s : State) (l : Link) : s.resetRegisters.verdictOf l = none := by
  cases l <;> rfl

theorem resetPart_eq (s : State) :
    s.resetPart = if s.ring.eStop then (s.resetRegisters.setEStop true).halt else s.resetRegisters := rfl

theorem sameBut_resetPart (s : State) : s.resetRegisters.sameBut [.garments, .ring, .causes] s.resetPart := by
  rw [resetPart_eq]
  split
  case isTrue => exact (sameBut_setEStop true).trans (sameBut_halt_of_noVerdict (resetRegisters_noVerdict s))
  case isFalse => constructor <;> simp

theorem holdCells_congr (stations : t.stations = s.stations) (bins : t.bins = s.bins) : t.holdCells = s.holdCells := by
  simp only [State.holdCells, State.verdictOf, State.station, stations, bins]

/-- Settles O4: the reset values stand in the registers, and the halt of an asserted E-STOP does not reach them. -/
theorem resetEmptiesTheOrderTable : Obligations.ResetEmptiesTheOrderTable := by
  intro s
  have kept := sameBut_resetPart s
  have orders : s.resetPart.orders = {} := kept.orders (by decide)
  have limits : s.resetPart.limits = {} := kept.limits (by decide)
  have holds : s.resetPart.holdCells = s.resetRegisters.holdCells :=
    holdCells_congr (kept.stations (by decide)) (kept.bins (by decide))
  refine ⟨s.resetPart, rfl, fun k => ?_, ?_, ?_, ?_, holds, ?_⟩
  · rw [State.order, orders, find_nil]
  · rw [orders]
  · rw [orders]
  · rw [limits]
  · rw [limits]

end Sys2Proof.Machine
end


section
/-! SUPPORT. A command frame that passes the port's checks is taken (R194, R195, R197, R198), and a command whose change
reaches neither the ring nor the free cells nor the limits is carried out with nothing at its end but the response. -/

namespace Sys2Proof.Machine

variable {s w : State} {c : HostCmd} {payload : List Byte} {r : Response}

/-! ## The taking of a good frame -/

theorem exec_commandRow (c : HostCmd) (bytes : List Byte) (s : State) :
    exec (commandRow c bytes) s = .next (hostFrame c bytes s) := by
  cases c <;> rfl

theorem ofCode_code (c : HostCmd) : HostCmd.ofCode c.code = some c := by
  cases c <;> rfl

theorem frameLengthOk_hostBytes (size : payload.length ≤ 255) (fits : c.lengthFits payload = true) :
    c.frameLengthOk (hostBytes payload) = true := by
  have length : payload.length = (BitVec.ofNat 8 payload.length).toNat := by
    rw [BitVec.toNat_ofNat, Nat.mod_eq_of_lt (by omega)]
  simp [HostCmd.frameLengthOk, hostBytes, ← length, fits]

theorem takeFrame_of_lengthOk {bytes : List Byte} (ok : c.frameLengthOk bytes = true) :
    s.takeFrame ⟨c.code, bytes⟩ = s.setPort (.executing c bytes.tail) := by
  simp [State.takeFrame, ofCode_code, ok]

/-- A port that carries out no command takes the frame that ends, once FEh has gone out for each of its bytes. -/
theorem commandTransaction_of_ready (hs : s.PortReady) (f : Frame) :
    s.commandTransaction f =
      ((s.shift (List.replicate (f.bytes.length + 1) fillNoResponse)).setReading none).takeFrame f := by
  unfold State.commandTransaction
  dsimp only
  split
  case h_1 c p executing => exact absurd executing (hs.ready c p)
  case h_2 => rfl
  case h_3 => rfl

theorem exec_commandRow_taken (hs : s.PortReady) (size : payload.length ≤ 255) (fits : c.lengthFits payload = true) :
    exec (commandRow c (hostBytes payload)) s = .next (s.taken c payload) := by
  rw [exec_commandRow, hostFrame, commandTransaction_of_ready hs,
    takeFrame_of_lengthOk (frameLengthOk_hostBytes size fits)]
  rfl

/-! ## A change that nothing follows -/

/-- The owning block turns the line of `s` into that of `w`, and leaves the port, the ring, the free cells and the limits:
no index test and no CELLS_LOW follows its change, which is therefore all that the host sees besides the response. -/
theorem carries_of_change (hs : s.PortReady) (size : payload.length ≤ 255) (fits : c.lengthFits payload = true)
    (change : ownerChange c payload (s.taken c payload) = (w.taken c payload, r)) (port : w.port = s.port)
    (shifted : w.shifted = s.shifted) (ring : w.ring = s.ring) (cells : w.orders.freeCells = s.orders.freeCells)
    (limits : w.limits = s.limits) : ∃ u, Carries c payload s u r ∧ w.sameLine u := by
  have kept : (w.taken c payload).port.kept = none := by
    rw [← hs.kept, ← port]
    rfl
  have out : (w.taken c payload).shifted = (s.taken c payload).shifted := by
    simp only [State.taken, shifted]
  have done : (w.taken c payload).finish (s.taken c payload) = w.taken c payload := finish_same ring cells limits
  refine ⟨_, carries_of_taken hs (exec_commandRow_taken hs size fits) change kept out, ?_⟩
  rw [done]
  rfl

/-! ## SET METER -/

theorem runSetMeter_of_outOfRange (bad : field payload 4 2 = 0 ∨ field payload 6 1 = 0 ∨ 50 < field payload 6 1)
    (s : State) : runSetMeter payload s = (s, refusedWith .badArgument) :=
  if_pos bad

theorem runSetMeter_of_inRange (period : 1 ≤ field payload 4 2) (low : 1 ≤ field payload 6 1)
    (high : field payload 6 1 ≤ 50) (s : State) :
    runSetMeter payload s =
      let m := s.meter.configure (field payload 0 2) (field payload 2 2) (field payload 4 2) (field payload 6 1)
      ({ s with meter := m }, accepted (beBytes 2 m.cbs ++ beBytes 2 m.ebs ++ beBytes 2 m.bc ++ beBytes 2 m.be)) :=
  if_neg (by omega)

/-- Settles O34: in range the meter is configured, out of range nothing changes, and neither reaches what the end of a
change tests. -/
theorem setMeterClampsTheLevels : Obligations.SetMeterClampsTheLevels := by
  intro s payload hs length cbs ebs period pulse bc be
  have size : payload.length ≤ 255 := by omega
  have fits : HostCmd.setMeter.lengthFits payload = true := by
    simp [HostCmd.lengthFits, length]
  refine ⟨fun nonzero low high => ?_, fun bad => ?_⟩
  · exact carries_of_change hs size fits (runSetMeter_of_inRange nonzero low high _) rfl rfl rfl rfl rfl
  · exact carries_of_change hs size fits (runSetMeter_of_outOfRange bad _) rfl rfl rfl rfl rfl

end Sys2Proof.Machine
end

section
/-! SUPPORT. What only the host reaches. No message, timer, drive line or shared operation changes the limits, the
port but for its cause flags, the bytes shifted out, the free values read or the queue; and no owning block's change
touches the port's transport. -/

namespace Sys2Proof.Machine

variable {s t u : State}

/-! ## The relation -/

/-- The parts of a state that only the Host Command Port writes. -/
structure HostSide where
  limits : Limits
  port : Port
  shifted : List Byte
  freeReads : Nat
  pending : List Instr

/-- The host's side of a state; the cause flags, which every block sets, are left out of it. -/
def State.hostSide (s : State) : HostSide :=
  ⟨s.limits, { s.port with causes := 0#16 }, s.shifted, s.freeReads, s.pending⟩

/-- The second state has the host's side of the first. -/
def Aloof (s t : State) : Prop :=
  t.hostSide = s.hostSide

theorem Aloof.refl (s : State) : Aloof s s := rfl

theorem Aloof.trans (h : Aloof s t) (k : Aloof t u) : Aloof s u := Eq.trans k h

theorem Aloof.ite {c : Prop} [Decidable c] (h : Aloof s t) (k : Aloof s u) : Aloof s (if c then t else u) := by
  split
  · exact h
  · exact k

theorem Aloof.foldl {α : Type} {f : State → α → State} (h : ∀ s a, Aloof s (f s a)) (l : List α) (s : State) :
    Aloof s (l.foldl f s) := by
  induction l generalizing s with
  | nil => exact .refl s
  | cons a l ih => exact (h s a).trans (ih _)

theorem Aloof.limits (h : Aloof s t) : t.limits = s.limits := congrArg HostSide.limits h
theorem Aloof.shifted (h : Aloof s t) : t.shifted = s.shifted := congrArg HostSide.shifted h
theorem Aloof.freeReads (h : Aloof s t) : t.freeReads = s.freeReads := congrArg HostSide.freeReads h
theorem Aloof.pending (h : Aloof s t) : t.pending = s.pending := congrArg HostSide.pending h
theorem Aloof.port_state (h : Aloof s t) : t.port.state = s.port.state := congrArg (·.port.state) h
theorem Aloof.port_kept (h : Aloof s t) : t.port.kept = s.port.kept := congrArg (·.port.kept) h
theorem Aloof.port_reading (h : Aloof s t) : t.port.reading = s.port.reading := congrArg (·.port.reading) h
theorem Aloof.port_mask (h : Aloof s t) : t.port.mask = s.port.mask := congrArg (·.port.mask) h
theorem Aloof.port_resetIndicator (h : Aloof s t) : t.port.resetIndicator = s.port.resetIndicator :=
  congrArg (·.port.resetIndicator) h

theorem Quiet.aloof (h : Quiet s t) : Aloof s t :=
  show t.fixed.hostSide = s.fixed.hostSide by rw [h.fixed]

/-! ## Ring and halts -/

variable (s)

theorem aloof_setRing (r : Ring) : Aloof s { s with ring := r } := .refl s

theorem aloof_holdFacing (l : Link) : Aloof s (s.holdFacing l) := by
  unfold State.holdFacing
  split
  · exact .refl s
  · exact .refl s

theorem aloof_holdIfWorking (s : State) (l : Link) : Aloof s (s.holdIfWorking l) := .ite (aloof_holdFacing s l) (.refl s)

theorem aloof_ringTest : Aloof s s.ringTest := by
  unfold State.ringTest
  refine .ite ?_ (.refl s)
  cases s.ring.state <;> exact .refl s

theorem aloof_finish (b : State) : Aloof s (s.finish b) :=
  Aloof.trans (.ite (.refl s) (aloof_ringTest s)) (quiet_checkCells ..).aloof

theorem aloof_halt : Aloof s s.halt := by
  unfold State.halt
  have undone := (aloof_setRing s _ : Aloof s s.stopDrive).trans
    (Aloof.foldl (fun s l => (quiet_withdraw s .halt l).aloof) Link.ring s.stopDrive)
  generalize Link.ring.foldl (State.withdraw .halt) s.stopDrive = u at undone
  have marked := undone.trans (quiet_markUnverified u).aloof
  dsimp only
  generalize u.markUnverified = v at marked
  exact .ite (.refl s) marked

/-! ## Modes and links -/

theorem aloof_modifyStation (l : Link) (f : Station → Station) : Aloof s (s.modifyStation l f) := .refl s

theorem aloof_followMode (l : Link) : Aloof s (s.followMode l) := by
  unfold State.followMode
  exact (Aloof.ite (quiet_withdraw s .modeFall l).aloof (.refl s)).trans
    ((Aloof.ite (quiet_releaseHold ..).aloof (.refl _)).trans (.ite (aloof_halt _) (.refl _)))

theorem aloof_changeMode (l : Link) (m : StationMode) : Aloof s (s.changeMode l m) :=
  (((aloof_modifyStation s l _).trans (quiet_send _ l (.mode m)).aloof).trans (quiet_raise _ _).aloof).trans
    (aloof_followMode _ l)

theorem aloof_linkDown (l : Link) : Aloof s (s.linkDown l) :=
  (((aloof_modifyStation s l _).trans (quiet_withdraw _ .linkLoss l).aloof).trans (aloof_modifyStation _ l _)).trans
    (aloof_changeMode _ l _)

theorem aloof_linkUp (l : Link) (n : Nat) : Aloof s (s.linkUp l n) :=
  ((aloof_modifyStation s l _).trans (quiet_raise _ _).aloof).trans (quiet_send _ l _).aloof

theorem aloof_restart (l : Link) (n : Nat) : Aloof s (s.restart l n) :=
  ((((aloof_modifyStation s l _).trans (quiet_withdraw _ .linkLoss l).aloof).trans (aloof_modifyStation _ l _)).trans
    (aloof_followMode _ l)).trans (aloof_linkUp _ l n)

theorem aloof_workTimeout (l : Link) : Aloof s (s.workTimeout l) := by
  unfold State.workTimeout
  split
  · exact .refl s
  · exact .ite ((quiet_withdraw s .timeout l).aloof.trans (.ite (aloof_changeMode _ l .check) (.refl _))) (.refl s)

/-! ## Reports -/

theorem aloof_countLap : Aloof s s.countLap :=
  .ite (Aloof.foldl aloof_holdIfWorking _ _) (.refl _)

theorem aloof_answerChecked (l : Link) (r : Report) (k : Nat) : Aloof s (s.answerChecked l r k) := by
  unfold State.answerChecked
  refine (quiet_tagCheck s l r k).aloof.trans ?_
  dsimp only
  generalize s.tagCheck l r k = u
  have released : Aloof u (if (u.verdictOf l).isNone then u.setHeld k false else u) := .ite (aloof_setRing u _) (.refl u)
  exact released.trans (.ite (aloof_countLap _) (.refl _))

theorem aloof_resync (k : Nat) : Aloof s (s.resync k) := by
  unfold State.resync State.moveHold
  dsimp only
  refine .trans ?_ (aloof_setRing _ _)
  split
  · exact .ite (.refl s) (.ite (aloof_setRing s _) (.refl s))
  · exact .refl s

theorem aloof_platenCheck (l : Link) (r : Report) (k : Nat) : Aloof s (s.platenCheck l r k) :=
  .ite ((aloof_resync s k).trans (aloof_answerChecked ..))
    (.ite (aloof_answerChecked ..) ((aloof_halt s).trans (quiet_answerRefuse ..).aloof))

theorem aloof_ringReport (l : Link) (r : Report) : Aloof s (s.ringReport l r) := by
  refine .ite (quiet_answerRefuse ..).aloof (.ite (quiet_answerRefuse ..).aloof (.ite (quiet_answerPass ..).aloof ?_))
  split
  · exact aloof_platenCheck ..
  · exact (quiet_answerRefuse ..).aloof

theorem aloof_evaluate (l : Link) (r : Report) : Aloof s (s.evaluate l r) :=
  .ite (.ite (aloof_ringReport ..) (quiet_answerPass ..).aloof)
    (.ite (quiet_matchList ..).aloof (quiet_answerPass ..).aloof)

theorem aloof_supersede (l : Link) (r : Report) (v : OpenVerdict) : Aloof s (s.supersede l r v) :=
  ((quiet_withdraw s .supersession l).aloof.trans (aloof_evaluate ..)).trans
    (.ite (quiet_releaseHold ..).aloof (.refl _))

theorem aloof_takeReport (l : Link) (r : Report) : Aloof s (s.takeReport l r) := by
  unfold State.takeReport
  split
  · exact aloof_evaluate ..
  · exact .ite (quiet_answerRefuse ..).aloof (.ite (quiet_restate ..).aloof (aloof_supersede ..))

theorem aloof_moveBelt (d : Nat) : Aloof s (s.moveBelt d) := .refl s

theorem aloof_advance (a : Advance) : Aloof s (s.advance a) :=
  (((quiet_doseBelt s a).aloof.trans (aloof_moveBelt _ a.d)).trans (quiet_exitBelt _).aloof).trans
    (quiet_spaceLanes _).aloof

/-! ## Whole messages and events -/

theorem aloof_heard (l : Link) : Aloof s (s.heard l) := .refl s

theorem aloof_receive (l : Link) (k : Byte) (p : List Byte) {f : State → State} (hf : ∀ s, Aloof s (f s)) :
    Aloof s (s.receive l k p f) := by
  unfold State.receive
  have touched : Aloof s ((s.heard l).touchBy k p) :=
    (aloof_heard s l).trans (.ite (quiet_touch (s.heard l) _).aloof (.refl _))
  refine .ite (.ite ?_ ?_) (quiet_replyRefuse ..).aloof
  · exact (touched.trans (hf _)).trans (aloof_finish _ s)
  · exact (aloof_heard s l).trans (quiet_replyRefuse ..).aloof

theorem aloof_receiveHello (l : Link) (p : List Byte) : Aloof s (s.receiveHello l p) := by
  unfold State.receiveHello
  refine .ite (.ite (.ite ?_ ?_) ?_) (.ite ?_ ?_)
  · exact (aloof_restart ..).trans (aloof_finish ..)
  · exact ((aloof_linkDown s l).trans (quiet_replyRefuse ..).aloof).trans (aloof_finish ..)
  · exact (aloof_heard s l).trans (quiet_replyRefuse ..).aloof
  · exact (aloof_linkUp ..).trans (aloof_finish ..)
  · exact (quiet_replyRefuse ..).aloof

theorem aloof_ageExpiry : Aloof s s.ageExpiry := by
  unfold State.ageExpiry
  have aged := (quiet_raiseAges s).aloof.trans (quiet_retireAged _).aloof
  generalize s.raiseAges.retireAged = u at aged
  exact aged

theorem aloof_holdAfterIndex : Aloof s s.holdAfterIndex := by
  unfold State.holdAfterIndex
  split
  · exact Aloof.foldl aloof_holdIfWorking _ _
  · exact aloof_holdFacing ..
  all_goals exact .refl s

theorem aloof_completeIndex : Aloof s s.completeIndex := by
  unfold State.completeIndex
  have moved : Aloof s { s.stopDrive with ring.offset := (s.ring.offset + 1) % 24 } := aloof_setRing s _
  exact ((moved.trans (quiet_touchRing _).aloof).trans (aloof_holdAfterIndex _)).trans (aloof_ringTest _)

theorem aloof_indexDone : Aloof s s.indexDone :=
  .ite (aloof_completeIndex s) (.ite (.refl s) ((quiet_touchRing s).aloof.trans (aloof_halt _)))

theorem aloof_setEStop (b : Bool) : Aloof s (s.setEStop b) := .refl s

theorem aloof_assertEStop : Aloof s s.assertEStop :=
  .ite (.refl s) ((aloof_setEStop s true).trans (aloof_halt _))

/-! ## LINE RESET -/

theorem aloof_clearGarments : Aloof s s.clearGarments := by
  unfold State.clearGarments
  have counted := Aloof.foldl (fun s g => (quiet_countGarment s g down1).aloof) s.liveGarments s
  dsimp only
  generalize List.foldl (fun s g => s.countGarment g down1) s s.liveGarments = u at counted
  exact counted

theorem aloof_clearOrders : Aloof s s.clearOrders := .refl s

theorem aloof_clearRing : Aloof s s.clearRing := .refl s

theorem aloof_clearLists : Aloof s s.clearLists := by
  unfold State.clearLists
  have released := (quiet_mapLanes s fun x => { x with reservation := none }).aloof
  generalize s.mapLanes (fun x => { x with reservation := none }) = u at released
  exact released

theorem aloof_clearLinks : Aloof s s.clearLinks := by
  unfold State.clearLinks State.noticeReset State.lowerActive
  exact ((Aloof.foldl (fun s l => aloof_modifyStation s l _) _ _).trans
    (Aloof.foldl (fun s l => .ite (quiet_send ..).aloof (.refl s)) _ _)).trans
    (Aloof.foldl (fun s l => .ite (aloof_changeMode ..) (.refl s)) _ _)

theorem aloof_refillMeter : Aloof s s.refillMeter := .refl s

theorem aloof_clearLine : Aloof s s.clearLine :=
  (((((aloof_clearGarments s).trans (aloof_clearOrders _)).trans (aloof_clearRing _)).trans (aloof_clearLists _)).trans
    (aloof_clearLinks _)).trans (aloof_refillMeter _)

theorem aloof_lineReset : Aloof s s.lineReset :=
  (aloof_clearLine s).trans (Aloof.foldl (fun s k => (quiet_freeSlot s k).aloof) _ _)

end Sys2Proof.Machine
end

section
/-! SUPPORT. The transport of the Host Command Port: no owning block's change reaches it, and the port leaves the queue
as it is. -/

namespace Sys2Proof.Machine

variable {s t u : State}

/-! ## The owning blocks -/

/-- The port's transport, with the queue of commands that wait. -/
structure Transport where
  state : PortState
  kept : Option Frame
  reading : Option Nat
  shifted : List Byte
  pending : List Instr

/-- The transport of a state. -/
def State.transport (s : State) : Transport :=
  ⟨s.port.state, s.port.kept, s.port.reading, s.shifted, s.pending⟩

theorem Aloof.transport (h : Aloof s t) : t.transport = s.transport := by
  simp only [State.transport, h.port_state, h.port_kept, h.port_reading, h.shifted, h.pending]

theorem transport_shifted (h : t.transport = s.transport) : t.shifted = s.shifted := congrArg Transport.shifted h
theorem transport_pending (h : t.transport = s.transport) : t.pending = s.pending := congrArg Transport.pending h
theorem transport_kept (h : t.transport = s.transport) : t.port.kept = s.port.kept := congrArg Transport.kept h

theorem aloof_requestMode (s : State) (l : Link) (m : StationMode) (n : Nat) : Aloof s (s.requestMode l m n).1 :=
  (Aloof.ite (.refl s) (aloof_changeMode s l m)).trans (aloof_modifyStation _ l _)

theorem aloof_setRingState (s : State) (r : RingState) : Aloof s (s.setRingState r) := .refl s

theorem aloof_configureTunnel (s : State) (a b c d e : Nat) : Aloof s (s.configureTunnel a b c d e) := by
  have written : Aloof s { s with cure := { s.cure with e0 := a, z1 := b, z2 := c, z3 := d, spacing := e } } := .refl s
  unfold State.configureTunnel
  dsimp only
  exact written.trans ((quiet_mapLanes ..).trans (quiet_serveWait _)).aloof

theorem aloof_setPattern (s : State) (n : Nat) (p : Pattern) : Aloof s (s.setPattern n p) := by
  have moved := (quiet_movePattern s (s.garments.patterns.look {} n).names p.names).aloof
  unfold State.setPattern
  generalize s.movePattern (s.garments.patterns.look {} n).names p.names = u at moved
  exact moved

theorem transport_runSetCauseMask (p : List Byte) (s : State) : (runSetCauseMask p s).1.transport = s.transport := by
  unfold runSetCauseMask
  dsimp only
  split <;> rfl

theorem transport_runSetLineLimits (p : List Byte) (s : State) : (runSetLineLimits p s).1.transport = s.transport := by
  unfold runSetLineLimits
  split
  · rfl
  · split <;> rfl

theorem transport_runLoadSku (p : List Byte) (s : State) : (runLoadSku p s).1.transport = s.transport := by
  unfold runLoadSku
  dsimp only
  split
  · rfl
  · split_ifs
    any_goals rfl
    all_goals exact ((quiet_moveClass ..).trans (quiet_setSku ..)).aloof.transport

theorem transport_runLoadClass (p : List Byte) (s : State) : (runLoadClass p s).1.transport = s.transport := by
  unfold runLoadClass
  dsimp only
  split
  · rfl
  · split_ifs <;> rfl

theorem transport_runLoadDesign (p : List Byte) (s : State) : (runLoadDesign p s).1.transport = s.transport := by
  unfold runLoadDesign
  dsimp only
  split
  · rfl
  · split_ifs <;> rfl

theorem transport_runReadEntry (p : List Byte) (s : State) : (runReadEntry p s).1.transport = s.transport := by
  unfold runReadEntry
  dsimp only
  split
  case h_2 => split <;> rfl
  all_goals rfl

theorem transport_runSetPattern (p : List Byte) (s : State) : (runSetPattern p s).1.transport = s.transport := by
  unfold runSetPattern
  dsimp only
  split
  · split
    · rfl
    · split
      · rfl
      · exact (aloof_setPattern ..).transport
  · rfl

theorem transport_runAdmitOrder (p : List Byte) (s : State) : (runAdmitOrder p s).1.transport = s.transport := by
  unfold runAdmitOrder
  dsimp only
  split
  · rfl
  · split
    · rfl
    · split
      · rfl
      · split
        · rfl
        · split
          · rfl
          · exact ((quiet_addOrder ..).trans (quiet_offerCounted ..)).aloof.transport

theorem transport_runCancelOrder (p : List Byte) (s : State) : (runCancelOrder p s).1.transport = s.transport := by
  unfold runCancelOrder
  split
  · rfl
  · split
    · rfl
    · exact (quiet_cancel ..).aloof.transport

theorem transport_runReleaseHold (p : List Byte) (s : State) : (runReleaseHold p s).1.transport = s.transport := by
  unfold runReleaseHold
  split
  · rfl
  · split
    · rfl
    · exact (quiet_release_order ..).aloof.transport

theorem transport_runQueryOrder (p : List Byte) (s : State) : (runQueryOrder p s).1.transport = s.transport := by
  unfold runQueryOrder
  split <;> rfl

theorem transport_runListOrders (p : List Byte) (s : State) : (runListOrders p s).1.transport = s.transport := by
  unfold runListOrders
  dsimp only
  split <;> rfl

theorem transport_runSetScheduler (p : List Byte) (s : State) : (runSetScheduler p s).1.transport = s.transport := by
  unfold runSetScheduler
  dsimp only
  split <;> rfl

theorem transport_runQueryGarment (p : List Byte) (s : State) : (runQueryGarment p s).1.transport = s.transport := by
  unfold runQueryGarment
  split <;> rfl

theorem transport_runWalkFirst (s : State) : (runWalkFirst s).1.transport = s.transport := by
  unfold runWalkFirst State.walkFrom
  split <;> rfl

theorem transport_runWalkNext (s : State) : (runWalkNext s).1.transport = s.transport := by
  unfold runWalkNext State.walkFrom
  split
  case h_2 => split <;> rfl
  all_goals rfl

theorem transport_runRetireGarment (p : List Byte) (s : State) : (runRetireGarment p s).1.transport = s.transport := by
  unfold runRetireGarment
  dsimp only
  split
  · rfl
  · split
    · rfl
    · exact (quiet_retire ..).aloof.transport

theorem transport_runSetStation (p : List Byte) (s : State) : (runSetStation p s).1.transport = s.transport := by
  unfold runSetStation
  split
  · rfl
  · split <;> rfl

theorem transport_runSetStationMode (p : List Byte) (s : State) : (runSetStationMode p s).1.transport = s.transport := by
  unfold runSetStationMode
  split
  · split
    · rfl
    · split
      · exact (aloof_requestMode ..).transport
      · rfl
  · rfl

theorem transport_runQueryStation (p : List Byte) (s : State) : (runQueryStation p s).1.transport = s.transport := by
  unfold runQueryStation
  split
  · rfl
  · dsimp only
    split <;> rfl

theorem transport_runSetPlaten (p : List Byte) (s : State) : (runSetPlaten p s).1.transport = s.transport := by
  unfold runSetPlaten
  dsimp only
  split
  · rfl
  · split
    · rfl
    · split <;> rfl

theorem transport_runStartRing (s : State) : (runStartRing s).1.transport = s.transport := by
  unfold runStartRing
  split
  case h_1 =>
    rw [withRingState_fst]
    exact (((aloof_setRingState s .running).trans (Aloof.foldl aloof_holdIfWorking Link.ring _)).trans
      (aloof_ringTest _)).transport
  all_goals rfl

theorem transport_runStopRing (s : State) : (runStopRing s).1.transport = s.transport := by
  unfold runStopRing
  split
  case h_1 =>
    rw [withRingState_fst]
    exact ((aloof_setRingState s .stopping).trans (aloof_ringTest _)).transport
  all_goals rfl

theorem transport_runResumeRing (s : State) : (runResumeRing s).1.transport = s.transport := by
  unfold runResumeRing
  split
  · rfl
  · exact ((aloof_setRing s _ : Aloof s (s.setRingState .verifying).clearLap).trans
      ((aloof_holdFacing _ .load).trans (aloof_ringTest _))).transport

theorem transport_runQueryRing (s : State) : (runQueryRing s).1.transport = s.transport := by
  unfold runQueryRing
  split <;> rfl

theorem transport_runSetMeter (p : List Byte) (s : State) : (runSetMeter p s).1.transport = s.transport := by
  unfold runSetMeter
  dsimp only
  split <;> rfl

theorem transport_runSetTunnel (p : List Byte) (s : State) : (runSetTunnel p s).1.transport = s.transport := by
  unfold runSetTunnel
  dsimp only
  split
  · rfl
  · split
    · rfl
    · exact (aloof_configureTunnel ..).transport

theorem transport_runSetWeights (p : List Byte) (s : State) : (runSetWeights p s).1.transport = s.transport := by
  unfold runSetWeights
  dsimp only
  split <;> rfl

theorem transport_runQueryBelt (p : List Byte) (s : State) : (runQueryBelt p s).1.transport = s.transport := by
  unfold runQueryBelt
  dsimp only
  split <;> rfl

theorem transport_runQueryBin (p : List Byte) (s : State) : (runQueryBin p s).1.transport = s.transport := by
  unfold runQueryBin
  dsimp only
  split <;> rfl

theorem runLineReset_fst (s : State) : (runLineReset s).1 = s.lineReset := by rw [runLineReset]

/-- No owning block's change reaches the transport or the queue. -/
theorem transport_ownerChange (c : HostCmd) (p : List Byte) (s : State) :
    (ownerChange c p s).1.transport = s.transport := by
  unfold ownerChange
  cases c with
  | identify => rfl
  | readCauses => rfl
  | setCauseMask => exact transport_runSetCauseMask p s
  | lineReset =>
    rw [runLineReset_fst]
    exact (aloof_lineReset s).transport
  | setLineLimits => exact transport_runSetLineLimits p s
  | loadSku => exact transport_runLoadSku p s
  | loadClass => exact transport_runLoadClass p s
  | loadDesign => exact transport_runLoadDesign p s
  | readEntry => exact transport_runReadEntry p s
  | setPattern => exact transport_runSetPattern p s
  | admitOrder => exact transport_runAdmitOrder p s
  | cancelOrder => exact transport_runCancelOrder p s
  | releaseHold => exact transport_runReleaseHold p s
  | queryOrder => exact transport_runQueryOrder p s
  | listOrders => exact transport_runListOrders p s
  | setScheduler => exact transport_runSetScheduler p s
  | queryGarment => exact transport_runQueryGarment p s
  | walkFirst => exact transport_runWalkFirst s
  | walkNext => exact transport_runWalkNext s
  | retireGarment => exact transport_runRetireGarment p s
  | setStation => exact transport_runSetStation p s
  | setStationMode => exact transport_runSetStationMode p s
  | queryStation => exact transport_runQueryStation p s
  | setPlaten => exact transport_runSetPlaten p s
  | startRing => exact transport_runStartRing s
  | stopRing => exact transport_runStopRing s
  | resumeRing => exact transport_runResumeRing s
  | queryRing => exact transport_runQueryRing s
  | setMeter => exact transport_runSetMeter p s
  | queryMeter => rfl
  | setTunnel => exact transport_runSetTunnel p s
  | setWeights => exact transport_runSetWeights p s
  | queryBelt => exact transport_runQueryBelt p s
  | queryBin => exact transport_runQueryBin p s

/-! ## The port itself -/

@[simp] theorem takeFrame_pending (s : State) (f : Frame) : (s.takeFrame f).pending = s.pending := by
  unfold State.takeFrame
  split
  · rfl
  · split <;> rfl

theorem commandTransaction_pending (s : State) (f : Frame) : (s.commandTransaction f).pending = s.pending := by
  unfold State.commandTransaction
  dsimp only
  split
  · rfl
  · exact takeFrame_pending _ f
  · exact takeFrame_pending _ f

theorem completeCommand_pending (s : State) : s.completeCommand.pending = s.pending := by
  unfold State.completeCommand
  split
  case h_1 c p _ =>
    have kept := transport_pending (((aloof_finish (ownerChange c p s).1 s).transport).trans (transport_ownerChange c p s))
    dsimp only
    generalize (ownerChange c p s).1.finish s = u at kept
    split
    · exact kept
    · exact (takeFrame_pending _ _).trans kept
  all_goals rfl

theorem readTransaction_pending (s : State) (n : Nat) (e : Bool) : (s.readTransaction n e).pending = s.pending := by
  have on : ∀ (u : State) (p : Nat), (u.readOn p n).pending = u.pending := fun u p => by
    unfold State.readOn State.readHeld
    dsimp only
    split
    · rfl
    · rfl
    · split <;> rfl
  have piece : (s.readPiece n).pending = s.pending := by
    unfold State.readPiece
    split
    · exact on _ 0
    · exact on s _
  unfold State.readTransaction
  split
  · exact piece
  · exact piece

end Sys2Proof.Machine
end

section
/-! SUPPORT. One step of the part: which command runs, what every command keeps, and the state at reset. -/

namespace Sys2Proof.Machine

variable {c : Instr} {s t : State}

/-! ## The queue -/

theorem step_cons (c : Instr) (rest : List Instr) (s : State) :
    step { s with pending := c :: rest } = exec c { s with pending := rest } := rfl

theorem step_of_pending_nil (h : s.pending = []) : step s = .next s := by
  rw [step, h]

theorem step_of_pending_cons {rest : List Instr} (h : s.pending = c :: rest) :
    step s = exec c { s with pending := rest } := by
  rw [step, h]

/-- Settles O1, by the two equations of a step. -/
theorem stepRunsTheFrontCommand : Obligations.StepRunsTheFrontCommand :=
  ⟨step_cons, fun _ => step_of_pending_nil⟩

theorem exec_total (c : Instr) (s : State) : ∃ t, exec c s = .next t := by
  cases c <;> exact ⟨_, rfl⟩

/-- No command reaches the queue: a host command by its transport, every other by `Aloof`. -/
theorem exec_pending (h : exec c s = .next t) : t.pending = s.pending := by
  cases c <;> cases h
  case hello l p => exact (aloof_receiveHello s l p).pending
  case status l p => exact (aloof_receive s l _ p fun s => (quiet_replyAck s l kindStatus).aloof).pending
  case arrive l p => exact (aloof_receive s l _ p fun s => aloof_takeReport s l (arriveReport p)).pending
  case empty l p => exact (aloof_receive s l _ p fun s => aloof_takeReport s l (emptyReport p)).pending
  case done l p => exact (aloof_receive s l _ p fun s => (quiet_takeClose s l kindDone p).aloof).pending
  case fail l p => exact (aloof_receive s l _ p fun s => (quiet_takeClose s l kindFail p).aloof).pending
  case abort l p => exact (aloof_receive s l _ p fun s => (quiet_takeClose s l kindAbort p).aloof).pending
  case advance l p =>
    exact (aloof_receive s l _ p fun s => (aloof_advance s _).trans (quiet_replyAck _ l kindAdvance).aloof).pending
  case binCleared l p => exact (aloof_receive s l _ p fun s => (quiet_binCleared s _).aloof).pending
  case linkFrameDiscarded => rfl
  case unknownMessage l k p =>
    exact (Aloof.ite ((aloof_heard s l).trans (quiet_replyRefuse ..).aloof) (quiet_replyRefuse ..).aloof).pending
  case silenceExpiry l => exact (Aloof.ite ((aloof_linkDown s l).trans (aloof_finish _ s)) (.refl s)).pending
  case workTimeout l => exact ((aloof_workTimeout s l).trans (aloof_finish _ s)).pending
  case unloadWaitLimit => exact ((quiet_endWait s .unload).aloof.trans (aloof_finish _ s)).pending
  case ageTimerExpiry => exact ((aloof_ageExpiry s).trans (aloof_finish _ s)).pending
  case refillTimerExpiry => rfl
  case moveTimerExpiry => exact ((Aloof.ite (aloof_halt s) (.refl s)).trans (aloof_finish s.moveExpiry s)).pending
  case indexDone => exact ((aloof_indexDone s).trans (aloof_finish _ s)).pending
  case indexFault => exact ((aloof_halt s).trans (aloof_finish _ s)).pending
  case eStopAsserted => exact ((aloof_assertEStop s).trans (aloof_finish _ s)).pending
  case eStopDeasserted => rfl
  case reset => exact (sameBut_resetPart s).queue
  case readTransaction n e => exact readTransaction_pending s n e
  case keptFrameTaken => exact completeCommand_pending s
  case responseBuilt => exact completeCommand_pending s
  all_goals exact commandTransaction_pending s _

/-- Settles O2. -/
theorem everyCommandCompletes : Obligations.EveryCommandCompletes := by
  intro c s
  obtain ⟨t, done⟩ := exec_total c s
  exact ⟨t, done, exec_pending done⟩

/-! ## What every command keeps -/

/-- Every command but reset and the completion of READ CAUSES keeps all the invariants, and takes nothing back. -/
theorem sound_exec (h : exec c s = .next t) (notReset : c ≠ .reset)
    (notRead : c = .responseBuilt ∨ c = .keptFrameTaken → ∀ p, s.port.state ≠ .executing .readCauses p) :
    Sound s t := by
  cases c <;> cases h
  case hello l p => exact sound_receiveHello s l p
  case status l p => exact sound_receive s l _ p fun s => (quiet_replyAck s l kindStatus).sound
  case arrive l p => exact sound_receive s l _ p fun s => sound_takeReport s l (arriveReport p)
  case empty l p => exact sound_receive s l _ p fun s => sound_takeReport s l (emptyReport p)
  case done l p => exact sound_receive s l _ p fun s => (quiet_takeClose s l kindDone p).sound
  case fail l p => exact sound_receive s l _ p fun s => (quiet_takeClose s l kindFail p).sound
  case abort l p => exact sound_receive s l _ p fun s => (quiet_takeClose s l kindAbort p).sound
  case advance l p =>
    exact sound_receive s l _ p fun s => (sound_advance s _).trans (quiet_replyAck _ l kindAdvance).sound
  case binCleared l p => exact sound_receive s l _ p fun s => (quiet_binCleared s _).sound
  case linkFrameDiscarded => exact .refl s
  case unknownMessage l k p =>
    exact .ite ((sound_heard s l).trans (quiet_replyRefuse ..).sound) (quiet_replyRefuse ..).sound
  case silenceExpiry l => exact .ite ((sound_linkDown s l).trans (sound_finish _ s)) (.refl s)
  case workTimeout l => exact (sound_workTimeout s l).trans (sound_finish _ s)
  case unloadWaitLimit => exact (quiet_endWait s .unload).sound.trans (sound_finish _ s)
  case ageTimerExpiry => exact (sound_ageExpiry s).trans (sound_finish _ s)
  case refillTimerExpiry => exact .of_calm (calm_refill s) rfl rfl
  case moveTimerExpiry => exact (sound_moveExpiry s).trans (sound_finish _ s)
  case indexDone => exact (sound_indexDone s).trans (sound_finish _ s)
  case indexFault => exact (sound_halt s).trans (sound_finish _ s)
  case eStopAsserted => exact (sound_assertEStop s).trans (sound_finish _ s)
  case eStopDeasserted => exact sound_deassert s
  case reset => exact absurd rfl notReset
  case readTransaction n e => exact sound_readTransaction s n e
  case keptFrameTaken => exact sound_completeCommand s (notRead (.inr rfl))
  case responseBuilt => exact sound_completeCommand s (notRead (.inl rfl))
  all_goals exact sound_commandTransaction s _

theorem kept_exec (h : exec c s = .next t) : Kept s t := by
  by_cases reset : c = .reset
  · subst reset
    cases h
    exact kept_resetPart s
  · by_cases completes : c = .responseBuilt ∨ c = .keptFrameTaken
    · rcases completes with rfl | rfl <;> cases h <;> exact kept_completeCommand s
    · exact (sound_exec h reset fun l => absurd l completes).kept

/-- The taking of a command from the queue keeps everything. -/
theorem kept_setPending (q : List Instr) : Kept s { s with pending := q } := by
  have sound : Sound s { s with pending := q } := .of_eq rfl rfl rfl rfl rfl fun h => { h with }
  exact sound.kept

theorem kept_step (h : step s = .next t) : Kept s t := by
  cases queue : s.pending with
  | nil =>
    rw [step_of_pending_nil queue] at h
    cases h
    exact (Sound.refl s).kept
  | cons c rest =>
    rw [step_of_pending_cons queue] at h
    exact (kept_setPending rest).trans (kept_exec h)

/-- Settles O6. -/
theorem stepKeepsRingSafe : Obligations.StepKeepsRingSafe :=
  fun _ _ safe h => (kept_step h).ring safe

/-- Settles O7. -/
theorem stepKeepsStationsSafe : Obligations.StepKeepsStationsSafe :=
  fun _ _ safe h => (kept_step h).stations safe

/-- Settles O8. -/
theorem stepKeepsBucketsAndCauseBits : Obligations.StepKeepsBucketsAndCauseBits := by
  intro s t h
  have kept := kept_step h
  exact ⟨fun meter causes => ⟨kept.meter meter, kept.causes causes⟩, kept.sched⟩

/-- Settles O9. -/
theorem stepKeepsTablesCanonical : Obligations.StepKeepsTablesCanonical :=
  ⟨fun _ _ ok h => (kept_step h).tables ok, fun _ _ safe h => (kept_step h).tags safe⟩

/-- Settles O11. -/
theorem messagesAreNeverTakenBack : Obligations.MessagesAreNeverTakenBack :=
  fun _ _ _ h => (kept_exec h).sent

/-- A flag that the earlier field holds stands in one that has grown from it. -/
theorem pendingCause_of_grow (grow : CausesGrow s.port.causes t.port.causes) {f : Cause}
    (h : s.pendingCause f = true) : t.pendingCause f = true := by
  unfold State.pendingCause at *
  rw [bne_iff_ne] at *
  intro none
  apply h
  rw [← grow.keeps, BitVec.and_assoc, BitVec.and_comm s.port.causes, ← BitVec.and_assoc, none, BitVec.zero_and]

/-- Settles O12. -/
theorem flagsStayPending : Obligations.FlagsStayPending :=
  fun _ _ _ h notReset notRead _ => pendingCause_of_grow (sound_exec h notReset notRead).calm.grow

/-! ## The state at reset -/

/-- Settles O10. -/
theorem invariantsHoldAtReset : Obligations.InvariantsHoldAtReset := by
  refine ⟨?ring, stationSafe_reset, ⟨le_rfl, le_rfl⟩, ⟨rfl, rfl⟩, ⟨rfl, rfl, rfl, rfl, rfl, rfl, rfl, rfl, rfl⟩, .nil,
    scheduler_reset_safe⟩
  case ring => constructor <;> decide

theorem halt_of_noVerdict (h : ∀ l, s.verdictOf l = none) (running : s.ring.state ≠ .halted) :
    s.halt = { s.stopDrive.markUnverified.releaseAllHolds.clearLap with ring.state := .halted }.raise .ringHalted := by
  have undone : Link.ring.foldl (State.withdraw .halt) s.stopDrive = s.stopDrive :=
    foldl_withdraw_of_noVerdict (s := s.stopDrive) .halt h _
  rw [State.halt, if_neg running, undone]

/-- The state at reset but for what E-STOP decides: the ring's state and the cause flags. -/
def State.resetWith (s : State) (r : RingState) (causes : BitVec 16) : State :=
  { s.resetRegisters with ring := { state := r, eStop := s.ring.eStop }, port := { causes := causes } }

theorem resetPart_asserted (asserted : s.ring.eStop = true) :
    s.resetPart = s.resetWith .halted Cause.ringHalted.field := by
  have flags : 0#16 ||| Cause.ringHalted.field = Cause.ringHalted.field := BitVec.zero_or
  rw [← flags, resetPart_eq, if_pos asserted, 
    halt_of_noVerdict (s := s.resetRegisters.setEStop true) (resetRegisters_noVerdict s) nofun, State.resetWith, asserted]
  rfl

theorem resetPart_deasserted (deasserted : s.ring.eStop = false) : s.resetPart = s.resetWith .stopped 0#16 := by
  rw [resetPart_eq, deasserted, State.resetWith, deasserted]
  rfl

theorem resetPart_resetWith (s : State) : ∃ r causes, s.resetPart = s.resetWith r causes := by
  cases level : s.ring.eStop
  · exact ⟨_, _, resetPart_deasserted level⟩
  · exact ⟨_, _, resetPart_asserted level⟩

theorem resetWith_deasserted (deasserted : s.ring.eStop = false) :
    s.resetWith .stopped 0#16 = { State.reset with
      sent := s.sent, shifted := s.shifted, freeReads := s.freeReads, pending := s.pending } := by
  rw [State.resetWith, deasserted]
  rfl

/-- Settles O3: with either level of E-STOP the state is `State.resetWith`, whose blocks can be read off. -/
theorem resetRestoresEveryBlock : Obligations.ResetRestoresEveryBlock := by
  intro s
  refine ⟨s.resetPart, rfl, fun asserted => ?_, fun deasserted => ?_, ?_⟩
  · rw [resetPart_asserted asserted]
    exact ⟨rfl, rfl⟩
  · rw [resetPart_deasserted deasserted]
    exact ⟨rfl, rfl, resetWith_deasserted deasserted⟩
  · obtain ⟨r, causes, atReset⟩ := resetPart_resetWith s
    rw [atReset]
    refine ⟨rfl, fun _ => rfl, rfl, rfl, rfl, rfl, fun l => ?stations, fun _ => rfl, rfl, rfl, rfl, rfl, rfl, rfl, rfl, rfl,
      rfl, rfl, rfl, rfl, fun _ => rfl, rfl, rfl, rfl, rfl, fun _ => rfl, rfl, rfl, rfl, rfl, rfl, rfl, rfl, ?attn, rfl, rfl,
      rfl, rfl⟩
    case stations => cases l <;> exact ⟨rfl, rfl, rfl, rfl, rfl, rfl, rfl, rfl, rfl⟩
    case attn => simp [State.attn, State.resetWith]

/-- Settles O5: the meter is full at reset, so its first expiry drops the token. -/
theorem resetFillsTheMeter : Obligations.ResetFillsTheMeter := by
  intro s
  obtain ⟨r, causes, atReset⟩ := resetPart_resetWith s
  refine ⟨s.resetPart, rfl, ?_⟩
  rw [atReset]
  exact ⟨rfl, rfl, rfl⟩

/-! ## The refill timer -/

theorem refill_eq (m : Meter) :
    m.refill = if m.bc < m.cbs then { m with bc := m.bc + 1, running := m.period }
      else if m.be < m.ebs then { m with be := m.be + 1, running := m.period }
      else { m with running := m.period } := by
  unfold Meter.refill
  split
  · rfl
  · split <;> rfl

theorem exec_refillTimerExpiry (s : State) : exec .refillTimerExpiry s = .next { s with meter := s.meter.refill } := rfl

/-- Settles O55. -/
theorem refillAddsOneToken : Obligations.RefillAddsOneToken := by
  intro s m
  rw [exec_refillTimerExpiry, refill_eq]

end Sys2Proof.Machine
end

section
/-! SUPPORT. The Host Command Port: frames taken, kept and refused, the completion of a command, and read transactions. -/

namespace Sys2Proof.Machine

variable {s v : State} {c : HostCmd} {payload : List Byte} {r : Response}

/-! ## Command frames -/

/-- Settles O13. -/
theorem goodFrameIsTaken : Obligations.GoodFrameIsTaken :=
  fun _ _ _ hs size fits => exec_commandRow_taken hs size fits

/-- The frame length check fails on a frame with no length byte, with another number of payload bytes than its length
byte says, or with a length that is not the command's. -/
theorem frameLengthOk_eq_false {bytes : List Byte} (bad : bytes = [] ∨ ∃ len payload, bytes = len :: payload ∧
    (payload.length ≠ len.toNat ∨ c.lengthFits payload = false)) : c.frameLengthOk bytes = false := by
  rcases bad with rfl | ⟨len, payload, rfl, mismatch | unfit⟩
  · rfl
  · simp [HostCmd.frameLengthOk, mismatch]
  · simp [HostCmd.frameLengthOk, unfit]

theorem takeFrame_of_lengthBad {bytes : List Byte} (bad : c.frameLengthOk bytes = false) :
    s.takeFrame ⟨c.code, bytes⟩ = s.setPort (.holding (refusedWith .badLength).bytes) := by
  simp [State.takeFrame, ofCode_code, bad]

theorem takeFrame_of_unknown {f : Frame} (unknown : HostCmd.ofCode f.code = none) :
    s.takeFrame f = s.setPort (.holding (refusedWith .unknownCommand).bytes) := by
  rw [State.takeFrame, unknown]

theorem exec_unknownCommand (code : Byte) (bytes : List Byte) (s : State) :
    exec (.unknownCommand code bytes) s = .next (s.commandTransaction ⟨code, bytes⟩) := rfl

/-- Settles O14: by which check the frame fails. -/
theorem badFrameIsRefused : Obligations.BadFrameIsRefused := by
  intro s bytes hs
  refine ⟨fun c bad => ?_, fun code _ unknown => ?_⟩
  · rw [exec_commandRow, hostFrame, commandTransaction_of_ready hs, takeFrame_of_lengthBad (frameLengthOk_eq_false bad)]
    rfl
  · rw [exec_unknownCommand, commandTransaction_of_ready hs, takeFrame_of_unknown unknown]
    rfl

/-- A frame that ends while a command is being carried out goes to the frame buffer. -/
theorem commandTransaction_of_executing (executing : s.port.state = .executing c payload) (f : Frame) :
    s.commandTransaction f =
      ((s.shift (List.replicate (f.bytes.length + 1) fillNoResponse)).setReading none).setKept (some f) := by
  unfold State.commandTransaction
  dsimp only [State.shift, State.setReading]
  rw [executing]

/-! ## The completion of a command -/

theorem completeCommand_held (executing : s.port.state = .executing c payload) (none : s.port.kept = none)
    (change : ownerChange c payload s = (v, r)) : s.completeCommand = (v.finish s).setPort (.holding r.bytes) := by
  rw [State.completeCommand, executing]
  dsimp only
  rw [none, change]

theorem completeCommand_taken {f : Frame} (executing : s.port.state = .executing c payload)
    (kept : s.port.kept = some f) (change : ownerChange c payload s = (v, r)) :
    s.completeCommand = ((v.finish s).setKept none).takeFrame f := by
  rw [State.completeCommand, executing]
  dsimp only
  rw [kept, change]

/-- Settles O15. -/
theorem completionHoldsOrTakesTheKeptFrame : Obligations.CompletionHoldsOrTakesTheKeptFrame := by
  intro s c payload executing
  refine ⟨fun d bytes => ?_, (ownerChange c payload s).1, (ownerChange c payload s).2, rfl, fun none => ?_,
    fun k next kept size fits => ?_⟩
  · rw [exec_commandRow, hostFrame, commandTransaction_of_executing executing]
    rfl
  · exact congrArg Host.Outcome.next (completeCommand_held executing none rfl)
  · refine congrArg Host.Outcome.next ((completeCommand_taken executing kept rfl).trans ?_)
    rw [takeFrame_of_lengthOk (frameLengthOk_hostBytes size fits)]
    rfl

/-! ## Read transactions -/

theorem readTransaction_ends (n : Nat) (s : State) : s.readTransaction n true = (s.readPiece n).setReading none := rfl

theorem readTransaction_open (n : Nat) (s : State) : s.readTransaction n false = s.readPiece n := rfl

theorem readPiece_first (h : s.port.reading = none) (n : Nat) :
    s.readPiece n = (s.shift [fillNoResponse]).readOn 0 n := by
  rw [State.readPiece, h]

theorem readPiece_further {p : Nat} (h : s.port.reading = some p) (n : Nat) : s.readPiece n = s.readOn p n := by
  rw [State.readPiece, h]

theorem readOn_idle (h : s.port.state = .idle) (p n : Nat) :
    s.readOn p n = (s.shift (List.replicate n fillNoResponse)).setReading (some 0) := by
  rw [State.readOn, h]

theorem readOn_executing (h : s.port.state = .executing c payload) (p n : Nat) :
    s.readOn p n = (s.shift (List.replicate n fillNotReady)).setReading (some 0) := by
  rw [State.readOn, h]

theorem readOn_holding {bytes : List Byte} (h : s.port.state = .holding bytes) (p n : Nat) :
    s.readOn p n = s.readHeld bytes p n := by
  rw [State.readOn, h]

theorem shift_shift (s : State) (a b : List Byte) : (s.shift a).shift b = s.shift (a ++ b) := by
  simp [State.shift]

theorem readHeld_of_le {bytes : List Byte} {p n : Nat} (h : (bytes.drop p).length ≤ n) :
    s.readHeld bytes p n =
      ((s.shift (bytes.drop p ++ List.replicate (n - (bytes.drop p).length) fillNoResponse)).setPort .idle).setReading
        (some 0) := by
  rw [State.readHeld, if_pos h, List.take_of_length_le h]

theorem readHeld_of_lt {bytes : List Byte} {p n : Nat} (h : n < (bytes.drop p).length) :
    s.readHeld bytes p n = (s.shift ((bytes.drop p).take n)).setReading (some (p + n)) := by
  rw [State.readHeld, if_neg (by omega), Nat.sub_eq_zero_of_le (by omega), List.replicate_zero, List.append_nil]

/-- Two pieces of a held response shift out what one piece of both does: either the first piece ends the response, and
the second finds an IDLE port, or the second goes on where the first stopped. -/
theorem readHeld_append {bytes : List Byte} (h : s.port.state = .holding bytes) (p m n : Nat) :
    ∃ q, (s.readHeld bytes p m).port.reading = some q ∧
      (s.readHeld bytes p m).readOn q n = s.readHeld bytes p (m + n) := by
  rcases Nat.lt_or_ge m (bytes.drop p).length with more | ended
  · refine ⟨p + m, by rw [readHeld_of_lt more]; rfl, ?_⟩
    rw [readHeld_of_lt more, readOn_holding (bytes := bytes) (by exact h)]
    have rest : bytes.drop (p + m) = (bytes.drop p).drop m := by rw [List.drop_drop]
    rcases Nat.lt_or_ge (m + n) (bytes.drop p).length with still | ended
    · rw [readHeld_of_lt (by rw [rest, List.length_drop]; omega), readHeld_of_lt still, rest, ← Nat.add_assoc,
        List.take_add]
      simp [State.shift, State.setReading]
    · have left : (bytes.drop (p + m)).length ≤ n := by rw [rest, List.length_drop]; omega
      have fill : n - (bytes.drop (p + m)).length = m + n - (bytes.drop p).length := by
        rw [rest, List.length_drop]; omega
      have whole : (bytes.drop p).take m ++ bytes.drop (p + m) = bytes.drop p := by rw [rest, List.take_append_drop]
      rw [readHeld_of_le left, readHeld_of_le ended, fill]
      simp only [State.shift, State.setReading, State.setPort]
      rw [List.append_assoc, ← List.append_assoc (List.take m _), whole]
  · refine ⟨0, by rw [readHeld_of_le ended]; rfl, ?_⟩
    have fill : m + n - (bytes.drop p).length = (m - (bytes.drop p).length) + n := by omega
    rw [readHeld_of_le ended, readHeld_of_le (by omega), fill, readOn_idle rfl, List.replicate_add]
    simp [State.shift, State.setReading, State.setPort]

theorem readOn_append (s : State) (p m n : Nat) :
    ∃ q, (s.readOn p m).port.reading = some q ∧ (s.readOn p m).readOn q n = s.readOn p (m + n) := by
  cases port : s.port.state with
  | idle =>
    refine ⟨0, by rw [readOn_idle port]; rfl, ?_⟩
    rw [readOn_idle port, readOn_idle port, readOn_idle (by exact port), List.replicate_add]
    simp [State.shift, State.setReading]
  | executing c payload =>
    refine ⟨0, by rw [readOn_executing port]; rfl, ?_⟩
    rw [readOn_executing port, readOn_executing port, readOn_executing (by exact port), List.replicate_add]
    simp [State.shift, State.setReading]
  | holding bytes =>
    rw [readOn_holding port, readOn_holding port]
    exact readHeld_append port p m n

theorem readPiece_append (s : State) (m n : Nat) : (s.readPiece m).readPiece n = s.readPiece (m + n) := by
  cases reading : s.port.reading with
  | none =>
    obtain ⟨q, progress, rest⟩ := readOn_append (s.shift [fillNoResponse]) 0 m n
    rw [readPiece_first reading, readPiece_first reading, readPiece_further progress, rest]
  | some p =>
    obtain ⟨q, progress, rest⟩ := readOn_append s p m n
    rw [readPiece_further reading, readPiece_further reading, readPiece_further progress, rest]

theorem readTransaction_append (s : State) (m n : Nat) (e : Bool) :
    (s.readTransaction m false).readTransaction n e = s.readTransaction (m + n) e := by
  cases e
  · exact readPiece_append s m n
  · rw [readTransaction_ends, readTransaction_ends, readTransaction_open, readPiece_append]

/-- A whole read of a held response. -/
theorem readTransaction_holding {bytes : List Byte} (first : s.port.reading = none) (h : s.port.state = .holding bytes)
    (n : Nat) : s.readTransaction n true = { s with
      port := { s.port with state := if bytes.length ≤ n then .idle else .holding bytes }
      shifted := s.shifted ++ 0xFE#8 :: (bytes.take n ++ List.replicate (n - bytes.length) 0xFE#8) } := by
  rw [readTransaction_ends, readPiece_first first, readOn_holding (by exact h), State.readHeld]
  dsimp only
  rw [List.drop_zero]
  split
  · simp [State.shift, State.setReading, State.setPort, fillNoResponse, first]
  · simp [State.shift, State.setReading, fillNoResponse, first, h]

theorem port_setReading_none (first : s.port.reading = none) : { s.port with reading := none } = s.port := by
  rw [← first]

/-- Settles O16. -/
theorem readTransactionShiftsTheResponse : Obligations.ReadTransactionShiftsTheResponse := by
  refine ⟨fun s m n e => ⟨_, rfl, congrArg Host.Outcome.next (readTransaction_append s m n e)⟩,
    fun s n first => ⟨fun bytes holding _ => ?_, fun idle => ?_, fun c p executing => ?_⟩⟩
  · exact congrArg Host.Outcome.next (readTransaction_holding first holding n)
  · refine congrArg Host.Outcome.next ?_
    rw [readTransaction_ends, readPiece_first first, readOn_idle (by exact idle), List.replicate_succ]
    simp [State.shift, State.setReading, fillNoResponse, port_setReading_none first]
  · refine congrArg Host.Outcome.next ?_
    rw [readTransaction_ends, readPiece_first first, readOn_executing (by exact executing)]
    simp [State.shift, State.setReading, fillNoResponse, fillNotReady, port_setReading_none first]

end Sys2Proof.Machine
end

section
/-! SUPPORT. Host commands carried out whole: what the host sees of a command whose change is known, and the commands of
the port itself (R200 to R204). -/

namespace Sys2Proof.Machine

variable {s t v w : State} {c : HostCmd} {payload : List Byte} {r : Response}

/-! ## A command carried out -/

/-- The state after a command whose owning block turned the taken state into `v` with response `r`. -/
def State.completed (s : State) (c : HostCmd) (payload : List Byte) (v : State) (r : Response) : State :=
  (v.finish (s.taken c payload)).setPort (.holding r.bytes)

theorem carries_completed (hs : s.PortReady) (size : payload.length ≤ 255) (fits : c.lengthFits payload = true)
    (change : ownerChange c payload (s.taken c payload) = (v, r)) :
    Carries c payload s (s.completed c payload v r) r := by
  have stands : v.transport = (s.taken c payload).transport := by
    rw [← transport_ownerChange c payload (s.taken c payload), change]
  exact carries_of_taken hs (exec_commandRow_taken hs size fits) change ((transport_kept stands).trans hs.kept)
    (transport_shifted stands)

/-- A command whose change leaves the ring, the free cells and the limits: nothing follows it, and the host sees the
edited state. -/
theorem carries_of_edit (hs : s.PortReady) (size : payload.length ≤ 255) (fits : c.lengthFits payload = true)
    (change : ownerChange c payload (s.taken c payload) = (w.taken c payload, r)) (ring : w.ring = s.ring)
    (cells : w.orders.freeCells = s.orders.freeCells) (limits : w.limits = s.limits) :
    ∃ u, Carries c payload s u r ∧ w.sameLine u := by
  refine ⟨_, carries_completed hs size fits change, ?_⟩
  have done : (w.taken c payload).finish (s.taken c payload) = w.taken c payload := finish_same ring cells limits
  rw [State.completed, done]
  rfl

/-- A command that only answers. -/
theorem carries_of_answer (hs : s.PortReady) (size : payload.length ≤ 255) (fits : c.lengthFits payload = true)
    (change : ownerChange c payload (s.taken c payload) = (s.taken c payload, r)) :
    ∃ u, Carries c payload s u r ∧ s.sameLine u :=
  carries_of_edit hs size fits change rfl rfl rfl

/-! ## Reading a state known but for its transport -/

section
variable (h : w.sameLine t)
include h

theorem sameLine_read {α : Type} (f : State → α)
    (blind : f { t with
      port := { t.port with state := w.port.state, kept := w.port.kept, reading := w.port.reading }
      shifted := w.shifted } = f t) : f t = f w :=
  blind.symm.trans (congrArg f h)

theorem sameLine_garments : t.garments = w.garments := sameLine_read h (·.garments) rfl
theorem sameLine_orders : t.orders = w.orders := sameLine_read h (·.orders) rfl
theorem sameLine_sched : t.sched = w.sched := sameLine_read h (·.sched) rfl
theorem sameLine_refs : t.refs = w.refs := sameLine_read h (·.refs) rfl
theorem sameLine_stations : t.stations = w.stations := sameLine_read h (·.stations) rfl
theorem sameLine_ring : t.ring = w.ring := sameLine_read h (·.ring) rfl
theorem sameLine_meter : t.meter = w.meter := sameLine_read h (·.meter) rfl
theorem sameLine_cure : t.cure = w.cure := sameLine_read h (·.cure) rfl
theorem sameLine_bins : t.bins = w.bins := sameLine_read h (·.bins) rfl
theorem sameLine_limits : t.limits = w.limits := sameLine_read h (·.limits) rfl
theorem sameLine_causes : t.port.causes = w.port.causes := sameLine_read h (·.port.causes) rfl
theorem sameLine_mask : t.port.mask = w.port.mask := sameLine_read h (·.port.mask) rfl
theorem sameLine_sent : t.sent = w.sent := sameLine_read h (·.sent) rfl
theorem sameLine_freeReads : t.freeReads = w.freeReads := sameLine_read h (·.freeReads) rfl

theorem sameLine_attn : t.attn = w.attn := by
  rw [State.attn, State.attn, sameLine_causes h, sameLine_mask h]

end

/-! ## IDENTIFY -/

theorem yesByte_eq (b : Bool) : yesByte b = [if b then 0x01#8 else 0x00#8] := by
  cases b <;> rfl

theorem identity_eq (s : State) : s.identity = [0x17#8, 0xE8#8, Config.siliconRevision] ++
    [if s.port.resetIndicator then 0x01#8 else 0x00#8] ++
    [0x02#8, 0x00#8, 0x40#8, 0x01#8, 0x80#8, 0x30#8, 0x18#8, 0x08#8] := by
  rw [State.identity, yesByte_eq]
  rfl

/-- Settles O17. -/
theorem identifyReportsAndClears : Obligations.IdentifyReportsAndClears := by
  intro s hs
  rw [← identity_eq s]
  exact carries_of_edit hs (by decide) rfl rfl rfl rfl rfl

/-! ## The cause flags -/

theorem and_eq_zero_iff (a b : BitVec 16) :
    a &&& b = 0#16 ↔ ∀ i : Nat, ¬ (a.getLsbD i = true ∧ b.getLsbD i = true) := by
  rw [BitVec.eq_of_getLsbD_eq_iff]
  refine ⟨fun h i ⟨ha, hb⟩ => ?_, fun h i _ => ?_⟩
  · have bound := BitVec.lt_of_getLsbD ha
    have := h i bound
    simp [ha, hb] at this
  · simpa using h i

/-- ATTN is asserted exactly while some bit is set in the causes and in the mask. -/
theorem attn_iff (s : State) :
    s.attn = true ↔ ∃ i : Nat, s.port.causes.getLsbD i = true ∧ s.port.mask.getLsbD i = true := by
  rw [State.attn, bne_iff_ne, Ne, and_eq_zero_iff]
  push Not
  rfl

theorem getLsbD_not_causeBits (i : Nat) : (~~~causeBits).getLsbD i = true ↔ 13 ≤ i ∧ i < 16 := by
  by_cases h : i < 16
  · interval_cases i <;> decide
  · simp [h, BitVec.getLsbD_of_ge _ _ (Nat.le_of_not_lt h)]

/-- A mask has no bit outside the flags exactly when it is below 2¹³. -/
theorem mask_fits_iff (m : BitVec 16) : m &&& ~~~causeBits = 0#16 ↔ m.toNat < 8192 := by
  rw [and_eq_zero_iff]
  refine ⟨fun h => ?_, fun small i ⟨set, above⟩ => ?_⟩
  · refine Nat.lt_pow_two_of_testBit (n := 13) _ fun i hi => ?_
    rw [← BitVec.getLsbD]
    by_contra set
    rw [Bool.not_eq_false] at set
    exact h i ⟨set, (getLsbD_not_causeBits i).mpr ⟨hi, BitVec.lt_of_getLsbD set⟩⟩
  · obtain ⟨hi, _⟩ := (getLsbD_not_causeBits i).mp above
    have power : 2 ^ 13 ≤ 2 ^ i := Nat.pow_le_pow_right (by decide) hi
    have clear : m.getLsbD i = false := Nat.testBit_lt_two_pow (by omega)
    rw [clear] at set
    cases set

theorem runSetCauseMask_of_fits (fits : (BitVec.ofNat 16 (field payload 0 2)).toNat < 8192) (s : State) :
    runSetCauseMask payload s =
      ({ s with port.mask := BitVec.ofNat 16 (field payload 0 2) },
        accepted (causeBytes (BitVec.ofNat 16 (field payload 0 2)) ++ causeBytes s.port.causes)) :=
  if_neg (not_not_intro ((mask_fits_iff _).mpr fits))

theorem runSetCauseMask_of_unfit (unfit : 8192 ≤ (BitVec.ofNat 16 (field payload 0 2)).toNat) (s : State) :
    runSetCauseMask payload s = s.refusing .badArgument :=
  if_pos fun zero => absurd ((mask_fits_iff _).mp zero) (by omega)

/-- Settles O18. -/
theorem causesAndMaskFollowTheirCommands : Obligations.CausesAndMaskFollowTheirCommands := by
  intro s payload hs
  refine ⟨?read, fun length => ?mask⟩
  case read =>
    obtain ⟨u, carried, same⟩ := carries_of_edit (c := .readCauses) (payload := [])
      (w := { s with port.causes := 0#16 }) hs (by decide) rfl rfl rfl rfl rfl
    refine ⟨u, carried, same, ?_⟩
    rw [sameLine_attn same]
    simp [State.attn]
  case mask =>
    have size : payload.length ≤ 255 := by omega
    have lengthFits : HostCmd.setCauseMask.lengthFits payload = true := by simp [HostCmd.lengthFits, length]
    by_cases fits : (BitVec.ofNat 16 (field payload 0 2)).toNat < 8192
    · obtain ⟨u, carried, same⟩ := carries_of_edit (c := .setCauseMask)
        (w := { s with port.mask := BitVec.ofNat 16 (field payload 0 2) }) hs size lengthFits
        (runSetCauseMask_of_fits fits _) rfl rfl rfl
      refine ⟨u, fun _ => ⟨carried, same, ?_⟩, fun unfit => absurd fits (by omega)⟩
      rw [sameLine_attn same]
      exact attn_iff _
    · obtain ⟨u, carried, same⟩ := carries_of_answer (c := .setCauseMask) hs size lengthFits
        (runSetCauseMask_of_unfit (Nat.le_of_not_lt fits) _)
      exact ⟨u, fun small => absurd small fits, fun _ => ⟨carried, same⟩⟩

end Sys2Proof.Machine
end

section
/-! SUPPORT. The reference tables and the tag patterns (R7, R67 to R79). -/

namespace Sys2Proof.Machine

variable {s t v w : State} {c : HostCmd} {payload : List Byte} {r : Response}

/-! ## Operands -/

theorem beNat_append (a : List Byte) (b : Byte) : beNat (a ++ [b]) = beNat a * 256 + b.toNat := by
  simp [beNat, List.foldl_append]

theorem beNat_lt (bytes : List Byte) : beNat bytes < 256 ^ bytes.length := by
  induction bytes using List.reverseRecOn with
  | nil => decide
  | append_singleton a b ih =>
    have byte : b.toNat < 256 := b.isLt
    rw [beNat_append, List.length_append, List.length_singleton, Nat.pow_succ]
    omega

theorem field_lt (payload : List Byte) (start width : Nat) : field payload start width < 256 ^ width := by
  refine lt_of_lt_of_le (beNat_lt _) (Nat.pow_le_pow_right (by decide) ?_)
  rw [List.length_take]
  exact Nat.min_le_left ..

theorem field_one_le (payload : List Byte) (start : Nat) : field payload start 1 ≤ 255 := by
  have := field_lt payload start 1
  omega

theorem yesNo_isNone_iff (n : Nat) : (yesNo n).isNone = true ↔ ¬ (n = 0 ∨ n = 1) := by
  unfold yesNo
  split_ifs <;> simp [*]

/-- An entry that is referred to: the test that refuses IN_USE. -/
theorem any_count_iff {α : Type} {o : Option α} {count : α → Nat} :
    o.any (fun e => count e != 0) = true ↔ ¬ ∀ e, o = some e → count e = 0 := by
  cases o <;> simp

/-! ## LOAD SKU -/

/-- The count of an entry after a name has moved from an old entry to a new one. -/
def movedCount (old new : Option Nat) (k n : Nat) : Nat :=
  if old = new then n else if old = some k then n - 1 else if new = some k then n + 1 else n

theorem find_countClass (s : State) (cls : Nat) (f : Nat → Nat) (k : Nat) :
    (s.countClass cls f).refs.classes.find k =
      (s.refs.classes.find k).map fun e => { e with count := if k = cls then f e.count else e.count } := by
  unfold State.countClass
  dsimp only
  rw [find_modify]
  by_cases h : k = cls
  · subst h
    simp
  · simp [h]

theorem find_moveClass (s : State) (old new : Option Nat) (k : Nat) :
    (s.moveClass old new).refs.classes.find k =
      (s.refs.classes.find k).map fun e => { e with count := movedCount old new k e.count } := by
  unfold State.moveClass movedCount
  by_cases same : old = new
  · simp [same]
  · rw [if_neg same]
    cases old <;> cases new <;> simp only [find_countClass, Option.map_map, Function.comp_def, same, if_false]
    all_goals grind [down1, up1]

theorem find_setSku (s : State) (sku : Nat) (e : Option SkuEntry) (k : Nat) :
    (s.setSku sku e).refs.skus.find k = if k = sku then e else s.refs.skus.find k := by
  cases e with
  | none => exact find_erase ..
  | some e => exact find_put ..

/-- What an accepted LOAD SKU makes of the tables. -/
def State.writeSku (s : State) (sku : Nat) (old new : Option Nat) : State :=
  (s.moveClass old new).setSku sku (new.map fun c => ⟨c, 0⟩)

theorem writeSku_eq (s : State) (sku : Nat) (old new : Option Nat) : s.writeSku sku old new = { s with
    refs.skus := (s.writeSku sku old new).refs.skus, refs.classes := (s.writeSku sku old new).refs.classes } := by
  unfold State.writeSku State.moveClass
  split
  · rfl
  · cases old <;> cases new <;> rfl

theorem moveClass_skus (s : State) (old new : Option Nat) : (s.moveClass old new).refs.skus = s.refs.skus := by
  unfold State.moveClass
  split
  · rfl
  · cases old <;> cases new <;> rfl

theorem find_writeSku (s : State) (sku : Nat) (old new : Option Nat) (k : Nat) :
    (s.writeSku sku old new).refs.skus.find k = if k = sku then new.map fun c => ⟨c, 0⟩ else s.refs.skus.find k := by
  rw [State.writeSku, find_setSku, moveClass_skus]

theorem find_writeSku_classes (s : State) (sku : Nat) (old new : Option Nat) (k : Nat) :
    (s.writeSku sku old new).refs.classes.find k =
      (s.refs.classes.find k).map fun e => { e with count := movedCount old new k e.count } :=
  find_moveClass s old new k

theorem writeSku_taken (s : State) (sku : Nat) (old new : Option Nat) :
    (s.taken c payload).writeSku sku old new = (s.writeSku sku old new).taken c payload := by
  unfold State.writeSku State.moveClass
  split
  · rfl
  · cases old <;> cases new <;> rfl

theorem runLoadSku_of_yesNo {valid : Bool} (h : yesNo (field payload 1 1) = some valid) (s : State) :
    runLoadSku payload s =
      let sku := field payload 0 1
      let cls := field payload 2 1
      let new := if valid then some cls else none
      if valid ∧ 31 < cls then s.refusing .badArgument
      else if (s.refs.skus.find sku).any (fun e => e.count != 0) then s.refusing .inUse
      else if valid ∧ (s.refs.classes.find cls).isNone then s.refusing .notFound
      else (s.writeSku sku ((s.refs.skus.find sku).map SkuEntry.cls) new, accepted []) := by
  rw [runLoadSku, h]
  rfl

theorem runLoadSku_of_none (h : yesNo (field payload 1 1) = none) (s : State) :
    runLoadSku payload s = s.refusing .badArgument := by
  rw [runLoadSku, h]

/-- Settles O19. -/
theorem loadSkuWritesTheEntry : Obligations.LoadSkuWritesTheEntry := by
  intro s payload hs length sku cls refused unused
  have size : payload.length ≤ 255 := by omega
  have fits : HostCmd.loadSku.lengthFits payload = true := by simp [HostCmd.lengthFits, length]
  have refusal : ∀ st, runLoadSku payload (s.taken .loadSku payload) = (s.taken .loadSku payload).refusing st →
      refused st := fun st => carries_of_answer (c := .loadSku) hs size fits
  refine ⟨fun invalid => refusal _ (runLoadSku_of_none invalid _), ?_⟩
  intro valid validity old new
  have run := runLoadSku_of_yesNo validity (s.taken .loadSku payload)
  refine ⟨fun isValid high => refusal _ ?_, fun inRange used => refusal _ ?_,
    fun isValid low free missing => refusal _ ?_, fun named free => ?_⟩
  · rw [run]
    exact if_pos ⟨isValid, high⟩
  · rw [run]
    exact (if_neg fun h => absurd (inRange h.1) (Nat.not_le_of_lt h.2)).trans (if_pos (any_count_iff.mpr used))
  · rw [run]
    refine (if_neg fun h => absurd low (Nat.not_le_of_lt h.2)).trans ((if_neg ?_).trans (if_pos ⟨isValid, ?_⟩))
    · exact fun used => any_count_iff.mp used free
    · exact Option.isNone_iff_eq_none.mpr missing
  · have change : runLoadSku payload (s.taken .loadSku payload) =
        ((s.writeSku sku old new).taken .loadSku payload, accepted []) := by
      rw [run, ← writeSku_taken]
      refine (if_neg fun h => absurd (named h.1).1 (Nat.not_le_of_lt h.2)).trans ((if_neg ?_).trans (if_neg ?_))
      · exact fun used => any_count_iff.mp used free
      · rintro ⟨isValid, missing⟩
        have gone : s.refs.classes.find cls = none := Option.isNone_iff_eq_none.mp missing
        have there := (named isValid).2
        rw [gone] at there
        cases there
    have written := writeSku_eq s sku old new
    have limits : (s.writeSku sku old new).limits = s.limits := by rw [written]
    have ring : (s.writeSku sku old new).ring = s.ring := by rw [written]
    have orders : (s.writeSku sku old new).orders = s.orders := by rw [written]
    obtain ⟨u, carried, same⟩ := carries_of_edit (c := .loadSku) hs size fits change ring (by rw [orders]) limits
    have refs : u.refs = (s.writeSku sku old new).refs := sameLine_refs same
    refine ⟨u, carried, ?_, fun k other => ?_, fun k => ?_, ?_⟩
    · rw [refs, find_writeSku, if_pos rfl]
    · rw [refs, find_writeSku, if_neg other]
    · rw [refs]
      exact find_writeSku_classes s sku old new k
    · rw [refs, ← written]
      exact same

/-! ## LOAD CLASS -/

theorem find_setClass (s : State) (n : Nat) (e : Option ClassEntry) (k : Nat) :
    (s.setClass n e).refs.classes.find k = if k = n then e else s.refs.classes.find k := by
  cases e with
  | none => exact find_erase ..
  | some e => exact find_put ..

/-- The ranges of Table 4-3 as a host reads them: the bounds that the width of a field implies are left out. -/
theorem classFields_inRange_iff (payload : List Byte) : (classFields payload).inRange = true ↔
    field payload 4 1 ≤ 60 ∧ field payload 5 1 ≤ 30 ∧ field payload 8 2 ≤ 16000 ∧
      field payload 6 2 < field payload 8 2 ∧ field payload 10 2 ≤ 2000 := by
  have rate := field_one_le payload 3
  simp only [ClassEntry.inRange, Bool.and_eq_true, decide_eq_true_eq]
  simp only [classFields]
  omega

theorem runLoadClass_of_none (h : yesNo (field payload 1 1) = none) (s : State) :
    runLoadClass payload s = s.refusing .badArgument := by
  rw [runLoadClass, h]

theorem runLoadClass_of_high (h : 31 < field payload 0 1) (s : State) :
    runLoadClass payload s = s.refusing .badArgument := by
  unfold runLoadClass
  dsimp only
  split
  · rfl
  · exact if_pos h

theorem runLoadClass_of_yesNo {valid : Bool} (h : yesNo (field payload 1 1) = some valid) (low : field payload 0 1 ≤ 31)
    (s : State) : runLoadClass payload s =
      if valid ∧ ((yesNo (field payload 2 1)).isNone ∨ (classFields payload).inRange = false) then s.refusing .badArgument
      else if (s.refs.classes.find (field payload 0 1)).any (fun e => e.count != 0) then s.refusing .inUse
      else (s.setClass (field payload 0 1) (if valid then some (classFields payload) else none), accepted []) := by
  rw [runLoadClass, h]
  exact if_neg (by omega)

/-- Settles O20. -/
theorem loadClassWritesTheEntry : Obligations.LoadClassWritesTheEntry := by
  intro s payload hs length n refused unused ranges
  have size : payload.length ≤ 255 := by omega
  have fits : HostCmd.loadClass.lengthFits payload = true := by simp [HostCmd.lengthFits, length]
  have refusal : ∀ st, runLoadClass payload (s.taken .loadClass payload) = (s.taken .loadClass payload).refusing st →
      refused st := fun st => carries_of_answer (c := .loadClass) hs size fits
  have outOfRange : ((yesNo (field payload 2 1)).isNone ∨ (classFields payload).inRange = false) ↔ ¬ ranges := by
    rw [yesNo_isNone_iff, ← Bool.not_eq_true, classFields_inRange_iff, ← not_and_or]
  refine ⟨fun bad => refusal _ ?_, fun valid validity low => ?_⟩
  · rcases bad with invalid | high
    · exact runLoadClass_of_none invalid _
    · exact runLoadClass_of_high high _
  have run := runLoadClass_of_yesNo validity low (s.taken .loadClass payload)
  refine ⟨fun isValid bad => refusal _ ?_, fun good used => refusal _ ?_, fun good free => ?_⟩
  · rw [run]
    exact if_pos ⟨isValid, outOfRange.mpr bad⟩
  · rw [run]
    exact (if_neg fun h => outOfRange.mp h.2 (good h.1)).trans (if_pos (any_count_iff.mpr used))
  · have change : runLoadClass payload (s.taken .loadClass payload) =
        ((s.setClass n (if valid then some (classFields payload) else none)).taken .loadClass payload, accepted []) := by
      rw [run]
      exact (if_neg fun h => outOfRange.mp h.2 (good h.1)).trans (if_neg fun used => any_count_iff.mp used free)
    obtain ⟨u, carried, same⟩ := carries_of_edit (c := .loadClass) hs size fits change rfl rfl rfl
    have refs := sameLine_refs same
    refine ⟨u, carried, ?_, fun k other => ?_, ?_⟩
    · rw [refs, find_setClass, if_pos rfl]
      rfl
    · rw [refs, find_setClass, if_neg other]
    · rw [refs]
      exact same

/-! ## LOAD DESIGN -/

theorem find_setDesign (s : State) (n : Nat) (e : Option DesignEntry) (k : Nat) :
    (s.setDesign n e).refs.designs.find k = if k = n then e else s.refs.designs.find k := by
  cases e with
  | none => exact find_erase ..
  | some e => exact find_put ..

theorem runLoadDesign_of_none (h : yesNo (field payload 1 1) = none) (s : State) :
    runLoadDesign payload s = s.refusing .badArgument := by
  rw [runLoadDesign, h]

theorem runLoadDesign_of_yesNo {valid : Bool} (h : yesNo (field payload 1 1) = some valid) (s : State) :
    runLoadDesign payload s =
      if valid ∧ ((yesNo (field payload 4 1)).isNone ∨ field payload 2 2 = 0 ∨ 1500 < field payload 2 2) then
        s.refusing .badArgument
      else if (s.refs.designs.find (field payload 0 1)).any (fun e => e.count != 0) then s.refusing .inUse
      else (s.setDesign (field payload 0 1)
        (if valid then some ⟨field payload 2 2, field payload 4 1 = 1, 0⟩ else none), accepted []) := by
  rw [runLoadDesign, h]

/-- Settles O21. -/
theorem loadDesignWritesTheEntry : Obligations.LoadDesignWritesTheEntry := by
  intro s payload hs length n refused unused ranges
  have size : payload.length ≤ 255 := by omega
  have fits : HostCmd.loadDesign.lengthFits payload = true := by simp [HostCmd.lengthFits, length]
  have refusal : ∀ st, runLoadDesign payload (s.taken .loadDesign payload) = (s.taken .loadDesign payload).refusing st →
      refused st := fun st => carries_of_answer (c := .loadDesign) hs size fits
  have outOfRange : ((yesNo (field payload 4 1)).isNone ∨ field payload 2 2 = 0 ∨ 1500 < field payload 2 2) ↔
      ¬ ranges := by
    rw [yesNo_isNone_iff]
    omega
  refine ⟨fun invalid => refusal _ (runLoadDesign_of_none invalid _), fun valid validity => ?_⟩
  have run := runLoadDesign_of_yesNo validity (s.taken .loadDesign payload)
  refine ⟨fun isValid bad => refusal _ ?_, fun good used => refusal _ ?_, fun good free => ?_⟩
  · rw [run]
    exact if_pos ⟨isValid, outOfRange.mpr bad⟩
  · rw [run]
    exact (if_neg fun h => outOfRange.mp h.2 (good h.1)).trans (if_pos (any_count_iff.mpr used))
  · have change : runLoadDesign payload (s.taken .loadDesign payload) =
        ((s.setDesign n (if valid then some ⟨field payload 2 2, field payload 4 1 = 1, 0⟩ else none)).taken .loadDesign
          payload, accepted []) := by
      rw [run]
      exact (if_neg fun h => outOfRange.mp h.2 (good h.1)).trans (if_neg fun used => any_count_iff.mp used free)
    obtain ⟨u, carried, same⟩ := carries_of_edit (c := .loadDesign) hs size fits change rfl rfl rfl
    have refs := sameLine_refs same
    refine ⟨u, carried, ?_, fun k other => ?_, ?_⟩
    · rw [refs, find_setDesign, if_pos rfl]
    · rw [refs, find_setDesign, if_neg other]
    · rw [refs]
      exact same

/-! ## READ ENTRY -/

theorem skuBytes_eq (s : State) (n : Nat) : s.skuBytes n = match s.refs.skus.find n with
    | none => [0#8, 0#8, 0#8, 0#8]
    | some e => 1#8 :: (beBytes 1 e.cls ++ beBytes 2 e.count) := by
  unfold State.skuBytes
  cases s.refs.skus.find n with
  | none => rfl
  | some e =>
    simp only [yesByte_eq, Option.getD_some, Option.isSome_some, List.append_assoc]
    rfl

theorem classBytes_eq (s : State) (n : Nat) : s.classBytes n = match s.refs.classes.find n with
    | none => List.replicate 13 0#8
    | some e => 1#8 :: ((if e.dark then 1#8 else 0#8) :: (beBytes 1 e.rate ++ beBytes 1 e.pressBase ++
        beBytes 1 e.wetExtra ++ beBytes 2 e.targetBase ++ beBytes 2 e.ceiling ++ beBytes 2 e.inkFactor ++
        beBytes 2 e.count)) := by
  unfold State.classBytes State.classEntry
  cases s.refs.classes.find n with
  | none => rfl
  | some e =>
    simp only [yesByte_eq, Option.getD_some, Option.isSome_some, List.append_assoc]
    rfl

theorem designBytes_eq (s : State) (n : Nat) : s.designBytes n = match s.refs.designs.find n with
    | none => [0#8, 0#8, 0#8, 0#8, 0#8, 0#8]
    | some e => 1#8 :: (beBytes 2 e.area ++ (if e.underbase then 1#8 else 0#8) :: beBytes 2 e.count) := by
  unfold State.designBytes State.designEntry
  cases s.refs.designs.find n with
  | none => rfl
  | some e =>
    simp only [yesByte_eq, Option.getD_some, Option.isSome_some, List.append_assoc]
    rfl

theorem runReadEntry_sku (h : field payload 0 1 = 0) (s : State) :
    runReadEntry payload s = (s, accepted (s.skuBytes (field payload 1 1))) := by
  simp only [runReadEntry, h]

theorem runReadEntry_class (h : field payload 0 1 = 1) (low : field payload 1 1 ≤ 31) (s : State) :
    runReadEntry payload s = (s, accepted (s.classBytes (field payload 1 1))) := by
  rw [runReadEntry, h]
  exact if_neg (by omega)

theorem runReadEntry_design (h : field payload 0 1 = 2) (s : State) :
    runReadEntry payload s = (s, accepted (s.designBytes (field payload 1 1))) := by
  simp only [runReadEntry, h]

theorem runReadEntry_of_bad (bad : 2 < field payload 0 1 ∨ (field payload 0 1 = 1 ∧ 31 < field payload 1 1))
    (s : State) : runReadEntry payload s = s.refusing .badArgument := by
  unfold runReadEntry
  dsimp only
  split
  · omega
  · exact if_pos (by omega)
  · omega
  · rfl

/-- Settles O22. -/
theorem readEntryReturnsTheEntry : Obligations.ReadEntryReturnsTheEntry := by
  intro s payload hs length n
  have size : payload.length ≤ 255 := by omega
  have fits : HostCmd.readEntry.lengthFits payload = true := by simp [HostCmd.lengthFits, length]
  have answer : ∀ r, runReadEntry payload (s.taken .readEntry payload) = (s.taken .readEntry payload, r) →
      ∃ u, s.sameLine u ∧ Carries .readEntry payload s u r := fun r change =>
    (carries_of_answer (c := .readEntry) hs size fits change).imp fun _ => And.symm
  refine ⟨fun sku => answer _ ?_, fun cls low => answer _ ?_, fun design => answer _ ?_,
    fun bad => answer _ (runReadEntry_of_bad bad _)⟩
  · rw [runReadEntry_sku sku, skuBytes_eq]
    rfl
  · rw [runReadEntry_class cls low, classBytes_eq]
    rfl
  · rw [runReadEntry_design design, designBytes_eq]
    rfl

/-! ## SET PATTERN -/

theorem find_countDesign (s : State) (design : Nat) (f : Nat → Nat) (k : Nat) :
    (s.countDesign design f).refs.designs.find k =
      (s.refs.designs.find k).map fun e => { e with count := if k = design then f e.count else e.count } := by
  unfold State.countDesign
  dsimp only
  rw [find_modify]
  by_cases h : k = design
  · subst h
    simp
  · simp [h]

theorem find_movePattern (s : State) (old new : Option Nat) (k : Nat) :
    (s.movePattern old new).refs.designs.find k =
      (s.refs.designs.find k).map fun e => { e with count := movedCount old new k e.count } := by
  unfold State.movePattern movedCount
  by_cases same : old = new
  · simp [same]
  · rw [if_neg same]
    cases old <;> cases new <;> simp only [find_countDesign, Option.map_map, Function.comp_def, same, if_false]
    all_goals grind [down1, up1]

theorem movePattern_eq (s : State) (old new : Option Nat) :
    s.movePattern old new = { s with refs.designs := (s.movePattern old new).refs.designs } := by
  unfold State.movePattern
  split
  · rfl
  · cases old <;> cases new <;> rfl

theorem movePattern_taken (s : State) (old new : Option Nat) :
    (s.taken c payload).movePattern old new = (s.movePattern old new).taken c payload := by
  unfold State.movePattern
  split
  · rfl
  · cases old <;> cases new <;> rfl

theorem setPattern_taken (s : State) (n : Nat) (p : Pattern) :
    (s.taken c payload).setPattern n p = (s.setPattern n p).taken c payload := by
  unfold State.setPattern
  dsimp only
  rw [movePattern_taken]
  rfl

theorem setPattern_eq (s : State) (n : Nat) (p : Pattern) : s.setPattern n p = { s with
    garments.patterns := s.garments.patterns.store {} n p, refs.designs := (s.setPattern n p).refs.designs } := by
  unfold State.setPattern
  dsimp only
  rw [movePattern_eq]

theorem find_setPattern_designs (s : State) (n : Nat) (p : Pattern) (k : Nat) :
    (s.setPattern n p).refs.designs.find k = (s.refs.designs.find k).map fun e =>
      { e with count := movedCount (s.garments.patterns.look {} n).names p.names k e.count } :=
  find_movePattern ..

theorem patternOf_names (valid block : Bool) :
    (patternOf payload valid block).names = if valid ∧ block = false then some (field payload 15 1) else none := by
  cases valid <;> cases block <;> rfl

theorem runSetPattern_of_bad (bad : yesNo (field payload 1 1) = none ∨ yesNo (field payload 14 1) = none ∨
    7 < field payload 0 1) (s : State) : runSetPattern payload s = s.refusing .badArgument := by
  unfold runSetPattern
  dsimp only
  split
  case h_1 valid block validity action =>
    rcases bad with h | h | high
    · rw [h] at validity
      cases validity
    · rw [h] at action
      cases action
    · exact if_pos high
  case h_2 => rfl

theorem runSetPattern_of_good {valid block : Bool} (validity : yesNo (field payload 1 1) = some valid)
    (action : yesNo (field payload 14 1) = some block) (low : field payload 0 1 ≤ 7) (s : State) :
    runSetPattern payload s =
      if (patternOf payload valid block).names.any fun d => (s.refs.designs.find d).isNone then s.refusing .notFound
      else (s.setPattern (field payload 0 1) (patternOf payload valid block), accepted []) := by
  rw [runSetPattern, validity, action]
  exact if_neg (by omega)

/-- Settles O23. -/
theorem setPatternWritesTheEntry : Obligations.SetPatternWritesTheEntry := by
  intro s payload hs length n refused
  have size : payload.length ≤ 255 := by omega
  have fits : HostCmd.setPattern.lengthFits payload = true := by simp [HostCmd.lengthFits, length]
  have refusal : ∀ st, runSetPattern payload (s.taken .setPattern payload) = (s.taken .setPattern payload).refusing st →
      refused st := fun st => carries_of_answer (c := .setPattern) hs size fits
  refine ⟨fun bad => refusal _ (runSetPattern_of_bad bad _), fun valid block validity action low => ?_⟩
  intro was old new
  let p := patternOf payload valid block
  have names : p.names = new := patternOf_names valid block
  have run := runSetPattern_of_good validity action low (s.taken .setPattern payload)
  refine ⟨fun d named missing => refusal _ ?_, fun good => ?_⟩
  · rw [run]
    refine if_pos ?_
    rw [show (patternOf payload valid block).names = some d from names.trans named]
    exact Option.isNone_iff_eq_none.mpr missing
  · have change : runSetPattern payload (s.taken .setPattern payload) =
        ((s.setPattern n p).taken .setPattern payload, accepted []) := by
      rw [run, ← setPattern_taken]
      refine if_neg fun missing => ?_
      obtain ⟨d, named, gone⟩ := (Option.any_eq_true ..).mp missing
      have missing : s.refs.designs.find d = none := Option.isNone_iff_eq_none.mp gone
      have there := good d (names.symm.trans named)
      rw [missing] at there
      cases there
    have written := setPattern_eq s n p
    have ring : (s.setPattern n p).ring = s.ring := by rw [written]
    have orders : (s.setPattern n p).orders = s.orders := by rw [written]
    have limits : (s.setPattern n p).limits = s.limits := by rw [written]
    have patterns : (s.setPattern n p).garments.patterns = s.garments.patterns.store {} n p := by rw [written]
    obtain ⟨u, carried, same⟩ := carries_of_edit (c := .setPattern) hs size fits change ring (by rw [orders]) limits
    have refs : u.refs = (s.setPattern n p).refs := sameLine_refs same
    have garments : u.garments = (s.setPattern n p).garments := sameLine_garments same
    refine ⟨u, carried, ?_, fun k other => ?_, fun d => ?_, ?_⟩
    · rw [garments, patterns, look_store_same]
      rfl
    · rw [garments, patterns, look_store_ne _ _ other]
    · rw [refs, find_setPattern_designs, names]
      rfl
    · rw [garments, refs, patterns, ← written]
      exact same

end Sys2Proof.Machine
end

section
/-! SUPPORT. The scheduler's configuration, the limits, queries, the walk, and the positions and platens of the ring. -/

namespace Sys2Proof.Machine

variable {s t v w : State} {c : HostCmd} {payload : List Byte} {r : Response}

/-! ## SET SCHEDULER -/

theorem runSetScheduler_of_bad (bad : ¬ ((∀ c ∈ fields payload 0 1 8, c ≤ 3) ∧
      (∀ w ∈ fields payload 8 1 4, 1 ≤ w ∧ w ≤ 15) ∧ field payload 12 1 ≤ 1)) (s : State) :
    runSetScheduler payload s = s.refusing .badArgument := by
  refine if_pos ?_
  simp only [List.any_eq_true, decide_eq_true_eq]
  by_contra good
  push Not at good
  obtain ⟨map, weights, mode⟩ := good
  exact bad ⟨map, fun w hw => by have := weights w hw; omega, mode⟩

theorem runSetScheduler_of_good (map : ∀ c ∈ fields payload 0 1 8, c ≤ 3)
    (weights : ∀ w ∈ fields payload 8 1 4, 1 ≤ w ∧ w ≤ 15) (mode : field payload 12 1 ≤ 1) (s : State) :
    runSetScheduler payload s = ({ s with sched := {
      classMap := fields payload 0 1 8, weights := fields payload 8 1 4, credits := fields payload 8 1 4
      mode := if field payload 12 1 = 0 then .strict else .weighted } }, accepted []) := by
  refine if_neg ?_
  simp only [List.any_eq_true, decide_eq_true_eq]
  rintro (⟨c, hc, high⟩ | ⟨w, hw, out⟩ | high)
  · exact absurd (map c hc) (by omega)
  · have := weights w hw
    omega
  · omega

/-- Settles O28. -/
theorem setSchedulerReplacesTheConfiguration : Obligations.SetSchedulerReplacesTheConfiguration := by
  intro s payload hs length map weights mode ok
  have size : payload.length ≤ 255 := by omega
  have fits : HostCmd.setScheduler.lengthFits payload = true := by simp [HostCmd.lengthFits, length]
  refine ⟨fun ⟨mapOk, weightsOk, modeOk⟩ => ?_, fun bad => ?_⟩
  · exact carries_of_edit hs size fits (runSetScheduler_of_good mapOk weightsOk modeOk _) rfl rfl rfl
  · exact carries_of_answer hs size fits (runSetScheduler_of_bad bad _)

/-! ## SET LINE LIMITS -/

theorem beNat_cons (b : Byte) (bytes : List Byte) :
    beNat (b :: bytes) = b.toNat * 256 ^ bytes.length + beNat bytes := by
  induction bytes using List.reverseRecOn with
  | nil => simp [beNat]
  | append_singleton l x ih =>
    rw [← List.cons_append, beNat_append, ih, beNat_append, List.length_append, List.length_singleton, Nat.pow_succ]
    ring

theorem beBytes_add_mul (width a n : Nat) : beBytes width (a * 256 ^ width + n) = beBytes width n := by
  induction width generalizing a with
  | zero => rfl
  | succ w ih =>
    have shift : a * 256 ^ (w + 1) + n = a * 256 * 256 ^ w + n := by rw [Nat.pow_succ]; ring
    have high : (a * 256 * 256 ^ w + n) / 256 ^ w = a * 256 + n / 256 ^ w := by
      rw [Nat.add_comm, Nat.add_mul_div_right _ _ (Nat.pow_pos (by decide)), Nat.add_comm]
    rw [shift, beBytes, beBytes, ih, high]
    congr 1
    apply BitVec.eq_of_toNat_eq
    simp only [BitVec.toNat_ofNat]
    omega

/-- Bytes are what their number is written as. -/
theorem beBytes_beNat (bytes : List Byte) : beBytes bytes.length (beNat bytes) = bytes := by
  induction bytes with
  | nil => rfl
  | cons b bytes ih =>
    have small := beNat_lt bytes
    rw [List.length_cons, beBytes, beNat_cons, beBytes_add_mul, ih]
    congr 1
    rw [Nat.add_comm, Nat.add_mul_div_right _ _ (Nat.pow_pos (by decide)), Nat.div_eq_of_lt small, Nat.zero_add]
    exact BitVec.ofNat_toNat ..

theorem beBytes_field {start width : Nat} (h : start + width ≤ payload.length) :
    beBytes width (field payload start width) = (payload.drop start).take width := by
  have length : ((payload.drop start).take width).length = width := by
    rw [List.length_take, List.length_drop]
    omega
  have whole := beBytes_beNat ((payload.drop start).take width)
  rwa [length] at whole

/-- One more field in front of the rest of a payload. -/
theorem beBytes_field_append {start width : Nat} (h : start + width ≤ payload.length) :
    beBytes width (field payload start width) ++ payload.drop (start + width) = payload.drop start := by
  rw [beBytes_field h, ← List.drop_drop, List.take_append_drop]

/-- The limits are returned as the bytes they came in. -/
theorem limitsOf_bytes (length : payload.length = 22) : (limitsOf payload).bytes = payload := by
  have fold : ∀ start width, start + width ≤ 22 →
      beBytes width (field payload start width) ++ payload.drop (start + width) = payload.drop start :=
    fun start width h => beBytes_field_append (by omega)
  have ended : payload.drop 22 = [] := List.drop_of_length_le (by omega)
  have last : beBytes 2 (field payload 20 2) = payload.drop 20 := by
    rw [← fold 20 2 (by decide), ended, List.append_nil]
  simp only [Limits.bytes, limitsOf, List.append_assoc, last]
  rw [fold 18 2 (by decide), fold 16 2 (by decide), fold 14 2 (by decide), fold 12 2 (by decide), fold 10 2 (by decide),
    fold 8 2 (by decide), fold 7 1 (by decide), fold 6 1 (by decide), fold 5 1 (by decide), fold 4 1 (by decide),
    fold 3 1 (by decide), fold 2 1 (by decide), fold 1 1 (by decide), fold 0 1 (by decide), List.drop_zero]

theorem limits_ok_iff (m : Limits) : m.ok = true ↔
    (1 ≤ m.agePeriod ∧ m.agePeriod ≤ 60) ∧ (1 ≤ m.ageLimit ∧ m.ageLimit ≤ 15) ∧
      (1 ≤ m.lapLimit ∧ m.lapLimit ≤ 7) ∧ (1 ≤ m.reprintLimit ∧ m.reprintLimit ≤ 7) ∧
      (1 ≤ m.unloadWait ∧ m.unloadWait ≤ 120) ∧ m.holdReserve ≤ 128 ∧ m.retention ≤ 16 ∧
      (1 ≤ m.moveLimit ∧ m.moveLimit ≤ 30) ∧ ∀ t ∈ [m.toLoad, m.toPretreat, m.toPress, m.toPrintA, m.toPrintB,
        m.toUnload, m.toMatching], 1 ≤ t ∧ t ≤ 600 := by
  simp [Limits.ok, within, and_assoc]

theorem runSetLineLimits_nil (s : State) : runSetLineLimits [] s = (s, accepted s.limits.bytes) := rfl

theorem runSetLineLimits_of_bad (some : payload ≠ []) (bad : (limitsOf payload).ok = false) (s : State) :
    runSetLineLimits payload s = s.refusing .badArgument :=
  (if_neg some).trans (if_pos bad)

theorem runSetLineLimits_of_ok (some : payload ≠ []) (ok : (limitsOf payload).ok = true) (s : State) :
    runSetLineLimits payload s = ({ s with limits := limitsOf payload }, accepted (limitsOf payload).bytes) :=
  (if_neg some).trans (if_neg (by rw [ok]; exact Bool.noConfusion))

/-- With the ring as it was only CELLS_LOW can follow a change. -/
theorem finish_of_ring (ring : t.ring = s.ring) : t.finish s = t.checkCells s := by
  rw [State.finish, State.settleRing, if_pos (by simp only [State.heldPlatens, ring])]

theorem checkCells_eq (t s : State) : t.checkCells s = { t with
    port.causes := if t.orders.freeCells < t.limits.holdReserve ∧ s.limits.holdReserve ≤ s.orders.freeCells
      then t.port.causes ||| Cause.cellsLow.field else t.port.causes } := by
  unfold State.checkCells State.raiseIf
  by_cases low : t.orders.freeCells < t.limits.holdReserve ∧ s.limits.holdReserve ≤ s.orders.freeCells
  · rw [if_pos (by simpa using low), if_pos low]
    rfl
  · rw [if_neg (by simpa using low), if_neg low]

/-- Settles O36. -/
theorem setLineLimitsReplacesTheLimits : Obligations.SetLineLimitsReplacesTheLimits := by
  intro s payload hs
  refine ⟨?_, fun length => ?_⟩
  · rintro rfl
    exact carries_of_answer hs (by decide) rfl (runSetLineLimits_nil _)
  intro m ok
  have size : payload.length ≤ 255 := by omega
  have fits : HostCmd.setLineLimits.lengthFits payload = true := by simp [HostCmd.lengthFits, length]
  have nonempty : payload ≠ [] := by
    rintro rfl
    cases length
  refine ⟨fun good => ?_, fun bad => ?_⟩
  · have change : runSetLineLimits payload (s.taken .setLineLimits payload) =
        ({ s with limits := m }.taken .setLineLimits payload, accepted payload) := by
      rw [runSetLineLimits_of_ok nonempty ((limits_ok_iff m).mpr good), limitsOf_bytes length]
      rfl
    refine ⟨_, carries_completed (c := .setLineLimits) hs size fits change, rfl, rfl, ?_⟩
    have done := (finish_of_ring (s := s.taken .setLineLimits payload)
      (t := { s with limits := m }.taken .setLineLimits payload) rfl).trans (checkCells_eq ..)
    rw [State.completed, done]
    rfl
  · have unfit : m.ok = false := Bool.eq_false_iff.mpr fun good => bad ((limits_ok_iff m).mp good)
    exact carries_of_answer hs size fits (runSetLineLimits_of_bad nonempty unfit _)

/-! ## Queries -/

theorem timeLeft_bounds (s : State) {low high : Nat} (h : low ≤ high) :
    low ≤ (s.timeLeft low high).1 ∧ (s.timeLeft low high).1 ≤ high := by
  have rest : Config.freeTime s.freeReads % (high - low + 1) < high - low + 1 := Nat.mod_lt _ (by omega)
  unfold State.timeLeft
  dsimp only
  omega

theorem runQueryMeter_bounds (s : State) :
    1 ≤ (s.timeLeft 1 s.meter.running).1 ∧ (s.timeLeft 1 s.meter.running).1 ≤ max 1 s.meter.running := by
  have rest : Config.freeTime s.freeReads % (s.meter.running - 1 + 1) < s.meter.running - 1 + 1 :=
    Nat.mod_lt _ (by omega)
  unfold State.timeLeft
  dsimp only
  omega

theorem carries_of_read (hs : s.PortReady) (size : payload.length ≤ 255) (fits : c.lengthFits payload = true) {n : Nat}
    (change : ownerChange c payload (s.taken c payload) = ({ s.taken c payload with freeReads := n }, r)) :
    ∃ u, Carries c payload s u r ∧ State.sameLine { s with freeReads := u.freeReads } u := by
  obtain ⟨u, carried, same⟩ := carries_of_edit (w := { s with freeReads := n }) hs size fits change rfl rfl rfl
  refine ⟨u, carried, ?_⟩
  rw [sameLine_freeReads same]
  exact same

theorem runQueryRing_idle (idle : s.ring.cycle = .idle) : runQueryRing s = (s, accepted (s.ringBytes none)) := by
  unfold runQueryRing
  rw [idle]

theorem runQueryRing_moving (moving : s.ring.cycle = .moving) {p : Nat} (timer : s.ring.moveTimer = some p) :
    runQueryRing s = ((s.timeLeft 0 (p * 1000)).2, accepted (s.ringBytes (some (s.timeLeft 0 (p * 1000)).1))) := by
  unfold runQueryRing
  rw [moving, timer]
  rfl

theorem runQueryStation_none (h : Link.ofNumber (field payload 0 1) = none) (s : State) :
    runQueryStation payload s = s.refusing .badArgument := by
  rw [runQueryStation, h]

theorem runQueryStation_stopped {l : Link} (h : Link.ofNumber (field payload 0 1) = some l)
    (stopped : (s.station l).workTimer = none) :
    runQueryStation payload s = (s, accepted ((s.station l).bytes l 0 (s.limits.workTimeout l))) := by
  simp only [runQueryStation, h, stopped]

theorem runQueryStation_running {l : Link} (h : Link.ofNumber (field payload 0 1) = some l) {p : Nat}
    (running : (s.station l).workTimer = some p) :
    runQueryStation payload s = ((s.timeLeft 0 (p * 1000)).2,
      accepted ((s.station l).bytes l (s.timeLeft 0 (p * 1000)).1 (s.limits.workTimeout l))) := by
  simp only [runQueryStation, h, running]

/-- Settles O29. -/
theorem queriesReportAndChangeNothing : Obligations.QueriesReportAndChangeNothing := by
  intro s payload hs answers timed l
  refine ⟨fun length => ?order, fun length => ?list, fun length => ?garment, fun length => ?belt, fun length => ?bin,
    fun length missing => ?noStation, fun length link found => ?station, fun empty idle => ?ringIdle,
    fun empty moving p timer => ?ringMoving, fun empty => ?meter⟩
  case order =>
    refine carries_of_answer (c := .queryOrder) hs (by omega) (by simp [HostCmd.lengthFits, length]) ?_
    show runQueryOrder payload _ = _
    unfold runQueryOrder
    rw [show (s.taken .queryOrder payload).findOrder (field payload 0 4) = s.findOrder (field payload 0 4) from rfl]
    cases s.findOrder (field payload 0 4) <;> rfl
  case list =>
    refine carries_of_answer (c := .listOrders) hs (by omega) (by simp [HostCmd.lengthFits, length]) ?_
    show runListOrders payload _ = _
    unfold runListOrders
    dsimp only
    split <;> rfl
  case garment =>
    refine carries_of_answer (c := .queryGarment) hs (by omega) (by simp [HostCmd.lengthFits, length]) ?_
    show runQueryGarment payload _ = _
    unfold runQueryGarment
    rw [show (s.taken .queryGarment payload).findTag (tagField payload 0) = s.findTag (tagField payload 0) from rfl]
    cases s.findTag (tagField payload 0) <;> rfl
  case belt =>
    refine carries_of_answer (c := .queryBelt) hs (by omega) (by simp [HostCmd.lengthFits, length]) ?_
    show runQueryBelt payload _ = _
    unfold runQueryBelt
    dsimp only
    split <;> rfl
  case bin =>
    refine carries_of_answer (c := .queryBin) hs (by omega) (by simp [HostCmd.lengthFits, length]) ?_
    show runQueryBin payload _ = _
    unfold runQueryBin
    dsimp only
    split <;> rfl
  case noStation =>
    exact carries_of_answer (c := .queryStation) hs (by omega) (by simp [HostCmd.lengthFits, length])
      (runQueryStation_none missing _)
  case station =>
    have fits : HostCmd.queryStation.lengthFits payload = true := by simp [HostCmd.lengthFits, length]
    cases timer : (s.station link).workTimer with
    | none =>
      obtain ⟨u, carried, same⟩ := carries_of_read (c := .queryStation) (n := s.freeReads) hs (by omega) fits
        (runQueryStation_stopped (s := s.taken .queryStation payload) found timer)
      exact ⟨u, 0, le_rfl, Nat.zero_le _, carried, same⟩
    | some p =>
      obtain ⟨low, high⟩ := timeLeft_bounds (s.taken .queryStation payload) (Nat.zero_le (p * 1000))
      obtain ⟨u, carried, same⟩ := carries_of_read (c := .queryStation) hs (by omega) fits
        (runQueryStation_running (s := s.taken .queryStation payload) found timer)
      exact ⟨u, _, low, high, carried, same⟩
  case ringIdle =>
    subst empty
    exact carries_of_answer (c := .queryRing) hs (by decide) rfl (runQueryRing_idle (s := s.taken .queryRing []) idle)
  case ringMoving =>
    subst empty
    obtain ⟨low, high⟩ := timeLeft_bounds (s.taken .queryRing []) (Nat.zero_le (p * 1000))
    obtain ⟨u, carried, same⟩ := carries_of_read (c := .queryRing) hs (by decide) rfl
      (runQueryRing_moving (s := s.taken .queryRing []) moving timer)
    exact ⟨u, _, low, high, carried, same⟩
  case meter =>
    subst empty
    obtain ⟨low, high⟩ := runQueryMeter_bounds (s.taken .queryMeter [])
    obtain ⟨u, carried, same⟩ := carries_of_read (c := .queryMeter) (payload := [])
      (r := accepted (s.meter.bytes (s.timeLeft 1 s.meter.running).1)) hs (by decide) rfl
      rfl
    exact ⟨u, _, low, high, carried, same⟩

/-! ## The walk -/

/-- In a canonical table the first entry from a number on is the one of the lowest number. -/
theorem find?_from_of_find {α : Type} {t : Table α} (ok : t.wf = true) {low pos : Nat} {x : α} (reached : low ≤ pos)
    (listed : t.find pos = some x) (first : ∀ j, low ≤ j → j < pos → t.find j = none) :
    t.find? (fun e => decide (low ≤ e.1)) = some (pos, x) := by
  induction t with
  | nil => cases listed
  | cons e t ih =>
    obtain ⟨k, y⟩ := e
    rw [Table.wf, Bool.and_eq_true, List.all_eq_true] at ok
    obtain ⟨rising, ok⟩ := ok
    rw [find_cons] at listed
    by_cases here : pos = k
    · rw [if_pos here] at listed
      cases listed
      rw [List.find?_cons_of_pos (by simpa [← here] using reached), here]
    · rw [if_neg here] at listed
      have after : k < pos := by simpa using rising _ (mem_of_find listed)
      have before : ¬ low ≤ k := fun h => by
        have := first k h after
        rw [find_cons, if_pos rfl] at this
        cases this
      rw [List.find?_cons_of_neg (by simpa using before)]
      refine ih ok listed fun j hl hj => ?_
      have := first j hl hj
      rwa [find_cons, if_neg (by omega)] at this

theorem find?_from_of_none {α : Type} {t : Table α} (ok : t.wf = true) {low : Nat}
    (empty : ∀ j, low ≤ j → t.find j = none) : t.find? (fun e => decide (low ≤ e.1)) = none := by
  rw [List.find?_eq_none]
  intro e he reached
  have listed := find_of_mem ok he
  rw [empty e.1 (by simpa using reached)] at listed
  cases listed

theorem walkFrom_some {low pos : Nat} {g : Garment}
    (h : s.garments.records.find? (fun e => decide (low ≤ e.1)) = some (pos, g)) :
    s.walkFrom low = (s.setCursor (.pos pos), accepted (optBytes recordWidth (some (recordBytes (pos, g))))) := by
  rw [State.walkFrom, h]

theorem walkFrom_none {low : Nat} (h : s.garments.records.find? (fun e => decide (low ≤ e.1)) = none) :
    s.walkFrom low = (s.setCursor .ended, accepted (optBytes recordWidth none)) := by
  rw [State.walkFrom, h]

/-- A command that walks from a position visits the first record from there on. -/
theorem visits_of_walkFrom (hs : s.PortReady) (ok : TablesOk s) (fits : c.lengthFits [] = true) {low : Nat}
    (run : ownerChange c [] (s.taken c []) = (s.taken c []).walkFrom low) :
    (∀ pos g, low ≤ pos → s.garments.records.find pos = some g →
      (∀ j, low ≤ j → j < pos → s.garments.records.find j = none) →
      ∃ u, Carries c [] s u (accepted (0x01#8 :: (beBytes 1 (pos / 4) ++ beBytes 1 (pos % 4) ++ g.bytes))) ∧
        State.sameLine { s with garments.cursor := .pos pos } u) ∧
    ((∀ j, low ≤ j → s.garments.records.find j = none) →
      ∃ u, Carries c [] s u (accepted (0x00#8 :: List.replicate 50 0x00#8)) ∧
        State.sameLine { s with garments.cursor := .ended } u) := by
  refine ⟨fun pos g reached listed first => ?_, fun none => ?_⟩
  · have found := find?_from_of_find ok.records reached listed first
    exact carries_of_edit hs (by decide) fits (run.trans (walkFrom_some (s := s.taken c []) found)) rfl rfl rfl
  · have ended := find?_from_of_none ok.records none
    exact carries_of_edit hs (by decide) fits (run.trans (walkFrom_none (s := s.taken c []) ended)) rfl rfl rfl

theorem runWalkNext_pos {p : Nat} (h : s.garments.cursor = .pos p) : runWalkNext s = s.walkFrom (p + 1) := by
  rw [runWalkNext, h]

theorem runWalkNext_none (h : s.garments.cursor = .none) : runWalkNext s = s.refusing .badState := by
  rw [runWalkNext, h]

theorem runWalkNext_ended (h : s.garments.cursor = .ended) :
    runWalkNext s = (s, accepted (optBytes recordWidth none)) := by
  rw [runWalkNext, h]

/-- Settles O30. -/
theorem walkVisitsTheNextRecord : Obligations.WalkVisitsTheNextRecord := by
  intro s hs ok visits
  refine ⟨visits_of_walkFrom hs ok rfl rfl, fun p at_ => ?_, fun none => ?_, fun ended => ?_⟩
  · exact visits_of_walkFrom (c := .walkNext) hs ok rfl (runWalkNext_pos (s := s.taken .walkNext []) at_)
  · exact carries_of_answer (c := .walkNext) hs (by decide) rfl (runWalkNext_none (s := s.taken .walkNext []) none)
  · exact carries_of_answer (c := .walkNext) hs (by decide) rfl (runWalkNext_ended (s := s.taken .walkNext []) ended)

/-! ## Held platens -/

theorem mem_heldPlatens (ok : s.ring.platens.wf = true) (k : Nat) : k ∈ s.heldPlatens ↔ (s.platen k).held = true := by
  simp only [State.heldPlatens, List.mem_map, List.mem_filter]
  constructor
  · rintro ⟨e, ⟨listed, held⟩, rfl⟩
    rw [State.platen, Table.look, find_of_mem ok listed]
    exact held
  · intro held
    cases listed : s.ring.platens.find k with
    | none =>
      rw [State.platen, Table.look, listed] at held
      cases held
    | some p =>
      rw [State.platen, Table.look, listed] at held
      exact ⟨(k, p), ⟨mem_of_find listed, held⟩, rfl⟩

theorem heldPlatens_pairwise (ok : s.ring.platens.wf = true) : s.heldPlatens.Pairwise (· < ·) :=
  List.pairwise_map.mpr ((wf_pairwise ok).filter _)

/-- Two canonical rings with the same platens held list the same holds. -/
theorem heldPlatens_congr (ok : s.ring.platens.wf = true) (ok' : t.ring.platens.wf = true)
    (held : ∀ k, (t.platen k).held = (s.platen k).held) : t.heldPlatens = s.heldPlatens :=
  (heldPlatens_pairwise ok').eq_of_mem_iff (heldPlatens_pairwise ok) fun k => by
    rw [mem_heldPlatens ok, mem_heldPlatens ok', held]

theorem wf_of_wfDefault {α : Type} [DecidableEq α] {d : α} {t : Table α} (ok : t.wfDefault d = true) : t.wf = true := by
  rw [Table.wfDefault, Bool.and_eq_true] at ok
  exact ok.1

/-- A change that leaves the holds, the free cells and the limits is followed by nothing. -/
theorem finish_of_held (held : t.heldPlatens = s.heldPlatens) (cells : t.orders.freeCells = s.orders.freeCells)
    (limits : t.limits = s.limits) : t.finish s = t := by
  have same : ¬ (t.orders.freeCells < t.limits.holdReserve ∧ s.limits.holdReserve ≤ s.orders.freeCells) := by
    rw [cells, limits]
    omega
  have settled : t.settleRing s = t := if_pos held
  rw [State.finish, settled, checkCells_eq, if_neg same]

/-- As `carries_of_edit`, for a change that may reach the ring but makes and releases no hold. -/
theorem carries_of_ringEdit (hs : s.PortReady) (size : payload.length ≤ 255) (fits : c.lengthFits payload = true)
    (change : ownerChange c payload (s.taken c payload) = (w.taken c payload, r))
    (held : w.heldPlatens = s.heldPlatens) (cells : w.orders.freeCells = s.orders.freeCells)
    (limits : w.limits = s.limits) : ∃ u, Carries c payload s u r ∧ w.sameLine u := by
  refine ⟨_, carries_completed hs size fits change, ?_⟩
  have done : (w.taken c payload).finish (s.taken c payload) = w.taken c payload := finish_of_held held cells limits
  rw [State.completed, done]
  rfl

/-! ## SET STATION and SET PLATEN -/

theorem positions_ok_iff (p : Positions) : p.ok = true ↔ p.load < p.pretreat ∧ p.pretreat < p.press ∧
    p.press < p.printA ∧ p.printA < p.printB ∧ p.printB < p.unload ∧ p.unload ≤ 23 := by
  simp [Positions.ok, and_assoc]

theorem runSetStation_of_bad (bad : ¬ (positionsOf payload).ok = true) (s : State) :
    runSetStation payload s = s.refusing .badArgument :=
  if_pos (Bool.eq_false_iff.mpr bad)

theorem runSetStation_of_ok (ok : (positionsOf payload).ok = true) (s : State) : runSetStation payload s =
    if s.ring.state ≠ .stopped then s.refusing .badState
    else ({ s with ring.positions := positionsOf payload }, accepted []) :=
  if_neg (by rw [ok]; exact Bool.noConfusion)

theorem runSetPlaten_of_bad (bad : 23 < field payload 0 1 ∨ 1 < field payload 1 1) (s : State) :
    runSetPlaten payload s = s.refusing .badArgument := by
  unfold runSetPlaten
  dsimp only
  split
  case h_1 => rfl
  case h_2 out choice =>
    rcases bad with high | neither
    · exact if_pos high
    · rw [yesNo, if_neg (by omega), if_neg (by omega)] at choice
      cases choice

theorem yesNo_of_le {n : Nat} (h : n ≤ 1) : yesNo n = some (decide (n = 1)) := by
  interval_cases n <;> rfl

theorem runSetPlaten_of_good (low : field payload 0 1 ≤ 23) (choice : field payload 1 1 ≤ 1) (s : State) :
    runSetPlaten payload s =
      if (s.platen (field payload 0 1)).state = .occupied then s.refusing .inUse
      else
        let t := s.modifyPlaten (field payload 0 1) (Platen.setOut (decide (field payload 1 1 = 1)))
        (t, accepted (t.platen (field payload 0 1)).bytes) := by
  rw [runSetPlaten, yesNo_of_le choice]
  exact if_neg (by omega)

theorem platen_modifyPlaten (s : State) (k j : Nat) (f : Platen → Platen) :
    (s.modifyPlaten k f).platen j = if j = k then f (s.platen k) else s.platen j :=
  look_store ..

/-- A change of a platen that keeps its held field keeps the list of holds. -/
theorem heldPlatens_modifyPlaten (ok : s.ring.platens.wfDefault {} = true) {k : Nat} {f : Platen → Platen}
    (keeps : (f (s.platen k)).held = (s.platen k).held) : (s.modifyPlaten k f).heldPlatens = s.heldPlatens := by
  refine heldPlatens_congr (wf_of_wfDefault ok) (wf_of_wfDefault (wfDefault_store _ _ _ _ ok)) fun j => ?_
  rw [platen_modifyPlaten]
  by_cases here : j = k
  · rw [if_pos here, keeps, here]
  · rw [if_neg here]

theorem setOut_decide (n : Nat) (p : Platen) :
    p.setOut (decide (n = 1)) = { p with state := if n = 1 then PlatenState.out else .empty } := by
  by_cases h : n = 1 <;> simp [Platen.setOut, h]

/-- Settles O32. -/
theorem setStationAndSetPlatenWriteTheRing : Obligations.SetStationAndSetPlatenWriteTheRing := by
  intro s payload hs
  refine ⟨fun length => ?station, fun length => ?platen⟩
  case station =>
    intro p ok
    have size : payload.length ≤ 255 := by omega
    have fits : HostCmd.setStation.lengthFits payload = true := by simp [HostCmd.lengthFits, length]
    have inRange : (positionsOf payload).ok = true ↔ ok := positions_ok_iff _
    refine ⟨fun good stopped => ?_, fun bad => ?_, fun good moving => ?_⟩
    · exact carries_of_ringEdit (c := .setStation) (w := { s with ring.positions := p }) hs size fits
        ((runSetStation_of_ok (inRange.mpr good) _).trans (if_neg (not_not_intro stopped))) rfl rfl rfl
    · exact carries_of_answer hs size fits (runSetStation_of_bad (mt inRange.mp bad) _)
    · exact carries_of_answer (c := .setStation) hs size fits
        ((runSetStation_of_ok (inRange.mpr good) _).trans (if_pos moving))
  case platen =>
    intro k new
    have size : payload.length ≤ 255 := by omega
    have fits : HostCmd.setPlaten.lengthFits payload = true := by simp [HostCmd.lengthFits, length]
    refine ⟨fun ok low choice free => ?_, fun bad => ?_, fun low choice occupied => ?_⟩
    · let w := s.modifyPlaten k (Platen.setOut (decide (field payload 1 1 = 1)))
      have written : w.platen k = { s.platen k with state := new } := by
        rw [platen_modifyPlaten, if_pos rfl, setOut_decide]
      have change : runSetPlaten payload (s.taken .setPlaten payload) =
          (w.taken .setPlaten payload, accepted ({ s.platen k with state := new }.bytes)) := by
        rw [runSetPlaten_of_good low choice, ← written]
        exact if_neg free
      have held : w.heldPlatens = s.heldPlatens := heldPlatens_modifyPlaten ok.platens rfl
      obtain ⟨u, carried, same⟩ := carries_of_ringEdit (c := .setPlaten) hs size fits change held rfl rfl
      have ring : u.ring = w.ring := sameLine_ring same
      refine ⟨u, carried, ?_, fun j other => ?_, ?_⟩
      · rw [ring_eq_platen ring, written]
      · rw [ring_eq_platen ring, platen_modifyPlaten, if_neg other]
      · rw [ring]
        exact same
    · exact carries_of_answer hs size fits (runSetPlaten_of_bad bad _)
    · exact carries_of_answer (c := .setPlaten) hs size fits ((runSetPlaten_of_good low choice _).trans (if_pos occupied))

end Sys2Proof.Machine
end

section
/-! SUPPORT. New holds and the index test (R104 to R109). -/

namespace Sys2Proof.Machine

variable {s t v w : State} {c : HostCmd} {payload : List Byte} {r : Response}

/-! ## New holds -/

/-- The platens that face a station in CHECK or ACTIVE, among some links. -/
def State.watchedBy (s : State) (ls : List Link) (k : Nat) : Prop :=
  ∃ l ∈ ls, (s.station l).working = true ∧ s.facing l = some k

theorem holdFacing_some {l : Link} {k : Nat} (h : s.facing l = some k) : s.holdFacing l = s.setHeld k true := by
  rw [State.holdFacing, h]

theorem holdFacing_none {l : Link} (h : s.facing l = none) : s.holdFacing l = s := by
  rw [State.holdFacing, h]

theorem holdIfWorking_eq (s : State) (l : Link) :
    s.holdIfWorking l = { s with ring.platens := (s.holdIfWorking l).ring.platens } := by
  unfold State.holdIfWorking State.holdFacing
  split
  · split <;> rfl
  · rfl

theorem platen_holdIfWorking (s : State) (l : Link) (k : Nat) :
    ((s.watchedBy [l] k) → (s.holdIfWorking l).platen k = { s.platen k with held := true }) ∧
      (¬ (s.watchedBy [l] k) → (s.holdIfWorking l).platen k = s.platen k) := by
  have watched : s.watchedBy [l] k ↔ (s.station l).working = true ∧ s.facing l = some k := by
    simp [State.watchedBy]
  rw [watched]
  unfold State.holdIfWorking
  by_cases working : (s.station l).working = true
  · rw [if_pos working]
    cases facing : s.facing l with
    | none => simp [holdFacing_none facing]
    | some j =>
      rw [holdFacing_some facing, platen_setHeld]
      by_cases here : k = j <;> simp [here, working, Ne.symm, eq_comm]
  · simp [working]

theorem foldl_holdIfWorking_eq (ls : List Link) (s : State) : ls.foldl State.holdIfWorking s =
    { s with ring.platens := (ls.foldl State.holdIfWorking s).ring.platens } := by
  induction ls generalizing s with
  | nil => rfl
  | cons l ls ih =>
    rw [List.foldl_cons, ih, holdIfWorking_eq]

theorem watchedBy_congr (stations : t.stations = s.stations) (offset : t.ring.offset = s.ring.offset)
    (positions : t.ring.positions = s.ring.positions) (ls : List Link) (k : Nat) :
    t.watchedBy ls k ↔ s.watchedBy ls k := by
  simp only [State.watchedBy, State.station, State.facing, stations, offset, positions]

theorem watchedBy_cons (s : State) (l : Link) (ls : List Link) (k : Nat) :
    s.watchedBy (l :: ls) k ↔ s.watchedBy [l] k ∨ s.watchedBy ls k := by
  simp [State.watchedBy]

theorem platen_foldl_holdIfWorking (ls : List Link) (s : State) (k : Nat) :
    (s.watchedBy ls k → (ls.foldl State.holdIfWorking s).platen k = { s.platen k with held := true }) ∧
      (¬ s.watchedBy ls k → (ls.foldl State.holdIfWorking s).platen k = s.platen k) := by
  induction ls generalizing s with
  | nil => simp [State.watchedBy]
  | cons l ls ih =>
    obtain ⟨holds, leaves⟩ := platen_holdIfWorking s l k
    obtain ⟨holds', leaves'⟩ := ih (s.holdIfWorking l)
    have rest : (s.holdIfWorking l).watchedBy ls k ↔ s.watchedBy ls k :=
      watchedBy_congr (by rw [holdIfWorking_eq]) (by rw [holdIfWorking_eq]) (by rw [holdIfWorking_eq]) ls k
    rw [rest] at holds' leaves'
    rw [List.foldl_cons, watchedBy_cons]
    by_cases first : s.watchedBy [l] k
    · by_cases later : s.watchedBy ls k
      · simp [holds' later, holds first, first]
      · simp [leaves' later, holds first, first]
    · by_cases later : s.watchedBy ls k
      · simp [holds' later, leaves first, later]
      · simp [leaves' later, leaves first, first, later]

/-- Where no station of the list is in CHECK or ACTIVE at a platen, no hold is made. -/
theorem foldl_holdIfWorking_of_unwatched {ls : List Link} (none : ¬ ∃ k, s.watchedBy ls k) :
    ls.foldl State.holdIfWorking s = s := by
  induction ls with
  | nil => rfl
  | cons l ls ih =>
    have idle : s.holdIfWorking l = s := by
      unfold State.holdIfWorking
      split
      case isTrue working =>
        cases facing : s.facing l with
        | none => exact holdFacing_none facing
        | some k => exact absurd ⟨k, l, List.mem_cons_self, working, facing⟩ none
      case isFalse => rfl
    rw [List.foldl_cons, idle]
    exact ih fun ⟨k, m, hm, rest⟩ => none ⟨k, m, List.mem_cons_of_mem _ hm, rest⟩

/-! ## The index test -/

theorem ringTest_of_held (held : s.anyHeld = true) : s.ringTest = s :=
  if_neg fun h => by rw [h.2] at held; cases held

theorem ringTest_of_moving (moving : s.ring.cycle = .moving) : s.ringTest = s :=
  if_neg fun h => by rw [h.1] at moving; cases moving

/-- A RUNNING or VERIFYING ring with nothing held starts to move. -/
theorem ringTest_go (idle : s.ring.cycle = .idle) (free : s.anyHeld = false)
    (going : s.ring.state = .running ∨ s.ring.state = .verifying) :
    s.ringTest = { s with ring := { s.ring with cycle := .moving, moveTimer := some s.limits.moveLimit } } := by
  rw [State.ringTest, if_pos ⟨idle, free⟩]
  rcases going with e | e <;> rw [e]

theorem ringTest_stop (idle : s.ring.cycle = .idle) (free : s.anyHeld = false) (stopping : s.ring.state = .stopping) :
    s.ringTest = { s with ring.state := .stopped } := by
  rw [State.ringTest, if_pos ⟨idle, free⟩, stopping]

/-- The index test has nothing to do in a ring that is still. -/
theorem ringTest_of_still (still : s.ring.state = .stopped ∨ s.ring.state = .halted) : s.ringTest = s := by
  unfold State.ringTest
  split
  · rcases still with e | e <;> rw [e]
  · rfl

/-- A change after which a platen is held is not followed by an index. -/
theorem finish_of_anyHeld (held : t.anyHeld = true) (cells : t.orders.freeCells = s.orders.freeCells)
    (limits : t.limits = s.limits) : t.finish s = t := by
  have same : ¬ (t.orders.freeCells < t.limits.holdReserve ∧ s.limits.holdReserve ≤ s.orders.freeCells) := by
    rw [cells, limits]
    omega
  have settled : t.settleRing s = t := by
    unfold State.settleRing
    split
    · rfl
    · exact ringTest_of_held held
  rw [State.finish, settled, checkCells_eq, if_neg same]

/-! ## A command whose end is known -/

/-- As `carries_of_edit`, where the end of the change is known to do nothing. -/
theorem carries_of_done (hs : s.PortReady) (size : payload.length ≤ 255) (fits : c.lengthFits payload = true)
    (change : ownerChange c payload (s.taken c payload) = (w.taken c payload, r))
    (done : (w.taken c payload).finish (s.taken c payload) = w.taken c payload) :
    ∃ u, Carries c payload s u r ∧ w.sameLine u := by
  refine ⟨_, carries_completed hs size fits change, ?_⟩
  rw [State.completed, done]
  rfl

/-- What a state known but for its transport leaves as it was. -/
theorem sameBut_of_sameLine {changed : List Area} (same : w.sameLine t) (kept : s.sameBut changed w)
    (transport : Area.transport ∈ changed) : s.sameBut changed t where
  garments m := (sameLine_garments same).trans (kept.garments m)
  orders m := (sameLine_orders same).trans (kept.orders m)
  sched m := (sameLine_sched same).trans (kept.sched m)
  refs m := (sameLine_refs same).trans (kept.refs m)
  stations m := (sameLine_stations same).trans (kept.stations m)
  ring m := (sameLine_ring same).trans (kept.ring m)
  meter m := (sameLine_meter same).trans (kept.meter m)
  cure m := (sameLine_cure same).trans (kept.cure m)
  bins m := (sameLine_bins same).trans (kept.bins m)
  limits m := (sameLine_limits same).trans (kept.limits m)
  causes m := (sameLine_causes same).trans (kept.causes m)
  settings m := by
    obtain ⟨mask, indicator⟩ := kept.settings m
    exact ⟨(sameLine_mask same).trans mask, (sameLine_read same (·.port.resetIndicator) rfl).trans indicator⟩
  transport m := absurd transport m
  messages m := (sameLine_sent same).trans (kept.messages m)
  reads m := (sameLine_freeReads same).trans (kept.reads m)
  queue := (sameLine_read same (·.pending) rfl).trans kept.queue

theorem sameBut_setRing (s : State) (x : Ring) : s.sameBut [.ring, .transport] { s with ring := x } := by
  constructor <;> simp

/-! ## START RING, STOP RING, RESUME RING -/

theorem holdFacing_taken (s : State) (l : Link) :
    (s.taken c payload).holdFacing l = (s.holdFacing l).taken c payload := by
  unfold State.holdFacing
  rw [show (s.taken c payload).facing l = s.facing l from rfl]
  cases s.facing l <;> rfl

theorem holdIfWorking_taken (s : State) (l : Link) :
    (s.taken c payload).holdIfWorking l = (s.holdIfWorking l).taken c payload := by
  unfold State.holdIfWorking
  rw [holdFacing_taken, show (s.taken c payload).station l = s.station l from rfl]
  split <;> rfl

theorem foldl_holdIfWorking_taken (ls : List Link) (s : State) :
    ls.foldl State.holdIfWorking (s.taken c payload) = (ls.foldl State.holdIfWorking s).taken c payload := by
  induction ls generalizing s with
  | nil => rfl
  | cons l ls ih => rw [List.foldl_cons, List.foldl_cons, holdIfWorking_taken, ih]

theorem runStartRing_stopped (h : s.ring.state = .stopped) :
    runStartRing s = (Link.ring.foldl State.holdIfWorking (s.setRingState .running)).ringTest.withRingState := by
  rw [runStartRing, h]

theorem runStartRing_on (h : s.ring.state = .stopping ∨ s.ring.state = .running) :
    runStartRing s = (s.setRingState .running).withRingState := by
  unfold runStartRing
  rcases h with e | e
  · rw [e]
  · have same : s.setRingState .running = s := by rw [State.setRingState, ← e]
    rw [e, same]

theorem runStartRing_bad (h : s.ring.state = .halted ∨ s.ring.state = .verifying) :
    runStartRing s = s.refusing .badState := by
  rcases h with e | e <;> rw [runStartRing, e]

theorem runStopRing_running (h : s.ring.state = .running) :
    runStopRing s = (s.setRingState .stopping).ringTest.withRingState := by
  rw [runStopRing, h]

theorem runStopRing_still (h : s.ring.state = .stopping ∨ s.ring.state = .stopped) :
    runStopRing s = s.withRingState := by
  rcases h with e | e <;> rw [runStopRing, e]

theorem runStopRing_bad (h : s.ring.state = .halted ∨ s.ring.state = .verifying) :
    runStopRing s = s.refusing .badState := by
  rcases h with e | e <;> rw [runStopRing, e]

theorem withRingState_eq (r : RingState) (h : s.ring.state = r) :
    s.withRingState = (s, accepted (beBytes 1 r.code)) := by
  rw [State.withRingState, h]

/-- A stop takes effect at once where nothing holds the ring and no index runs. -/
theorem stopping_ringTest (s : State) : (s.setRingState .stopping).ringTest =
    s.setRingState (if s.ring.cycle = .idle ∧ s.anyHeld = false then .stopped else .stopping) := by
  unfold State.ringTest
  split_ifs <;> first | rfl | contradiction

/-- The ring once START has made its holds (R104, R107). -/
@[irreducible] def State.startHolds (s : State) : State :=
  Link.ring.foldl State.holdIfWorking (s.setRingState .running)

theorem startHolds_eq (s : State) : s.startHolds =
    { s with ring := { s.ring with state := .running, platens := s.startHolds.ring.platens } } := by
  have folded := foldl_holdIfWorking_eq Link.ring (s.setRingState .running)
  unfold State.startHolds
  generalize Link.ring.foldl State.holdIfWorking (s.setRingState .running) = u at folded ⊢
  exact folded

theorem startHolds_state (s : State) : s.startHolds.ring.state = .running := by rw [startHolds_eq]
theorem startHolds_cycle (s : State) : s.startHolds.ring.cycle = s.ring.cycle := by rw [startHolds_eq]
theorem startHolds_moveTimer (s : State) : s.startHolds.ring.moveTimer = s.ring.moveTimer := by rw [startHolds_eq]
theorem startHolds_limits (s : State) : s.startHolds.limits = s.limits := by rw [startHolds_eq]
theorem startHolds_orders (s : State) : s.startHolds.orders = s.orders := by rw [startHolds_eq]

theorem startHolds_taken (s : State) : (s.taken c payload).startHolds = s.startHolds.taken c payload := by
  unfold State.startHolds
  exact foldl_holdIfWorking_taken Link.ring (s.setRingState .running)

theorem platen_startHolds (s : State) (k : Nat) :
    (s.watchedBy Link.ring k → s.startHolds.platen k = { s.platen k with held := true }) ∧
      (¬ s.watchedBy Link.ring k → s.startHolds.platen k = s.platen k) := by
  unfold State.startHolds
  exact platen_foldl_holdIfWorking Link.ring (s.setRingState .running) k

theorem sameBut_startHolds (s : State) : s.sameBut [.ring, .transport] s.startHolds := by
  rw [startHolds_eq]
  exact sameBut_setRing s _

theorem runStartRing_taken (h : s.ring.state = .stopped) : runStartRing (s.taken c payload) =
    (s.startHolds.taken c payload).ringTest.withRingState := by
  rw [runStartRing_stopped (s := s.taken c payload) h, ← startHolds_taken]
  unfold State.startHolds
  rfl

/-- START with a station at work: its platen is held, and no index starts. -/
theorem start_watched (hs : s.PortReady) (stopped : s.ring.state = .stopped) (h : ∃ k, s.watchedBy Link.ring k) :
    ∃ u, Carries .startRing [] s u (accepted [0x02#8]) ∧ s.startHolds.sameLine u := by
  obtain ⟨k, watched⟩ := h
  have held : s.startHolds.anyHeld = true :=
    anyHeld_of_platen (k := k) (by rw [(platen_startHolds s k).1 watched])
  have change : runStartRing (s.taken .startRing []) = (s.startHolds.taken .startRing [], accepted [0x02#8]) := by
    rw [runStartRing_taken stopped, ringTest_of_held (by exact held)]
    exact withRingState_eq .running (startHolds_state s)
  refine carries_of_done hs (by decide) rfl change (finish_of_anyHeld held ?_ (startHolds_limits s))
  exact congrArg OrderBlock.freeCells (startHolds_orders s)

/-- START with no station at work: an index starts. -/
theorem start_unwatched (hs : s.PortReady) (stopped : s.ring.state = .stopped) (idle : s.ring.cycle = .idle)
    (free : s.anyHeld = false) (h : ¬ ∃ k, s.watchedBy Link.ring k) : ∃ u, Carries .startRing [] s u (accepted [0x02#8]) ∧
      State.sameLine { s with ring := { s.ring with
        state := .running, cycle := .moving, moveTimer := some s.limits.moveLimit } } u := by
  have noHold : s.startHolds = s.setRingState .running := by
    unfold State.startHolds
    exact foldl_holdIfWorking_of_unwatched h
  refine carries_of_ringEdit (c := .startRing) hs (by decide) rfl ((runStartRing_taken stopped).trans ?_) rfl rfl rfl
  rw [noHold, ringTest_go (by exact idle) (by exact free) (.inl rfl)]
  exact withRingState_eq .running rfl

/-- The ring once RESUME has begun the verify lap at the platen that faces LOAD (R106, R118). -/
def State.resumed (s : State) (k : Nat) : State :=
  (s.setRingState .verifying).clearLap.setHeld k true

theorem resume_holds (hs : s.PortReady) (halted : s.ring.state = .halted) (pin : s.ring.eStop = false)
    (working : (s.station .load).working = true) {k : Nat} (facing : s.facing .load = some k) :
    ∃ u, Carries .resumeRing [] s u (accepted [0x04#8]) ∧ (s.resumed k).sameLine u := by
  have held : (s.resumed k).anyHeld = true :=
    anyHeld_of_platen (k := k) (by rw [State.resumed, platen_setHeld, if_pos rfl])
  have change : runResumeRing (s.taken .resumeRing []) = ((s.resumed k).taken .resumeRing [], accepted [0x04#8]) := by
    have may : ¬ (s.ring.state ≠ .halted ∨ s.ring.eStop ∨ (s.station .load).working = false) := by
      simp [halted, pin, working]
    refine (if_neg may).trans ?_
    rw [holdFacing_some (by exact facing), ringTest_of_held (by exact held)]
    exact withRingState_eq .verifying rfl
  exact carries_of_done hs (by decide) rfl change (finish_of_anyHeld held rfl rfl)

/-- Settles O33. -/
theorem ringCommandsChangeTheRingState : Obligations.RingCommandsChangeTheRingState := by
  intro s hs safe badState becomes watched
  refine ⟨fun stopped => ?start, fun on => ?startOn, fun bad => ⟨?startBad, ?stopBad⟩, fun running => ?stop,
    fun still => ?stopStill, fun bad => ?resumeBad, fun halted pin working => ?resume⟩
  case start =>
    obtain ⟨idle, free⟩ := safe.still (.inl stopped)
    by_cases some : ∃ k, watched k
    · obtain ⟨u, carried, same⟩ := start_watched hs stopped some
      have ring := sameLine_ring same
      refine ⟨u, carried, ?_, fun k => ?_, fun _ => ⟨?_, ?_⟩, fun none => absurd some none,
        sameBut_of_sameLine same (sameBut_startHolds s) (by decide)⟩
      · rw [ring, startHolds_state]
      · rw [ring_eq_platen ring]
        exact platen_startHolds s k
      · rw [ring, startHolds_cycle, idle]
      · rw [ring, startHolds_moveTimer, safe.idle idle]
    · obtain ⟨u, carried, same⟩ := start_unwatched hs stopped idle free some
      have ring := sameLine_ring same
      refine ⟨u, carried, by rw [ring], fun k => ⟨fun h => absurd ⟨k, h⟩ some, fun _ => ?_⟩, fun h => absurd h some,
        fun _ => by rw [ring]; exact ⟨rfl, rfl⟩, sameBut_of_sameLine same (sameBut_setRing s _) (by decide)⟩
      rw [ring_eq_platen ring]
      rfl
  case startOn =>
    exact carries_of_ringEdit (c := .startRing) (w := { s with ring.state := .running }) hs (by decide) rfl
      (runStartRing_on (s := s.taken .startRing []) on) rfl rfl rfl
  case startBad =>
    exact carries_of_answer (c := .startRing) hs (by decide) rfl (runStartRing_bad (s := s.taken .startRing []) bad)
  case stopBad =>
    exact carries_of_answer (c := .stopRing) hs (by decide) rfl (runStopRing_bad (s := s.taken .stopRing []) bad)
  case stop =>
    refine carries_of_ringEdit (c := .stopRing) hs (by decide) rfl
      ((runStopRing_running (s := s.taken .stopRing []) running).trans ?_) rfl rfl rfl
    rw [stopping_ringTest, withRingState_eq _ rfl]
    rfl
  case stopStill =>
    exact carries_of_ringEdit (c := .stopRing) (w := { s with ring.state := s.ring.state }) hs (by decide) rfl
      (runStopRing_still (s := s.taken .stopRing []) still) rfl rfl rfl
  case resumeBad =>
    exact carries_of_answer (c := .resumeRing) hs (by decide) rfl (if_pos bad)
  case resume =>
    obtain ⟨idle, _⟩ := safe.still (.inr halted)
    obtain ⟨u, carried, same⟩ := resume_holds hs halted pin working (k := _) rfl
    have ring := sameLine_ring same
    refine ⟨u, _, carried, rfl, by rw [ring]; rfl, by rw [ring]; rfl, by rw [ring]; rfl, ?_, fun j other => ?_, ?_, ?_,
      sameBut_of_sameLine same (sameBut_setRing s _) (by decide)⟩
    · rw [ring_eq_platen ring, State.resumed, platen_setHeld, if_pos rfl]
      rfl
    · rw [ring_eq_platen ring, State.resumed, platen_setHeld, if_neg other]
      rfl
    · rw [ring]
      exact idle
    · rw [ring]
      exact safe.idle idle

end Sys2Proof.Machine
end

section
/-! SUPPORT. Bindings and offerings whatever the port is doing: no change of them reads the transport of the Host Command
Port, so each commutes with putting another transport under the state (`State.over`). -/

namespace Sys2Proof.Machine

variable {s t u w : State} {c : HostCmd} {payload : List Byte}

/-! ## A state over the transport of another -/

/-- A state with the transport of the Host Command Port of another. -/
def State.over (s t : State) : State :=
  { s with
    port := { s.port with state := t.port.state, kept := t.port.kept, reading := t.port.reading }
    shifted := t.shifted }

theorem taken_over (s : State) (c : HostCmd) (payload : List Byte) : s.over (s.taken c payload) = s.taken c payload :=
  rfl

theorem over_taken (kept : w.port.kept = s.port.kept) (shifted : w.shifted = s.shifted) :
    w.over (s.taken c payload) = w.taken c payload := by
  unfold State.over State.taken
  rw [shifted, ← kept]

theorem over_of_sameLine (same : w.sameLine u) : w.over u = u := by
  have back : u.over w = w := same
  calc w.over u = (u.over w).over u := by rw [back]
    _ = u := rfl

theorem over_modifyLine (s t : State) (slot i : Nat) (f : Line → Line) :
    (s.over t).modifyLine slot i f = (s.modifyLine slot i f).over t := rfl

theorem over_leaveLine (s t : State) (b : Option Binding) : (s.over t).leaveLine b = (s.leaveLine b).over t := by
  cases b <;> rfl

theorem over_moveDesign (s t : State) (old new : Nat) :
    (s.over t).moveDesign old new = (s.moveDesign old new).over t := by
  unfold State.moveDesign
  split <;> rfl

theorem over_repulse (s t : State) (g : Garment) : (s.over t).repulse g = s.repulse g := rfl

theorem over_putRecord (s t : State) (pos : Nat) (g : Garment) :
    (s.over t).putRecord pos g = (s.putRecord pos g).over t := rfl

theorem over_bindGarment (s t : State) (tag : Tag) (slot line : Nat) :
    (s.over t).bindGarment tag slot line = (s.bindGarment tag slot line).over t := by
  unfold State.bindGarment
  have live : (s.over t).findTag tag = s.findTag tag := rfl
  have at_ : (s.over t).line slot line = s.line slot line := rfl
  rw [live, at_]
  split
  · simp only [over_leaveLine, over_modifyLine, over_moveDesign, over_repulse, over_putRecord]
  · rfl

theorem over_unbindGarment (s t : State) (tag : Tag) : (s.over t).unbindGarment tag = (s.unbindGarment tag).over t := by
  unfold State.unbindGarment
  have live : (s.over t).findTag tag = s.findTag tag := rfl
  rw [live]
  split
  · simp only [over_leaveLine, over_putRecord]
  · rfl

theorem over_sched (s t : State) (x : Scheduler) : ({ s.over t with sched := x } : State) = ({ s with sched := x }).over t :=
  rfl

theorem over_chooseAndBind (s t : State) (tag : Tag) (set : LineSet) :
    (s.over t).chooseAndBind tag set = ((s.chooseAndBind tag set).1.over t, (s.chooseAndBind tag set).2) := by
  unfold State.chooseAndBind
  have live : (s.over t).findTag tag = s.findTag tag := rfl
  rw [live]
  split
  · rfl
  · have choice : ∀ sku design, (s.over t).sched.choose ((s.over t).candidates set sku design) =
        s.sched.choose (s.candidates set sku design) := fun _ _ => rfl
    rw [choice]
    split
    · rfl
    · simp only [over_sched, over_bindGarment]

theorem over_offerCounted (s t : State) (set : LineSet) :
    (s.over t).offerCounted set = ((s.offerCounted set).1.over t, (s.offerCounted set).2) := by
  unfold State.offerCounted
  have orphans : (s.over t).orphans = s.orphans := rfl
  rw [orphans]
  clear orphans
  generalize s.orphans = tags, 0 = n
  induction tags generalizing s n with
  | nil => rfl
  | cons tag tags ih =>
    simp only [List.foldl_cons]
    have one : State.offerOne set (s.over t, n) tag =
        ((State.offerOne set (s, n) tag).1.over t, (State.offerOne set (s, n) tag).2) := by
      unfold State.offerOne
      simp only [over_chooseAndBind]
    rw [one]
    exact ih ..

theorem over_offer (s t : State) (set : LineSet) : (s.over t).offer set = (s.offer set).over t := by
  unfold State.offer
  rw [over_offerCounted]

theorem over_stageRule (s t : State) (tag : Tag) : (s.over t).stageRule tag = (s.stageRule tag).over t := by
  unfold State.stageRule
  have live : (s.over t).findTag tag = s.findTag tag := rfl
  rw [live]
  split
  · rfl
  · split
    · exact over_unbindGarment ..
    · simp only [over_chooseAndBind, over_unbindGarment]
      split <;> rfl

theorem over_foldl {α : Type} {f : State → α → State} (h : ∀ s a, f (s.over t) a = (f s a).over t) (l : List α)
    (s : State) : l.foldl f (s.over t) = (l.foldl f s).over t := by
  induction l generalizing s with
  | nil => rfl
  | cons a l ih =>
    simp only [List.foldl_cons]
    rw [h]
    exact ih _

theorem over_countLines (f : Nat → Nat) (lines : List Line) (s t : State) :
    lines.foldl (State.countLine f) (s.over t) = (lines.foldl (State.countLine f) s).over t :=
  over_foldl (fun _ _ => rfl) lines s

theorem over_addOrder (s t : State) (slot number level : Nat) (lines : List Line) :
    (s.over t).addOrder slot number level lines = (s.addOrder slot number level lines).over t := by
  unfold State.addOrder
  have cells : (s.over t).takeCells lines.length = (s.takeCells lines.length).over t := rfl
  simp only [cells, over_countLines]
  rfl

/-! ## Counts of lines -/

theorem find_countSku (s : State) (sku : Nat) (f : Nat → Nat) (k : Nat) :
    (s.countSku sku f).refs.skus.find k =
      (s.refs.skus.find k).map fun e => { e with count := if k = sku then f e.count else e.count } := by
  show (Table.modify s.refs.skus sku _).find k = _
  rw [find_modify]
  by_cases h : k = sku <;> simp [h]

theorem countLines_eq (f : Nat → Nat) (lines : List Line) (s : State) : lines.foldl (State.countLine f) s =
    { s with refs := { s.refs with
      skus := (lines.foldl (State.countLine f) s).refs.skus
      designs := (lines.foldl (State.countLine f) s).refs.designs } } := by
  induction lines generalizing s with
  | nil => rfl
  | cons l lines ih =>
    simp only [List.foldl_cons]
    rw [ih (State.countLine f s l)]
    rfl

/-- The count of a design once the lines of an order have been counted in or out. -/
theorem find_countLines_design (f : Nat → Nat) (lines : List Line) (s : State) (d : Nat) :
    (lines.foldl (State.countLine f) s).refs.designs.find d = (s.refs.designs.find d).map fun e =>
      { e with count := f^[(lines.filter fun l => l.design = d).length] e.count } := by
  induction lines generalizing s with
  | nil => simp
  | cons l lines ih =>
    have one : (State.countLine f s l).refs.designs.find d =
        (s.refs.designs.find d).map fun e => { e with count := if d = l.design then f e.count else e.count } :=
      find_countDesign s l.design f d
    rw [List.foldl_cons, ih, one, Option.map_map]
    by_cases same : l.design = d
    · simp [same, Function.comp_def]
    · simp [same, Ne.symm same, Function.comp_def]

/-- The count of a SKU once the lines of an order have been counted in or out. -/
theorem find_countLines_sku (f : Nat → Nat) (lines : List Line) (s : State) (k : Nat) :
    (lines.foldl (State.countLine f) s).refs.skus.find k = (s.refs.skus.find k).map fun e =>
      { e with count := f^[(lines.filter fun l => l.sku = k).length] e.count } := by
  induction lines generalizing s with
  | nil => simp
  | cons l lines ih =>
    have one : (State.countLine f s l).refs.skus.find k =
        (s.refs.skus.find k).map fun e => { e with count := if k = l.sku then f e.count else e.count } :=
      find_countSku (s.countDesign l.design f) l.sku f k
    rw [List.foldl_cons, ih, one, Option.map_map]
    by_cases same : l.sku = k
    · simp [same, Function.comp_def]
    · simp [same, Ne.symm same, Function.comp_def]

theorem up1_iterate (n count : Nat) : up1^[n] count = count + n := by
  induction n generalizing count with
  | zero => rfl
  | succ n ih => rw [Function.iterate_succ_apply, ih]; unfold up1; omega

theorem down1_iterate (n count : Nat) : down1^[n] count = count - n := by
  induction n generalizing count with
  | zero => rfl
  | succ n ih => rw [Function.iterate_succ_apply, ih]; unfold down1; omega

/-! ## ADMIT ORDER: the checks -/

theorem admitLines_length (payload : List Byte) (start n : Nat) : (admitLines payload start n).length = n := by
  induction n generalizing start with
  | zero => rfl
  | succ n ih => simp [admitLines, ih]

theorem admitLines_fresh {l : Line} {start n : Nat} (h : l ∈ admitLines payload start n) : l.inFlight = 0 := by
  induction n generalizing start with
  | zero => cases h
  | succ n ih =>
    rcases List.mem_cons.mp h with rfl | h
    · rfl
    · exact ih h

theorem admitRangesOk_iff {number level : Nat} {lines : List Line} : admitRangesOk number level lines = true ↔
    1 ≤ number ∧ level ≤ 7 ∧ 1 ≤ lines.length ∧ lines.length ≤ 16 ∧
      ∀ l ∈ lines, 1 ≤ l.quantity ∧ l.quantity ≤ 99 := by
  unfold admitRangesOk
  simp only [Bool.and_eq_true, decide_eq_true_eq, List.all_eq_true]
  tauto

theorem lineEntriesValid_iff {lines : List Line} : lines.all s.lineEntriesValid = true ↔
    ∀ l ∈ lines, (s.refs.designs.find l.design).isSome ∧ (s.refs.skus.find l.sku).isSome := by
  simp only [List.all_eq_true, State.lineEntriesValid, Bool.and_eq_true]

theorem freeSlotNumber_none : s.freeSlotNumber = none ↔ ∀ k, k ≤ 63 → (s.order k).isSome := by
  unfold State.freeSlotNumber slotNumbers
  simp only [List.find?_eq_none, List.mem_range, Option.isNone_iff_eq_none, ← Option.isSome_iff_ne_none]
  exact ⟨fun h k low => h k (by omega), fun h k low => h k (by omega)⟩

theorem freeSlotNumber_eq {slot : Nat} (low : slot ≤ 63) (free : s.order slot = none)
    (taken : ∀ k, k < slot → (s.order k).isSome) : s.freeSlotNumber = some slot := by
  unfold State.freeSlotNumber slotNumbers
  rw [List.find?_range_eq_some]
  refine ⟨by simp [free], by simp; omega, fun k below => ?_⟩
  simpa [Option.isSome_iff_ne_none] using taken k below

section Checks

variable (s payload)

theorem runAdmitOrder_of_bad
    (bad : admitRangesOk (field payload 0 4) (field payload 4 1) (admitLines payload 6 (field payload 5 1)) = false) :
    runAdmitOrder payload s = s.refusing .badArgument := by
  unfold runAdmitOrder
  simp only [bad, if_true]

variable {s payload}
variable (good : admitRangesOk (field payload 0 4) (field payload 4 1) (admitLines payload 6 (field payload 5 1)) = true)
include good

theorem runAdmitOrder_of_known (known : (s.findOrder (field payload 0 4)).isSome) :
    runAdmitOrder payload s = s.refusing .duplicate := by
  unfold runAdmitOrder
  simp only [good, known, if_true, Bool.true_eq_false, if_false]

variable (new : s.findOrder (field payload 0 4) = none)
include new

theorem runAdmitOrder_of_full (full : s.freeSlotNumber = none) : runAdmitOrder payload s = s.refusing .full := by
  unfold runAdmitOrder
  simp [good, new, full]

variable {slot : Nat} (free : s.freeSlotNumber = some slot)
include free

theorem runAdmitOrder_of_invalid
    (invalid : (admitLines payload 6 (field payload 5 1)).all s.lineEntriesValid = false) :
    runAdmitOrder payload s = s.refusing .notFound := by
  unfold runAdmitOrder
  simp only [good, new, free, invalid, if_true, Bool.true_eq_false, if_false, Option.isSome_none, Bool.false_eq_true]

variable (valid : (admitLines payload 6 (field payload 5 1)).all s.lineEntriesValid = true)
include valid

theorem runAdmitOrder_of_short
    (short : s.orders.freeCells < (admitLines payload 6 (field payload 5 1)).length + s.limits.holdReserve) :
    runAdmitOrder payload s = s.refusing .noCells := by
  unfold runAdmitOrder
  simp only [good, new, free, valid, short, if_true, Bool.true_eq_false, if_false, Option.isSome_none,
    Bool.false_eq_true]

theorem runAdmitOrder_of_cells
    (cells : (admitLines payload 6 (field payload 5 1)).length + s.limits.holdReserve ≤ s.orders.freeCells) :
    runAdmitOrder payload s =
      let r := (s.addOrder slot (field payload 0 4) (field payload 4 1)
        (admitLines payload 6 (field payload 5 1))).offerCounted (.order slot)
      (r.1, accepted (beBytes 1 slot ++ beBytes 2 r.2)) := by
  unfold runAdmitOrder
  simp only [good, new, free, valid, Nat.not_lt.mpr cells, Bool.true_eq_false, if_false, Option.isSome_none,
    Bool.false_eq_true]

end Checks

/-- Settles O25. -/
theorem admitOrderRefusals : Obligations.AdmitOrderRefusals := by
  unfold Obligations.AdmitOrderRefusals
  intro s payload ready size length number lines refused inRange valid
  have fits : HostCmd.lengthFits .admitOrder payload = true := by
    simp only [HostCmd.lengthFits, Bool.and_eq_true, decide_eq_true_eq, beq_iff_eq]
    omega
  have answers {st : Status} (run : runAdmitOrder payload (s.taken .admitOrder payload) =
      (s.taken .admitOrder payload).refusing st) : refused st := carries_of_answer ready size fits run
  have ok : admitRangesOk number (field payload 4 1) lines = true ↔ inRange := admitRangesOk_iff
  have entries : lines.all (s.taken .admitOrder payload).lineEntriesValid = true ↔ valid := lineEntriesValid_iff
  have slots : (∃ k, k ≤ 63 ∧ s.order k = none) →
      ∃ slot, (s.taken .admitOrder payload).freeSlotNumber = some slot := fun ⟨k, low, free⟩ => by
    refine Option.ne_none_iff_exists'.mp fun full => ?_
    have := freeSlotNumber_none.mp full k low
    rw [show (s.taken .admitOrder payload).order k = none from free] at this
    cases this
  refine ⟨fun bad => ?_, fun good known => ?_, fun good new full => ?_, fun good new some invalid => ?_,
    fun good new some all short => ?_⟩
  · exact answers (runAdmitOrder_of_bad _ _ (Bool.eq_false_iff.mpr fun h => bad (ok.mp h)))
  · exact answers (runAdmitOrder_of_known (ok.mpr good) known)
  · exact answers (runAdmitOrder_of_full (ok.mpr good) new (freeSlotNumber_none.mpr full))
  · obtain ⟨slot, free⟩ := slots some
    exact answers (runAdmitOrder_of_invalid (ok.mpr good) new free (Bool.eq_false_iff.mpr fun h => invalid (entries.mp h)))
  · obtain ⟨slot, free⟩ := slots some
    exact answers (runAdmitOrder_of_short (ok.mpr good) new free (entries.mpr all) short)

/-! ## ADMIT ORDER: the order added -/

theorem addOrder_eq (s : State) (slot number level : Nat) (lines : List Line) : s.addOrder slot number level lines =
    { s with
      orders := ⟨s.orders.slots.put slot ⟨number, level, s.orders.admissionSeq, .opened, none, lines⟩,
        s.orders.freeCells - lines.length, nextSequence s.orders.admissionSeq⟩
      refs := { s.refs with
        skus := (s.addOrder slot number level lines).refs.skus
        designs := (s.addOrder slot number level lines).refs.designs } } := by
  unfold State.addOrder
  dsimp only
  rw [countLines_eq]
  rfl

theorem order_addOrder (s : State) (slot number level : Nat) (lines : List Line) (k : Nat) :
    (s.addOrder slot number level lines).order k =
      if k = slot then some ⟨number, level, s.orders.admissionSeq, .opened, none, lines⟩ else s.order k := by
  rw [addOrder_eq]
  exact find_put ..

theorem orphans_addOrder (s : State) (slot number level : Nat) (lines : List Line) :
    (s.addOrder slot number level lines).orphans = s.orphans := by
  rw [addOrder_eq]
  rfl

theorem find_addOrder_design (s : State) (slot number level : Nat) (lines : List Line) (d : Nat) :
    (s.addOrder slot number level lines).refs.designs.find d = (s.refs.designs.find d).map fun e =>
      { e with count := e.count + (lines.filter fun l => l.design = d).length } := by
  simp only [← up1_iterate]
  exact find_countLines_design up1 lines (s.takeCells lines.length) d

theorem find_addOrder_sku (s : State) (slot number level : Nat) (lines : List Line) (k : Nat) :
    (s.addOrder slot number level lines).refs.skus.find k = (s.refs.skus.find k).map fun e =>
      { e with count := e.count + (lines.filter fun l => l.sku = k).length } := by
  simp only [← up1_iterate]
  exact find_countLines_sku up1 lines (s.takeCells lines.length) k

theorem sameBut_addOrder (s : State) (slot number level : Nat) (lines : List Line) :
    s.sameBut [.orders, .refs] (s.addOrder slot number level lines) := by
  rw [addOrder_eq]
  constructor <;> intros <;> simp_all

/-! ## Offerings -/

theorem offerCounted_nil (none : s.orphans = []) (set : LineSet) : s.offerCounted set = (s, 0) := by
  unfold State.offerCounted
  rw [none]
  rfl

theorem binds_offerCounted (s : State) (set : LineSet) : Binds s (s.offerCounted set).1 := binds_offer s set

theorem Binds.sameBut (h : Binds s t) : s.sameBut [.garments, .orders, .sched, .refs] t where
  garments m := absurd (by simp) m
  orders m := absurd (by simp) m
  sched m := absurd (by simp) m
  refs m := absurd (by simp) m
  stations _ := congrArg (·.stations) h.aside
  ring _ := congrArg (·.ring) h.aside
  meter _ := congrArg (·.meter) h.aside
  cure _ := congrArg (·.cure) h.aside
  bins _ := h.bins
  limits _ := congrArg (·.limits) h.aside
  causes _ := h.causes
  settings _ := ⟨congrArg (·.port.mask) h.aside, congrArg (·.port.resetIndicator) h.aside⟩
  transport _ := ⟨congrArg (·.port.state) h.aside, congrArg (·.port.kept) h.aside, congrArg (·.port.reading) h.aside,
    congrArg (·.shifted) h.aside⟩
  messages _ := congrArg (·.sent) h.aside
  reads _ := congrArg (·.freeReads) h.aside
  queue := congrArg (·.pending) h.aside

theorem sameBut_trans {a b changed : List Area} (first : s.sameBut a t) (second : t.sameBut b u)
    (ha : ∀ x ∈ a, x ∈ changed) (hb : ∀ x ∈ b, x ∈ changed) : s.sameBut changed u := by
  have out {x : Area} {l : List Area} (sub : ∀ x ∈ l, x ∈ changed) (not : x ∉ changed) : x ∉ l := fun m => not (sub x m)
  exact {
    garments m := (second.garments (out hb m)).trans (first.garments (out ha m))
    orders m := (second.orders (out hb m)).trans (first.orders (out ha m))
    sched m := (second.sched (out hb m)).trans (first.sched (out ha m))
    refs m := (second.refs (out hb m)).trans (first.refs (out ha m))
    stations m := (second.stations (out hb m)).trans (first.stations (out ha m))
    ring m := (second.ring (out hb m)).trans (first.ring (out ha m))
    meter m := (second.meter (out hb m)).trans (first.meter (out ha m))
    cure m := (second.cure (out hb m)).trans (first.cure (out ha m))
    bins m := (second.bins (out hb m)).trans (first.bins (out ha m))
    limits m := (second.limits (out hb m)).trans (first.limits (out ha m))
    causes m := (second.causes (out hb m)).trans (first.causes (out ha m))
    settings m := ⟨(second.settings (out hb m)).1.trans (first.settings (out ha m)).1,
      (second.settings (out hb m)).2.trans (first.settings (out ha m)).2⟩
    transport m := by
      obtain ⟨state, kept, reading, shifted⟩ := first.transport (out ha m)
      obtain ⟨state', kept', reading', shifted'⟩ := second.transport (out hb m)
      exact ⟨state'.trans state, kept'.trans kept, reading'.trans reading, shifted'.trans shifted⟩
    messages m := (second.messages (out hb m)).trans (first.messages (out ha m))
    reads m := (second.reads (out hb m)).trans (first.reads (out ha m))
    queue := second.queue.trans first.queue }

theorem sameBut_widen {a changed : List Area} (h : s.sameBut a t) (ha : ∀ x ∈ a, x ∈ changed) : s.sameBut changed t :=
  sameBut_trans h (b := []) (by constructor <;> intros <;> first | rfl | exact ⟨rfl, rfl⟩ | exact ⟨rfl, rfl, rfl, rfl⟩) ha
    (by simp)

theorem sameBut_over (s t : State) : s.sameBut [.transport] (s.over t) := by
  constructor <;> intros <;> simp_all [State.over]

/-- An offering made while the port holds a response is the offering that the command made before it. -/
theorem offers_over (set : LineSet) (tables : TablesOk s) (single : TagsSafe s) (safe : s.sched.Safe)
    (same : (s.offerCounted set).1.sameLine u) : (s.over u).Offers set u (s.offerCounted set).2 := by
  have h := offers_offerCounted (s := s.over u) set { tables with } single safe
  rw [over_offerCounted, over_of_sameLine same] at h
  exact h

/-! ## The number an offering binds -/

theorem choose_mem {x : Scheduler} {cs : List Candidate} {a : Candidate} {y : Scheduler}
    (h : x.choose cs = some (a, y)) : a ∈ cs := by
  have first {k : Nat} {a : Candidate} (h : earliestOf cs k = some a) : a ∈ cs := by
    have := (earliest_spec (R := fun _ _ => True) (List.pairwise_of_forall fun _ _ => trivial) h).1
    exact List.mem_of_mem_filter this
  unfold Scheduler.choose at h
  split at h
  · split at h
    · cases h
    · obtain ⟨b, hb, e⟩ := Option.map_eq_some_iff.mp h
      cases e
      exact first hb
  · split at h
    · obtain ⟨b, hb, e⟩ := Option.map_eq_some_iff.mp h
      cases e
      exact first hb
    · split at h
      · obtain ⟨b, hb, e⟩ := Option.map_eq_some_iff.mp h
        cases e
        exact first hb
      · cases h

theorem credits_of_choose {x y : Scheduler} {cs : List Candidate} {a : Candidate} (h : x.choose cs = some (a, y)) :
    y = { x with credits := y.credits } := by
  obtain ⟨map, weights, mode⟩ := choose_keeps h
  cases x
  cases y
  simp_all

/-- The garments in flight on the lines of a slot's order. -/
def State.flight (s : State) (slot : Nat) : Nat :=
  ((s.order slot).map fun o => (o.lines.map Line.inFlight).sum).getD 0

theorem flight_of_order {slot : Nat} {o : Order} (h : s.order slot = some o) :
    s.flight slot = (o.lines.map Line.inFlight).sum := by
  unfold State.flight
  rw [h]
  rfl

theorem sum_modifyAt_raise {lines : List Line} {i : Nat} {l : Line} (h : lines[i]? = some l) :
    ((modifyAt lines i fun l => { l with inFlight := l.inFlight + 1 }).map Line.inFlight).sum =
      (lines.map Line.inFlight).sum + 1 := by
  induction lines generalizing i with
  | nil => cases h
  | cons x xs ih =>
    cases i with
    | zero => simp only [modifyAt, List.map_cons, List.sum_cons]; omega
    | succ i =>
      simp only [modifyAt, List.map_cons, List.sum_cons]
      rw [ih (by simpa using h)]
      omega

/-- One orphan examined by an offering to an order: it stays, or it is bound to a line of the order and is one more in
flight there. -/
theorem offerOne_order {slot n : Nat} {tag : Tag} {pos : Nat} {g : Garment} (ok : s.orders.slots.wf = true)
    (live : s.findTag tag = some (pos, g)) (free : g.binding = none) :
    State.offerOne (.order slot) (s, n) tag = (s, n) ∨
      ∃ v x, State.offerOne (.order slot) (s, n) tag = (v, n + 1) ∧ v.flight slot = s.flight slot + 1 ∧
        s.recordIs pos x v := by
  unfold State.offerOne State.chooseAndBind
  simp only [live]
  cases choice : s.sched.choose (s.candidates (.order slot) g.sku g.designWanted) with
  | none => exact .inl rfl
  | some r =>
    obtain ⟨x, sched⟩ := r
    obtain ⟨o, l, wants, -⟩ := (mem_candidates ok).mp (choose_mem choice)
    have here : x.slot = slot := by simpa [LineSet.has] using wants.inSet
    have line : s.line x.slot x.line = some l := by
      unfold State.line
      rw [wants.order]
      exact wants.line
    have credits := credits_of_choose choice
    have bound := bindGarment_orphan (credits := sched.credits) live free line
    rw [← credits] at bound
    refine .inr ⟨_, _, rfl, ?_, bound.record⟩
    have order := bound.line slot
    rw [← here, wants.order] at order
    rw [← here, flight_of_order wants.order, flight_of_order order, ← sum_modifyAt_raise wants.line]
    simp

/-- An offering to an order binds as many garments as are then in flight on it over those before. -/
theorem flight_offerCounted (slot : Nat) (tables : TablesOk s) (single : TagsSafe s) :
    (s.offerCounted (.order slot)).1.flight slot = s.flight slot + (s.offerCounted (.order slot)).2 := by
  have order := orphans_order tables.records single
  have free : ∀ tag ∈ s.orphans, ∃ pos g, s.findTag tag = some (pos, g) ∧ g.binding = none := fun tag m => by
    obtain ⟨pos, g, listed, rfl, -, unbound, -⟩ := (order.offerable tag).mp m
    exact ⟨pos, g, findTag_of_find single listed, unbound⟩
  have nodup := order.nodup
  clear order
  unfold State.offerCounted
  generalize s.orphans = tags at free nodup
  suffices h : ∀ n, (tags.foldl (State.offerOne (.order slot)) (s, n)).1.flight slot + n =
      s.flight slot + (tags.foldl (State.offerOne (.order slot)) (s, n)).2 by simpa using h 0
  intro n
  induction tags generalizing s n with
  | nil => rfl
  | cons tag tags ih =>
    obtain ⟨notIn, nodup⟩ := List.nodup_cons.mp nodup
    obtain ⟨pos, g, live, unbound⟩ := free tag List.mem_cons_self
    have rest := fun y hy => free y (List.mem_cons_of_mem _ hy)
    rw [List.foldl_cons]
    rcases offerOne_order (slot := slot) (n := n) tables.slots live unbound with stays | ⟨v, x, binds, more, record⟩
    · rw [stays]
      exact ih tables single rest nodup n
    · have quiet : Quiet s v := by
        have := quiet_chooseAndBind s tag (.order slot)
        rwa [show (s.chooseAndBind tag (.order slot)).1 = v from congrArg Prod.fst binds] at this
      have others : ∀ y ∈ tags, ∃ p h, v.findTag y = some (p, h) ∧ h.binding = none := fun y hy => by
        obtain ⟨p, h, at_, unbound'⟩ := rest y hy
        obtain ⟨listed, carries, -⟩ := findTag_some at_
        obtain ⟨listed', carries', -⟩ := findTag_some live
        have apart : p ≠ pos := by
          rintro rfl
          rw [listed] at listed'
          cases listed'
          exact notIn (by rw [← carries', carries]; exact hy)
        have still : v.garments.records.find p = some h := by
          rw [record]
          exact (find_put_ne _ apart _).trans listed
        exact ⟨p, h, carries ▸ findTag_of_find (quiet.tags single) still, unbound'⟩
      have := ih (quiet.tables tables) (quiet.tags single) others nodup (n + 1)
      rw [binds]
      omega

end Sys2Proof.Machine
end

section
/-! SUPPORT. ADMIT ORDER and RELEASE HOLD (R34, R39). -/

namespace Sys2Proof.Machine

variable {s t u w : State} {c : HostCmd} {payload : List Byte}

/-! ## ADMIT ORDER -/

theorem finish_of_reserve (ring : t.ring = s.ring) (cells : t.limits.holdReserve ≤ t.orders.freeCells) :
    t.finish s = t := by
  rw [finish_of_ring ring, checkCells_eq, if_neg (by omega)]

/-- The state once an order has been added and offered the orphans. -/
@[irreducible] def State.admitted (s : State) (slot number level : Nat) (lines : List Line) : State :=
  ((s.addOrder slot number level lines).offerCounted (.order slot)).1

section Admitted

variable (s) (slot number level : Nat) (lines : List Line)

theorem binds_admitted : Binds (s.addOrder slot number level lines) (s.admitted slot number level lines) := by
  unfold State.admitted
  exact binds_offerCounted ..

theorem cells_admitted : (s.admitted slot number level lines).orders.freeCells = s.orders.freeCells - lines.length := by
  rw [(binds_admitted ..).cells, addOrder_eq]

theorem admissionSeq_admitted : (s.admitted slot number level lines).orders.admissionSeq =
    min 4294967295 (s.orders.admissionSeq + 1) := by
  have h : (s.admitted slot number level lines).orders.admissionSeq =
      (s.addOrder slot number level lines).orders.admissionSeq :=
    congrArg (·.orders.admissionSeq) (binds_admitted s slot number level lines).aside
  rw [h, addOrder_eq]
  rfl

theorem sameBut_admitted : s.sameBut [.garments, .orders, .sched, .refs] (s.admitted slot number level lines) :=
  sameBut_trans (sameBut_addOrder s slot number level lines) (binds_admitted s slot number level lines).sameBut
    (by decide) (by decide)

theorem order_admitted : ∃ o, (s.admitted slot number level lines).order slot = some o ∧
    o.clearF = Order.clearF ⟨number, level, s.orders.admissionSeq, .opened, none, lines⟩ := by
  have shape := (binds_admitted s slot number level lines).shape slot
  rw [order_addOrder, if_pos rfl] at shape
  exact Option.map_eq_some_iff.mp shape

theorem admitted_of_no_orphans (none : s.orphans = []) :
    s.admitted slot number level lines = s.addOrder slot number level lines := by
  unfold State.admitted
  rw [offerCounted_nil ((orphans_addOrder ..).trans none)]

end Admitted

theorem clear_of_fresh {lines : List Line} (fresh : ∀ l ∈ lines, l.inFlight = 0) :
    lines.map (fun l => { l with inFlight := 0 }) = lines := by
  refine (List.map_congr_left fun l m => ?_).trans (List.map_id lines)
  rw [← fresh l m]
  rfl

theorem runAdmitOrder_taken {slot : Nat}
    (good : admitRangesOk (field payload 0 4) (field payload 4 1) (admitLines payload 6 (field payload 5 1)) = true)
    (new : s.findOrder (field payload 0 4) = none) (free : s.freeSlotNumber = some slot)
    (valid : (admitLines payload 6 (field payload 5 1)).all s.lineEntriesValid = true)
    (cells : (admitLines payload 6 (field payload 5 1)).length + s.limits.holdReserve ≤ s.orders.freeCells) :
    let lines := admitLines payload 6 (field payload 5 1)
    runAdmitOrder payload (s.taken c payload) =
      ((s.admitted slot (field payload 0 4) (field payload 4 1) lines).taken c payload, accepted (beBytes 1 slot ++
        beBytes 2 ((s.addOrder slot (field payload 0 4) (field payload 4 1) lines).offerCounted (.order slot)).2)) := by
  intro lines
  rw [runAdmitOrder_of_cells (s := s.taken c payload) good new free valid cells]
  obtain ⟨-, kept, -, shifted⟩ :=
    (sameBut_admitted s slot (field payload 0 4) (field payload 4 1) lines).transport (by decide)
  rw [← taken_over, over_addOrder, over_offerCounted, ← over_taken kept shifted]
  unfold State.admitted
  rfl

theorem admit_carries {slot : Nat} (ready : s.PortReady) (length : payload.length = 6 + 3 * field payload 5 1)
    (good : admitRangesOk (field payload 0 4) (field payload 4 1) (admitLines payload 6 (field payload 5 1)) = true)
    (new : s.findOrder (field payload 0 4) = none) (free : s.freeSlotNumber = some slot)
    (valid : (admitLines payload 6 (field payload 5 1)).all s.lineEntriesValid = true)
    (cells : (admitLines payload 6 (field payload 5 1)).length + s.limits.holdReserve ≤ s.orders.freeCells) :
    let lines := admitLines payload 6 (field payload 5 1)
    ∃ u, Carries .admitOrder payload s u (accepted (beBytes 1 slot ++
        beBytes 2 ((s.addOrder slot (field payload 0 4) (field payload 4 1) lines).offerCounted (.order slot)).2)) ∧
      (s.admitted slot (field payload 0 4) (field payload 4 1) lines).sameLine u := by
  intro lines
  obtain ⟨-, -, some, few, -⟩ := admitRangesOk_iff.mp good
  rw [admitLines_length] at some few
  have fits : HostCmd.lengthFits .admitOrder payload = true := by
    simp only [HostCmd.lengthFits, Bool.and_eq_true, decide_eq_true_eq, beq_iff_eq]
    omega
  have same := sameBut_admitted s slot (field payload 0 4) (field payload 4 1) lines
  refine carries_of_done ready (by omega) fits (runAdmitOrder_taken good new free valid cells)
    (finish_of_reserve (same.ring (by decide)) ?_)
  show (s.admitted slot _ _ lines).limits.holdReserve ≤ (s.admitted slot _ _ lines).orders.freeCells
  rw [same.limits (by decide), cells_admitted]
  exact Nat.le_sub_of_add_le ((Nat.add_comm ..).trans_le cells)

/-- Settles O24. -/
theorem admitOrderTakesTheLowestFreeSlot : Obligations.AdmitOrderTakesTheLowestFreeSlot := by
  unfold Obligations.AdmitOrderTakesTheLowestFreeSlot
  intro s payload slot ready length number level lines named level_le some few quantities new low free taken valid cells
  obtain ⟨u, carries, same⟩ := admit_carries ready length
    (admitRangesOk_iff.mpr ⟨named, level_le, some, few, quantities⟩) new (freeSlotNumber_eq low free taken)
    (lineEntriesValid_iff.mpr valid) cells
  obtain ⟨o, order, shape⟩ := order_admitted s slot number level lines
  have fresh : ∀ l ∈ lines, l.inFlight = 0 := fun l m => admitLines_fresh m
  have at_ : ∀ k, u.order k = (s.admitted slot number level lines).order k := fun k => by
    unfold State.order
    rw [sameLine_orders same]
  have tablesAdded : TablesOk s → TablesOk (s.addOrder slot number level lines) := (quiet_addOrder ..).tables
  have tagsAdded : TagsSafe s → TagsSafe (s.addOrder slot number level lines) := (quiet_addOrder ..).tags
  refine ⟨u, _, o, carries, rfl, fun tables tags => ?_, fun tables tags safe => ?_, (at_ slot).trans order,
    congrArg Order.number shape, congrArg Order.level shape, congrArg Order.admission shape,
    congrArg Order.state shape, congrArg Order.bin shape, ?_, ?_, ?_, ?_, fun none => ?_⟩
  · have := flight_offerCounted slot (tablesAdded tables) (tagsAdded tags)
    unfold State.admitted at order
    rw [flight_of_order order, flight_of_order (order_addOrder s slot number level lines slot ▸ if_pos rfl)]
      at this
    have zero : (lines.map Line.inFlight).sum = 0 := by
      rw [List.sum_eq_zero_iff]
      intro n m
      obtain ⟨l, ml, rfl⟩ := List.mem_map.mp m
      exact fresh l ml
    rw [zero, Nat.zero_add] at this
    exact this.symm
  · refine ⟨(s.addOrder slot number level lines).over u,
      offers_over _ (tablesAdded tables) (tagsAdded tags) ((quiet_addOrder ..).sched safe)
        (by unfold State.admitted at same; exact same),
      order_addOrder s slot number level lines, find_addOrder_design s slot number level lines,
      find_addOrder_sku s slot number level lines, ?_⟩
    exact sameBut_trans (sameBut_addOrder s slot number level lines) (sameBut_over _ u) (by decide) (by decide)
  · have := congrArg Order.lines shape
    exact this.trans (clear_of_fresh fresh)
  · rw [sameLine_orders same]
    exact cells_admitted ..
  · rw [sameLine_orders same]
    exact admissionSeq_admitted ..
  · exact sameBut_of_sameLine same (sameBut_widen (sameBut_admitted s slot number level lines) (by decide)) (by decide)
  · have only := admitted_of_no_orphans s slot number level lines none
    have empty := offerCounted_nil ((orphans_addOrder s slot number level lines).trans none) (.order slot)
    rw [only, order_addOrder, if_pos rfl, Option.some.injEq] at order
    refine ⟨congrArg Prod.snd empty, congrArg Order.lines order.symm, fun k other => ?_, fun d => ?_, fun k => ?_, ?_⟩
    · rw [at_, only, order_addOrder, if_neg other]
    · rw [sameLine_refs same]
      exact (congrArg (fun w => Table.find w.refs.designs d) only).trans (find_addOrder_design ..)
    · rw [sameLine_refs same]
      exact (congrArg (fun w => Table.find w.refs.skus k) only).trans (find_addOrder_sku ..)
    · refine sameBut_of_sameLine same ?_ (by decide)
      exact only ▸ sameBut_widen (sameBut_addOrder s slot number level lines) (by decide)

/-! ## RELEASE HOLD -/

theorem order_of_findOrder (ok : s.orders.slots.wf = true) {number slot : Nat} {o : Order}
    (h : s.findOrder number = some (slot, o)) : s.order slot = some o :=
  find_of_mem ok (List.mem_of_find?_eq_some h)

theorem bin_setBin (s : State) (k j : Nat) (b : Bin) : (s.setBin k b).bin j = if j = k then b else s.bin j := by
  unfold State.setBin State.bin
  exact look_store ..

theorem bin_readyBin (s : State) (b : Option Nat) (k : Nat) :
    (s.readyBin b).bin k = if b = some k then { s.bin k with state := .ready } else s.bin k := by
  cases b with
  | none => rfl
  | some j =>
    show (s.setBin j _).bin k = _
    rw [bin_setBin]
    by_cases h : k = j
    · subst h
      simp
    · simp [h, Ne.symm h]

theorem readyBin_eq (s : State) (b : Option Nat) :
    s.readyBin b = { s with bins.records := (s.readyBin b).bins.records } := by
  cases b <;> rfl

theorem completeOrder_of_order {slot : Nat} {o : Order} (h : s.order slot = some o) : s.completeOrder slot =
    ((s.modifyOrder slot fun o => { o with state := .complete }).readyBin o.bin).raise .orderComplete := by
  unfold State.completeOrder
  rw [h]

theorem over_readyBin (s t : State) (b : Option Nat) : (s.over t).readyBin b = (s.readyBin b).over t := by
  cases b <;> rfl

theorem over_completeOrder (s t : State) (slot : Nat) :
    (s.over t).completeOrder slot = (s.completeOrder slot).over t := by
  unfold State.completeOrder
  rw [show (s.over t).order slot = s.order slot from rfl]
  split
  · rfl
  · rw [show ∀ f, (s.over t).modifyOrder slot f = (s.modifyOrder slot f).over t from fun _ => rfl, over_readyBin]
    rfl

theorem order_over (s t : State) (k : Nat) : (s.over t).order k = s.order k := rfl

theorem over_modifyOrder (s t : State) (slot : Nat) (f : Order → Order) :
    (s.over t).modifyOrder slot f = (s.modifyOrder slot f).over t := rfl

theorem over_release (s t : State) (slot : Nat) (o : Order) : (s.over t).release slot o = (s.release slot o).over t := by
  unfold State.release
  simp only [over_modifyOrder]
  split
  · exact over_completeOrder ..
  · exact over_offer ..

theorem allBinned_iff (o : Order) : o.allBinned = true ↔ ∀ l ∈ o.lines, l.binned = l.quantity := by
  simp [Order.allBinned]

theorem eq_of_clearF {o x : Order} (h : o.clearF = x.clearF) : o = { x with lines := o.lines } ∧
    o.lines.map (fun l => { l with inFlight := 0 }) = x.lines.map (fun l => { l with inFlight := 0 }) := by
  cases o
  cases x
  simp only [Order.clearF, Order.mk.injEq] at h
  obtain ⟨rfl, rfl, rfl, rfl, rfl, lines⟩ := h
  exact ⟨rfl, lines⟩

/-- What RELEASE HOLD writes into the order before it offers it the orphans. -/
def Order.released (o : Order) (state : OrderState) : Order :=
  { o with state := state, lines := o.lines.map Line.released }

/-- The state with a slot's order replaced. -/
def State.putOrder (s : State) (slot : Nat) (o : Order) : State :=
  s.modifyOrder slot fun _ => o

theorem order_putOrder {slot : Nat} {x : Order} (listed : s.order slot = some x) (o : Order) (k : Nat) :
    (s.putOrder slot o).order k = if k = slot then some o else s.order k := by
  unfold State.putOrder
  rw [order_modifyOrder, listed]
  rfl

theorem modifyOrder_of_order {slot : Nat} {o : Order} (h : s.order slot = some o) (f : Order → Order) :
    s.modifyOrder slot f = s.putOrder slot (f o) := by
  unfold State.putOrder State.modifyOrder Table.modify
  rw [show s.orders.slots.find slot = some o from h]

theorem put_put_same {α : Type} (r : Table α) (p : Nat) (g g' : α) : (r.put p g).put p g' = r.put p g' := by
  induction r with
  | nil => simp [Table.put]
  | cons e r ih =>
    obtain ⟨k, x⟩ := e
    simp only [Table.put]
    split
    · simp [Table.put]
    · split
      · simp [Table.put]
      · simp_all [Table.put]

theorem putOrder_putOrder {slot : Nat} {x : Order} (listed : s.order slot = some x) (o o' : Order) :
    (s.putOrder slot o).putOrder slot o' = s.putOrder slot o' := by
  have again : (s.putOrder slot o).order slot = some o := (order_putOrder listed o slot).trans (if_pos rfl)
  unfold State.putOrder State.modifyOrder Table.modify at again ⊢
  rw [show s.orders.slots.find slot = some x from listed] at again ⊢
  dsimp only [State.order] at again ⊢
  rw [again]
  dsimp only
  rw [put_put_same]

theorem release_of_binned {slot : Nat} {o : Order} (listed : s.order slot = some o) (all : o.allBinned = true) :
    s.release slot o =
      ((s.putOrder slot (o.released .complete)).readyBin o.bin).raise .orderComplete := by
  unfold State.release
  simp only [all, if_true]
  rw [modifyOrder_of_order listed, completeOrder_of_order (order_putOrder listed _ slot |>.trans (if_pos rfl)),
    modifyOrder_of_order (order_putOrder listed _ slot |>.trans (if_pos rfl)), putOrder_putOrder listed]
  rfl

theorem release_of_open {slot : Nat} {o : Order} (listed : s.order slot = some o) (left : o.allBinned = false) :
    s.release slot o = (s.putOrder slot (o.released
      (if ∀ l ∈ o.lines, l.binned = 0 then .opened else .filling))).offer (.order slot) := by
  unfold State.release
  simp only [left, Bool.false_eq_true, if_false]
  rw [modifyOrder_of_order listed, modifyOrder_of_order (order_putOrder listed _ slot |>.trans (if_pos rfl)),
    putOrder_putOrder listed]
  congr 3
  exact if_congr (by simp) rfl rfl

theorem runReleaseHold_unknown (h : s.findOrder (field payload 0 4) = none) :
    runReleaseHold payload s = s.refusing .notFound := by
  unfold runReleaseHold
  rw [h]

theorem runReleaseHold_known {slot : Nat} {o : Order} (h : s.findOrder (field payload 0 4) = some (slot, o)) :
    runReleaseHold payload s = if o.state ≠ .held then s.refusing .badState
      else (s.release slot o, accepted (beBytes 1 ((((s.release slot o).order slot).map fun o => o.state.code).getD 0))) := by
  unfold runReleaseHold
  rw [h]

theorem sameBut_putOrder (s : State) (slot : Nat) (o : Order) : s.sameBut [.orders] (s.putOrder slot o) := by
  constructor <;> intros <;> simp_all [State.putOrder]

theorem release_transport (s : State) (slot : Nat) (o : Order) :
    (s.release slot o).port.kept = s.port.kept ∧ (s.release slot o).shifted = s.shifted :=
  ⟨(quiet_release_order s slot o).port_kept, (quiet_release_order s slot o).shifted⟩

theorem release_carries (ready : s.PortReady) (length : payload.length = 4) {slot : Nat} {o : Order}
    (known : s.findOrder (field payload 0 4) = some (slot, o)) (held : o.state = .held)
    (ring : (s.release slot o).ring = s.ring) (cells : (s.release slot o).orders.freeCells = s.orders.freeCells)
    {x : Order} (after : (s.release slot o).order slot = some x) :
    ∃ u, Carries .releaseHold payload s u (accepted (beBytes 1 x.state.code)) ∧ (s.release slot o).sameLine u := by
  obtain ⟨kept, shifted⟩ := release_transport s slot o
  refine carries_of_edit ready (by omega) (by simp [HostCmd.lengthFits, length]) ?_ ring cells
    (quiet_release_order s slot o).limits
  show runReleaseHold payload (s.taken .releaseHold payload) = _
  rw [runReleaseHold_known (s := s.taken .releaseHold payload) known, if_neg (by simp [held]), ← taken_over,
    over_release, ← over_taken kept shifted, order_over, after]
  rfl

theorem readyBin_order (s : State) (b : Option Nat) (k : Nat) : (s.readyBin b).order k = s.order k := by
  cases b <;> rfl

/-- RELEASE HOLD of an order whose lines are all binned. -/
theorem release_complete (ready : s.PortReady) (length : payload.length = 4) {slot : Nat} {o : Order}
    (known : s.findOrder (field payload 0 4) = some (slot, o)) (listed : s.order slot = some o) (held : o.state = .held)
    (all : o.allBinned = true) : ∃ u, Carries .releaseHold payload s u (accepted [0x04#8]) ∧
      (((s.putOrder slot (o.released .complete)).readyBin o.bin).raise .orderComplete).sameLine u := by
  have run := release_of_binned listed all
  have after : (s.release slot o).order slot = some (o.released .complete) := by
    rw [run]
    show ((s.putOrder slot (o.released .complete)).readyBin o.bin).order slot = _
    rw [readyBin_order, order_putOrder listed, if_pos rfl]
  have code : beBytes 1 OrderState.complete.code = [0x04#8] := by decide
  rw [← run, ← code]
  exact release_carries ready length known held (by rw [run, readyBin_eq]; rfl) (by rw [run, readyBin_eq]; rfl) after

/-- RELEASE HOLD of an order with a line that is not all binned. -/
theorem release_open (ready : s.PortReady) (length : payload.length = 4) {slot : Nat} {o : Order}
    (known : s.findOrder (field payload 0 4) = some (slot, o)) (listed : s.order slot = some o) (held : o.state = .held)
    (left : o.allBinned = false) {state : OrderState}
    (decided : state = if ∀ l ∈ o.lines, l.binned = 0 then .opened else .filling) :
    ∃ u x, Carries .releaseHold payload s u (accepted (beBytes 1 state.code)) ∧
      ((s.putOrder slot (o.released state)).offer (.order slot)).sameLine u ∧ u.order slot = some x ∧
      x.clearF = (o.released state).clearF := by
  have run := release_of_open listed left
  rw [← decided] at run
  have binds := binds_offer (s.putOrder slot (o.released state)) (.order slot)
  have shape := binds.shape slot
  rw [order_putOrder listed, if_pos rfl] at shape
  rw [← run] at binds shape ⊢
  obtain ⟨x, after, same⟩ := Option.map_eq_some_iff.mp shape
  have code : x.state = state := congrArg Order.state same
  obtain ⟨u, carries, line⟩ := release_carries ready length known held (congrArg (·.ring) binds.aside) binds.cells after
  rw [code] at carries
  refine ⟨u, x, carries, line, ?_, same⟩
  unfold State.order
  rw [sameLine_orders line]
  exact after

theorem orphans_putOrder (s : State) (slot : Nat) (o : Order) : (s.putOrder slot o).orphans = s.orphans := rfl

theorem pool_eq {a b : OrderBlock} (cells : a.freeCells = b.freeCells) (seq : a.admissionSeq = b.admissionSeq) :
    { a with slots := b.slots } = b := by
  cases a
  cases b
  simp_all

/-- Settles O27. -/
theorem releaseHoldDecidesTheState : Obligations.ReleaseHoldDecidesTheState := by
  unfold Obligations.ReleaseHoldDecidesTheState
  intro s payload ready tables length
  refine ⟨fun unknown => ?_, fun slot o known => ⟨fun other => ?_, fun held => ?_⟩⟩
  · exact carries_of_answer ready (by omega) (by simp [HostCmd.lengthFits, length]) (runReleaseHold_unknown unknown)
  · refine carries_of_answer ready (by omega) (by simp [HostCmd.lengthFits, length]) ?_
    exact (runReleaseHold_known (s := s.taken _ payload) known).trans (if_pos other)
  have listed := order_of_findOrder tables.slots known
  intro lines
  refine ⟨fun all => ?_, fun ⟨l, m, short⟩ => ?_⟩
  · obtain ⟨u, carries, same⟩ := release_complete ready length known listed held ((allBinned_iff o).mpr all)
    have at_ : ∀ k, u.order k = if k = slot then some (o.released .complete) else s.order k := fun k => by
      unfold State.order
      rw [sameLine_orders same]
      exact (readyBin_order ..).trans (order_putOrder listed _ k)
    refine ⟨u, carries, (at_ slot).trans (if_pos rfl), fun k other => (at_ k).trans (if_neg other), fun k => ?_, ?_, ?_, ?_⟩
    · unfold State.bin
      rw [sameLine_bins same]
      exact bin_readyBin ..
    · rw [sameLine_orders same]
      show ({ ((s.putOrder slot _).readyBin o.bin).orders with slots := s.orders.slots } : OrderBlock) = _
      rw [readyBin_eq]
      rfl
    · rw [sameLine_causes same]
      show ((s.putOrder slot _).readyBin o.bin).port.causes ||| _ = _
      rw [readyBin_eq]
      rfl
    · refine sameBut_of_sameLine same ?_ (by decide)
      rw [readyBin_eq]
      constructor <;> intros <;> simp_all [State.putOrder, State.raise]
  · have left : o.allBinned = false := Bool.eq_false_iff.mpr fun all => short ((allBinned_iff o).mp all l m)
    intro state
    obtain ⟨u, x, carries, same, after, shape⟩ := release_open ready length known listed held left (state := state) rfl
    obtain ⟨fields, flights⟩ := eq_of_clearF shape
    have binds := binds_offer (s.putOrder slot (o.released state)) (.order slot)
    refine ⟨u, x, carries, after, fields, flights, ?_, ?_, fun tags safe => ?_, fun none => ?_⟩
    · rw [sameLine_orders same]
      exact pool_eq binds.cells (congrArg (·.orders.admissionSeq) binds.aside)
    · refine sameBut_of_sameLine same ?_ (by decide)
      exact sameBut_trans (sameBut_putOrder s slot _) binds.sameBut (by decide) (by decide)
    · have quiet : Quiet s (s.putOrder slot (o.released state)) := quiet_modifyOrder ..
      refine ⟨(s.putOrder slot (o.released state)).over u, _,
        offers_over _ (quiet.tables tables) (quiet.tags tags) (quiet.sched safe) same, fun k => ?_, ?_⟩
      · exact order_putOrder listed _ k
      · exact sameBut_trans (sameBut_putOrder s slot _) (sameBut_over _ u) (by decide) (by decide)
    · have still : (s.putOrder slot (o.released state)).offer (.order slot) = s.putOrder slot (o.released state) :=
        congrArg Prod.fst (offerCounted_nil ((orphans_putOrder ..).trans none) _)
      rw [still] at same
      have at_ : ∀ k, u.order k = if k = slot then some (o.released state) else s.order k := fun k => by
        unfold State.order
        rw [sameLine_orders same]
        exact order_putOrder listed _ k
      rw [at_, if_pos rfl, Option.some.injEq] at after
      exact ⟨congrArg Order.lines after.symm, fun k other => (at_ k).trans (if_neg other),
        sameBut_of_sameLine same (sameBut_widen (sameBut_putOrder s slot _) (by decide)) (by decide)⟩

end Sys2Proof.Machine
end

section
/-! SUPPORT. A garment taken up by the stage rule (R58, R59): where its record, its line and the demand of the others are
after it. -/

namespace Sys2Proof.Machine

variable {s t u w : State}

/-! ## Demand that does not grow -/

/-- Of the lines that orders in OPEN or FILLING have in one state, each stands in another with no more in flight. -/
def State.Wanes (s t : State) : Prop :=
  ∀ k o, t.order k = some o → o.state = .opened ∨ o.state = .filling → ∃ x, s.order k = some x ∧ x.state = o.state ∧
    ∀ (i : Nat) (l : Line), o.lines[i]? = some l → ∃ y : Line, x.lines[i]? = some y ∧ y.inFlight ≤ l.inFlight ∧
      l = { y with inFlight := l.inFlight }

theorem State.Wanes.refl (s : State) : s.Wanes s := fun _ o h _ => ⟨o, h, rfl, fun _ l m => ⟨l, m, le_rfl, rfl⟩⟩

theorem State.Wanes.trans (h : s.Wanes t) (k : t.Wanes u) : s.Wanes u := by
  intro slot o listed takes
  obtain ⟨x, listed', state, lines⟩ := k slot o listed takes
  obtain ⟨y, listed'', state', lines'⟩ := h slot x listed' (state ▸ takes)
  refine ⟨y, listed'', state'.trans state, fun i l m => ?_⟩
  obtain ⟨a, ma, le, same⟩ := lines i l m
  obtain ⟨b, mb, le', same'⟩ := lines' i a ma
  refine ⟨b, mb, le'.trans le, ?_⟩
  rw [same, same']

theorem State.Wanes.of_orders (h : ∀ k, t.order k = s.order k) : s.Wanes t :=
  fun k o listed _ => ⟨o, (h k).symm.trans listed, rfl, fun _ l m => ⟨l, m, le_rfl, rfl⟩⟩

/-- A line wanted later was wanted before, with the same design. -/
theorem State.Wanes.wants (h : s.Wanes t) {set : LineSet} {sku : Nat} {design : Option Nat} {k i : Nat} {o : Order}
    {l : Line} (wants : t.Wants set sku design k i o l) : ∃ x y, s.Wants set sku design k i x y ∧ y.design = l.design := by
  obtain ⟨x, listed, state, lines⟩ := h k o wants.order wants.taking
  obtain ⟨y, m, le, same⟩ := lines i l wants.line
  have demand := wants.demand
  have active := wants.active
  have sku' := wants.sku
  have design' := wants.design
  rw [same] at demand active sku' design'
  refine ⟨x, y, ⟨listed, m, wants.inSet, state ▸ wants.taking, active, sku', design', ?_⟩, by rw [same]⟩
  exact lt_of_le_of_lt (Nat.add_le_add_right le _) demand

theorem wanes_modifyOrder_of_closed {slot : Nat} {f : Order → Order}
    (closed : ∀ o, s.order slot = some o → (f o).state ≠ .opened ∧ (f o).state ≠ .filling) :
    s.Wanes (s.modifyOrder slot f) := by
  intro k o listed takes
  rw [order_modifyOrder] at listed
  split at listed
  · rename_i same
    obtain ⟨x, listed', rfl⟩ := Option.map_eq_some_iff.mp listed
    obtain ⟨not, not'⟩ := closed x listed'
    exact absurd takes (by simp [not, not'])
  · exact ⟨o, listed, rfl, fun _ l m => ⟨l, m, le_rfl, rfl⟩⟩

theorem getElem?_modifyAt {α : Type} (l : List α) (i j : Nat) (f : α → α) :
    (modifyAt l i f)[j]? = if j = i then l[j]?.map f else l[j]? := by
  induction l generalizing i j with
  | nil => simp [modifyAt]
  | cons x xs ih =>
    cases i with
    | zero => cases j <;> simp [modifyAt]
    | succ i => cases j <;> simp [modifyAt, ih]

theorem wanes_raise (s : State) (slot i : Nat) : s.Wanes (s.modifyLine slot i Line.raiseF) := by
  intro k o listed takes
  unfold State.modifyLine at listed
  rw [order_modifyOrder] at listed
  split at listed
  · rename_i same
    subst same
    obtain ⟨x, listed', rfl⟩ := Option.map_eq_some_iff.mp listed
    refine ⟨x, listed', rfl, fun j l m => ?_⟩
    dsimp only at m
    rw [getElem?_modifyAt] at m
    split at m
    · obtain ⟨y, m', rfl⟩ := Option.map_eq_some_iff.mp m
      exact ⟨y, m', Nat.le_succ _, rfl⟩
    · exact ⟨l, m, le_rfl, rfl⟩
  · exact ⟨o, listed, rfl, fun _ l m => ⟨l, m, le_rfl, rfl⟩⟩

theorem wanes_drainTest (s : State) (slot : Nat) : s.Wanes (s.drainTest slot) := by
  intro k o listed takes
  refine ⟨o, ?_, rfl, fun _ l m => ⟨l, m, le_rfl, rfl⟩⟩
  by_cases same : k = slot
  · subst same
    rw [drainTest_order] at listed
    obtain ⟨x, listed', drained⟩ := Option.bind_eq_some_iff.mp listed
    split at drained
    · cases drained
    · cases drained
      exact listed'
  · rw [drainTest_order_ne _ same] at listed
    exact listed

/-! ## The stage rule -/

/-- The lines of an order, with one garment fewer in flight on one of them. -/
theorem order_leaveLine (s : State) (b : Binding) (k : Nat) :
    (s.leaveLine (some b)).order k = if k = b.slot then (s.order b.slot).map (·.less b.line) else s.order k :=
  order_modifyOrder ..

/-- What a garment's place in the binding is worked out from stands: the classes, the areas of the designs and the pulse
size. -/
structure State.SamePulses (s t : State) : Prop where
  classes : t.refs.classes = s.refs.classes
  meter : t.meter = s.meter
  area : ∀ d, (t.designEntry d).area = (s.designEntry d).area

theorem State.SamePulses.trans (h : s.SamePulses t) (k : t.SamePulses u) : s.SamePulses u :=
  ⟨k.classes.trans h.classes, k.meter.trans h.meter, fun d => (k.area d).trans (h.area d)⟩

theorem State.SamePulses.boundRecord (h : s.SamePulses t) (g : Garment) (b : Binding) (d : Nat) :
    t.boundRecord g b d = s.boundRecord g b d := by
  rw [← repulse_eq h.classes h.meter h.area, ← repulse_eq (u := t) rfl rfl fun _ => rfl]

/-- A garment bound to an order being cancelled, once the stage rule has taken it up: it is off its line, and either
unbound, SPOILED or wanted by no line, or bound to a line of another order that wants it. -/
structure State.Staged (s : State) (pos : Nat) (g : Garment) (b : Binding) (t : State) : Prop where
  quiet : Quiet s t
  binds : Binds s t
  wanes : s.Wanes t
  pulses : s.SamePulses t
  left : t.order b.slot = (s.order b.slot).map (·.less b.line)
  record : (s.recordIs pos { g with binding := none } t ∧
      (s.sched.Safe → g.spoiled = false → ∀ k i x l, ¬ s.Wants .all g.sku g.designWanted k i x l)) ∨
    (g.spoiled = false ∧ ∃ k i x l, k ≠ b.slot ∧ s.Wants .all g.sku g.designWanted k i x l ∧
      s.recordIs pos (s.boundRecord g ⟨k, i⟩ l.design) t)

theorem unbindGarment_some {tag : Tag} {pos : Nat} {g : Garment} (live : s.findTag tag = some (pos, g)) :
    s.unbindGarment tag = (s.leaveLine g.binding).putRecord pos { g with binding := none } := by
  unfold State.unbindGarment
  rw [live]

section Taken

variable {tag : Tag} {pos : Nat} {g : Garment} {b : Binding} (bound : g.binding = some b)
  (closed : ∀ o, s.order b.slot = some o → o.state = .cancelling)
include bound closed

theorem wanes_leaveLine : s.Wanes (s.leaveLine g.binding) := by
  rw [bound]
  exact wanes_modifyOrder_of_closed fun o listed => by simp [closed o listed]

variable (live : s.findTag tag = some (pos, g))
include live

theorem staged_unbind
    (unwanted : s.sched.Safe → g.spoiled = false → ∀ k i x l, ¬ s.Wants .all g.sku g.designWanted k i x l) :
    s.Staged pos g b (s.unbindGarment tag) where
  quiet := quiet_unbindGarment ..
  binds := binds_unbindGarment ..
  wanes := by
    rw [unbindGarment_some live]
    exact (wanes_leaveLine bound closed).trans (.of_orders fun _ => rfl)
  pulses := by
    rw [unbindGarment_some live, bound]
    exact ⟨rfl, rfl, fun _ => rfl⟩
  left := by
    rw [unbindGarment_some live, bound]
    exact (order_leaveLine s b b.slot).trans (if_pos rfl)
  record := by
    refine .inl ⟨?_, unwanted⟩
    rw [unbindGarment_some live, bound]
    rfl

theorem staged_bind (ok : s.orders.slots.wf = true) (fit : g.spoiled = false) {x : Candidate} {sched : Scheduler}
    (choice : s.sched.choose (s.candidates .all g.sku g.designWanted) = some (x, sched)) :
    s.Staged pos g b (s.chooseAndBind tag .all).1 := by
  obtain ⟨o, l, wants, -⟩ := (mem_candidates ok).mp (choose_mem choice)
  have other : x.slot ≠ b.slot := fun same => by
    have := closed o (same ▸ wants.order)
    rcases wants.taking with h | h <;> simp [this] at h
  have line : ({ s with sched := sched } : State).line x.slot x.line = some l := by
    unfold State.line
    rw [show ({ s with sched := sched } : State).order x.slot = some o from wants.order]
    exact wants.line
  have run : (s.chooseAndBind tag .all).1 =
      ((({ s with sched := sched }.leaveLine g.binding).modifyLine x.slot x.line Line.raiseF).moveDesign g.design
        l.design).putRecord pos (s.boundRecord g ⟨x.slot, x.line⟩ l.design) := by
    unfold State.chooseAndBind
    simp only [live, choice]
    unfold State.bindGarment
    rw [show ({ s with sched := sched } : State).findTag tag = some (pos, g) from live, line]
    dsimp only
    rw [repulse_eq (s := s)]
    · unfold State.moveDesign State.leaveLine
      split <;> split <;> rfl
    · unfold State.moveDesign State.leaveLine
      split <;> split <;> rfl
    · intro d
      rw [area_moveDesign, bound]
      rfl
  have orders : ∀ (z : State) a b k, (z.moveDesign a b).order k = z.order k := fun z a b k => by
    unfold State.moveDesign
    split <;> rfl
  refine ⟨quiet_chooseAndBind .., binds_chooseAndBind .., ?_, ?_, ?_, .inr ⟨fit, x.slot, x.line, o, l, other, wants, ?_⟩⟩
  · rw [run]
    have first : ({ s with sched := sched } : State).Wanes ({ s with sched := sched }.leaveLine g.binding) :=
      wanes_leaveLine (s := { s with sched := sched }) bound closed
    exact (((State.Wanes.of_orders (s := s) fun _ => rfl).trans first).trans (wanes_raise _ x.slot x.line)).trans
      (.of_orders fun k => orders _ _ _ k)
  · rw [run, bound]
    refine ⟨?_, ?_, fun d => ?_⟩
    · unfold State.moveDesign
      split <;> rfl
    · unfold State.moveDesign
      split <;> rfl
    · exact area_moveDesign ..
  · rw [run, bound]
    show (State.moveDesign _ _ _).order b.slot = _
    rw [orders]
    unfold State.modifyLine
    rw [order_modifyOrder, if_neg other.symm]
    exact (order_leaveLine _ b b.slot).trans (if_pos rfl)
  · rw [run, bound]
    unfold State.recordIs State.moveDesign
    split <;> rfl

/-- What the stage rule does with a garment bound to an order being cancelled. -/
theorem staged_stageRule (ok : s.orders.slots.wf = true) : s.Staged pos g b (s.stageRule tag) := by
  unfold State.stageRule
  rw [live]
  dsimp only
  split
  · rename_i spoiled
    exact staged_unbind bound closed live fun _ fit => by rw [spoiled] at fit; cases fit
  · rename_i fit
    have fit : g.spoiled = false := by simpa using fit
    cases choice : s.sched.choose (s.candidates .all g.sku g.designWanted) with
    | none =>
      have run : s.chooseAndBind tag .all = (s, false) := by
        unfold State.chooseAndBind
        simp only [live, choice]
      rw [run]
      exact staged_unbind bound closed live fun safe _ => choose_none ok safe choice
    | some r =>
      obtain ⟨x, sched⟩ := r
      have run : (s.chooseAndBind tag .all).2 = true := by
        unfold State.chooseAndBind
        simp only [live, choice]
      rw [if_pos run]
      exact staged_bind bound closed live ok fit choice

end Taken

end Sys2Proof.Machine
end

section
/-! SUPPORT. CANCEL ORDER (R40 to R42, R57 to R59). -/

namespace Sys2Proof.Machine

variable {s t u w : State} {c : HostCmd} {payload : List Byte}

/-! ## The garments of a cancelled order -/

/-- The garments of some tags taken up one after another by the stage rule at the cancellation of a slot's order: every
other record stands, and each of theirs is unbound where no line then wants it, or bound to a line of another order. -/
structure State.TakenUp (s : State) (slot : Nat) (tags : List Tag) (t : State) : Prop where
  quiet : Quiet s t
  binds : Binds s t
  wanes : s.Wanes t
  pulses : s.SamePulses t
  free : ∀ pos, s.garments.records.find pos = none → t.garments.records.find pos = none
  others : ∀ pos g, s.garments.records.find pos = some g → g.tag ∉ tags → t.garments.records.find pos = some g
  taken : ∀ pos g, s.garments.records.find pos = some g → g.tag ∈ tags →
    (t.garments.records.find pos = some { g with binding := none } ∧
      (g.spoiled = false → ∀ k i x l, ¬ t.Wants .all g.sku g.designWanted k i x l)) ∨
    (g.spoiled = false ∧ ∃ k i x l, k ≠ slot ∧ s.Wants .all g.sku g.designWanted k i x l ∧
      t.garments.records.find pos = some (s.boundRecord g ⟨k, i⟩ l.design))

theorem takenUp_nil (s : State) (slot : Nat) : s.TakenUp slot [] s :=
  ⟨.refl s, .refl s, .refl s, ⟨rfl, rfl, fun _ => rfl⟩, fun _ h => h, fun _ _ h _ => h, fun _ _ _ m => by cases m⟩

/-- The record of a garment that the stage rule has taken up, at its own position; every other position stands. -/
theorem State.Staged.find {pos : Nat} {g : Garment} {b : Binding} (h : s.Staged pos g b t) :
    (∀ p, p ≠ pos → t.garments.records.find p = s.garments.records.find p) ∧
      ∃ x, t.garments.records.find pos = some x := by
  have put {x : Garment} (r : s.recordIs pos x t) : (∀ p, p ≠ pos → t.garments.records.find p =
      s.garments.records.find p) ∧ ∃ x, t.garments.records.find pos = some x := by
    rw [r]
    exact ⟨fun p other => find_put_ne _ other _, x, find_put_same ..⟩
  rcases h.record with ⟨r, -⟩ | ⟨-, _, _, _, _, -, -, r⟩
  · exact put r
  · exact put r

theorem closed_of_binds {slot : Nat} (h : Binds s t) (closed : ∀ o, s.order slot = some o → o.state = .cancelling) :
    ∀ o, t.order slot = some o → o.state = .cancelling := by
  intro o listed
  have shape := h.shape slot
  rw [listed] at shape
  obtain ⟨x, before, same⟩ := Option.map_eq_some_iff.mp shape.symm
  have := closed x before
  have state : x.clearF.state = o.clearF.state := by rw [same]
  exact state.symm.trans this

theorem takenUp_foldl {slot : Nat} (tags : List Tag) (nodup : tags.Nodup) (s : State) (tables : TablesOk s)
    (single : TagsSafe s) (safe : s.sched.Safe) (closed : ∀ o, s.order slot = some o → o.state = .cancelling)
    (bound : ∀ tag ∈ tags, ∃ pos g i, s.findTag tag = some (pos, g) ∧ g.binding = some ⟨slot, i⟩) :
    s.TakenUp slot tags (tags.foldl State.stageRule s) := by
  induction tags generalizing s with
  | nil => exact takenUp_nil s slot
  | cons tag tags ih =>
    obtain ⟨notIn, nodup⟩ := List.nodup_cons.mp nodup
    obtain ⟨pos, g, i, live, binding⟩ := bound tag List.mem_cons_self
    obtain ⟨listed, named, -⟩ := findTag_some live
    rw [List.foldl_cons]
    have staged := staged_stageRule binding closed live tables.slots
    generalize s.stageRule tag = u at staged ⊢
    obtain ⟨apart, mine⟩ := staged.find
    have elsewhere : ∀ p h, s.garments.records.find p = some h → h.tag ∈ tags → p ≠ pos := by
      rintro p h at_ m rfl
      rw [listed] at at_
      cases at_
      exact notIn (named ▸ m)
    have rest := ih nodup u (staged.quiet.tables tables) (staged.quiet.tags single)
      (staged.quiet.sched safe) (closed_of_binds staged.binds closed) fun y hy => by
        obtain ⟨p, h, j, at_, binding'⟩ := bound y (List.mem_cons_of_mem _ hy)
        obtain ⟨listed', named', -⟩ := findTag_some at_
        have still : u.garments.records.find p = some h :=
          (apart p (elsewhere p h listed' (named' ▸ hy))).trans listed'
        exact ⟨p, h, j, named' ▸ findTag_of_find (staged.quiet.tags single) still, binding'⟩
    generalize tags.foldl State.stageRule u = t at rest ⊢
    have unwanted {sku : Nat} {design : Option Nat} (no : ∀ k i x l, ¬ s.Wants .all sku design k i x l) :
        ∀ k i x l, ¬ t.Wants .all sku design k i x l := fun k i x l wants => by
      obtain ⟨y, z, before, -⟩ := (staged.wanes.trans rest.wanes).wants wants
      exact no _ _ _ _ before
    refine ⟨staged.quiet.trans rest.quiet, staged.binds.trans rest.binds, staged.wanes.trans rest.wanes,
      staged.pulses.trans rest.pulses, fun p free => ?_, fun p h at_ not => ?_, fun p h at_ m => ?_⟩
    · exact rest.free p ((apart p (by rintro rfl; rw [listed] at free; cases free)).trans free)
    · have other : p ≠ pos := by
        rintro rfl
        rw [listed] at at_
        cases at_
        exact not (named ▸ List.mem_cons_self)
      exact rest.others p h ((apart p other).trans at_) fun m => not (List.mem_cons_of_mem _ m)
    · rcases List.mem_cons.mp m with here | later
      · have same : p = pos := (single.single p pos h g at_ listed (here.trans named.symm))
        subst same
        rw [listed] at at_
        cases at_
        rcases staged.record with ⟨r, no⟩ | ⟨fit, k, j, x, l, other, wants, r⟩
        · have now : u.garments.records.find p = some { g with binding := none } := by rw [r]; exact find_put_same ..
          exact .inl ⟨rest.others p _ now (show g.tag ∉ tags from here ▸ notIn), fun fit => unwanted (no safe fit)⟩
        · have now : u.garments.records.find p = some (s.boundRecord g ⟨k, j⟩ l.design) := by
            rw [r]
            exact find_put_same ..
          exact .inr ⟨fit, k, j, x, l, other, wants, rest.others p _ now (show g.tag ∉ tags from here ▸ notIn)⟩
      · rcases rest.taken p h ((apart p (elsewhere p h at_ later)).trans at_) later with done | ⟨fit, k, j, x, l, other, wants, r⟩
        · exact .inl done
        · obtain ⟨y, z, before, design⟩ := staged.wanes.wants wants
          rw [staged.pulses.boundRecord, ← design] at r
          exact .inr ⟨fit, k, j, y, z, other, before, r⟩

theorem namedInVerdict_iff (s : State) (tag : Tag) :
    s.namedInVerdict tag = true ↔ ∃ l v, s.verdictOf l = some v ∧ v.tag = tag := by
  unfold State.namedInVerdict
  rw [List.any_eq_true]
  constructor
  · rintro ⟨l, -, h⟩
    unfold State.namedBy at h
    split at h
    · rename_i v listed
      exact ⟨l, v, listed, by simpa using h⟩
    · cases h
  · rintro ⟨l, v, listed, same⟩
    refine ⟨l, mem_linkAll l, ?_⟩
    unfold State.namedBy
    simp [listed, same]

theorem boundTo_iff (slot : Nat) (g : Garment) : g.boundTo slot = true ↔ ∃ b, g.binding = some b ∧ b.slot = slot := by
  unfold Garment.boundTo
  cases g.binding <;> simp

section Tags

variable (tables : TablesOk s) (single : TagsSafe s)
include tables single

theorem nodup_tagsInLoadOrder (keep : Garment → Bool) : (s.tagsInLoadOrder keep).Nodup := by
  obtain ⟨members, order⟩ := tagsInLoadOrder_spec tables.records single keep
  refine order.imp_of_mem fun {a b} ma _ before same => ?_
  subst same
  obtain ⟨p, g, listed, named, -⟩ := (members a).mp ma
  rcases before p g p g listed named listed named with x | ⟨-, x⟩
  · exact Nat.lt_irrefl _ x
  · exact Nat.lt_irrefl _ x

theorem mem_cancelTags {slot : Nat} {tag : Tag} : tag ∈ s.cancelTags slot ↔ ∃ pos g,
    s.garments.records.find pos = some g ∧ g.tag = tag ∧ g.boundTo slot = true ∧ s.namedInVerdict g.tag = false := by
  unfold State.cancelTags
  rw [List.mem_append, (tagsInLoadOrder_spec tables.records single _).1, (tagsInLoadOrder_spec tables.records single _).1]
  constructor
  · rintro (⟨pos, g, listed, named, keep⟩ | ⟨pos, g, listed, named, keep⟩)
    all_goals
      simp only [Bool.and_eq_true, Bool.not_eq_true'] at keep
      exact ⟨pos, g, listed, named, keep.1.1, keep.1.2⟩
  · rintro ⟨pos, g, listed, named, bound, unnamed⟩
    by_cases printed : g.stage = .printed
    · exact .inl ⟨pos, g, listed, named, by simp [bound, unnamed, printed]⟩
    · exact .inr ⟨pos, g, listed, named, by simp [bound, unnamed, printed]⟩

theorem nodup_cancelTags (slot : Nat) : (s.cancelTags slot).Nodup := by
  unfold State.cancelTags
  refine List.Nodup.append (nodup_tagsInLoadOrder tables single _) (nodup_tagsInLoadOrder tables single _) ?_
  intro tag first second
  obtain ⟨p, g, listed, named, keep⟩ := ((tagsInLoadOrder_spec tables.records single _).1 tag).mp first
  obtain ⟨q, h, listed', named', keep'⟩ := ((tagsInLoadOrder_spec tables.records single _).1 tag).mp second
  have same := single.single p q g h listed listed' (named.trans named'.symm)
  subst same
  rw [listed] at listed'
  cases listed'
  simp only [Bool.and_eq_true, beq_iff_eq, bne_iff_ne] at keep keep'
  exact keep'.2 keep.2

end Tags

theorem cancelTags_nil {slot : Nat} (none : ∀ g ∈ s.liveGarments, g.boundTo slot = false) : s.cancelTags slot = [] := by
  have empty (keep : Garment → Bool) (h : ∀ g ∈ s.liveGarments, keep g = false) : s.tagsInLoadOrder keep = [] := by
    unfold State.tagsInLoadOrder
    rw [List.filter_eq_nil_iff.mpr fun g m => by simp [h g m]]
    rfl
  unfold State.cancelTags
  rw [empty _ fun g m => by simp [none g m], empty _ fun g m => by simp [none g m], List.append_nil]

/-! ## The freeing of a slot -/

theorem freeSlot_of_order {slot : Nat} {o : Order} (listed : s.order slot = some o) : s.freeSlot slot =
    State.raise { o.lines.foldl (State.countLine down1) (s.returnCells o.lines.length) with
      orders := { s.orders with
        slots := s.orders.slots.erase slot, freeCells := s.orders.freeCells + o.lines.length } } .orderFreed := by
  unfold State.freeSlot
  rw [listed]
  dsimp only
  rw [countLines_eq]
  rfl

theorem find_freeSlot_design {slot : Nat} {o : Order} (listed : s.order slot = some o) (d : Nat) :
    (s.freeSlot slot).refs.designs.find d = (s.refs.designs.find d).map fun e =>
      { e with count := e.count - (o.lines.filter fun l => l.design = d).length } := by
  rw [freeSlot_of_order listed]
  simp only [← down1_iterate]
  exact find_countLines_design down1 o.lines (s.returnCells o.lines.length) d

theorem find_freeSlot_sku {slot : Nat} {o : Order} (listed : s.order slot = some o) (k : Nat) :
    (s.freeSlot slot).refs.skus.find k = (s.refs.skus.find k).map fun e =>
      { e with count := e.count - (o.lines.filter fun l => l.sku = k).length } := by
  rw [freeSlot_of_order listed]
  simp only [← down1_iterate]
  exact find_countLines_sku down1 o.lines (s.returnCells o.lines.length) k

theorem sameBut_freeSlot (s : State) (slot : Nat) : s.sameBut [.orders, .refs, .causes] (s.freeSlot slot) := by
  cases listed : s.order slot with
  | none =>
    unfold State.freeSlot
    rw [listed]
    constructor <;> intros <;> simp_all
  | some o =>
    rw [freeSlot_of_order listed, countLines_eq]
    constructor <;> intros <;> simp_all [State.raise, State.returnCells]

theorem sameBut_drainTest (s : State) (slot : Nat) : s.sameBut [.orders, .refs, .causes] (s.drainTest slot) := by
  rcases drainTest_cases s slot with ⟨e, -⟩ | ⟨o, -, -, e⟩
  · rw [e]
    constructor <;> intros <;> simp_all
  · rw [e]
    exact sameBut_freeSlot s slot

theorem cells_drainTest (s : State) (slot : Nat) : s.orders.freeCells ≤ (s.drainTest slot).orders.freeCells := by
  rw [drainTest_cells]
  exact Nat.le_add_right ..

theorem over_freeSlot (s t : State) (slot : Nat) : (s.over t).freeSlot slot = (s.freeSlot slot).over t := by
  unfold State.freeSlot
  rw [order_over]
  split
  · rfl
  · rw [show ∀ n, (s.over t).returnCells n = (s.returnCells n).over t from fun _ => rfl, over_countLines]
    rfl

theorem over_drainTest (s t : State) (slot : Nat) : (s.over t).drainTest slot = (s.drainTest slot).over t := by
  unfold State.drainTest
  rw [order_over]
  split
  · rfl
  · split
    · exact over_freeSlot ..
    · rfl

/-! ## The order and its bin at a cancellation -/

theorem voidBin_eq (s : State) (b : Option Nat) :
    s.voidBin b = { s with bins.records := (s.voidBin b).bins.records } := by
  unfold State.voidBin
  split
  · split <;> rfl
  · rfl

theorem bin_voidBin (s : State) (b : Option Nat) (k : Nat) : (s.voidBin b).bin k =
    if b = some k ∧ (s.bin k).state = .filling then { s.bin k with state := .void } else s.bin k := by
  unfold State.voidBin
  cases b with
  | none => simp
  | some j =>
    dsimp only
    by_cases filling : (s.bin j).state = .filling
    · rw [if_pos filling, bin_setBin]
      by_cases same : k = j
      · subst same
        simp [filling]
      · simp [same, Ne.symm same]
    · rw [if_neg filling]
      split
      · rename_i h
        obtain ⟨e, f⟩ := h
        cases e
        exact absurd f filling
      · rfl

theorem over_voidBin (s t : State) (b : Option Nat) : (s.over t).voidBin b = (s.voidBin b).over t := by
  unfold State.voidBin
  split
  · rw [show ∀ k, (s.over t).bin k = s.bin k from fun _ => rfl]
    split <;> rfl
  · rfl

/-- The state once a slot's order is being cancelled and a FILLING bin of it is VOID, before its garments are taken up. -/
def State.closing (s : State) (slot : Nat) (o : Order) : State :=
  (s.modifyOrder slot fun o => { o with state := .cancelling }).voidBin o.bin

theorem cancel_eq (s : State) (slot : Nat) (o : Order) : s.cancel slot o =
    (((s.closing slot o).cancelTags slot).foldl State.stageRule (s.closing slot o)).drainTest slot := rfl

theorem closing_eq (s : State) (slot : Nat) (o : Order) : s.closing slot o = { s with
    orders := (s.modifyOrder slot fun o => { o with state := .cancelling }).orders
    bins.records := (s.closing slot o).bins.records } := by
  unfold State.closing
  rw [voidBin_eq]
  rfl

theorem over_cancel (s t : State) (slot : Nat) (o : Order) : (s.over t).cancel slot o = (s.cancel slot o).over t := by
  unfold State.cancel
  rw [over_modifyOrder, over_voidBin]
  generalize (s.modifyOrder slot _).voidBin o.bin = z
  dsimp only
  rw [show (z.over t).cancelTags slot = z.cancelTags slot from rfl, over_foldl fun s a => over_stageRule s t a]
  exact over_drainTest ..

theorem order_closing (s : State) (slot : Nat) (o : Order) (k : Nat) : (s.closing slot o).order k =
    if k = slot then (s.order slot).map fun o => { o with state := .cancelling } else s.order k := by
  rw [closing_eq]
  exact order_modifyOrder ..

theorem closing_closed (s : State) (slot : Nat) (o : Order) {x : Order} (h : (s.closing slot o).order slot = some x) :
    x.state = .cancelling := by
  rw [order_closing, if_pos rfl] at h
  obtain ⟨y, -, rfl⟩ := Option.map_eq_some_iff.mp h
  rfl

theorem wanes_closing (s : State) (slot : Nat) (o : Order) : s.Wanes (s.closing slot o) := by
  have first : s.Wanes (s.modifyOrder slot fun o => { o with state := .cancelling }) :=
    wanes_modifyOrder_of_closed fun _ _ => by simp
  refine first.trans (.of_orders fun k => ?_)
  rw [order_closing, order_modifyOrder]

theorem quiet_closing (s : State) (slot : Nat) (o : Order) : Quiet s (s.closing slot o) :=
  (quiet_modifyOrder s slot _).trans (quiet_voidBin ..)

theorem cancelTags_closing (s : State) (slot : Nat) (o : Order) : (s.closing slot o).cancelTags slot = s.cancelTags slot := by
  rw [closing_eq]
  rfl

theorem sameBut_closing (s : State) (slot : Nat) (o : Order) : s.sameBut [.orders, .bins] (s.closing slot o) := by
  rw [closing_eq]
  constructor <;> intros <;> simp_all

theorem cells_closing (s : State) (slot : Nat) (o : Order) :
    (s.closing slot o).orders.freeCells = s.orders.freeCells := by
  rw [closing_eq]
  rfl

theorem binds_stageRules (tags : List Tag) (s : State) : Binds s (tags.foldl State.stageRule s) := by
  induction tags generalizing s with
  | nil => exact .refl s
  | cons tag tags ih => exact (binds_stageRule s tag).trans (ih _)

/-! ## The command -/

theorem sameBut_cancel (s : State) (slot : Nat) (o : Order) :
    s.sameBut [.garments, .orders, .sched, .refs, .bins, .causes] (s.cancel slot o) := by
  rw [cancel_eq]
  refine sameBut_trans (sameBut_closing s slot o) (b := [.garments, .orders, .sched, .refs, .causes]) ?_ (by decide)
    (by decide)
  exact sameBut_trans (binds_stageRules ..).sameBut (sameBut_drainTest ..) (by decide) (by decide)

theorem cells_cancel (s : State) (slot : Nat) (o : Order) : s.orders.freeCells ≤ (s.cancel slot o).orders.freeCells := by
  rw [cancel_eq, ← cells_closing s slot o, ← (binds_stageRules ((s.closing slot o).cancelTags slot) _).cells]
  exact cells_drainTest ..

theorem bin_cancel {slot : Nat} {o : Order} (k : Nat) : (s.cancel slot o).bin k =
    if o.bin = some k ∧ (s.bin k).state = .filling then { s.bin k with state := .void } else s.bin k := by
  have bins : (s.cancel slot o).bins = (s.closing slot o).bins := by
    rw [cancel_eq, (sameBut_drainTest ..).bins (by decide), (binds_stageRules ..).bins]
  have read : (s.cancel slot o).bin k = (s.closing slot o).bin k := by
    unfold State.bin
    rw [bins]
  rw [read]
  exact bin_voidBin (s.modifyOrder slot _) o.bin k

theorem order_cancel {slot : Nat} {o x : Order} (listed : s.order slot = some o)
    (h : (s.cancel slot o).order slot = some x) : x.clearF = Order.clearF { o with state := .cancelling } := by
  rw [cancel_eq, drainTest_order] at h
  obtain ⟨y, before, drained⟩ := Option.bind_eq_some_iff.mp h
  split at drained
  · cases drained
  cases drained
  have shape := (binds_stageRules ((s.closing slot o).cancelTags slot) (s.closing slot o)).shape slot
  rw [before, order_closing, if_pos rfl, listed] at shape
  simpa using shape

theorem finish_of_more (ring : t.ring = s.ring) (limits : t.limits = s.limits)
    (cells : s.orders.freeCells ≤ t.orders.freeCells) : t.finish s = t := by
  rw [finish_of_ring ring, checkCells_eq, if_neg (by rw [limits]; omega)]

theorem runCancelOrder_unknown (h : s.findOrder (field payload 0 4) = none) :
    runCancelOrder payload s = s.refusing .notFound := by
  unfold runCancelOrder
  rw [h]

theorem runCancelOrder_known {slot : Nat} {o : Order} (h : s.findOrder (field payload 0 4) = some (slot, o)) :
    runCancelOrder payload s = if o.state = .complete ∨ o.state = .cancelling then s.refusing .badState
      else (s.cancel slot o, accepted (beBytes 2 ((s.cancel slot o).liveGarments.filter (Garment.boundTo slot)).length ++
        yesByte ((s.cancel slot o).order slot).isNone)) := by
  unfold runCancelOrder
  rw [h]

theorem cancel_carries (ready : s.PortReady) (length : payload.length = 4) {slot : Nat} {o : Order}
    (known : s.findOrder (field payload 0 4) = some (slot, o)) (complete : o.state ≠ .complete)
    (new : o.state ≠ .cancelling) : ∃ u, Carries .cancelOrder payload s u (accepted
      (beBytes 2 ((s.cancel slot o).liveGarments.filter (Garment.boundTo slot)).length ++
        yesByte ((s.cancel slot o).order slot).isNone)) ∧ (s.cancel slot o).sameLine u := by
  have same := sameBut_cancel s slot o
  obtain ⟨-, kept, -, shifted⟩ := same.transport (by decide)
  refine carries_of_done ready (by omega) (by simp [HostCmd.lengthFits, length]) ?_
    (finish_of_more (same.ring (by decide)) (same.limits (by decide)) (cells_cancel s slot o))
  show runCancelOrder payload (s.taken .cancelOrder payload) = _
  rw [runCancelOrder_known (s := s.taken .cancelOrder payload) known, if_neg (by simp [complete, new]), ← taken_over,
    over_cancel, ← over_taken kept shifted]
  rfl

/-- The garments of a cancelled order, one by one. -/
theorem takenUp_cancel (tables : TablesOk s) (single : TagsSafe s) (safe : s.sched.Safe) {slot : Nat} {o : Order} :
    (s.closing slot o).TakenUp slot (s.cancelTags slot)
      ((s.cancelTags slot).foldl State.stageRule (s.closing slot o)) := by
  have quiet := quiet_closing s slot o
  refine takenUp_foldl _ (nodup_cancelTags tables single slot) _ (quiet.tables tables) (quiet.tags single)
    (quiet.sched safe) (fun x h => closing_closed s slot o h) fun tag m => ?_
  obtain ⟨pos, g, listed, rfl, bound, -⟩ := (mem_cancelTags tables single).mp m
  obtain ⟨b, binding, rfl⟩ := (boundTo_iff slot g).mp bound
  refine ⟨pos, g, b.line, ?_, binding⟩
  have := findTag_of_find single listed
  rw [closing_eq]
  exact this

/-- A garment's record after a cancellation (R57 to R59). -/
theorem cancel_records (tables : TablesOk s) (single : TagsSafe s) (safe : s.sched.Safe) (slot : Nat) (o : Order) :
    let named := fun (g : Garment) => ∃ l v, s.verdictOf l = some v ∧ v.tag = g.tag
    let ofOrder := fun (g : Garment) => ∃ b, g.binding = some b ∧ b.slot = slot
    let u := s.cancel slot o
    (∀ pos g, u.garments.records.find pos = some g → ofOrder g → named g) ∧
    ∀ pos g, s.garments.records.find pos = some g →
      (named g ∨ ¬ ofOrder g → u.garments.records.find pos = some g) ∧
      (ofOrder g → ¬ named g → (u.garments.records.find pos = some { g with binding := none } ∧
          (g.spoiled = false → ∀ k i x l, ¬ u.Wants .all g.sku g.designWanted k i x l)) ∨
        (g.spoiled = false ∧ ∃ k i x l, k ≠ slot ∧ s.Wants .all g.sku g.designWanted k i x l ∧
          u.garments.records.find pos = some (s.boundRecord g ⟨k, i⟩ l.design))) := by
  intro named ofOrder u
  have up := takenUp_cancel tables single safe (slot := slot) (o := o)
  have start : (s.closing slot o).garments = s.garments := by rw [closing_eq]
  have refs : (s.closing slot o).refs = s.refs ∧ (s.closing slot o).meter = s.meter := by
    rw [closing_eq]
    exact ⟨rfl, rfl⟩
  have pulses : s.SamePulses (s.closing slot o) :=
    ⟨by rw [refs.1], refs.2, fun d => by unfold State.designEntry; rw [refs.1]⟩
  have drain : u = (((s.cancelTags slot).foldl State.stageRule (s.closing slot o))).drainTest slot := by
    rw [← cancelTags_closing s slot o]
    rfl
  generalize (s.cancelTags slot).foldl State.stageRule (s.closing slot o) = w at up drain
  have records : u.garments = w.garments := by rw [drain, (sameBut_drainTest w slot).garments (by decide)]
  have later : w.Wanes u := drain ▸ wanes_drainTest w slot
  rw [records]
  have member {pos : Nat} {g : Garment} (listed : s.garments.records.find pos = some g) :
      g.tag ∈ s.cancelTags slot ↔ ofOrder g ∧ ¬ named g := by
    rw [mem_cancelTags tables single]
    constructor
    · rintro ⟨p, h, at_, same, bound, unnamed⟩
      have := single.single p pos h g at_ listed same
      subst this
      rw [listed] at at_
      cases at_
      exact ⟨(boundTo_iff slot g).mp bound, fun n => by
        rw [(namedInVerdict_iff s g.tag).mpr n] at unnamed
        cases unnamed⟩
    · rintro ⟨bound, unnamed⟩
      exact ⟨pos, g, listed, rfl, (boundTo_iff slot g).mpr bound,
        Bool.eq_false_iff.mpr fun n => unnamed ((namedInVerdict_iff s g.tag).mp n)⟩
  have each : ∀ pos g, s.garments.records.find pos = some g →
      (named g ∨ ¬ ofOrder g → w.garments.records.find pos = some g) ∧
      (ofOrder g → ¬ named g → (w.garments.records.find pos = some { g with binding := none } ∧
          (g.spoiled = false → ∀ k i x l, ¬ u.Wants .all g.sku g.designWanted k i x l)) ∨
        (g.spoiled = false ∧ ∃ k i x l, k ≠ slot ∧ s.Wants .all g.sku g.designWanted k i x l ∧
          w.garments.records.find pos = some (s.boundRecord g ⟨k, i⟩ l.design))) := by
    intro pos g listed
    have listed' : (s.closing slot o).garments.records.find pos = some g := by rw [start]; exact listed
    refine ⟨fun keeps => up.others pos g listed' fun m => ?_, fun bound unnamed => ?_⟩
    · obtain ⟨bound, unnamed⟩ := (member listed).mp m
      exact keeps.elim unnamed fun not => not bound
    · rcases up.taken pos g listed' ((member listed).mpr ⟨bound, unnamed⟩) with ⟨r, no⟩ | ⟨fit, k, i, x, l, other, wants, r⟩
      · refine .inl ⟨r, fun fit k i x l wants => ?_⟩
        obtain ⟨y, z, before, -⟩ := later.wants wants
        exact no fit _ _ _ _ before
      · obtain ⟨y, z, before, design⟩ := (wanes_closing s slot o).wants wants
        rw [pulses.boundRecord, ← design] at r
        exact .inr ⟨fit, k, i, y, z, other, before, r⟩
  refine ⟨fun pos g now bound => ?_, each⟩
  cases before : s.garments.records.find pos with
  | none =>
    rw [up.free pos (by rw [start]; exact before)] at now
    cases now
  | some g' =>
    obtain ⟨keeps, moves⟩ := each pos g' before
    by_cases free : named g' ∨ ¬ ofOrder g'
    · rw [keeps free] at now
      cases now
      exact free.resolve_right (not_not.mpr bound)
    · simp only [not_or, not_not] at free
      obtain ⟨b, binding, here⟩ := bound
      rcases moves free.2 free.1 with ⟨r, -⟩ | ⟨-, k, i, x, l, other, -, r⟩
      · rw [r] at now
        cases now
        cases binding
      · rw [r] at now
        cases now
        cases binding
        exact absurd here other

theorem drained_iff (o : Order) :
    o.drained = true ↔ o.state = .cancelling ∧ (∀ l ∈ o.lines, l.inFlight = 0) ∧ o.bin = none := by
  unfold Order.drained Order.idle
  simp [and_assoc]

theorem drainTest_of_drained {slot : Nat} {o : Order} (listed : s.order slot = some o) (drained : o.drained = true) :
    s.drainTest slot = s.freeSlot slot := by
  unfold State.drainTest
  rw [listed]
  exact if_pos drained

theorem drainTest_of_not {slot : Nat} {o : Order} (listed : s.order slot = some o) (not : o.drained = false) :
    s.drainTest slot = s := by
  unfold State.drainTest
  rw [listed]
  exact if_neg (by simp [not])

section Unbound

variable {slot : Nat} {o : Order} (unbound : ∀ g ∈ s.liveGarments, g.boundTo slot = false)
include unbound

/-- A cancellation with no garment bound to the order: no garment is taken up. -/
theorem cancel_of_unbound : s.cancel slot o = (s.closing slot o).drainTest slot := by
  rw [cancel_eq, cancelTags_closing, cancelTags_nil unbound]
  rfl

variable (listed : s.order slot = some o)
include listed

theorem cancel_unbound_stands {bin : Nat} (named : o.bin = some bin) : s.cancel slot o = s.closing slot o := by
  rw [cancel_of_unbound unbound]
  refine drainTest_of_not (o := { o with state := .cancelling }) ?_ ?_
  · rw [order_closing, if_pos rfl, listed]
    rfl
  · refine Bool.eq_false_iff.mpr fun drained => ?_
    obtain ⟨-, -, free⟩ := (drained_iff _).mp drained
    exact absurd (named.symm.trans free) (by simp)

theorem cancel_unbound_frees (idle : ∀ l ∈ o.lines, l.inFlight = 0) (noBin : o.bin = none) :
    s.cancel slot o = (s.closing slot o).freeSlot slot := by
  rw [cancel_of_unbound unbound]
  refine drainTest_of_drained (o := { o with state := .cancelling }) ?_ ((drained_iff _).mpr ⟨rfl, idle, noBin⟩)
  rw [order_closing, if_pos rfl, listed]
  rfl

end Unbound

/-- Settles O26. -/
theorem cancelOrderCancelsTheOrder : Obligations.CancelOrderCancelsTheOrder := by
  unfold Obligations.CancelOrderCancelsTheOrder
  intro s payload ready tables safe length
  refine ⟨fun unknown => ?_, fun slot o known => ⟨fun shut => ?_, fun complete new => ?_⟩⟩
  · exact carries_of_answer ready (by omega) (by simp [HostCmd.lengthFits, length]) (runCancelOrder_unknown unknown)
  · refine carries_of_answer ready (by omega) (by simp [HostCmd.lengthFits, length]) ?_
    exact (runCancelOrder_known (s := s.taken _ payload) known).trans (if_pos shut)
  have listed := order_of_findOrder tables.slots known
  obtain ⟨u, carries, same⟩ := cancel_carries ready length known complete new
  have garments := sameLine_garments same
  have at_ : ∀ k, u.order k = (s.cancel slot o).order k := fun k => by
    unfold State.order
    rw [sameLine_orders same]
  have live : u.liveGarments = (s.cancel slot o).liveGarments := by
    unfold State.liveGarments
    rw [garments]
  rw [← live, ← at_, yesByte_eq] at carries
  refine ⟨u, carries, fun x h => ?_, fun k => ?_, ?_, fun single => ?_, fun unbound idle => ?_⟩
  · exact eq_of_clearF (order_cancel listed ((at_ slot).symm.trans h))
  · unfold State.bin
    rw [sameLine_bins same]
    exact bin_cancel k
  · exact sameBut_of_sameLine same (sameBut_widen (sameBut_cancel s slot o) (by decide)) (by decide)
  · intro named ofOrder
    obtain ⟨all, each⟩ := cancel_records tables single safe slot o
    rw [garments]
    refine ⟨all, fun pos g found => ?_⟩
    obtain ⟨keeps, moves⟩ := each pos g found
    intro design
    refine ⟨keeps, fun bound unnamed => (moves bound unnamed).imp_left fun ⟨r, no⟩ => ⟨r, fun fit k i x l wants => ?_⟩⟩
    exact no fit k i x l { wants with order := (at_ k).symm.trans wants.order }
  · have free : ∀ g ∈ s.liveGarments, g.boundTo slot = false := fun g m => Bool.eq_false_iff.mpr fun bound => by
      obtain ⟨b, binding, here⟩ := (boundTo_iff slot g).mp bound
      exact unbound g m b binding here
    have closing := sameBut_closing s slot o
    have drain := sameBut_drainTest (s.closing slot o) slot
    rw [cancel_of_unbound free] at same at_
    refine ⟨(sameLine_garments same).trans ((drain.garments (by decide)).trans (closing.garments (by decide))),
      (sameLine_sched same).trans ((drain.sched (by decide)).trans (closing.sched (by decide))), fun k other => ?_,
      fun noBin => ?_, fun bin named => ?_⟩
    · rw [at_, drainTest_order_ne _ other, order_closing, if_neg other]
    · have now : (s.closing slot o).order slot = some { o with state := .cancelling } := by
        rw [order_closing, if_pos rfl, listed]
        rfl
      rw [← cancel_of_unbound free, cancel_unbound_frees free listed idle noBin] at same at_
      have refs : (s.closing slot o).refs = s.refs := closing.refs (by decide)
      refine ⟨?_, ?_, ?_, ?_, fun d => ?_, fun k => ?_⟩
      · rw [at_, freeSlot_of_order now]
        exact (find_erase ..).trans (if_pos rfl)
      · rw [sameLine_orders same, freeSlot_of_order now, ← cells_closing s slot o]
        rfl
      · rw [sameLine_causes same, freeSlot_of_order now, countLines_eq, ← closing.causes (by decide)]
        rfl
      · rw [sameLine_bins same, (sameBut_freeSlot ..).bins (by decide)]
        unfold State.closing State.voidBin
        rw [noBin]
        rfl
      · rw [sameLine_refs same, find_freeSlot_design now, refs]
      · rw [sameLine_refs same, find_freeSlot_sku now, refs]
    · rw [← cancel_of_unbound free, cancel_unbound_stands free listed named] at same at_
      refine ⟨?_, ?_, ?_, ?_, fun k => ?_⟩
      · rw [at_, order_closing, if_pos rfl, listed]
        rfl
      · rw [sameLine_orders same, cells_closing]
      · rw [sameLine_refs same, closing.refs (by decide)]
      · rw [sameLine_causes same, closing.causes (by decide)]
      · have read : u.bin k = (s.closing slot o).bin k := by
          unfold State.bin
          rw [sameLine_bins same]
        have void : (s.closing slot o).bin k = _ := bin_voidBin (s.modifyOrder slot _) o.bin k
        rw [read, void, named]
        by_cases here : k = bin
        · subst here
          simp only [true_and]
          rfl
        · simp only [Option.some.injEq, Ne.symm here, here, false_and, if_false]
          rfl

end Sys2Proof.Machine
end

section
/-! SUPPORT. Retirement: the record gone, the end of its binding, and RETIRE GARMENT (R16 to R20, R24). -/

namespace Sys2Proof.Machine

variable {s t u w : State} {c : HostCmd} {payload : List Byte}

/-! ## What a lane handed out leaves -/

theorem serveWait_eq (s : State) : s.serveWait =
    { s with cure.lanes := s.serveWait.cure.lanes, stations := s.serveWait.stations, sent := s.serveWait.sent } := by
  unfold State.serveWait
  split
  · split <;> rfl
  · rfl

theorem verdictTag_serveWait (s : State) (l : Link) :
    (s.serveWait.verdictOf l).map (·.tag) = (s.verdictOf l).map (·.tag) := by
  unfold State.serveWait
  split
  · rename_i r k open_ lane
    split
    · unfold State.verdictOf
      by_cases here : l = .unload
      · subst here
        have tag : ((s.station .unload).verdict).map (·.tag) = some r.tag := congrArg (Option.map (·.tag)) open_
        rw [tag]
        show ((((s.reserveLane k r.tag).openRecord .unload (r.toBelt k)).station .unload).verdict).map _ = _
        unfold State.openRecord
        rw [station_modifyStation]
        rfl
      · show ((((s.reserveLane k r.tag).openRecord .unload (r.toBelt k)).station l).verdict).map _ = _
        unfold State.openRecord
        rw [station_modifyStation_ne _ here]
        rfl
    · rfl
  · rfl

theorem names_iff (s : State) (tag : Tag) :
    (∃ l v, s.verdictOf l = some v ∧ v.tag = tag) ↔ ∃ l, (s.verdictOf l).map (·.tag) = some tag := by
  simp only [Option.map_eq_some_iff]

/-- The state once a record has gone and a lane that is then free has been handed out. -/
def State.gone (s : State) (reason : Reason) (e : Nat × Garment) : State :=
  (State.removeRecord reason s e).serveWait

theorem retire_eq (reason : Reason) {tag : Tag} {pos : Nat} {g : Garment} (live : s.findTag tag = some (pos, g)) :
    s.retire reason tag = (s.gone reason (pos, g)).endBinding reason g.binding := by
  unfold State.retire
  rw [live]
  rfl

section Gone

variable (s) (reason : Reason) (pos : Nat) (g : Garment)

theorem gone_garments :
    (s.gone reason (pos, g)).garments = { s.garments with records := s.garments.records.erase pos } := by
  unfold State.gone
  rw [serveWait_eq, (removed_removeRecord s reason pos g).rest]

theorem gone_refs : (s.gone reason (pos, g)).refs = (s.countGarment g (· - 1)).refs := by
  unfold State.gone
  rw [serveWait_eq, (removed_removeRecord s reason pos g).rest]
  rfl

theorem gone_orders : (s.gone reason (pos, g)).orders = { s.orders with
      freeCells := s.orders.freeCells + (if g.location = .overflow then 1 else 0) + s.heldFor g.tag Link.all } := by
  unfold State.gone
  rw [serveWait_eq, (removed_removeRecord s reason pos g).rest]

theorem gone_order (k : Nat) : (s.gone reason (pos, g)).order k = s.order k := by
  unfold State.order
  rw [gone_orders]

theorem gone_sched : (s.gone reason (pos, g)).sched = s.sched := by
  unfold State.gone
  rw [serveWait_eq, (removed_removeRecord s reason pos g).rest]

theorem gone_port : (s.gone reason (pos, g)).port = (s.raiseReason reason).port := by
  unfold State.gone
  rw [serveWait_eq, (removed_removeRecord s reason pos g).rest]

theorem gone_limits : (s.gone reason (pos, g)).limits = s.limits := by
  unfold State.gone
  rw [serveWait_eq, (removed_removeRecord s reason pos g).rest]

theorem gone_ring : (s.gone reason (pos, g)).ring = { s.ring with platens := (s.gone reason (pos, g)).ring.platens } := by
  unfold State.gone
  rw [serveWait_eq, (removed_removeRecord s reason pos g).rest]

theorem gone_bins : (s.gone reason (pos, g)).bins = { s.bins with
      overflow := if g.location = .overflow then s.bins.overflow.filter (· ≠ g.tag) else s.bins.overflow } := by
  unfold State.gone
  rw [serveWait_eq, (removed_removeRecord s reason pos g).rest]

theorem sameBut_gone : s.sameBut [.garments, .orders, .refs, .stations, .ring, .cure, .bins, .causes, .messages]
    (s.gone reason (pos, g)) := by
  unfold State.gone
  rw [serveWait_eq, (removed_removeRecord s reason pos g).rest]
  have port : (s.raiseReason reason).port = { s.port with causes := (s.raiseReason reason).port.causes } := by
    unfold State.raiseReason
    split <;> rfl
  rw [port]
  constructor <;> intros <;> simp_all

theorem quiet_gone : Quiet s (s.gone reason (pos, g)) := (quiet_removeRecord ..).trans (quiet_serveWait _)

/-- A record's going changes no verdict of another garment's. -/
theorem namesSame_gone : s.namesSame g.tag (s.gone reason (pos, g)) := by
  intro other apart
  rw [names_iff, names_iff]
  have each : ∀ l, ((s.gone reason (pos, g)).verdictOf l).map (·.tag) =
      ((s.verdictOf l).filter fun v => v.tag ≠ g.tag).map (·.tag) := fun l => by
    unfold State.gone
    rw [verdictTag_serveWait]
    unfold State.verdictOf
    rw [(removed_removeRecord s reason pos g).stations]
    rfl
  refine exists_congr fun l => ?_
  rw [each]
  cases s.verdictOf l with
  | none => simp
  | some v =>
    by_cases same : v.tag = g.tag
    · simp [Option.filter, same, apart.symm]
    · simp [Option.filter, same]

end Gone

/-! ## Offerings that bind nothing -/

theorem choose_nil (x : Scheduler) : x.choose [] = none := by
  unfold Scheduler.choose
  split
  · rfl
  · rfl

theorem offer_of_unwanted {set : LineSet} (ok : s.orders.slots.wf = true)
    (unwanted : ∀ sku design slot i o l, ¬ s.Wants set sku design slot i o l) : s.offer set = s := by
  have stays : ∀ tag n, State.offerOne set (s, n) tag = (s, n) := fun tag n => by
    unfold State.offerOne State.chooseAndBind
    split
    · rfl
    · rename_i g _
      rw [(candidates_nil ok).mpr (unwanted g.sku g.designWanted), choose_nil]
      rfl
  unfold State.offer State.offerCounted
  generalize s.orphans = tags, 0 = n
  induction tags generalizing n with
  | nil => rfl
  | cons tag tags ih =>
    rw [List.foldl_cons, stays]
    exact ih n

theorem offer_of_closed {slot i : Nat} (ok : s.orders.slots.wf = true)
    (closed : ∀ o, s.order slot = some o → o.state ≠ .opened ∧ o.state ≠ .filling) : s.offer (.line slot i) = s :=
  offer_of_unwanted ok fun sku design k j o l wants => by
    have here : k = slot := by
      have := wants.inSet
      simp only [LineSet.has, Bool.and_eq_true, beq_iff_eq] at this
      exact this.1
    obtain ⟨not, not'⟩ := closed o (here ▸ wants.order)
    exact wants.taking.elim not not'

theorem offer_nil (none : s.orphans = []) (set : LineSet) : s.offer set = s :=
  congrArg Prod.fst (offerCounted_nil none set)

theorem orphans_nil (bound : ∀ g ∈ s.liveGarments, g.binding = none → g.kind = .test) : s.orphans = [] := by
  have empty (keep : Garment → Bool) (h : ∀ g ∈ s.liveGarments, keep g = false) : s.tagsInLoadOrder keep = [] := by
    unfold State.tagsInLoadOrder
    rw [List.filter_eq_nil_iff.mpr fun g m => by simp [h g m]]
    rfl
  have none : ∀ g ∈ s.liveGarments, s.offerable g = false := fun g m => by
    refine Bool.eq_false_iff.mpr fun can => ?_
    obtain ⟨order, free, -⟩ := offerable_iff.mp can
    rw [bound g m free] at order
    cases order
  unfold State.orphans
  rw [empty _ fun g m => by simp [none g m], empty _ fun g m => by simp [none g m], List.append_nil]

theorem find_offer_none (set : LineSet) {pos : Nat} (free : s.garments.records.find pos = none) :
    (s.offer set).garments.records.find pos = none := by
  have bind (s : State) (tag : Tag) (slot line : Nat) (free : s.garments.records.find pos = none) :
      (s.bindGarment tag slot line).garments.records.find pos = none := by
    unfold State.bindGarment
    split
    · rename_i p g l live _
      show (Table.put (State.moveDesign _ _ _).garments.records p _).find pos = none
      rw [garments_moveDesign, find_put_ne]
      · rw [show ∀ (z : State) a b f, (z.modifyLine a b f).garments = z.garments from fun _ _ _ _ => rfl,
          garments_leaveLine]
        exact free
      · rintro rfl
        rw [(findTag_some live).1] at free
        cases free
    · exact free
  have one (s : State) (tag : Tag) (free : s.garments.records.find pos = none) :
      (s.chooseAndBind tag set).1.garments.records.find pos = none := by
    unfold State.chooseAndBind
    split
    · exact free
    · split
      · exact free
      · exact bind _ _ _ _ free
  unfold State.offer State.offerCounted
  generalize s.orphans = tags, 0 = n
  induction tags generalizing s n with
  | nil => exact free
  | cons tag tags ih => exact ih (one s tag free) _

theorem garments_reexamine (s : State) (slot : Nat) : (s.reexamine slot).garments = s.garments := by
  unfold State.reexamine State.completeOrder
  split
  · rfl
  · split
    · split
      · split
        · rfl
        · show (State.readyBin _ _).garments = _
          rw [readyBin_eq]
          rfl
      · rfl
    · rfl

theorem garments_chargeSpoil (s : State) (slot line : Nat) : (s.chargeSpoil slot line).garments = s.garments := by
  unfold State.chargeSpoil
  split
  · split
    · split
      · rfl
      · split <;> rfl
    · rfl
  · rfl

theorem find_endBinding_none (reason : Reason) (b : Option Binding) {pos : Nat}
    (free : s.garments.records.find pos = none) : (s.endBinding reason b).garments.records.find pos = none := by
  cases b with
  | none => exact free
  | some b =>
    show (State.drainTest _ _).garments.records.find pos = none
    rw [(sameBut_drainTest _ _).garments (by decide)]
    have left : (s.leaveLine (some b)).garments.records.find pos = none := free
    generalize s.leaveLine (some b) = z at left
    cases reason with
    | binned =>
      show (State.reexamine _ _).garments.records.find pos = none
      rw [garments_reexamine]
      exact left
    | rejected => exact find_offer_none _ (by rw [garments_chargeSpoil]; exact left)
    | scrapped => exact find_offer_none _ (by rw [garments_chargeSpoil]; exact left)
    | lost => exact find_offer_none _ left
    | manual => exact find_offer_none _ left
    | testOut => exact left
    | spare => exact left
    | returned => exact left
    | withdrawn => exact left

/-- The position of a retired garment is free, whatever the reason. -/
theorem find_retire (reason : Reason) {tag : Tag} {pos : Nat} {g : Garment} (live : s.findTag tag = some (pos, g)) :
    (s.retire reason tag).garments.records.find pos = none := by
  rw [retire_eq reason live]
  refine find_endBinding_none _ _ ?_
  rw [gone_garments]
  exact (find_erase ..).trans (if_pos rfl)

/-! ## The end of a binding with an offering -/

theorem drained_less_iff (o : Order) (i : Nat) : (o.less i).drained = true ↔ o.LeftEmpty i := by
  rw [drained_iff]
  unfold Order.LeftEmpty
  exact ⟨fun ⟨state, idle, bin⟩ => ⟨state, bin, idle⟩, fun ⟨state, bin, idle⟩ => ⟨state, idle, bin⟩⟩

theorem or_and_field_ne_zero (a : BitVec 16) (c : Cause) : (a ||| c.field) &&& c.field ≠ 0#16 := by
  have absorb : (a ||| c.field) &&& c.field = c.field := by
    ext i
    simp only [BitVec.getElem_and, BitVec.getElem_or]
    cases a[i] <;> cases c.field[i] <;> rfl
  rw [absorb]
  cases c <;> decide

theorem pendingCause_raise (s : State) (c : Cause) : (s.raise c).pendingCause c = true :=
  bne_iff_ne.mpr (or_and_field_ne_zero s.port.causes c)

/-- A retirement whose end of the binding is an offering to the line: MANUAL or LOST. -/
def Reason.offers (r : Reason) : Prop := r = .manual ∨ r = .lost

section EndsBinding

variable (s) {b : Binding} {o : Order}

theorem endBinding_of_offers {reason : Reason} (offers : reason.offers) (b : Binding) :
    s.endBinding reason (some b) = ((s.leaveLine (some b)).offer (.line b.slot b.line)).drainTest b.slot := by
  rcases offers with rfl | rfl <;> rfl

variable {s}
variable (listed : s.order b.slot = some o)
include listed

theorem order_leaveLine_same : (s.leaveLine (some b)).order b.slot = some (o.less b.line) := by
  rw [order_leaveLine, if_pos rfl, listed]
  rfl

theorem endBinding_of_open {reason : Reason} (offers : reason.offers) (stands : o.state ≠ .cancelling) :
    s.endBinding reason (some b) = (s.leaveLine (some b)).offer (.line b.slot b.line) := by
  rw [endBinding_of_offers s offers]
  have shape := (binds_offer (s.leaveLine (some b)) (.line b.slot b.line)).shape b.slot
  rw [order_leaveLine_same listed] at shape
  obtain ⟨x, now, same⟩ := Option.map_eq_some_iff.mp shape
  refine drainTest_of_not now (Bool.eq_false_iff.mpr fun drained => stands ?_)
  have state : x.clearF.state = (o.less b.line).clearF.state := by rw [same]
  exact state.symm.trans ((drained_iff x).mp drained).1

theorem endBinding_of_cancelling {reason : Reason} (offers : reason.offers) (ok : s.orders.slots.wf = true)
    (shut : o.state = .cancelling) :
    s.endBinding reason (some b) = (s.leaveLine (some b)).drainTest b.slot := by
  rw [endBinding_of_offers s offers, offer_of_closed]
  · exact wf_modify _ _ _ ok
  · intro x now
    rw [order_leaveLine_same listed, Option.some.injEq] at now
    subst now
    exact ⟨by simp [Order.less, shut], by simp [Order.less, shut]⟩

end EndsBinding

/-- F of a line fallen and the drain test made. -/
theorem leavesLine_drainTest {b : Binding} {o : Order} (listed : s.order b.slot = some o) :
    s.LeavesLine b o ((s.leaveLine (some b)).drainTest b.slot) := by
  have now := order_leaveLine_same listed
  refine ⟨fun k other => ?_, fun empty => ?_, fun stands => ?_⟩
  · rw [drainTest_order_ne _ other, order_leaveLine, if_neg other]
  · rw [drainTest_of_drained now ((drained_less_iff o b.line).mpr empty)]
    rw [freeSlot_of_order now]
    exact ⟨(find_erase ..).trans (if_pos rfl), pendingCause_raise ..⟩
  · rw [drainTest_of_not now (Bool.eq_false_iff.mpr fun d => stands ((drained_less_iff o b.line).mp d))]
    exact now

/-- What the end of a retired garment's binding does where the reason is MANUAL or LOST (R19, Table 1-6). -/
theorem endsBinding_retire {reason : Reason} (offers : reason.offers) {tag : Tag} {pos : Nat} {g : Garment}
    (live : s.findTag tag = some (pos, g)) : s.EndsBinding pos g (s.retire reason tag) := by
  rw [retire_eq reason live]
  have garments := gone_garments s reason pos g
  have refs := gone_refs s reason pos g
  have order := gone_order s reason pos g
  have sched := gone_sched s reason pos g
  have slots : (s.gone reason (pos, g)).orders.slots = s.orders.slots := by rw [gone_orders]
  have names := namesSame_gone s reason pos g
  have quiet := quiet_gone s reason pos g
  generalize s.gone reason (pos, g) = w at *
  refine ⟨fun free => ?_, fun b o bound listed stands => ?_, fun tables b o bound listed shut => ?_⟩
  · rw [free]
    refine ⟨garments, fun k => ?_, fun d => ?_, slots, sched⟩
    · show w.refs.skus.find k = _
      rw [refs]
      exact find_countSku s g.sku (· - 1) k
    · show w.refs.designs.find d = _
      rw [refs]
      exact find_countDesign ((s.countSku g.sku _).countClass g.cls _) g.design (· - 1) d
  · have listed' : w.order b.slot = some o := (order _).trans listed
    rw [bound, endBinding_of_open listed' offers stands]
    have now := order_leaveLine_same listed'
    have elsewhere : ∀ k, k ≠ b.slot → (w.leaveLine (some b)).order k = s.order k := fun k other => by
      rw [order_leaveLine, if_neg other, order]
    have shape := (binds_offer (w.leaveLine (some b)) (.line b.slot b.line)).shape b.slot
    rw [now] at shape
    obtain ⟨x, after, same⟩ := Option.map_eq_some_iff.mp shape
    obtain ⟨fields, flights⟩ := eq_of_clearF same
    refine ⟨x, after, fields, flights.trans (clearF_modifyAt _ _ _ fun _ => rfl), fun noOrphans => ?_,
      fun tables single safe => ?_⟩
    · have none : (w.leaveLine (some b)).orphans = [] := orphans_nil fun y m free => by
        have m : y ∈ w.garments.records.map Prod.snd := m
        rw [garments] at m
        obtain ⟨e, me, rfl⟩ := List.mem_map.mp m
        exact noOrphans _ (List.mem_map.mpr ⟨e, List.mem_of_mem_filter me, rfl⟩) free
      rw [offer_nil none] at after ⊢
      rw [now, Option.some.injEq] at after
      exact ⟨after.symm, elsewhere⟩
    · have quiet' : Quiet s (w.leaveLine (some b)) := quiet.trans (quiet_leaveLine ..)
      exact ⟨w.leaveLine (some b), _,
        offers_offerCounted _ (quiet'.tables tables) (quiet'.tags single) (quiet'.sched safe), now, elsewhere, garments,
        sched, refs, names⟩
  · have listed' : w.order b.slot = some o := (order _).trans listed
    rw [bound, endBinding_of_cancelling listed' offers (slots ▸ tables.slots) shut]
    have drain := sameBut_drainTest (w.leaveLine (some b)) b.slot
    have leaves := leavesLine_drainTest listed'
    refine ⟨(drain.garments (by decide)).trans garments, (drain.sched (by decide)).trans sched,
      fun k other => (leaves.others k other).trans (order k), leaves.freed, leaves.stands⟩

/-! ## The same end seen later -/

/-- The garments, orders, scheduler, reference entries, stations and meter of one state in the rest of another. -/
def State.dressed (s u : State) : State :=
  { u with
    garments := s.garments, orders := s.orders, sched := s.sched, refs := s.refs, stations := s.stations
    meter := s.meter }

theorem bindsOrphan_dressed {pos slot i design : Nat} {g : Garment} {credits : List Nat} (z : State)
    (h : s.BindsOrphan pos g slot i design credits t) :
    (s.dressed z).BindsOrphan pos g slot i design credits (t.dressed z) where
  record := h.record
  line := h.line
  pool := h.pool
  sched := h.sched
  designs := h.designs
  refs := h.refs
  rest := by
    have stations := h.rest.stations (by decide)
    have meter := h.rest.meter (by decide)
    constructor <;> intros <;> simp_all [State.dressed]

theorem chosen_dressed {set : LineSet} {sku : Nat} {design : Option Nat} {slot i : Nat} {o : Order} {l : Line}
    {credits : List Nat} (z : State) (h : s.Chosen set sku design slot i o l credits) :
    (s.dressed z).Chosen set sku design slot i o l credits where
  wants := { h.wants with }
  first a b c d wants := h.first a b c d { wants with }
  strict mode := ⟨(h.strict mode).1, fun a b c d wants => (h.strict mode).2 a b c d { wants with }⟩
  weighted mode := (h.weighted mode).imp
    (fun ⟨credit, spent, above⟩ => ⟨credit, spent, fun a b c d wants => above a b c d { wants with }⟩)
    fun ⟨spent, all⟩ => ⟨spent, fun a b c d wants => all a b c d { wants with }⟩

theorem offering_dressed {set : LineSet} {tags : List Tag} {n : Nat} (z : State) (h : Offering set tags s t n) :
    Offering set tags (s.dressed z) (t.dressed z) n := by
  induction h with
  | done s => exact .done _
  | stays tag live unwanted more ih => exact .stays tag live (fun a b c d wants => unwanted a b c d { wants with }) ih
  | binds tag live chosen bound more ih =>
    exact .binds tag live (chosen_dressed z chosen) (bindsOrphan_dressed z bound) ih

theorem offers_dressed {set : LineSet} {n : Nat} (z : State) (h : s.Offers set t n) :
    (s.dressed z).Offers set (t.dressed z) n := by
  obtain ⟨tags, order, offering⟩ := h
  exact ⟨tags, ⟨order.offerable, order.inOrder⟩, offering_dressed z offering⟩

/-- What the end of a binding changed is still so while the garments, orders, scheduler, reference entries, stations and
meter stand. -/
theorem endsBinding_later {pos : Nat} {g : Garment} (h : s.EndsBinding pos g t) (garments : u.garments = t.garments)
    (orders : u.orders = t.orders) (sched : u.sched = t.sched) (refs : u.refs = t.refs)
    (stations : u.stations = t.stations) (meter : u.meter = t.meter)
    (freed : t.pendingCause .orderFreed = true → u.pendingCause .orderFreed = true) : s.EndsBinding pos g u := by
  have order : ∀ k, u.order k = t.order k := fun k => by unfold State.order; rw [orders]
  have dressed : t.dressed u = u := by
    unfold State.dressed
    rw [← garments, ← orders, ← sched, ← refs, ← stations, ← meter]
  refine ⟨?_, fun b o bound listed stands => ?_, fun tables b o bound listed shut => ?_⟩
  · rw [garments, refs, orders, sched]
    exact h.unbound
  · obtain ⟨x, now, fields, flights, none, offered⟩ := h.offered b o bound listed stands
    refine ⟨x, (order _).trans now, fields, flights, fun noOrphans => ?_, fun tables single safe => ?_⟩
    · obtain ⟨same, others⟩ := none noOrphans
      exact ⟨same, fun k other => (order k).trans (others k other)⟩
    · obtain ⟨v, n, offers, rest⟩ := offered tables single safe
      have := offers_dressed u offers
      rw [dressed] at this
      exact ⟨v.dressed u, n, this, rest⟩
  · obtain ⟨gone, credits, leaves⟩ := h.cancelling tables b o bound listed shut
    refine ⟨garments.trans gone, sched.trans credits, fun k other => (order k).trans (leaves.others k other), fun empty => ?_,
      fun stands => (order _).trans (leaves.stands stands)⟩
    obtain ⟨free, raised⟩ := leaves.freed empty
    exact ⟨(order _).trans free, freed raised⟩

theorem endsBinding_taken {pos : Nat} {g : Garment} (h : (s.taken c payload).EndsBinding pos g t) :
    s.EndsBinding pos g t where
  unbound := h.unbound
  offered b o bound listed stands := by
    obtain ⟨x, now, fields, flights, none, offered⟩ := h.offered b o bound listed stands
    exact ⟨x, now, fields, flights, none, fun tables single safe => offered { tables with } single safe⟩
  cancelling tables b o bound listed shut := by
    obtain ⟨gone, credits, leaves⟩ := h.cancelling { tables with } b o bound listed shut
    exact ⟨gone, credits, ⟨leaves.others, leaves.freed, leaves.stands⟩⟩

theorem givesBack_taken {own : Option Link} {g : Garment} {served : List Sent}
    (h : (s.taken c payload).GivesBack own g t served) : s.GivesBack own g t served where
  platens := h.platens
  exitQueue := h.exitQueue
  overflow := h.overflow
  cells := h.cells
  lanes := by
    obtain ⟨idle, hands⟩ := h.lanes
    refine ⟨idle, fun w n open_ wait other low free lowest => ?_⟩
    obtain ⟨told, handed, rest⟩ := hands w n open_ wait other low free lowest
    exact ⟨told, ⟨handed.station, handed.lane⟩, rest⟩
  tunnel := h.tunnel
  stations := h.stations
  classes := h.classes

/-- What a retirement gave back is still so while the platens, the tunnel, the overflow list, the orders, the stations and
the classes stand. -/
theorem givesBack_later {own : Option Link} {g : Garment} {served : List Sent} (h : s.GivesBack own g t served)
    (platens : u.ring.platens = t.ring.platens) (cure : u.cure = t.cure) (bins : u.bins = t.bins)
    (orders : u.orders = t.orders) (stations : u.stations = t.stations) (refs : u.refs = t.refs) :
    s.GivesBack own g u served := by
  have lane : ∀ k, u.lane k = t.lane k := fun k => by unfold State.lane; rw [cure]
  have station : ∀ l, u.station l = t.station l := fun l => by unfold State.station; rw [stations]
  refine ⟨fun k => ?_, ?_, ?_, ?_, ?_, ?_, fun n not free => (station n).trans (h.stations n not free), ?_⟩
  · rw [show u.platen k = t.platen k from by unfold State.platen; rw [platens]]
    exact h.platens k
  · rw [cure]
    exact h.exitQueue
  · rw [bins]
    exact h.overflow
  · unfold State.order
    rw [orders]
    exact h.cells
  · obtain ⟨idle, hands⟩ := h.lanes
    refine ⟨fun none => ?_, fun w n open_ wait other low free lowest => ?_⟩
    · obtain ⟨told, rest⟩ := idle none
      exact ⟨told, fun k low => (lane k).trans (rest k low)⟩
    · obtain ⟨told, handed, rest⟩ := hands w n open_ wait other low free lowest
      exact ⟨told, ⟨(station _).trans handed.station, by rw [lane]; exact handed.lane⟩,
        fun k low other => (lane k).trans (rest k low other)⟩
  · rw [cure]
    exact h.tunnel
  · rw [refs]
    exact h.classes

/-! ## What a retirement leaves -/

theorem sameBut_of_aside (h : t.aside = s.aside) : s.sameBut [.garments, .orders, .sched, .refs, .bins, .causes] t where
  garments m := absurd (by simp) m
  orders m := absurd (by simp) m
  sched m := absurd (by simp) m
  refs m := absurd (by simp) m
  stations _ := congrArg (·.stations) h
  ring _ := congrArg (·.ring) h
  meter _ := congrArg (·.meter) h
  cure _ := congrArg (·.cure) h
  bins m := absurd (by simp) m
  limits _ := congrArg (·.limits) h
  causes m := absurd (by simp) m
  settings _ := ⟨congrArg (·.port.mask) h, congrArg (·.port.resetIndicator) h⟩
  transport _ := ⟨congrArg (·.port.state) h, congrArg (·.port.kept) h, congrArg (·.port.reading) h, congrArg (·.shifted) h⟩
  messages _ := congrArg (·.sent) h
  reads _ := congrArg (·.freeReads) h
  queue := congrArg (·.pending) h

section Retired

variable (reason : Reason) {tag : Tag} {pos : Nat} {g : Garment} (live : s.findTag tag = some (pos, g))
include live

theorem aside_retire : (s.retire reason tag).aside = (s.gone reason (pos, g)).aside := by
  rw [retire_eq reason live]
  exact endBinding_aside ..

theorem sameBut_retire : s.sameBut [.garments, .orders, .sched, .refs, .stations, .ring, .cure, .bins, .causes, .messages]
    (s.retire reason tag) :=
  sameBut_trans (sameBut_gone s reason pos g) (sameBut_of_aside (aside_retire reason live)) (by decide) (by decide)

theorem ring_retire : (s.retire reason tag).ring = { s.ring with platens := (s.retire reason tag).ring.platens } := by
  have same : (s.retire reason tag).ring = (s.gone reason (pos, g)).ring := congrArg (·.ring) (aside_retire reason live)
  rw [same]
  exact gone_ring ..

theorem admissionSeq_retire : (s.retire reason tag).orders.admissionSeq = s.orders.admissionSeq := by
  have same : (s.retire reason tag).orders.admissionSeq = (s.gone reason (pos, g)).orders.admissionSeq :=
    congrArg (·.orders.admissionSeq) (aside_retire reason live)
  rw [same, gone_orders]

theorem cells_retire : s.orders.freeCells ≤ (s.retire reason tag).orders.freeCells := by
  have gone : s.orders.freeCells ≤ (s.gone reason (pos, g)).orders.freeCells := by
    rw [gone_orders]
    exact (Nat.le_add_right ..).trans (Nat.le_add_right ..)
  rw [retire_eq reason live]
  refine gone.trans ?_
  cases g.binding with
  | none => exact le_rfl
  | some b =>
    have charged : Charges (s.gone reason (pos, g)) (((s.gone reason (pos, g)).leaveLine (some b)).reasonOnLine reason b) :=
      (binds_leaveLine _ _).charges.trans (charges_reasonOnLine ..)
    rw [← charged.cells]
    exact cells_drainTest ..

theorem bins_retire (offers : reason.offers) :
    { (s.retire reason tag).bins with overflow := s.bins.overflow } = s.bins := by
  rw [retire_eq reason live]
  have bins : ((s.gone reason (pos, g)).endBinding reason g.binding).bins = (s.gone reason (pos, g)).bins := by
    cases g.binding with
    | none => rfl
    | some b =>
      rw [endBinding_of_offers _ offers, (sameBut_drainTest _ _).bins (by decide), (binds_offer ..).bins,
        (binds_leaveLine ..).bins]
  rw [bins, gone_bins]

theorem retire_of_unbound (free : g.binding = none) : s.retire reason tag = s.gone reason (pos, g) := by
  rw [retire_eq reason live, free]
  rfl

end Retired

theorem ring_platens_finish (t s : State) : (t.finish s).ring.platens = t.ring.platens := by
  rw [finish_ring]
  unfold State.settleRing
  split
  · rfl
  · unfold State.ringTest
    split
    · split <;> rfl
    · rfl

/-! ## RETIRE GARMENT -/

theorem runRetireGarment_unknown (h : s.findTag (tagField payload 0) = none) :
    runRetireGarment payload s = s.refusing .notFound := by
  unfold runRetireGarment
  simp [h]

theorem runRetireGarment_named (live : (s.findTag (tagField payload 0)).isSome)
    (named : s.namedInVerdict (tagField payload 0) = true) : runRetireGarment payload s = s.refusing .inUse := by
  obtain ⟨e, live⟩ := Option.isSome_iff_exists.mp live
  unfold runRetireGarment
  simp [live, named]

theorem runRetireGarment_free (live : (s.findTag (tagField payload 0)).isSome)
    (unnamed : s.namedInVerdict (tagField payload 0) = false) :
    runRetireGarment payload s = (s.retire .manual (tagField payload 0), accepted []) := by
  obtain ⟨e, live⟩ := Option.isSome_iff_exists.mp live
  unfold runRetireGarment
  simp [live, unnamed]

/-- A retirement of a garment that no verdict names releases no hold. -/
theorem heldPlatens_givesBack {g : Garment} {served : List Sent} (gives : s.GivesBack none g t served)
    (ok : s.ring.platens.wf = true) (ok' : t.ring.platens.wf = true)
    (unnamed : ∀ l v, s.verdictOf l = some v → v.tag ≠ g.tag) : t.heldPlatens = s.heldPlatens := by
  refine heldPlatens_congr ok ok' fun k => ?_
  rw [gives.platens]
  have none : (Link.all.any fun n => (s.verdictOf n).any fun v => v.tag = g.tag ∧ v.platen = some k) = false := by
    rw [List.any_eq_false]
    intro n _
    cases open_ : s.verdictOf n with
    | none => simp
    | some v => simp [unnamed n v open_]
  dsimp only
  rw [none, Bool.not_false, Bool.and_true]

theorem finish_causes_of_more (limits : t.limits = s.limits) (cells : s.orders.freeCells ≤ t.orders.freeCells) :
    (t.finish s).port.causes = t.port.causes := by
  have settle : (t.settleRing s).limits = t.limits ∧ (t.settleRing s).orders = t.orders ∧
      (t.settleRing s).port = t.port := by
    rw [settleRing_eq]
    exact ⟨rfl, rfl, rfl⟩
  obtain ⟨limits', orders', port'⟩ := settle
  show ((t.settleRing s).checkCells s).port.causes = _
  rw [checkCells_eq, limits', orders', port', limits, if_neg (by omega)]

theorem sameBut_finish_ring (causes : (t.finish s).port.causes = t.port.causes) : t.sameBut [.ring] (t.finish s) := by
  have eq := finish_eq t s
  rw [causes] at eq
  rw [eq]
  clear eq causes
  constructor <;> intros <;> simp_all

theorem sameBut_finish (t s : State) : t.sameBut [.ring, .causes] (t.finish s) := by
  rw [finish_eq]
  constructor <;> intros <;> simp_all

/-- The frame of a whole command from the frame of its change. -/
theorem sameBut_completed {a : List Area} {r : Response}
    (h : (s.taken c payload).sameBut a (w.finish (s.taken c payload))) (transport : Area.transport ∈ a) :
    s.sameBut a (s.completed c payload w r) where
  garments m := h.garments m
  orders m := h.orders m
  sched m := h.sched m
  refs m := h.refs m
  stations m := h.stations m
  ring m := h.ring m
  meter m := h.meter m
  cure m := h.cure m
  bins m := h.bins m
  limits m := h.limits m
  causes m := h.causes m
  settings m := h.settings m
  transport m := absurd transport m
  messages m := h.messages m
  reads m := h.reads m
  queue := h.queue

/-- Settles O31. -/
theorem retireGarmentRemovesTheRecord : Obligations.RetireGarmentRemovesTheRecord := by
  unfold Obligations.RetireGarmentRemovesTheRecord
  intro s payload ready length tag
  have fits : HostCmd.lengthFits .retireGarment payload = true := by simp [HostCmd.lengthFits, length]
  refine ⟨fun unknown => ?_, fun pos g live => ⟨fun named => ?_, fun unnamed => ?_⟩⟩
  · exact carries_of_answer ready (by omega) fits (runRetireGarment_unknown unknown)
  · refine carries_of_answer ready (by omega) fits (runRetireGarment_named ?_ ?_)
    · rw [show (s.taken _ payload).findTag (tagField payload 0) = some (pos, g) from live]
      rfl
    · exact (namedInVerdict_iff s tag).mpr named
  obtain ⟨-, gTag, -⟩ := findTag_some live
  have live' : (s.taken .retireGarment payload).findTag tag = some (pos, g) := live
  have change : ownerChange .retireGarment payload (s.taken .retireGarment payload) =
      ((s.taken .retireGarment payload).retire .manual tag, accepted []) := by
    refine runRetireGarment_free ?_ ?_
    · rw [show (s.taken _ payload).findTag (tagField payload 0) = some (pos, g) from live]
      rfl
    · refine Bool.eq_false_iff.mpr fun named => ?_
      obtain ⟨l, v, open_, same⟩ := (namedInVerdict_iff s tag).mp named
      exact unnamed l v open_ same
  have carries := carries_completed ready (by omega) fits change
  obtain ⟨served, gives, sent⟩ := givesBack_retire _ live' .manual
  have ends := endsBinding_retire (.inl rfl : Reason.manual.offers) live'
  have same := sameBut_retire .manual live'
  have cells := cells_retire .manual live'
  have ring := ring_retire .manual live'
  have bins := bins_retire .manual live' (.inl rfl)
  have seq := admissionSeq_retire .manual live'
  have gone := find_retire .manual live'
  have quiet := quiet_retire (s.taken .retireGarment payload) .manual tag
  have free : g.binding = none → (s.taken .retireGarment payload).retire .manual tag =
      (s.taken .retireGarment payload).gone .manual (pos, g) := retire_of_unbound .manual live'
  have goneSame := sameBut_gone (s.taken .retireGarment payload) .manual pos g
  have gonePort := gone_port (s.taken .retireGarment payload) .manual pos g
  have goneSched := gone_sched (s.taken .retireGarment payload) .manual pos g
  have causes := finish_causes_of_more (same.limits (by decide)) cells
  generalize (s.taken .retireGarment payload).retire .manual tag = w at *
  have platens := ring_platens_finish w (s.taken .retireGarment payload)
  have frame {a changed : List Area} (same : (s.taken .retireGarment payload).sameBut a w) (sub : ∀ x ∈ a, x ∈ changed)
      (ring : Area.ring ∈ changed) (transport : Area.transport ∈ changed) :
      s.sameBut changed (s.completed .retireGarment payload w (accepted [])) :=
    sameBut_completed (sameBut_trans same (sameBut_finish_ring causes) (fun x m => sub x m) (by simpa using ring))
      transport
  refine ⟨_, served, carries, ?_, ?_, ?_, ?_, ?_, ?_, fun tables => ?_, frame same (by decide) (by decide) (by decide),
    fun unbound => ?_⟩
  · show (w.finish _).garments.records.find pos = none
    rw [finish_garments]
    exact gone
  · exact givesBack_later (givesBack_taken gives) platens (finish_cure ..) (finish_bins ..) (finish_orders ..)
      (finish_stations ..) (finish_refs ..)
  · refine endsBinding_later (endsBinding_taken ends) (finish_garments ..) (finish_orders ..) (finish_sched ..)
      (finish_refs ..) (finish_stations ..) (finish_meter ..) fun raised => ?_
    unfold State.pendingCause at raised ⊢
    rw [← causes] at raised
    exact raised
  · exact (finish_sent ..).trans sent
  · exact (congrArg OrderBlock.admissionSeq (finish_orders ..)).trans seq
  · show ({ (w.finish _).bins with overflow := s.bins.overflow } : BinBlock) = s.bins
    rw [finish_bins]
    exact bins
  · have tables' : TablesOk (s.taken .retireGarment payload) := { tables with }
    have held := heldPlatens_givesBack gives (wf_of_wfDefault tables'.platens)
      (wf_of_wfDefault (quiet.tables tables').platens) fun l v open_ => gTag ▸ unnamed l v open_
    have still : (w.finish (s.taken .retireGarment payload)).ring = w.ring := by
      rw [finish_ring]
      unfold State.settleRing
      rw [if_pos held]
    show ({ (w.finish _).ring with platens := s.ring.platens } : Ring) = s.ring
    rw [still, ring]
    rfl
  · have now := free unbound
    rw [← now] at goneSame gonePort goneSched
    have calm : w.port.causes = s.port.causes := congrArg (·.causes) gonePort
    refine frame (a := [.garments, .orders, .refs, .stations, .ring, .cure, .bins, .messages]) ?_ (by decide) (by decide)
      (by decide)
    exact {
      garments m := absurd (by simp) m
      orders m := absurd (by simp) m
      sched _ := goneSched
      refs m := absurd (by simp) m
      stations m := absurd (by simp) m
      ring m := absurd (by simp) m
      meter _ := goneSame.meter (by decide)
      cure m := absurd (by simp) m
      bins m := absurd (by simp) m
      limits _ := goneSame.limits (by decide)
      causes _ := calm
      settings _ := goneSame.settings (by decide)
      transport _ := goneSame.transport (by decide)
      messages m := absurd (by simp) m
      reads _ := goneSame.reads (by decide)
      queue := goneSame.queue }

end Sys2Proof.Machine
end

section
/-! SUPPORT. SET TUNNEL and SET WEIGHTS (R175, R176). -/

namespace Sys2Proof.Machine

variable {s t u w : State} {c : HostCmd} {payload : List Byte}

/-! ## Lanes -/

theorem mapLanes_eq (s : State) (f : Lane → Lane) :
    s.mapLanes f = { s with cure.lanes := (s.mapLanes f).cure.lanes } := rfl

theorem lane_mapLanes (s : State) (f : Lane → Lane) {k : Nat} (low : k ≤ 3) : (s.mapLanes f).lane k = f (s.lane k) := by
  unfold State.mapLanes laneNumbers
  simp only [List.foldl_cons, List.foldl_nil, lane_modifyLane]
  interval_cases k <;> simp

theorem over_serveWait (s t : State) : (s.over t).serveWait = s.serveWait.over t := by
  unfold State.serveWait
  rw [show (s.over t).verdictOf .unload = s.verdictOf .unload from rfl, show (s.over t).freeLane = s.freeLane from rfl]
  split
  · split <;> rfl
  · rfl

theorem lane_free_iff (x : Lane) :
    x.free = true ↔ x.reservation = none ∧ (x.lastEntry = none ∨ x.spaced = true) := by
  unfold Lane.free
  simp

/-- A lane handed out keeps its last entry and its spacing. -/
theorem lane_serveWait (s : State) (k : Nat) :
    (s.serveWait.lane k).lastEntry = (s.lane k).lastEntry ∧ (s.serveWait.lane k).spaced = (s.lane k).spaced := by
  unfold State.serveWait
  split
  · split
    · show ((State.reserveLane _ _ _).lane k).lastEntry = _ ∧ ((State.reserveLane _ _ _).lane k).spaced = _
      unfold State.reserveLane
      rw [lane_modifyLane]
      split
      · rename_i here
        subst here
        exact ⟨rfl, rfl⟩
      · exact ⟨rfl, rfl⟩
    · exact ⟨rfl, rfl⟩
  · exact ⟨rfl, rfl⟩

/-! ## SET TUNNEL -/

theorem respaceLane_eq (c : Cure) (x : Lane) : c.respaceLane x = { x with
    spaced := match x.lastEntry with
      | none => x.spaced
      | some e => decide (c.spacing ≤ (c.beltCount - e).toNat) } := by
  obtain ⟨entry, spaced, reservation⟩ := x
  cases entry <;> rfl

theorem tunnelOk_iff (e0 z1 z2 z3 spacing : Nat) : tunnelOk e0 z1 z2 z3 spacing = true ↔
    e0 ≤ 500 ∧ (1 ≤ z1 ∧ z1 ≤ 2000) ∧ (1 ≤ z2 ∧ z2 ≤ 2000) ∧ (1 ≤ z3 ∧ z3 ≤ 2000) ∧ 1 ≤ spacing ∧ spacing ≤ 500 := by
  unfold tunnelOk
  simp only [List.all_cons, List.all_nil, Bool.and_eq_true, decide_eq_true_eq, Bool.and_true]
  tauto

/-- The state with the tunnel's geometry written and its lanes worked out afresh, before one is handed out. -/
def State.retunneled (s : State) (e0 z1 z2 z3 spacing : Nat) : State :=
  let s := { s with cure := { s.cure with e0 := e0, z1 := z1, z2 := z2, z3 := z3, spacing := spacing } }
  s.mapLanes s.cure.respaceLane

section Tunnel

variable (s) (e0 z1 z2 z3 spacing : Nat)

theorem configureTunnel_eq :
    s.configureTunnel e0 z1 z2 z3 spacing = (s.retunneled e0 z1 z2 z3 spacing).serveWait := rfl

theorem retunneled_eq : s.retunneled e0 z1 z2 z3 spacing = { s with
    cure := { s.cure with
      e0 := e0, z1 := z1, z2 := z2, z3 := z3, spacing := spacing
      lanes := (s.retunneled e0 z1 z2 z3 spacing).cure.lanes } } := rfl

theorem lane_retunneled {k : Nat} (low : k ≤ 3) : (s.retunneled e0 z1 z2 z3 spacing).lane k = { s.lane k with
    spaced := match (s.lane k).lastEntry with
      | none => (s.lane k).spaced
      | some e => decide (spacing ≤ (s.cure.beltCount - e).toNat) } := by
  exact (lane_mapLanes _ _ low).trans (respaceLane_eq ..)

theorem over_configureTunnel (t : State) :
    (s.over t).configureTunnel e0 z1 z2 z3 spacing = (s.configureTunnel e0 z1 z2 z3 spacing).over t := by
  rw [configureTunnel_eq, configureTunnel_eq, ← over_serveWait]
  rfl

theorem cure_configureTunnel : { (s.configureTunnel e0 z1 z2 z3 spacing).cure with lanes := s.cure.lanes } =
    { s.cure with e0 := e0, z1 := z1, z2 := z2, z3 := z3, spacing := spacing } := by
  rw [configureTunnel_eq, serveWait_eq]
  rfl

theorem exit_configureTunnel :
    (s.configureTunnel e0 z1 z2 z3 spacing).cure.exitPosition = e0 + z1 + z2 + z3 := by
  rw [configureTunnel_eq, serveWait_eq]
  rfl

theorem sameBut_configureTunnel : s.sameBut [.stations, .cure, .messages] (s.configureTunnel e0 z1 z2 z3 spacing) := by
  rw [configureTunnel_eq, serveWait_eq, retunneled_eq]
  constructor <;> intros <;> simp_all

end Tunnel

theorem runSetTunnel_of_bad (bad : tunnelOk (field payload 0 2) (field payload 2 2) (field payload 4 2)
    (field payload 6 2) (field payload 8 2) = false) : runSetTunnel payload s = s.refusing .badArgument := by
  unfold runSetTunnel
  simp [bad]

section Ok

variable (ok : tunnelOk (field payload 0 2) (field payload 2 2) (field payload 4 2) (field payload 6 2)
  (field payload 8 2) = true)
include ok

theorem runSetTunnel_of_belt (belt : s.liveGarments.any Garment.onBelt = true) :
    runSetTunnel payload s = s.refusing .badState := by
  unfold runSetTunnel
  simp only [ok, belt, if_true, Bool.true_eq_false, if_false]

theorem runSetTunnel_of_clear (clear : s.liveGarments.any Garment.onBelt = false) : runSetTunnel payload s =
    let t := s.configureTunnel (field payload 0 2) (field payload 2 2) (field payload 4 2) (field payload 6 2)
      (field payload 8 2)
    (t, accepted (beBytes 2 t.cure.exitPosition)) := by
  unfold runSetTunnel
  simp only [ok, clear, Bool.false_eq_true, Bool.true_eq_false, if_false]

theorem tunnel_carries (ready : s.PortReady) (length : payload.length = 10)
    (clear : s.liveGarments.any Garment.onBelt = false) : ∃ u, Carries .setTunnel payload s u
      (accepted (beBytes 2 (field payload 0 2 + field payload 2 2 + field payload 4 2 + field payload 6 2))) ∧
      (s.configureTunnel (field payload 0 2) (field payload 2 2) (field payload 4 2) (field payload 6 2)
        (field payload 8 2)).sameLine u := by
  have same := sameBut_configureTunnel s (field payload 0 2) (field payload 2 2) (field payload 4 2) (field payload 6 2)
    (field payload 8 2)
  obtain ⟨-, kept, -, shifted⟩ := same.transport (by decide)
  refine carries_of_edit ready (by omega) (by simp [HostCmd.lengthFits, length]) ?_ (same.ring (by decide))
    (congrArg OrderBlock.freeCells (same.orders (by decide))) (same.limits (by decide))
  show runSetTunnel payload (s.taken .setTunnel payload) = _
  rw [runSetTunnel_of_clear (s := s.taken .setTunnel payload) ok clear, ← taken_over, over_configureTunnel,
    ← over_taken kept shifted, ← exit_configureTunnel s _ _ _ _ (field payload 8 2)]
  rfl

end Ok

theorem setTunnel_writes (s : State) (payload : List Byte) (ready : s.PortReady) (length : payload.length = 10) :
    let e0 := field payload 0 2
    let z1 := field payload 2 2
    let z2 := field payload 4 2
    let z3 := field payload 6 2
    let spacing := field payload 8 2
    let spaced := fun k => match (s.lane k).lastEntry with
      | none => (s.lane k).spaced
      | some e => decide (spacing ≤ (s.cure.beltCount - e).toNat)
    let free := fun k => (s.lane k).reservation = none ∧ ((s.lane k).lastEntry = none ∨ spaced k = true)
    tunnelOk e0 z1 z2 z3 spacing = true → s.liveGarments.any Garment.onBelt = false → ∃ u,
      Carries .setTunnel payload s u (accepted (beBytes 2 (e0 + z1 + z2 + z3))) ∧
      { u.cure with lanes := s.cure.lanes } =
        { s.cure with e0 := e0, z1 := z1, z2 := z2, z3 := z3, spacing := spacing } ∧
      (∀ k, k ≤ 3 → (u.lane k).lastEntry = (s.lane k).lastEntry ∧ (u.lane k).spaced = spaced k) ∧
      s.sameBut [.stations, .cure, .transport, .messages] u ∧
      ((∀ v, s.verdictOf .unload = some v → v.cls = .work) ∨ (∀ k, k ≤ 3 → ¬ free k) →
        (∀ k, k ≤ 3 → (u.lane k).reservation = (s.lane k).reservation) ∧ s.sameBut [.cure, .transport] u) ∧
      (∀ v n, s.verdictOf .unload = some v → v.cls = .wait → n ≤ 3 → free n → (∀ j, j < n → ¬ free j) →
        s.HandsLane v n u ∧ (∀ k, k ≤ 3 → k ≠ n → (u.lane k).reservation = (s.lane k).reservation) ∧
        (∀ l, l ≠ .unload → u.station l = s.station l) ∧ u.sent = s.sent ++ [laneMessage v n]) := by
  intro e0 z1 z2 z3 spacing spaced free ok clear
  obtain ⟨u, carries, same⟩ := tunnel_carries ok ready length clear
  have lanes : ∀ k, k ≤ 3 → (s.retunneled e0 z1 z2 z3 spacing).lane k = { s.lane k with spaced := spaced k } :=
    fun k low => lane_retunneled s e0 z1 z2 z3 spacing low
  have can : ∀ k, k ≤ 3 → (((s.retunneled e0 z1 z2 z3 spacing).lane k).free = true ↔ free k) := fun k low => by
    rw [lanes k low]
    exact lane_free_iff _
  have frame := sameBut_configureTunnel s e0 z1 z2 z3 spacing
  have cure := cure_configureTunnel s e0 z1 z2 z3 spacing
  have verdict : (s.retunneled e0 z1 z2 z3 spacing).verdictOf .unload = s.verdictOf .unload := rfl
  have lane : ∀ k, u.lane k = ((s.retunneled e0 z1 z2 z3 spacing).serveWait).lane k := fun k => by
    unfold State.lane
    rw [sameLine_cure same]
    rfl
  have station : ∀ l, u.station l = ((s.retunneled e0 z1 z2 z3 spacing).serveWait).station l := fun l => by
    unfold State.station
    rw [sameLine_stations same]
    rfl
  refine ⟨u, carries, by rw [sameLine_cure same]; exact cure, fun k low => ?_,
    sameBut_of_sameLine same (sameBut_widen frame (by decide)) (by decide), fun idle => ?_,
    fun v n open_ wait low can' lowest => ?_⟩
  · obtain ⟨entry, spacing⟩ := lane_serveWait (s.retunneled e0 z1 z2 z3 spacing) k
    rw [lane, entry, spacing, lanes k low]
    exact ⟨rfl, rfl⟩
  · have still : (s.retunneled e0 z1 z2 z3 spacing).serveWait = s.retunneled e0 z1 z2 z3 spacing :=
      serveWait_idle _ (idle.imp_right fun none k low => Bool.eq_false_iff.mpr fun h => none k low ((can k low).mp h))
    refine ⟨fun k low => by rw [lane, still, lanes k low], sameBut_of_sameLine same ?_ (by decide)⟩
    show s.sameBut _ (s.retunneled e0 z1 z2 z3 spacing).serveWait
    rw [still, retunneled_eq]
    constructor <;> intros <;> simp_all
  · obtain ⟨rest, hands, others, elsewhere⟩ := serveWait_hands (s.retunneled e0 z1 z2 z3 spacing) (w := v) (n := n)
      open_ wait low ((can n low).mpr can') fun j below =>
        Bool.eq_false_iff.mpr fun h => lowest j below ((can j (by omega)).mp h)
    refine ⟨⟨(station _).trans hands.station, by rw [lane]; exact hands.lane⟩, fun k le other => ?_,
      fun l other => (station l).trans (others l other), ?_⟩
    · rw [lane, elsewhere k other, lanes k le]
    · rw [sameLine_sent same]
      exact congrArg (·.sent) rest

/-! ## SET WEIGHTS -/

theorem runSetWeights_of_bad (bad : ¬ ((∀ w ∈ fields payload 0 2 16, w ≤ 1023) ∧
    (100 ≤ field payload 32 1 ∧ field payload 32 1 ≤ 250) ∧ 1 ≤ field payload 33 1 ∧ field payload 33 1 ≤ 20)) :
    runSetWeights payload s = s.refusing .badArgument := by
  unfold runSetWeights
  dsimp only
  refine if_pos ?_
  by_contra good
  simp only [not_or, Bool.not_eq_true, List.any_eq_false, decide_eq_true_eq] at good
  obtain ⟨weights, low, high, step, steep⟩ := good
  exact bad ⟨fun w m => Nat.le_of_not_lt (weights w m), ⟨by omega, by omega⟩, by omega, by omega⟩

theorem runSetWeights_of_good (weights : ∀ w ∈ fields payload 0 2 16, w ≤ 1023) (low : 100 ≤ field payload 32 1)
    (high : field payload 32 1 ≤ 250) (step : 1 ≤ field payload 33 1) (steep : field payload 33 1 ≤ 20) :
    runSetWeights payload s = ({ s with cure := { s.cure with
      weights := fields payload 0 2 16, tbase := field payload 32 1, tstep := field payload 33 1 } }, accepted []) := by
  unfold runSetWeights
  dsimp only
  refine if_neg ?_
  simp only [not_or, Bool.not_eq_true, List.any_eq_false, decide_eq_true_eq]
  exact ⟨fun w m => Nat.not_lt.mpr (weights w m), by omega, by omega, by omega, by omega⟩

/-- Settles O35. -/
theorem setTunnelAndSetWeightsWriteTheTunnel : Obligations.SetTunnelAndSetWeightsWriteTheTunnel := by
  unfold Obligations.SetTunnelAndSetWeightsWriteTheTunnel
  intro s payload ready
  refine ⟨fun length => ?_, fun length => ?_⟩
  · intro e0 z1 z2 z3 spacing ok spaced free
    have ok_iff : tunnelOk e0 z1 z2 z3 spacing = true ↔ ok := tunnelOk_iff ..
    refine ⟨fun good clear => ?_, fun bad => ?_, fun good ⟨g, live, onBelt⟩ => ?_⟩
    · exact setTunnel_writes s payload ready length (ok_iff.mpr good) (List.any_eq_false.mpr fun g m => by
        rw [clear g m]
        exact Bool.false_ne_true)
    · exact carries_of_answer ready (by omega) (by simp [HostCmd.lengthFits, length])
        (runSetTunnel_of_bad (Bool.eq_false_iff.mpr fun h => bad (ok_iff.mp h)))
    · exact carries_of_answer ready (by omega) (by simp [HostCmd.lengthFits, length])
        (runSetTunnel_of_belt (ok_iff.mpr good) (List.any_eq_true.mpr ⟨g, live, onBelt⟩))
  · intro weights tbase tstep ok
    refine ⟨fun ⟨light, ⟨low, high⟩, step, steep⟩ => ?_, fun bad => ?_⟩
    · obtain ⟨u, carries, same⟩ := carries_of_edit (c := .setWeights) (w := { s with cure := { s.cure with
          weights := weights, tbase := tbase, tstep := tstep } }) ready (by omega) (by simp [HostCmd.lengthFits, length])
        (runSetWeights_of_good light low high step steep) rfl rfl rfl
      refine ⟨u, carries, sameLine_cure same, sameBut_of_sameLine same ?_ (by decide)⟩
      constructor <;> intros <;> simp_all
    · exact carries_of_answer ready (by omega) (by simp [HostCmd.lengthFits, length]) (runSetWeights_of_bad bad)

end Sys2Proof.Machine
end

section
/-! SUPPORT. LINE RESET (R26, R47, R80, R99, R121, R157, R179, R193, R205). -/

namespace Sys2Proof.Machine

variable {s t u w : State} {c : HostCmd} {payload : List Byte}

/-! ## The garments' references -/

/-- The state with the references of some garments given back. -/
def State.uncount (s : State) (gs : List Garment) : State :=
  gs.foldl (fun s g => s.countGarment g down1) s

theorem uncount_eq (gs : List Garment) (s : State) : s.uncount gs = { s with refs := (s.uncount gs).refs } := by
  unfold State.uncount
  induction gs generalizing s with
  | nil => rfl
  | cons g gs ih =>
    rw [List.foldl_cons, ih (s.countGarment g down1)]
    rfl

theorem find_uncount_sku (gs : List Garment) (s : State) (k : Nat) : (s.uncount gs).refs.skus.find k =
    (s.refs.skus.find k).map fun e => { e with count := e.count - (gs.filter fun g => g.sku = k).length } := by
  unfold State.uncount
  induction gs generalizing s with
  | nil => simp
  | cons g gs ih =>
    have one : (s.countGarment g down1).refs.skus.find k =
        (s.refs.skus.find k).map fun e => { e with count := if k = g.sku then down1 e.count else e.count } :=
      find_countSku s g.sku down1 k
    rw [List.foldl_cons, ih, one, Option.map_map]
    by_cases same : g.sku = k
    · simp [same, Function.comp_def, down1, Nat.sub_sub, Nat.add_comm]
    · simp [same, Ne.symm same, Function.comp_def]

theorem find_uncount_class (gs : List Garment) (s : State) (k : Nat) : (s.uncount gs).refs.classes.find k =
    (s.refs.classes.find k).map fun e => { e with count := e.count - (gs.filter fun g => g.cls = k).length } := by
  unfold State.uncount
  induction gs generalizing s with
  | nil => simp
  | cons g gs ih =>
    have one : (s.countGarment g down1).refs.classes.find k =
        (s.refs.classes.find k).map fun e => { e with count := if k = g.cls then down1 e.count else e.count } :=
      find_countClass (s.countSku g.sku down1) g.cls down1 k
    rw [List.foldl_cons, ih, one, Option.map_map]
    by_cases same : g.cls = k
    · simp [same, Function.comp_def, down1, Nat.sub_sub, Nat.add_comm]
    · simp [same, Ne.symm same, Function.comp_def]

theorem find_uncount_design (gs : List Garment) (s : State) (k : Nat) : (s.uncount gs).refs.designs.find k =
    (s.refs.designs.find k).map fun e => { e with count := e.count - (gs.filter fun g => g.design = k).length } := by
  unfold State.uncount
  induction gs generalizing s with
  | nil => simp
  | cons g gs ih =>
    have one : (s.countGarment g down1).refs.designs.find k =
        (s.refs.designs.find k).map fun e => { e with count := if k = g.design then down1 e.count else e.count } :=
      find_countDesign ((s.countSku g.sku down1).countClass g.cls down1) g.design down1 k
    rw [List.foldl_cons, ih, one, Option.map_map]
    by_cases same : g.design = k
    · simp [same, Function.comp_def, down1, Nat.sub_sub, Nat.add_comm]
    · simp [same, Ne.symm same, Function.comp_def]

/-! ## The stations -/

theorem station_foldl_modifyStation (f : Station → Station) (ls : List Link) (nodup : ls.Nodup) (s : State) :
    (ls.foldl (fun s l => s.modifyStation l f) s =
      { s with stations := (ls.foldl (fun s l => s.modifyStation l f) s).stations }) ∧
    ∀ n, (ls.foldl (fun s l => s.modifyStation l f) s).station n = if n ∈ ls then f (s.station n) else s.station n := by
  induction ls generalizing s with
  | nil => exact ⟨rfl, fun n => by simp⟩
  | cons l ls ih =>
    obtain ⟨notIn, nodup⟩ := List.nodup_cons.mp nodup
    obtain ⟨rest, at_⟩ := ih nodup (s.modifyStation l f)
    rw [List.foldl_cons]
    refine ⟨by rw [rest]; rfl, fun n => ?_⟩
    rw [at_]
    by_cases here : n = l
    · subst here
      simp [notIn]
    · simp [here, station_modifyStation_ne s here f]

theorem foldl_noticeReset (ls : List Link) (s : State) : ls.foldl State.noticeReset s =
    { s with sent := s.sent ++ (ls.filter fun l => (s.station l).up).map fun l => ⟨l, .lineResetNotice⟩ } := by
  induction ls generalizing s with
  | nil => simp
  | cons l ls ih =>
    rw [List.foldl_cons]
    unfold State.noticeReset
    by_cases up : (s.station l).up = true
    · have names : (l :: ls).filter (fun n => (s.station n).up) = l :: ls.filter fun n => (s.station n).up :=
        List.filter_cons_of_pos (p := fun n => (s.station n).up) up
      rw [if_pos up, names, List.map_cons, List.append_cons]
      exact ih _
    · have names : (l :: ls).filter (fun n => (s.station n).up) = ls.filter fun n => (s.station n).up :=
        List.filter_cons_of_neg (p := fun n => (s.station n).up) up
      rw [if_neg up, names]
      exact ih _

/-- A change to CHECK at a station with no open verdict has no consequence beyond the message and the cause. -/
theorem lowerActive_of_active {l : Link} (active : (s.station l).mode = .active) (none : s.verdictOf l = none) :
    s.lowerActive l = ((s.setMode l .check).send l (.mode .check)).raise .stationMode := by
  unfold State.lowerActive State.isActive
  rw [active]
  refine (if_pos rfl).trans ?_
  unfold State.changeMode
  generalize hz : ((s.setMode l .check).send l (.mode .check)).raise .stationMode = z
  have mode : (z.station l).mode = .check := by
    rw [← hz]
    show ((s.setMode l .check).station l).mode = _
    unfold State.setMode
    rw [station_modifyStation]
  have verdict : z.verdictOf l = Option.none := by
    rw [← hz]
    show ((s.setMode l .check).station l).verdict = _
    unfold State.setMode
    rw [station_modifyStation]
    exact none
  have working : (z.station l).working = true := by
    unfold Station.working
    rw [mode]
    rfl
  unfold State.followMode
  simp [verdict, working]

theorem lowerActive_of_not {l : Link} (not : (s.station l).mode ≠ .active) : s.lowerActive l = s := by
  unfold State.lowerActive State.isActive
  simp [not]

theorem foldl_lowerActive (ls : List Link) (nodup : ls.Nodup) (s : State) (none : ∀ l, s.verdictOf l = none) :
    let active := fun l => decide ((s.station l).mode = .active)
    let t := ls.foldl State.lowerActive s
    (t = { s with
      stations := t.stations
      sent := s.sent ++ (ls.filter active).map fun l => ⟨l, .mode .check⟩
      port.causes := s.port.causes ||| if ls.any active then Cause.stationMode.field else 0#16 }) ∧
    ∀ n, t.station n = { s.station n with mode := if n ∈ ls ∧ active n then .check else (s.station n).mode } := by
  induction ls generalizing s with
  | nil => exact ⟨by simp, fun n => by simp⟩
  | cons l ls ih =>
    intro active t
    obtain ⟨notIn, nodup⟩ := List.nodup_cons.mp nodup
    by_cases now : (s.station l).mode = .active
    · have first := lowerActive_of_active now (none l)
      have elsewhere : ∀ n, n ≠ l → (s.lowerActive l).station n = s.station n := fun n other => by
        rw [first]
        exact station_modifyStation_ne s other fun x => { x with mode := .check }
      have here : (s.lowerActive l).station l = { s.station l with mode := .check } := by
        rw [first]
        exact station_modifyStation s l fun x => { x with mode := .check }
      have same : ∀ n ∈ ls, decide (((s.lowerActive l).station n).mode = .active) = active n := fun n m => by
        rw [elsewhere n fun e => notIn (e ▸ m)]
      obtain ⟨rest, at_⟩ := ih nodup (s.lowerActive l) fun n => by
        unfold State.verdictOf
        by_cases e : n = l
        · subst e
          rw [here]
          exact none n
        · rw [elsewhere n e]
          exact none n
      have filtered : (l :: ls).filter active = l :: ls.filter active :=
        List.filter_cons_of_pos (decide_eq_true now)
      have some : (l :: ls).any active = true := by simp [active, now]
      have any : ls.any (fun n => decide (((s.lowerActive l).station n).mode = .active)) = ls.any active := by
        rw [Bool.eq_iff_iff, List.any_eq_true, List.any_eq_true]
        exact exists_congr fun n => and_congr_right fun m => by rw [same n m]
      rw [List.filter_congr same, any] at rest
      refine ⟨?_, fun n => ?_⟩
      · have still : t = ls.foldl State.lowerActive (s.lowerActive l) := rfl
        rw [filtered, some, if_pos rfl, List.map_cons, List.append_cons, still]
        refine rest.trans ?_
        generalize (ls.foldl State.lowerActive (s.lowerActive l)).stations = stations
        rw [first]
        have causes : (s.port.causes ||| Cause.stationMode.field) |||
            (if ls.any active = true then Cause.stationMode.field else 0#16) =
            s.port.causes ||| Cause.stationMode.field := by
          split
          · rw [BitVec.or_assoc, BitVec.or_self]
          · rw [BitVec.or_zero]
        rw [← causes]
        rfl
      · refine (at_ n).trans ?_
        by_cases e : n = l
        · subst e
          rw [here]
          simp [notIn, active, now]
        · rw [elsewhere n e]
          simp [e, active, elsewhere n e]
    · have first := lowerActive_of_not now
      obtain ⟨rest, at_⟩ := ih nodup s none
      have filtered : (l :: ls).filter active = ls.filter active := List.filter_cons_of_neg (by simp [active, now])
      have any : (l :: ls).any active = ls.any active := by simp [active, now]
      refine ⟨?_, fun n => ?_⟩
      · have still : t = ls.foldl State.lowerActive s := congrArg (ls.foldl State.lowerActive) first
        rw [filtered, any, still]
        exact rest
      · show (ls.foldl State.lowerActive (s.lowerActive l)).station n = _
        rw [first, at_]
        by_cases e : n = l
        · subst e
          simp [notIn, active, now]
        · simp [e, active]

/-! ## The slots freed -/

/-- The slots of some orders freed: their cells and references return, and ORDER_FREED is set if there is one. -/
structure State.FreesAll (s : State) (es : List (Nat × Order)) (t : State) : Prop where
  rest : s.sameBut [.orders, .refs, .causes] t
  order : ∀ k, t.order k = if k ∈ es.map Prod.fst then none else s.order k
  cells : t.orders.freeCells = s.orders.freeCells + (es.map fun e => e.2.lines.length).sum
  seq : t.orders.admissionSeq = s.orders.admissionSeq
  skus : ∀ k, t.refs.skus.find k = (s.refs.skus.find k).map fun e =>
    { e with count := e.count - (es.map fun f => (f.2.lines.filter fun l => l.sku = k).length).sum }
  classes : t.refs.classes = s.refs.classes
  designs : ∀ d, t.refs.designs.find d = (s.refs.designs.find d).map fun e =>
    { e with count := e.count - (es.map fun f => (f.2.lines.filter fun l => l.design = d).length).sum }
  causes : t.port.causes = s.port.causes ||| if es = [] then 0#16 else Cause.orderFreed.field

theorem freesAll_foldl (es : List (Nat × Order)) (nodup : (es.map Prod.fst).Nodup) (s : State)
    (listed : ∀ e ∈ es, s.order e.1 = some e.2) : s.FreesAll es ((es.map Prod.fst).foldl State.freeSlot s) := by
  induction es generalizing s with
  | nil =>
    refine ⟨?_, fun k => by simp, by simp, rfl, fun k => by simp, rfl, fun d => by simp, by simp⟩
    constructor <;> intros <;> simp_all
  | cons e es ih =>
    obtain ⟨notIn, nodup⟩ := List.nodup_cons.mp nodup
    have here := listed e List.mem_cons_self
    have first := freeSlot_of_order here
    have erased : ∀ k, (s.freeSlot e.1).order k = if k = e.1 then none else s.order k := fun k => by
      rw [first]
      exact find_erase ..
    have later := ih nodup (s.freeSlot e.1) fun f m => by
      have apart : f.1 ≠ e.1 := fun same => notIn (same ▸ List.mem_map_of_mem m)
      rw [erased, if_neg apart]
      exact listed f (List.mem_cons_of_mem _ m)
    rw [List.map_cons, List.foldl_cons]
    generalize (es.map Prod.fst).foldl State.freeSlot (s.freeSlot e.1) = t at later
    have freed : (s.freeSlot e.1).orders.freeCells = s.orders.freeCells + e.2.lines.length ∧
        (s.freeSlot e.1).orders.admissionSeq = s.orders.admissionSeq ∧
        (s.freeSlot e.1).refs.classes = s.refs.classes ∧
        (s.freeSlot e.1).port.causes = s.port.causes ||| Cause.orderFreed.field := by
      rw [first, countLines_eq]
      exact ⟨rfl, rfl, rfl, rfl⟩
    obtain ⟨cells, seq, classes, causes⟩ := freed
    refine ⟨sameBut_trans (sameBut_freeSlot s e.1) later.rest (by decide) (by decide), fun k => ?_, ?_,
      later.seq.trans seq, fun k => ?_, later.classes.trans classes, fun d => ?_, ?_⟩
    · rw [later.order, erased]
      by_cases same : k = e.1 <;> simp only [same, List.map_cons, List.mem_cons, true_or, false_or, if_true, if_false]
      split <;> rfl
    · rw [later.cells, cells, List.map_cons, List.sum_cons, Nat.add_assoc]
    · rw [later.skus, find_freeSlot_sku here, Option.map_map]
      simp only [Function.comp_def, Nat.sub_sub, List.map_cons, List.sum_cons]
    · rw [later.designs, find_freeSlot_design here, Option.map_map]
      simp only [Function.comp_def, Nat.sub_sub, List.map_cons, List.sum_cons]
    · rw [later.causes, causes]
      split
      · simp
      · simp [BitVec.or_assoc]

/-! ## The whole change -/

theorem find_of_above {α : Type} {r : Table α} {k : Nat} (h : above k r = true) : r.find k = none := by
  cases found : r.find k with
  | none => rfl
  | some v =>
    have := List.all_eq_true.mp h _ (mem_of_find found)
    simp at this

theorem find_filter {α : Type} {r : Table α} (ok : r.wf = true) (p : Nat × α → Bool) (k : Nat) :
    Table.find (r.filter p) k = (r.find k).filter fun v => p (k, v) := by
  induction r with
  | nil => rfl
  | cons e r ih =>
    obtain ⟨j, v⟩ := e
    rw [wf_cons, Bool.and_eq_true] at ok
    obtain ⟨high, ok⟩ := ok
    by_cases keep : p (j, v) = true
    · rw [List.filter_cons_of_pos keep, find_cons, find_cons, ih ok]
      split
      · rename_i same
        subst same
        simp [Option.filter, keep]
      · rfl
    · rw [List.filter_cons_of_neg keep, ih ok, find_cons]
      split
      · rename_i same
        subst same
        rw [find_of_above high]
        simp [Option.filter, keep]
      · rfl

theorem look_mapStore {α : Type} [DecidableEq α] {d : α} {r : Table α} (ok : r.wf = true) {f : α → α} (fix : f d = d)
    (k : Nat) : (Table.mapStore d r f).look d k = f (r.look d k) := by
  unfold Table.look Table.mapStore
  rw [find_filter (wf_mapVal _ _ ok), find_mapVal]
  cases r.find k with
  | none => exact fix.symm
  | some v =>
    by_cases same : f v = d <;> simp [Option.filter, same]

/-! ## The state before the slots are freed -/

theorem clearGarments_eq (s : State) : s.clearGarments = { s with
    garments := { s.garments with records := [], loadSeq := 0, cursor := .none, ageTimer := s.limits.agePeriod }
    refs := (s.uncount s.liveGarments).refs } := by
  have run : s.clearGarments = { s.uncount s.liveGarments with
      garments := { (s.uncount s.liveGarments).garments with
        records := [], loadSeq := 0, cursor := .none, ageTimer := (s.uncount s.liveGarments).limits.agePeriod } } := rfl
  rw [run, uncount_eq]

/-- The state once garments, orders, ring and lists are cleared, before the stations are. -/
@[irreducible] def State.clearBlocks (s : State) : State :=
  s.clearGarments.clearOrders.clearRing.clearLists

theorem clearBlocks_eq (s : State) : s.clearBlocks = { s with
    garments := { s.garments with records := [], loadSeq := 0, cursor := .none, ageTimer := s.limits.agePeriod }
    orders := { s.orders with
      slots := s.orders.slots.mapVal Order.clearF, freeCells := s.orders.freeCells + s.holdCells }
    refs := (s.uncount s.liveGarments).refs
    ring := { s.ring with
      platens := Table.mapStore {} s.ring.platens Platen.cleared
      state := if s.ring.eStop then .halted else .stopped
      cycle := .idle, moveTimer := none, lapCount := 0, lapSynced := false }
    cure := { s.cure with lanes := s.clearBlocks.cure.lanes, exitQueue := [] }
    bins := { s.bins with overflow := [] } } := by
  unfold State.clearBlocks
  rw [clearGarments_eq]
  rfl

theorem lane_clearBlocks (s : State) {k : Nat} (low : k ≤ 3) :
    s.clearBlocks.lane k = { s.lane k with reservation := none } := by
  unfold State.clearBlocks
  rw [clearGarments_eq]
  exact lane_mapLanes _ (fun x => { x with reservation := none }) low

theorem clearLine_eq (s : State) : s.clearLine = s.clearBlocks.clearLinks.refillMeter := by
  unfold State.clearBlocks
  rfl

theorem clearLinks_spec (s : State) :
    let active := fun l => decide ((s.station l).mode = .active)
    (s.clearLinks = { s with
      stations := s.clearLinks.stations
      sent := s.sent ++ ((Link.all.filter fun l => (s.station l).up).map fun l => ⟨l, .lineResetNotice⟩) ++
        ((Link.all.filter active).map fun l => ⟨l, .mode .check⟩)
      port.causes := s.port.causes ||| if Link.all.any active then Cause.stationMode.field else 0#16 }) ∧
    ∀ l, s.clearLinks.station l = { s.station l with
      verdict := none, workTimer := none, expired := none, mode := if active l then .check else (s.station l).mode } := by
  intro active
  have nodup : Link.all.Nodup := by decide
  obtain ⟨rest, at_⟩ := station_foldl_modifyStation
    (fun x => { x with verdict := none, workTimer := none, expired := none }) Link.all nodup s
  have told := foldl_noticeReset Link.all (Link.all.foldl State.clearStation s)
  have cleared : ∀ l, (Link.all.foldl State.clearStation s).station l =
      { s.station l with verdict := none, workTimer := none, expired := none } := fun l =>
    (at_ l).trans (if_pos (mem_linkAll l))
  simp only [cleared] at told
  have rest : Link.all.foldl State.clearStation s = { s with stations := (Link.all.foldl State.clearStation s).stations } :=
    rest
  have station : ∀ l, (Link.all.foldl State.noticeReset (Link.all.foldl State.clearStation s)).station l =
      { s.station l with verdict := none, workTimer := none, expired := none } := fun l => by
    rw [told]
    exact cleared l
  obtain ⟨lowered, modes⟩ := foldl_lowerActive Link.all nodup
    (Link.all.foldl State.noticeReset (Link.all.foldl State.clearStation s)) fun l => by
      unfold State.verdictOf
      rw [station]
  have unfolded : s.clearLinks =
      Link.all.foldl State.lowerActive (Link.all.foldl State.noticeReset (Link.all.foldl State.clearStation s)) := rfl
  simp only [station] at lowered modes
  rw [← unfolded] at lowered modes
  refine ⟨?_, fun l => ?_⟩
  · rw [told, rest] at lowered
    exact lowered
  · rw [modes l]
    simp only [mem_linkAll, true_and]
    rfl

theorem clearLine_spec (s : State) :
    let active := fun l => decide ((s.station l).mode = .active)
    (s.clearLine = { s with
      garments := { s.garments with records := [], loadSeq := 0, cursor := .none, ageTimer := s.limits.agePeriod }
      orders := { s.orders with
        slots := s.orders.slots.mapVal Order.clearF, freeCells := s.orders.freeCells + s.holdCells }
      refs := (s.uncount s.liveGarments).refs
      stations := s.clearLine.stations
      ring := { s.ring with
        platens := Table.mapStore {} s.ring.platens Platen.cleared
        state := if s.ring.eStop then .halted else .stopped
        cycle := .idle, moveTimer := none, lapCount := 0, lapSynced := false }
      meter := { s.meter with bc := s.meter.cbs, be := s.meter.ebs }
      cure := { s.cure with lanes := s.clearLine.cure.lanes, exitQueue := [] }
      bins := { s.bins with overflow := [] }
      sent := s.sent ++ ((Link.all.filter fun l => (s.station l).up).map fun l => ⟨l, .lineResetNotice⟩) ++
        ((Link.all.filter active).map fun l => ⟨l, .mode .check⟩)
      port.causes := s.port.causes ||| if Link.all.any active then Cause.stationMode.field else 0#16 }) ∧
    (∀ l, s.clearLine.station l = { s.station l with
      verdict := none, workTimer := none, expired := none, mode := if active l then .check else (s.station l).mode }) ∧
    ∀ k, k ≤ 3 → s.clearLine.lane k = { s.lane k with reservation := none } := by
  intro active
  have station : ∀ l, s.clearBlocks.station l = s.station l := fun l => by
    unfold State.station
    rw [clearBlocks_eq]
  obtain ⟨rest, at_⟩ := clearLinks_spec s.clearBlocks
  simp only [station] at rest at_
  have lane : ∀ k, k ≤ 3 → s.clearBlocks.lane k = { s.lane k with reservation := none } := fun k => lane_clearBlocks s
  rw [clearLine_eq]
  generalize s.clearBlocks.clearLinks = z at rest at_
  have lanes : z.cure.lanes = s.clearBlocks.cure.lanes := by rw [rest]
  refine ⟨?_, at_, fun k low => ?_⟩
  · show z.refillMeter = { s with
      garments := _, orders := _, refs := _, stations := z.stations, ring := _, meter := _
      cure := { s.cure with lanes := z.cure.lanes, exitQueue := [] }, bins := _, sent := _, port := _ }
    rw [lanes]
    generalize z.stations = stations at rest
    rw [rest, clearBlocks_eq]
    rfl
  · refine Eq.trans ?_ (lane k low)
    show z.cure.lanes.look {} k = _
    rw [lanes]
    rfl

/-- The orders that LINE RESET frees. -/
def State.drainable (s : State) : List (Nat × Order) :=
  s.orders.slots.filter fun e => decide (e.2.state = .cancelling ∧ e.2.bin = none)

theorem orders_clearLine (s : State) : s.clearLine.orders = { s.orders with
    slots := s.orders.slots.mapVal Order.clearF, freeCells := s.orders.freeCells + s.holdCells } := by
  rw [(clearLine_spec s).1]

theorem clearF_drained_iff (o : Order) : o.clearF.drained = true ↔ o.state = .cancelling ∧ o.bin = none := by
  rw [drained_iff]
  refine ⟨fun ⟨state, _, bin⟩ => ⟨state, bin⟩, fun ⟨state, bin⟩ => ⟨state, fun l m => ?_, bin⟩⟩
  obtain ⟨x, -, rfl⟩ := List.mem_map.mp m
  rfl

theorem drainedSlots_clearLine (s : State) :
    s.clearLine.drainedSlots = (s.drainable.map fun e => (e.1, e.2.clearF)).map Prod.fst := by
  unfold State.drainedSlots State.drainable
  rw [orders_clearLine]
  dsimp only
  unfold Table.mapVal
  rw [List.filter_map]
  refine congrArg (fun es => (List.map _ es).map Prod.fst) (List.filter_congr fun e _ => ?_)
  rw [Bool.eq_iff_iff, decide_eq_true_eq]
  exact clearF_drained_iff e.2

theorem order_clearLine (s : State) (k : Nat) : s.clearLine.order k = (s.order k).map Order.clearF := by
  unfold State.order
  rw [orders_clearLine]
  exact find_mapVal ..

theorem freesAll_lineReset (ok : s.orders.slots.wf = true) :
    s.clearLine.FreesAll (s.drainable.map fun e => (e.1, e.2.clearF)) s.lineReset := by
  have run : s.lineReset = s.clearLine.drainedSlots.foldl State.freeSlot s.clearLine := rfl
  rw [run, drainedSlots_clearLine]
  refine freesAll_foldl _ ?_ _ fun e m => ?_
  · rw [List.map_map]
    exact List.Pairwise.map _ (fun _ _ lt => Nat.ne_of_lt lt) (wf_pairwise (wf_filter s.orders.slots _ ok))
  · obtain ⟨x, mx, rfl⟩ := List.mem_map.mp m
    rw [order_clearLine, show s.order x.1 = some x.2 from find_of_mem ok (List.mem_of_mem_filter mx)]
    rfl

theorem mem_drainable (ok : s.orders.slots.wf = true) (k : Nat) :
    k ∈ (s.drainable.map fun e => (e.1, e.2.clearF)).map Prod.fst ↔
      ∃ o, s.order k = some o ∧ o.state = .cancelling ∧ o.bin = none := by
  rw [List.map_map, List.mem_map]
  constructor
  · rintro ⟨e, m, rfl⟩
    obtain ⟨listed, can⟩ := List.mem_filter.mp m
    exact ⟨e.2, find_of_mem ok listed, by simpa using can⟩
  · rintro ⟨o, listed, can⟩
    exact ⟨(k, o), List.mem_filter.mpr ⟨mem_of_find listed, by simpa using can⟩, rfl⟩

theorem order_lineReset (ok : s.orders.slots.wf = true) (k : Nat) : s.lineReset.order k = match s.order k with
    | none => none
    | some o => if o.state = .cancelling ∧ o.bin = none then none
      else some { o with lines := o.lines.map fun l => { l with inFlight := 0 } } := by
  rw [(freesAll_lineReset ok).order, order_clearLine]
  cases listed : s.order k with
  | none => simp
  | some o =>
    by_cases can : o.state = .cancelling ∧ o.bin = none
    · rw [if_pos ((mem_drainable ok k).mpr ⟨o, listed, can⟩)]
      exact (if_pos can).symm
    · rw [if_neg fun m => by
        obtain ⟨x, listed', can'⟩ := (mem_drainable ok k).mp m
        rw [listed] at listed'
        cases listed'
        exact can can']
      exact (if_neg can).symm

theorem sum_clearF_lines (es : List (Nat × Order)) (p : Line → Bool) (blind : ∀ l, p { l with inFlight := 0 } = p l) :
    ((es.map fun e => (e.1, e.2.clearF)).map fun f => (f.2.lines.filter p).length).sum =
      (es.map fun f => (f.2.lines.filter p).length).sum := by
  rw [List.map_map]
  refine congrArg List.sum (List.map_congr_left fun e _ => ?_)
  show ((e.2.lines.map _).filter p).length = _
  rw [List.filter_map, List.length_map]
  exact congrArg List.length (List.filter_congr fun l _ => blind l)

theorem finish_of_off (ring : t.ring.state = .stopped ∨ t.ring.state = .halted) (limits : t.limits = s.limits)
    (cells : s.orders.freeCells ≤ t.orders.freeCells) : t.finish s = t := by
  have settle : t.settleRing s = t := by
    unfold State.settleRing
    split
    · rfl
    · exact ringTest_of_still ring
  unfold State.finish
  rw [settle, checkCells_eq, if_neg (by rw [limits]; omega)]

/-- What LINE RESET leaves of each block. -/
structure State.LineCleared (s t : State) : Prop where
  garments : t.garments =
    { s.garments with records := [], loadSeq := 0, cursor := .none, ageTimer := s.limits.agePeriod }
  order : ∀ k, t.order k = match s.order k with
    | none => none
    | some o => if o.state = .cancelling ∧ o.bin = none then none
      else some { o with lines := o.lines.map fun l => { l with inFlight := 0 } }
  cells : t.orders.freeCells = s.orders.freeCells + s.holdCells + (s.drainable.map fun e => e.2.lines.length).sum
  seq : t.orders.admissionSeq = s.orders.admissionSeq
  skus : ∀ k, t.refs.skus.find k = (s.refs.skus.find k).map fun e =>
    { e with count := e.count - (s.liveGarments.filter fun g => g.sku = k).length -
      (s.drainable.map fun f => (f.2.lines.filter fun l => l.sku = k).length).sum }
  classes : ∀ k, t.refs.classes.find k = (s.refs.classes.find k).map fun e =>
    { e with count := e.count - (s.liveGarments.filter fun g => g.cls = k).length }
  designs : ∀ k, t.refs.designs.find k = (s.refs.designs.find k).map fun e =>
    { e with count := e.count - (s.liveGarments.filter fun g => g.design = k).length -
      (s.drainable.map fun f => (f.2.lines.filter fun l => l.design = k).length).sum }
  station : ∀ l, t.station l = { s.station l with
    verdict := none, workTimer := none, expired := none
    mode := if decide ((s.station l).mode = .active) then .check else (s.station l).mode }
  sent : t.sent = s.sent ++ ((Link.all.filter fun l => (s.station l).up).map fun l => ⟨l, .lineResetNotice⟩) ++
    ((Link.all.filter fun l => decide ((s.station l).mode = .active)).map fun l => ⟨l, .mode .check⟩)
  causes : t.port.causes = s.port.causes |||
    (if Link.all.any fun l => decide ((s.station l).mode = .active) then Cause.stationMode.field else 0#16) |||
    (if s.drainable = [] then 0#16 else Cause.orderFreed.field)
  platens : ∀ k, t.platen k = if (s.platen k).state = .occupied then {} else { s.platen k with held := false }
  ring : { t.ring with platens := s.ring.platens } = { s.ring with
    state := if s.ring.eStop then .halted else .stopped, cycle := .idle, moveTimer := none, lapCount := 0
    lapSynced := false }
  meter : t.meter = { s.meter with bc := s.meter.cbs, be := s.meter.ebs }
  cure : { t.cure with lanes := s.cure.lanes } = { s.cure with exitQueue := [] }
  lanes : ∀ k, k ≤ 3 → t.lane k = { s.lane k with reservation := none }
  bins : t.bins = { s.bins with overflow := [] }

theorem lineCleared_lineReset (tables : TablesOk s) : s.LineCleared s.lineReset := by
  have freed := freesAll_lineReset tables.slots
  have order := order_lineReset tables.slots
  obtain ⟨before, station, lanes⟩ := clearLine_spec s
  generalize s.lineReset = t at freed order
  generalize s.clearLine = z at freed before station lanes
  have cure : t.cure = z.cure := freed.rest.cure (by decide)
  have ring : t.ring = z.ring := freed.rest.ring (by decide)
  refine ⟨?_, order, ?_, ?_, fun k => ?_, fun k => ?_, fun k => ?_, fun l => ?_, ?_, ?_, fun k => ?_, ?_, ?_, ?_,
    fun k low => ?_, ?_⟩
  · rw [freed.rest.garments (by decide), before]
  · rw [freed.cells, before, List.map_map]
    refine congrArg (_ + List.sum ·) (List.map_congr_left fun e _ => ?_)
    exact List.length_map _
  · rw [freed.seq, before]
  · rw [freed.skus, sum_clearF_lines _ (fun l => decide (l.sku = k)) fun _ => rfl, before, find_uncount_sku, Option.map_map]
    rfl
  · rw [freed.classes, before, find_uncount_class]
  · rw [freed.designs, sum_clearF_lines _ (fun l => decide (l.design = k)) fun _ => rfl, before, find_uncount_design,
      Option.map_map]
    rfl
  · rw [← station l]
    unfold State.station
    rw [freed.rest.stations (by decide)]
  · rw [freed.rest.messages (by decide), before]
  · rw [freed.causes, before]
    simp only [List.map_eq_nil_iff]
  · unfold State.platen
    rw [ring, before]
    exact look_mapStore (wf_of_wfDefault tables.platens) rfl k
  · rw [ring, before]
  · rw [freed.rest.meter (by decide), before]
  · rw [cure, before]
  · rw [← lanes k low]
    unfold State.lane
    rw [cure]
  · rw [freed.rest.bins (by decide), before]

theorem sameBut_lineReset (tables : TablesOk s) :
    s.sameBut [.garments, .orders, .refs, .stations, .ring, .meter, .cure, .bins, .causes, .messages] s.lineReset := by
  have freed := freesAll_lineReset tables.slots
  obtain ⟨before, -, -⟩ := clearLine_spec s
  refine sameBut_trans (t := s.clearLine)
    (a := [.garments, .orders, .refs, .stations, .ring, .meter, .cure, .bins, .causes, .messages]) ?_ freed.rest
    (by decide) (by decide)
  generalize s.clearLine = z at before
  generalize z.stations = stations, z.cure.lanes = lanes at before
  rw [before]
  constructor <;> intros <;> simp_all

theorem lineReset_carries (ready : s.PortReady) (tables : TablesOk s) : ∃ u, Carries .lineReset [] s u
    (accepted (beBytes 2 s.garments.records.length ++ beBytes 1 s.drainable.length)) ∧ s.LineCleared u ∧
    s.sameBut [.garments, .orders, .refs, .stations, .ring, .meter, .cure, .bins, .causes, .messages, .transport] u := by
  have tables' : TablesOk (s.taken .lineReset []) := { tables with }
  have cleared := lineCleared_lineReset tables'
  have same := sameBut_lineReset tables'
  have count : (s.taken .lineReset []).clearLine.drainedSlots.length = s.drainable.length := by
    rw [drainedSlots_clearLine, List.length_map, List.length_map]
    rfl
  have change : ownerChange .lineReset [] (s.taken .lineReset []) = ((s.taken .lineReset []).lineReset,
      accepted (beBytes 2 s.garments.records.length ++ beBytes 1 s.drainable.length)) := by
    rw [← count]
    rfl
  have carries := carries_completed ready (by simp) rfl change
  generalize (s.taken .lineReset []).lineReset = t at carries cleared same
  have off : t.ring.state = .stopped ∨ t.ring.state = .halted := by
    have state : t.ring.state = if s.ring.eStop then RingState.halted else .stopped := congrArg Ring.state cleared.ring
    rw [state]
    cases s.ring.eStop
    · exact .inl rfl
    · exact .inr rfl
  have cells : (s.taken .lineReset []).orders.freeCells ≤ t.orders.freeCells := by
    rw [cleared.cells]
    exact (Nat.le_add_right ..).trans (Nat.le_add_right ..)
  have done : t.finish (s.taken .lineReset []) = t := finish_of_off off (same.limits (by decide)) cells
  refine ⟨_, carries, ?_, ?_⟩
  · unfold State.completed
    rw [done]
    exact ⟨cleared.garments, cleared.order, cleared.cells, cleared.seq, cleared.skus, cleared.classes, cleared.designs,
      cleared.station, cleared.sent, cleared.causes, cleared.platens, cleared.ring, cleared.meter, cleared.cure,
      cleared.lanes, cleared.bins⟩
  · refine sameBut_completed ?_ (by decide)
    rw [done]
    exact sameBut_widen same (by decide)

/-- Settles O38. -/
theorem lineResetClearsTheLine : Obligations.LineResetClearsTheLine := by
  unfold Obligations.LineResetClearsTheLine
  intro s ready tables freed active
  obtain ⟨u, carries, cleared, same⟩ := lineReset_carries ready tables
  exact ⟨u, carries, cleared.garments, cleared.order, cleared.cells, cleared.seq, cleared.skus, cleared.classes,
    cleared.designs, cleared.station, cleared.sent, cleared.causes, cleared.platens, cleared.ring, cleared.meter,
    cleared.cure, cleared.lanes, cleared.bins, same⟩

end Sys2Proof.Machine
end

section
/-! SUPPORT. The answer to a message as one change of the state: the station written, the message sent; and the messages
whose answer is all they do. -/

namespace Sys2Proof.Machine

variable {s t : State} {l : Link} {kind : Byte} {payload : List Byte}

/-! ## Replies -/

/-- A reply sent, with the station it leaves. -/
def State.replied (s : State) (l : Link) (x : Station) (m : Message) : State :=
  { s with stations := s.stations.set l x, sent := s.sent ++ [⟨l, m⟩] }

@[simp] theorem station_replied (s : State) (l : Link) (x : Station) (m : Message) : (s.replied l x m).station l = x :=
  stations_get_set ..

theorem station_replied_ne (s : State) (l : Link) {n : Link} (other : n ≠ l) (x : Station) (m : Message) :
    (s.replied l x m).station n = s.station n :=
  stations_get_set_ne _ other _

theorem answers_replied (s : State) (l : Link) (x : Station) (m : Message) : s.Answers l x m (s.replied l x m) :=
  ⟨station_replied .., fun _ other => station_replied_ne s l other x m, rfl⟩

theorem sameBut_replied (s : State) (l : Link) (x : Station) (m : Message) :
    s.sameBut [.stations, .messages] (s.replied l x m) := by
  constructor <;> intros <;> simp_all [State.replied]

/-- The station that stood when a message came in is written once. -/
theorem heard_replied (s : State) (l : Link) (x : Station) (m : Message) :
    (s.heard l).replied l x m = s.replied l x m :=
  congrArg (fun y => ({ s with stations := y, sent := s.sent ++ [⟨l, m⟩] } : State)) (set_set ..)

theorem replyAck_eq (s : State) (l : Link) (kind : Byte) : s.replyAck l kind =
    s.replied l { s.station l with refusalSeen := false } (.ack kind (s.station l).mode) := rfl

theorem replyVerdict_eq (s : State) (l : Link) (p : Option Nat) (tag : Tag) (v : Verdict) (a b : Nat) :
    s.replyVerdict l p tag v a b =
      s.replied l { s.station l with refusalSeen := false } (.verdict (platenByte p) tag v a b) := rfl

/-- Whether a refusal at a station sets STATION_REFUSAL (R97). -/
def Station.signals (x : Station) : Bool :=
  x.attention = .all || !x.refusalSeen

theorem Station.signals_iff (x : Station) : x.signals = true ↔ x.attention = .all ∨ x.refusalSeen = false := by
  simp [Station.signals]

theorem replyRefuse_eq (s : State) (l : Link) (code : RefusalCode) (kind p : Byte) (tag : Tag) :
    s.replyRefuse l code kind p tag = (s.raiseIf (s.station l).signals .stationRefusal).replied l
      { s.station l with refusalSeen := true } (.refuse code kind p tag) := by
  unfold State.replyRefuse
  show ((s.raiseIf (s.station l).signals .stationRefusal).setRefusalSeen l true).send l _ = _
  rw [raiseIf_eq]
  rfl

theorem raiseIf_causes (s : State) (b : Bool) (c : Cause) :
    (s.raiseIf b c).port.causes = if b = true then s.port.causes ||| c.field else s.port.causes := by
  unfold State.raiseIf
  split <;> rfl

/-- A refusal of a message: the station as it stands when the reply is made may differ from the first by what R97 does not
read. -/
theorem refuses_of_reply {x : Station} {code : RefusalCode} {p : Byte} {tag : Tag} (u : State)
    (stations : u.stations = s.stations.set l x) (sent : u.sent = s.sent) (causes : u.port.causes = s.port.causes)
    (attention : x.attention = (s.station l).attention) (seen : x.refusalSeen = (s.station l).refusalSeen) :
    s.Refuses l x code kind (p, tag) (u.replyRefuse l code kind p tag) := by
  have here : u.station l = x := by
    unfold State.station
    rw [stations, stations_get_set]
  rw [replyRefuse_eq, here]
  have raised : (u.raiseIf x.signals .stationRefusal).stations = u.stations ∧
      (u.raiseIf x.signals .stationRefusal).sent = u.sent := by
    rw [raiseIf_eq]
    exact ⟨rfl, rfl⟩
  refine ⟨station_replied .., fun n other => ?_, ?_, ?_⟩
  · rw [station_replied_ne _ _ other]
    unfold State.station
    rw [raised.1, stations, stations_get_set_ne _ other]
  · have signals : x.signals = true ↔ (s.station l).attention = .all ∨ (s.station l).refusalSeen = false := by
      rw [Station.signals_iff, attention, seen]
    refine (raiseIf_causes ..).trans ?_
    rw [causes]
    exact if_congr signals rfl rfl
  · exact congrArg (· ++ _) (raised.2.trans sent)

theorem sameBut_replyRefuse (s : State) (l : Link) (code : RefusalCode) (kind p : Byte) (tag : Tag) :
    s.sameBut [.stations, .causes, .messages] (s.replyRefuse l code kind p tag) := by
  rw [replyRefuse_eq, raiseIf_eq]
  constructor <;> intros <;> simp_all [State.replied]

theorem sameBut_heard (s : State) (l : Link) : s.sameBut [.stations] (s.heard l) := by
  constructor <;> intros <;> simp_all [State.heard, State.modifyStation]

theorem set_station (s : State) (l : Link) : s.stations.set l (s.station l) = s.stations := by
  cases l <;> rfl

theorem sameBut_raise (s : State) (c : Cause) : s.sameBut [.causes] (s.raise c) := by
  constructor <;> intros <;> simp_all [State.raise]

/-! ## Messages that are refused as they come in -/

/-- A message that fails a check of R82 on a link that is UP. -/
theorem refuses_badRequest (s : State) (l : Link) (kind : Byte) (payload : List Byte) :
    s.Refuses l (s.station l).heard .badRequest kind (refuseEcho kind payload)
        ((s.heard l).refuseMessage l .badRequest kind payload) ∧
      s.sameBut [.stations, .causes, .messages] ((s.heard l).refuseMessage l .badRequest kind payload) :=
  ⟨refuses_of_reply (s.heard l) rfl rfl rfl rfl rfl,
    sameBut_trans (sameBut_heard s l) (sameBut_replyRefuse ..) (by decide) (by decide)⟩

/-- A message on a link that is DOWN. -/
theorem refuses_down (s : State) (l : Link) (code : RefusalCode) (kind : Byte) (payload : List Byte) :
    s.Refuses l (s.station l) code kind (refuseEcho kind payload) (s.refuseMessage l code kind payload) ∧
      s.sameBut [.stations, .causes, .messages] (s.refuseMessage l code kind payload) :=
  ⟨refuses_of_reply s (set_station s l).symm rfl rfl rfl rfl, sameBut_replyRefuse ..⟩

theorem receive_down (down : (s.station l).up = false) (f : State → State) :
    s.receive l kind payload f = s.refuseMessage l .badState kind payload := by
  unfold State.receive
  rw [down]
  rfl

theorem receive_bad (up : (s.station l).up = true) (bad : messageOk l kind payload = false) (f : State → State) :
    s.receive l kind payload f = (s.heard l).refuseMessage l .badRequest kind payload := by
  unfold State.receive
  rw [up, bad]
  rfl

/-! ## HELLO on a link that is DOWN -/

theorem helloFits_iff : helloFits l payload = true ↔ payload.length = 3 ∧ field payload 0 1 = l.number := by
  simp [helloFits]

theorem receiveHello_down (down : (s.station l).up = false) : s.receiveHello l payload =
    if helloFits l payload = true then (s.linkUp l (field payload 1 2)).finish s
    else s.refuseMessage l .wrongKind kindHello payload := by
  unfold State.receiveHello
  rw [down]
  rfl

/-- A link that comes UP is answered MODE. -/
theorem linkUp_eq (s : State) (l : Link) (n : Nat) : s.linkUp l n =
    (s.raise .stationMode).replied l { s.station l with
      up := true, firmware := some n, mode := .standby, silenceTimer := some 2000, expired := none } (.mode .standby) := rfl

/-- Settles O39. -/
theorem helloBringsALinkUp : Obligations.HelloBringsALinkUp := by
  unfold Obligations.HelloBringsALinkUp
  intro s l payload down refused
  refine ⟨fun fits => ?_, fun unfit => ?_, fun e named => ?_, fun kind other => ?_⟩
  · refine ⟨s.linkUp l (field payload 1 2), ?_, ?_, rfl, ?_⟩
    · refine congrArg Host.Outcome.next ((receiveHello_down down).trans ?_)
      rw [if_pos (helloFits_iff.mpr fits)]
      exact finish_same rfl rfl rfl
    · exact { answers_replied (s.raise .stationMode) l _ _ with }
    · exact sameBut_trans (sameBut_raise s .stationMode) (sameBut_replied ..) (by decide) (by decide)
  · refine ⟨_, congrArg Host.Outcome.next ((receiveHello_down down).trans ?_), refuses_down s l .wrongKind kindHello payload⟩
    exact if_neg fun fits => unfit (helloFits_iff.mp fits)
  · have every : ∀ (kind : Byte) (f : State → State), s.receive l kind payload f = s.refuseMessage l .badState kind payload :=
      fun kind f => receive_down down f
    have last : exec e.1 s = .next (s.refuseMessage l .badState e.2 payload) := by
      simp only [List.mem_cons, List.not_mem_nil, or_false] at named
      rcases named with rfl | rfl | rfl | rfl | rfl | rfl | rfl | rfl <;> exact congrArg Host.Outcome.next (every _ _)
    exact ⟨_, last, refuses_down s l .badState e.2 payload⟩
  · refine ⟨_, ?_, refuses_down s l .badState kind payload⟩
    show Host.Outcome.next _ = _
    rw [down, if_neg Bool.false_ne_true, if_neg other]

/-! ## STATUS and messages that fail a check -/

theorem heard_replyAck (s : State) (l : Link) (kind : Byte) : (s.heard l).replyAck l kind =
    s.replied l (s.station l).answered (.ack kind (s.station l).mode) := by
  rw [replyAck_eq, heard_replied]
  have here : (s.heard l).station l = (s.station l).heard := station_modifyStation ..
  rw [here]
  rfl

/-- Settles O41. -/
theorem statusUnknownAndDiscardedMessages : Obligations.StatusUnknownAndDiscardedMessages := by
  unfold Obligations.StatusUnknownAndDiscardedMessages
  intro s l payload
  refine ⟨fun frame => rfl, fun hears => ?_, fun up e named bad => ?_, fun up kind => ?_⟩
  · refine ⟨s.replied l (s.station l).answered (.ack kindStatus (s.station l).mode), ?_, answers_replied .., sameBut_replied ..⟩
    refine congrArg Host.Outcome.next ((up_next hears _).trans ?_)
    rw [touch_none (by decide), heard_replyAck]
    exact finish_same rfl rfl rfl
  · have every : ∀ f : State → State, s.receive l e.2 payload f = (s.heard l).refuseMessage l .badRequest e.2 payload :=
      fun f => receive_bad up bad f
    have hello : e.2 = kindHello → s.receiveHello l payload = (s.heard l).refuseMessage l .badRequest kindHello payload :=
      fun isHello => by
        unfold State.receiveHello
        rw [up, if_pos rfl, if_neg (by rw [← isHello, bad]; decide)]
    have last : exec e.1 s = .next ((s.heard l).refuseMessage l .badRequest e.2 payload) := by
      simp only [List.mem_cons, List.not_mem_nil, or_false] at named
      rcases named with rfl | rfl | rfl | rfl | rfl | rfl | rfl | rfl | rfl
      · exact congrArg Host.Outcome.next (hello rfl)
      all_goals exact congrArg Host.Outcome.next (every _)
    exact ⟨_, last, refuses_badRequest s l e.2 payload⟩
  · refine ⟨_, ?_, refuses_badRequest s l kind payload⟩
    show Host.Outcome.next _ = _
    rw [up, if_pos rfl]

end Sys2Proof.Machine
end

section
/-! SUPPORT. What the end of another verdict, a halt and a change of mode leave of a station: its link, its mode and its
settings, and, where it has no verdict open, everything but an expired-verdict memory. -/

namespace Sys2Proof.Machine

variable {s t u : State} {l : Link}

/-! ## Stations without a verdict -/

/-- Every station keeps its link, mode and settings, and one with no open verdict stands, but that the memory of an expired
one may be cleared. -/
structure State.Rests (s t : State) : Prop where
  keeps : ∀ n, KeepsLink (s.station n) (t.station n)
  idle : ∀ n, s.verdictOf n = none →
    t.station n = s.station n ∨ t.station n = { s.station n with expired := none }

theorem State.Rests.of_stations (h : t.stations = s.stations) : s.Rests t := by
  have same : ∀ n, t.station n = s.station n := fun n => by
    unfold State.station
    rw [h]
  exact ⟨fun n => same n ▸ .refl _, fun n _ => .inl (same n)⟩

theorem State.Rests.verdict (h : s.Rests t) {n : Link} (absent : s.verdictOf n = none) : t.verdictOf n = none := by
  rcases h.idle n absent with e | e
  · exact (congrArg Station.verdict e).trans absent
  · exact (congrArg Station.verdict e).trans absent

theorem State.Rests.trans (h : s.Rests t) (k : t.Rests u) : s.Rests u where
  keeps n := (h.keeps n).trans (k.keeps n)
  idle n absent := by
    rcases h.idle n absent with e | e <;> rcases k.idle n (h.verdict absent) with d | d
    · exact .inl (d.trans e)
    · exact .inr (d.trans (by rw [e]))
    · exact .inr (d.trans e)
    · exact .inr (d.trans (by rw [e]))

theorem State.Rests.ite {c : Prop} [Decidable c] (h : s.Rests t) (k : s.Rests u) : s.Rests (if c then t else u) := by
  split
  · exact h
  · exact k

theorem State.Rests.foldl {α : Type} {f : State → α → State} (h : ∀ (s : State) a, s.Rests (f s a)) (as : List α) (s : State) :
    s.Rests (as.foldl f s) := by
  induction as generalizing s with
  | nil => exact .of_stations rfl
  | cons a as ih => exact (h s a).trans (ih _)

theorem rests_endRecord (opened : s.verdictOf l ≠ none) : s.Rests (s.endRecord l) where
  keeps := (quiet_endRecord s l).links
  idle n absent := by
    refine .inl (station_modifyStation_ne s (fun here => ?_) _)
    rw [here] at absent
    exact opened absent

theorem rests_serveWait (s : State) : s.Rests s.serveWait where
  keeps := (quiet_serveWait s).links
  idle n absent := by
    unfold State.serveWait
    split
    · rename_i v k opened _
      split
      · have other : n ≠ .unload := fun here => by
          rw [here, opened] at absent
          cases absent
        exact .inl (stations_get_set_ne _ other _)
      · exact .inl rfl
    · exact .inl rfl

theorem without_of_idle {x : Station} (absent : x.verdict = none) (tag : Tag) :
    x.without tag = x ∨ x.without tag = { x with expired := none } := by
  obtain ⟨up, firmware, mode, verdict, attention, seen, timer, silence, expired⟩ := x
  subst absent
  cases expired with
  | none => exact .inl rfl
  | some e =>
    by_cases here : e.tag = tag
    · exact .inr (by simp [Station.without, here])
    · exact .inl (by simp [Station.without, here])

theorem rests_removeRecord (reason : Reason) (s : State) (e : Nat × Garment) : s.Rests (State.removeRecord reason s e) where
  keeps := (quiet_removeRecord ..).links
  idle n absent := by
    rw [(removed_removeRecord s reason e.1 e.2).stations n]
    exact without_of_idle absent _

theorem stations_of_aside (h : t.aside = s.aside) : t.stations = s.stations := by
  show t.aside.stations = s.aside.stations
  rw [h]

theorem rests_retire (s : State) (reason : Reason) (tag : Tag) : s.Rests (s.retire reason tag) := by
  unfold State.retire
  split
  · exact .of_stations rfl
  · exact ((rests_removeRecord ..).trans (rests_serveWait _)).trans
      (.of_stations (stations_of_aside (endBinding_aside ..)))

/-! ## The end of a verdict -/

theorem rests_undoVerdict (s : State) (w : Withdrawal) (l : Link) (v : OpenVerdict) : s.Rests (s.undoVerdict w l v) := by
  have spoils : s.Rests (s.spoil v.tag) := .of_stations (by
    unfold State.spoil State.modifyGarment
    split <;> rfl)
  unfold State.undoVerdict
  split
  · exact rests_retire ..
  · exact spoils
  · exact spoils
  · exact rests_retire ..
  · exact .ite (.of_stations rfl) (.of_stations rfl)
  · refine (State.Rests.of_stations ?_).trans (rests_serveWait _)
    rw [(releaseLanes_spec s v.tag).1]
  · exact .of_stations (stations_returnHold ..)
  all_goals exact .of_stations rfl

theorem stations_releaseWithdrawn (s : State) (w : Withdrawal) (p : Option Nat) :
    (s.releaseWithdrawn w p).stations = s.stations := by
  unfold State.releaseWithdrawn
  split
  · rfl
  · exact stations_releaseHold ..

theorem stations_afterVerdict (s : State) (tag : Tag) : (s.afterVerdict tag).stations = s.stations := by
  unfold State.afterVerdict
  split
  · rfl
  · split
    · rfl
    · split
      · rfl
      · split
        · exact stations_of_aside ((drainTest_aside ..).trans (binds_stageRule ..).aside)
        · rfl

/-- What follows the end of a record at a withdrawal. -/
theorem rests_undone (s : State) (w : Withdrawal) (l : Link) (v : OpenVerdict) :
    s.Rests (((s.undoVerdict w l v).releaseWithdrawn w v.platen).afterVerdict v.tag) :=
  (rests_undoVerdict ..).trans (.of_stations ((stations_afterVerdict ..).trans (stations_releaseWithdrawn ..)))

theorem withdraw_none (w : Withdrawal) (absent : s.verdictOf l = none) : State.withdraw w s l = s := by
  unfold State.withdraw
  rw [absent]

theorem withdraw_some (w : Withdrawal) {v : OpenVerdict} (opened : s.verdictOf l = some v) : State.withdraw w s l =
    (((s.endRecord l).undoVerdict w l v).releaseWithdrawn w v.platen).afterVerdict v.tag := by
  unfold State.withdraw
  rw [opened]

theorem rests_withdraw (s : State) (w : Withdrawal) (l : Link) : s.Rests (State.withdraw w s l) := by
  cases opened : s.verdictOf l with
  | none =>
    rw [withdraw_none w opened]
    exact .of_stations rfl
  | some v =>
    rw [withdraw_some w opened]
    exact (rests_endRecord (by rw [opened]; exact Option.some_ne_none v)).trans (rests_undone ..)

theorem verdictOf_endRecord (s : State) (l : Link) : (s.endRecord l).verdictOf l = none :=
  congrArg Station.verdict (station_modifyStation s l fun x => { x with verdict := none, workTimer := none })

theorem verdictOf_withdraw (s : State) (w : Withdrawal) (l : Link) : (State.withdraw w s l).verdictOf l = none := by
  cases opened : s.verdictOf l with
  | none =>
    rw [withdraw_none w opened]
    exact opened
  | some v =>
    rw [withdraw_some w opened]
    exact (rests_undone ..).verdict (verdictOf_endRecord s l)

/-! ## Halts and changes of mode -/

theorem rests_halt (s : State) : s.Rests s.halt := by
  unfold State.halt
  refine .ite (.of_stations rfl) ?_
  have undone : s.Rests (Link.ring.foldl (State.withdraw .halt) s.stopDrive) :=
    (State.Rests.of_stations (s := s) (t := s.stopDrive) rfl).trans
      (State.Rests.foldl (fun s l => rests_withdraw s .halt l) _ _)
  exact undone.trans (.of_stations rfl)

/-- The WAIT of a station that has left ACTIVE withdrawn (R88). -/
def State.dropWait (s : State) (l : Link) : State :=
  if (s.station l).mode ≠ .active ∧ (s.verdictOf l).any (fun r => r.cls == .wait) then s.withdraw .modeFall l else s

/-- The hold of a station that has fallen released (R108). -/
def State.dropHold (s : State) (l : Link) : State :=
  if (s.station l).working = false ∧ s.verdictOf l = none then s.releaseHold (s.facing l) else s

/-- The halt of a verify lap that LOAD has left (R119). -/
def State.dropLap (s : State) (l : Link) : State :=
  if l = .load ∧ s.ring.state = .verifying ∧ (s.station l).working = false then s.halt else s

theorem followMode_eq (s : State) (l : Link) : s.followMode l = ((s.dropWait l).dropHold l).dropLap l := rfl

theorem rests_followMode (s : State) (l : Link) : s.Rests (s.followMode l) := by
  have waits : ∀ s : State, s.Rests (s.dropWait l) := fun s => .ite (rests_withdraw ..) (.of_stations rfl)
  have holds : ∀ s : State, s.Rests (s.dropHold l) := fun s =>
    .ite (.of_stations (stations_releaseHold ..)) (.of_stations rfl)
  have laps : ∀ s : State, s.Rests (s.dropLap l) := fun s => .ite (rests_halt _) (.of_stations rfl)
  rw [followMode_eq]
  exact ((waits _).trans (holds _)).trans (laps _)

/-- A change of mode that leaves the station its verdict, if any, and the ring its state. -/
theorem followMode_calm (work : (s.station l).mode = .active ∨ ∀ v, s.verdictOf l = some v → v.cls = .work)
    (stays : ¬ (l = .load ∧ s.ring.state = .verifying ∧ (s.station l).working = false)) :
    s.followMode l = s.dropHold l := by
  have waits : s.dropWait l = s := by
    refine if_neg ?_
    rintro ⟨inactive, wait⟩
    cases opened : s.verdictOf l with
    | none =>
      rw [opened] at wait
      cases wait
    | some v =>
      rw [opened] at wait
      have cls : (v.cls == .wait) = true := wait
      rw [(work.resolve_left inactive) v opened] at cls
      cases cls
  have kept : (s.dropHold l).ring.state = s.ring.state ∧ (s.dropHold l).stations = s.stations := by
    unfold State.dropHold
    split
    · exact ⟨by rw [releaseHold_eq], stations_releaseHold ..⟩
    · exact ⟨rfl, rfl⟩
  rw [followMode_eq, waits]
  refine if_neg ?_
  unfold State.station at stays ⊢
  rw [kept.1, kept.2]
  exact stays

/-! ## A hold released at the end of a change -/

theorem ringReleased_congr (ring : t.ring = s.ring) (limits : t.limits = s.limits) (k : Option Nat) :
    t.ringReleased k = s.ringReleased k := by
  have released : (t.releaseHold k).ring = (s.releaseHold k).ring := by
    cases k with
    | none => exact ring
    | some k =>
      show (t.modifyPlaten k _).ring = (s.modifyPlaten k _).ring
      unfold State.modifyPlaten State.platen
      rw [ring]
  have before : (t.releaseHold k).settleRing t = (t.releaseHold k).settleRing s := by
    unfold State.settleRing State.heldPlatens
    rw [ring]
  unfold State.ringReleased
  rw [before]
  refine settle_ring released ?_
  rw [releaseHold_eq, releaseHold_eq s]
  exact limits

/-- A hold released by a change that leaves the ring otherwise: the ring is as `ringReleased` has it. -/
theorem finish_releaseHold (k : Option Nat) (ring : u.ring = s.ring) (limits : u.limits = s.limits)
    (cells : s.orders.freeCells ≤ u.orders.freeCells) :
    (u.releaseHold k).finish s = { u with ring := s.ringReleased k } := by
  have causes : ((u.releaseHold k).finish s).port.causes = u.port.causes := by
    refine (finish_causes_of_more ?_ ?_).trans ?_ <;> rw [releaseHold_eq]
    · exact limits
    · exact cells
  have last : ((u.releaseHold k).finish s).ring = s.ringReleased k := by
    rw [finish_ring, ← ringReleased_congr ring limits]
    unfold State.ringReleased State.settleRing State.heldPlatens
    rw [ring]
  rw [finish_eq, causes, last, releaseHold_eq]

/-! ## A change of mode -/

/-- A mode written, sent and flagged, before what follows it (R88). -/
def State.modeSet (s : State) (l : Link) (m : StationMode) : State :=
  ((s.setMode l m).send l (.mode m)).raise .stationMode

theorem changeMode_eq (s : State) (l : Link) (m : StationMode) : s.changeMode l m = (s.modeSet l m).followMode l := rfl

@[simp] theorem station_modeSet (s : State) (l : Link) (m : StationMode) :
    (s.modeSet l m).station l = { s.station l with mode := m } :=
  stations_get_set ..

theorem station_modeSet_ne (s : State) (m : StationMode) {n : Link} (other : n ≠ l) :
    (s.modeSet l m).station n = s.station n :=
  stations_get_set_ne _ other _

/-- A change of mode that ends neither a WAIT nor the verify lap, and falls no lower than STANDBY. -/
theorem changeMode_calm {m : StationMode} (host : m ≠ .offline) (work : ∀ v, s.verdictOf l = some v → v.cls = .work)
    (stays : ¬ (l = .load ∧ m = .standby ∧ s.ring.state = .verifying)) : s.changeMode l m =
      (s.modeSet l m).releaseHold (if m = .standby ∧ s.verdictOf l = none then s.facing l else none) := by
  have verdict : (s.modeSet l m).verdictOf l = s.verdictOf l := by
    unfold State.verdictOf
    rw [station_modeSet]
  have idle : ((s.modeSet l m).station l).working = false ↔ m = .standby := by
    rw [station_modeSet]
    cases m <;> simp_all [Station.working]
  rw [changeMode_eq, followMode_calm (.inr fun v opened => work v (verdict ▸ opened))
    fun h => stays ⟨h.1, idle.mp h.2.2, h.2.1⟩]
  unfold State.dropHold
  rw [verdict]
  by_cases falls : m = .standby ∧ s.verdictOf l = none
  · rw [if_pos falls, if_pos ⟨idle.mpr falls.1, falls.2⟩]
    rfl
  · rw [if_neg falls, if_neg fun h => falls ⟨idle.mp h.1, h.2⟩]
    rfl

/-- Whatever a change of mode does, the mode stands, MODE goes out and the cause is set. -/
theorem changeMode_spec (s : State) (l : Link) (m : StationMode) :
    ((s.changeMode l m).station l).mode = m ∧ ((s.changeMode l m).station l).attention = (s.station l).attention ∧
      (s.changeMode l m).pendingCause .stationMode = true ∧ s.sent ++ [⟨l, .mode m⟩] <+: (s.changeMode l m).sent := by
  have keeps := (rests_followMode (s.modeSet l m) l).keeps l
  have calm := calm_followMode (s.modeSet l m) l
  rw [station_modeSet] at keeps
  exact ⟨keeps.mode, keeps.attention, pendingCause_of_grow calm.grow (pendingCause_raise _ _), calm.sent⟩

/-! ## SET STATION MODE -/

theorem ofNumber_number (l : Link) : Link.ofNumber l.number = some l := by
  cases l <;> rfl

theorem ofNumber_eq_none {n : Nat} (high : 7 < n) : Link.ofNumber n = none :=
  List.getElem?_eq_none high

theorem modeOfCode_code (m : StationMode) : StationMode.ofCode m.code = some m := by
  cases m <;> rfl

theorem ofCode_eq_none {n : Nat} (high : 3 < n) : StationMode.ofCode n = none := by
  unfold StationMode.ofCode
  split <;> first | omega | rfl

theorem hostMayChange_iff (a b : StationMode) : hostMayChange a b = true ↔
    (a, b) ∈ [(StationMode.standby, StationMode.check), (.check, .active), (.active, .check), (.active, .standby),
      (.check, .standby)] := by
  cases a <;> cases b <;> decide

variable {payload : List Byte}

theorem runSetStationMode_of_bad (bad : 7 < field payload 0 1 ∨ 3 < field payload 1 1 ∨ 2 < field payload 2 1) :
    runSetStationMode payload s = s.refusing .badArgument := by
  unfold runSetStationMode
  split
  · rename_i l m link mode
    refine if_pos ?_
    rcases bad with high | high | high
    · cases (ofNumber_eq_none high).symm.trans link
    · cases (ofCode_eq_none high).symm.trans mode
    · exact high
  · rfl

theorem runSetStationMode_of_good {m : StationMode} (link : l.number = field payload 0 1)
    (mode : m.code = field payload 1 1) (setting : field payload 2 1 ≤ 2) : runSetStationMode payload s =
      if (s.station l).mode = m ∨ hostMayChange (s.station l).mode m then s.requestMode l m (field payload 2 1)
      else s.refusing .badTransition := by
  unfold runSetStationMode
  rw [← link, ← mode, ofNumber_number, modeOfCode_code]
  exact if_neg (by omega)

/-- The attention setting that a SET STATION MODE gives a station. -/
def Station.attentionAt (x : Station) (setting : Nat) : Attention :=
  if setting = 0 then .all else if setting = 1 then .first else x.attention

theorem station_setAttention (s : State) (l : Link) (setting : Nat) :
    (s.setAttention l setting).station l = { s.station l with attention := (s.station l).attentionAt setting } :=
  stations_get_set ..

theorem station_setAttention_ne (s : State) (setting : Nat) {n : Link} (other : n ≠ l) :
    (s.setAttention l setting).station n = s.station n :=
  stations_get_set_ne _ other _

theorem setStationMode_same (ready : s.PortReady) (length : payload.length = 3) {m : StationMode}
    (link : l.number = field payload 0 1) (mode : m.code = field payload 1 1) (setting : field payload 2 1 ≤ 2)
    (same : (s.station l).mode = m) : ∃ u, Carries .setStationMode payload s u (accepted (beBytes 1 m.code)) ∧
      (s.setAttention l (field payload 2 1)).sameLine u := by
  refine carries_of_edit ready (by omega) (by simp [HostCmd.lengthFits, length]) ?_ rfl rfl rfl
  refine (runSetStationMode_of_good link mode setting).trans ((if_pos (.inl same)).trans ?_)
  have kept : ((s.taken .setStationMode payload).setAttention l (field payload 2 1)).station l =
      { s.station l with attention := (s.station l).attentionAt (field payload 2 1) } := station_setAttention ..
  have stays : (if ((s.taken .setStationMode payload).station l).mode = m then s.taken .setStationMode payload
      else (s.taken .setStationMode payload).changeMode l m) = s.taken .setStationMode payload := if_pos same
  unfold State.requestMode
  rw [stays]
  dsimp only
  rw [kept, same]
  rfl

/-- The state in which the command has changed the mode. -/
def State.withMode (s : State) (l : Link) (m : StationMode) (setting : Nat) : State :=
  (s.changeMode l m).setAttention l setting

theorem withMode_spec (s : State) (l : Link) (m : StationMode) (setting : Nat) :
    ((s.withMode l m setting).station l).mode = m ∧
      ((s.withMode l m setting).station l).attention = (s.station l).attentionAt setting ∧
      (s.withMode l m setting).pendingCause .stationMode = true ∧
      s.sent ++ [⟨l, .mode m⟩] <+: (s.withMode l m setting).sent := by
  obtain ⟨mode, attention, cause, sent⟩ := changeMode_spec s l m
  have station := station_setAttention (s.changeMode l m) l setting
  refine ⟨?_, ?_, cause, sent⟩
  · exact (congrArg Station.mode station).trans mode
  · refine (congrArg Station.attention station).trans ?_
    unfold Station.attentionAt
    rw [attention]

theorem setStationMode_new (ready : s.PortReady) (length : payload.length = 3) {m : StationMode}
    (link : l.number = field payload 0 1) (mode : m.code = field payload 1 1) (setting : field payload 2 1 ≤ 2)
    (new : (s.station l).mode ≠ m) (host : hostMayChange (s.station l).mode m = true) :
    Carries .setStationMode payload s
      (s.completed .setStationMode payload ((s.taken .setStationMode payload).withMode l m (field payload 2 1))
        (accepted (beBytes 1 m.code))) (accepted (beBytes 1 m.code)) := by
  refine carries_completed ready (by omega) (by simp [HostCmd.lengthFits, length]) ?_
  refine (runSetStationMode_of_good link mode setting).trans ((if_pos (.inr host)).trans ?_)
  have changes : (if ((s.taken .setStationMode payload).station l).mode = m then s.taken .setStationMode payload
      else (s.taken .setStationMode payload).changeMode l m) = (s.taken .setStationMode payload).changeMode l m := if_neg new
  unfold State.requestMode
  rw [changes]
  refine Prod.ext rfl ?_
  show accepted (beBytes 1 (((s.taken .setStationMode payload).withMode l m _).station l).mode.code) = _
  rw [(withMode_spec _ l m _).1]

/-- The command's end where the change ends neither a WAIT nor the verify lap. -/
theorem finish_withMode {m : StationMode} {setting : Nat} (host : m ≠ .offline)
    (work : ∀ v, s.verdictOf l = some v → v.cls = .work)
    (stays : ¬ (l = .load ∧ m = .standby ∧ s.ring.state = .verifying)) : (s.withMode l m setting).finish s =
      { (s.modeSet l m).setAttention l setting with
        ring := s.ringReleased (if m = .standby ∧ s.verdictOf l = none then s.facing l else none) } := by
  unfold State.withMode
  rw [changeMode_calm host work stays]
  have swap : ∀ k, ((s.modeSet l m).releaseHold k).setAttention l setting =
      ((s.modeSet l m).setAttention l setting).releaseHold k := by
    intro k
    cases k <;> rfl
  rw [swap]
  exact finish_releaseHold (u := (s.modeSet l m).setAttention l setting) _ rfl rfl le_rfl

theorem ringReleased_none (s : State) : s.ringReleased none = s.ring := by
  unfold State.ringReleased State.settleRing
  exact congrArg State.ring (if_pos rfl)

/-- Settles O37. -/
theorem setStationModeChangesTheMode : Obligations.SetStationModeChangesTheMode := by
  unfold Obligations.SetStationModeChangesTheMode
  intro s payload ready length setting refused
  have refuses : ∀ st, runSetStationMode payload (s.taken .setStationMode payload) =
      (s.taken .setStationMode payload).refusing st → refused st := fun st run =>
    carries_of_answer ready (by omega) (by simp [HostCmd.lengthFits, length]) run
  refine ⟨fun bad => refuses _ (runSetStationMode_of_bad bad), ?_⟩
  intro l m link mode low old attention mayChange
  refine ⟨fun same => ?_, fun new barred => ?_, fun may => ?_⟩
  · obtain ⟨u, carries, line⟩ := setStationMode_same ready length link mode low same
    have stations := sameLine_stations line
    refine ⟨u, carries, ?_, fun n other => ?_, ?_⟩
    · unfold State.station
      rw [stations]
      exact station_setAttention ..
    · unfold State.station
      rw [stations]
      exact station_setAttention_ne s _ other
    · refine sameBut_of_sameLine line ?_ (by decide)
      constructor <;> intros <;> simp_all [State.setAttention, State.modifyStation]
  · refine refuses _ ((runSetStationMode_of_good link mode low).trans (if_neg ?_))
    rintro (same | host)
    · exact new same
    · exact barred ((hostMayChange_iff ..).mp host)
  · have host : hostMayChange old m = true := (hostMayChange_iff ..).mpr may
    have new : old ≠ m := by
      rintro rfl
      revert host
      cases old <;> decide
    have up : m ≠ .offline := by
      rintro rfl
      revert host
      cases old <;> decide
    obtain ⟨modeIs, attentionIs, cause, sent⟩ := withMode_spec (s.taken .setStationMode payload) l m setting
    refine ⟨_, setStationMode_new ready length link mode low new host, ?_, ?_, ?_, ?_, ?_⟩
    · exact (congrArg (fun x : Stations => (x.get l).mode) (finish_stations ..)).trans modeIs
    · exact (congrArg (fun x : Stations => (x.get l).attention) (finish_stations ..)).trans attentionIs
    · exact pendingCause_of_grow (calm_finish ..).grow cause
    · exact sent.trans (calm_finish ..).sent
    · intro work stays
      have done := finish_withMode (s := s.taken .setStationMode payload) (setting := setting) up work
        fun h => stays ⟨h.1, h.2⟩
      have ring : (s.taken .setStationMode payload).ringReleased
          (if m = .standby ∧ s.verdictOf l = none then s.facing l else none) =
          if m = .standby ∧ s.verdictOf l = none then s.ringReleased (s.facing l) else s.ring := by
        refine (ringReleased_congr (s := s) (t := s.taken .setStationMode payload) rfl rfl _).trans ?_
        split
        · rfl
        · exact ringReleased_none s
      unfold State.completed
      rw [done]
      refine ⟨?_, fun n other => ?_, rfl, rfl, ring, ?_⟩
      · refine (station_setAttention ..).trans ?_
        rw [station_modeSet]
        rfl
      · exact (station_setAttention_ne _ _ other).trans (station_modeSet_ne _ m other)
      · constructor <;> intros <;>
          simp_all [State.setPort, State.setAttention, State.modifyStation, State.modeSet, State.setMode, State.send,
            State.raise, State.taken]

end Sys2Proof.Machine
end

section
/-! SUPPORT. The loss and the return of a link. -/

namespace Sys2Proof.Machine

variable {s t u : State} {l : Link} {payload : List Byte}

/-! ## A hold released -/

/-- A change that leaves the ring as the release of a hold does ends with the ring as `ringReleased` has it. -/
theorem finish_released {k : Option Nat} (ring : t.ring = (s.releaseHold k).ring) (limits : t.limits = s.limits)
    (cells : s.orders.freeCells ≤ t.orders.freeCells) : t.finish s = { t with ring := s.ringReleased k } := by
  have last : (t.finish s).ring = s.ringReleased k := by
    rw [finish_ring]
    refine settle_ring ring ?_
    rw [releaseHold_eq]
    exact limits
  rw [finish_eq, last, finish_causes_of_more limits cells]

theorem ring_releaseHold_congr (ring : t.ring = s.ring) (k : Option Nat) : (t.releaseHold k).ring = (s.releaseHold k).ring := by
  cases k with
  | none => exact ring
  | some k =>
    show (t.modifyPlaten k _).ring = (s.modifyPlaten k _).ring
    unfold State.modifyPlaten State.platen
    rw [ring]

/-! ## The loss of a link -/

/-- A message is among those sent since a state if it follows what that state had sent. -/
theorem mem_sentSince {m : Sent} (before : s.sent <+: u.sent) (after : u.sent ++ [m] <+: t.sent) : m ∈ t.sentSince s := by
  obtain ⟨a, ha⟩ := before
  obtain ⟨b, hb⟩ := after
  unfold State.sentSince
  rw [← hb, ← ha, List.append_assoc, List.append_assoc, List.drop_left]
  simp

/-- A link as a loss leaves it. -/
structure Station.Lost (x : Station) : Prop where
  up : x.up = false
  mode : x.mode = .offline
  verdict : x.verdict = none
  workTimer : x.workTimer = none
  silenceTimer : x.silenceTimer = none
  expired : x.expired = none

/-- The link as the loss of it begins (R86). -/
def State.unlinked (s : State) (l : Link) : State :=
  s.modifyStation l fun x => { x with up := false, silenceTimer := none }

/-- What else of the station the loss clears, once the verdict is undone (R86). -/
def State.timersStopped (s : State) (l : Link) : State :=
  s.modifyStation l fun x => { x with workTimer := none, expired := none }

theorem linkDown_eq (s : State) (l : Link) :
    s.linkDown l = ((State.withdraw .linkLoss (s.unlinked l) l).timersStopped l).changeMode l .offline := rfl

theorem linkDown_spec (s : State) (l : Link) : ((s.linkDown l).station l).Lost ∧
    (s.linkDown l).pendingCause .stationMode = true ∧ ⟨l, .mode .offline⟩ ∈ (s.linkDown l).sentSince s := by
  rw [linkDown_eq]
  have verdict := verdictOf_withdraw (s.unlinked l) .linkLoss l
  have keeps := (rests_withdraw (s.unlinked l) .linkLoss l).keeps l
  have sent : s.sent <+: (State.withdraw .linkLoss (s.unlinked l) l).sent := (quiet_withdraw (s.unlinked l) .linkLoss l).sent
  have begins : (s.unlinked l).station l = { s.station l with up := false, silenceTimer := none } := station_modifyStation ..
  rw [begins] at keeps
  generalize State.withdraw .linkLoss (s.unlinked l) l = v at verdict keeps sent
  have stopped : (v.timersStopped l).station l = { v.station l with workTimer := none, expired := none } :=
    station_modifyStation ..
  obtain ⟨-, -, cause, told⟩ := changeMode_spec (v.timersStopped l) l .offline
  have absent : ((v.timersStopped l).modeSet l .offline).verdictOf l = none := by
    unfold State.verdictOf
    rw [station_modeSet, stopped]
    exact verdict
  have rests := (rests_followMode ((v.timersStopped l).modeSet l .offline) l).idle l absent
  rw [station_modeSet, stopped, or_self] at rests
  refine ⟨?_, cause, mem_sentSince sent told⟩
  rw [changeMode_eq, rests]
  exact ⟨keeps.up, rfl, verdict, rfl, keeps.silence, rfl⟩

/-- The loss of a link changes nothing else. -/
def State.quietLink (s : State) (l : Link) : Prop :=
  s.verdictOf l = none ∧ ¬ (l = .load ∧ s.ring.state = .verifying)

/-- A change of mode with no verdict open that leaves the verify lap alone. -/
theorem followMode_quiet (quiet : s.quietLink l) (falls : (s.station l).working = false) :
    s.followMode l = s.releaseHold (s.facing l) := by
  rw [followMode_calm (.inr fun v opened => by rw [quiet.1] at opened; cases opened) fun h => quiet.2 ⟨h.1, h.2.1⟩]
  exact if_pos ⟨falls, quiet.1⟩

/-- The station of a link lost with no verdict open. -/
def Station.lost (x : Station) : Station :=
  { x with up := false, mode := .offline, workTimer := none, silenceTimer := none, expired := none }

theorem linkDown_quiet (quiet : s.quietLink l) : s.linkDown l =
    State.releaseHold ((s.raise .stationMode).replied l (s.station l).lost (.mode .offline)) (s.facing l) := by
  have verdict : (s.unlinked l).verdictOf l = none :=
    (congrArg Station.verdict (station_modifyStation s l fun x => { x with up := false, silenceTimer := none })).trans quiet.1
  rw [linkDown_eq, withdraw_none _ verdict, changeMode_eq]
  have written : ((s.unlinked l).timersStopped l).modeSet l .offline =
      (s.raise .stationMode).replied l (s.station l).lost (.mode .offline) := by
    cases l <;> rfl
  rw [written]
  refine followMode_quiet (s := (s.raise .stationMode).replied l (s.station l).lost (.mode .offline)) ⟨?_, quiet.2⟩ ?_
  · unfold State.verdictOf
    rw [station_replied]
    exact quiet.1
  · rw [station_replied]
    rfl

/-! ## The restart of a station -/

theorem restart_spec (s : State) (l : Link) (n : Nat) : ((s.restart l n).station l).verdict = none ∧
    ∃ x : Station, (s.restart l n).station l =
      { x with up := true, firmware := some n, mode := .standby, silenceTimer := some 2000, expired := none } := by
  let v := State.withdraw .linkLoss (s.modifyStation l fun x => { x with up := false }) l
  have verdict : (v.setMode l .standby).verdictOf l = none :=
    (congrArg Station.verdict (station_modifyStation v l fun x => { x with mode := .standby })).trans (verdictOf_withdraw ..)
  have whole : s.restart l n = ((v.setMode l .standby).followMode l).linkUp l n := rfl
  have last : (s.restart l n).station l = { ((v.setMode l .standby).followMode l).station l with
      up := true, firmware := some n, mode := .standby, silenceTimer := some 2000, expired := none } := by
    rw [whole, linkUp_eq]
    exact station_replied ..
  exact ⟨(congrArg Station.verdict last).trans ((rests_followMode ..).verdict verdict), _, last⟩

theorem restart_sent (s : State) (l : Link) (n : Nat) : (s.restart l n).sent.getLast? = some ⟨l, .mode .standby⟩ :=
  List.getLast?_concat

theorem restart_cause (s : State) (l : Link) (n : Nat) : (s.restart l n).pendingCause .stationMode = true :=
  pendingCause_raise _ _

/-- The station of a link that has come UP. -/
def Station.returned (x : Station) (n : Nat) : Station :=
  { x with up := true, firmware := some n, mode := .standby, silenceTimer := some 2000, expired := none }

theorem restart_quiet (quiet : s.quietLink l) (n : Nat) : s.restart l n =
    State.releaseHold ((s.raise .stationMode).replied l ((s.station l).returned n) (.mode .standby)) (s.facing l) := by
  let v := s.modifyStation l fun x => { x with up := false }
  have begins : v.verdictOf l = none :=
    (congrArg Station.verdict (station_modifyStation s l fun x => { x with up := false })).trans quiet.1
  have stands : (v.setMode l .standby).station l = { s.station l with up := false, mode := .standby } := by
    cases l <;> rfl
  have follows : (v.setMode l .standby).followMode l = (v.setMode l .standby).releaseHold (s.facing l) := by
    refine followMode_quiet ⟨?_, quiet.2⟩ ?_
    · exact (congrArg Station.verdict stands).trans quiet.1
    · rw [stands]
      rfl
  have whole : s.restart l n = (((State.withdraw .linkLoss v l).setMode l .standby).followMode l).linkUp l n := rfl
  rw [whole, withdraw_none _ begins, follows]
  cases s.facing l <;> cases l <;> rfl

theorem messageOk_hello (l : Link) (length : payload.length = 3) (low : field payload 0 1 ≤ 7) :
    messageOk l kindHello payload = true := by
  have sender : maySend l kindHello = true := by
    cases l <;> decide
  unfold messageOk
  rw [sender]
  simp [messageLength, fieldsOk, kindHello, length, low]

theorem receiveHello_restart (up : (s.station l).up = true) (length : payload.length = 3)
    (link : field payload 0 1 = l.number) : s.receiveHello l payload = (s.restart l (field payload 1 2)).finish s := by
  have low : l.number ≤ 7 := by
    cases l <;> decide
  have ok := messageOk_hello l length (link ▸ low)
  unfold State.receiveHello
  rw [up, if_pos rfl, ok, if_pos rfl, if_pos (helloFits_iff.mpr ⟨length, link⟩)]

theorem receiveHello_wrong (up : (s.station l).up = true) (length : payload.length = 3) (low : field payload 0 1 ≤ 7)
    (link : field payload 0 1 ≠ l.number) : s.receiveHello l payload =
      ((s.linkDown l).replyRefuse l .wrongKind kindHello 0xFF#8 0#48).finish s := by
  have ok := messageOk_hello l length low
  have echo : refuseEcho kindHello payload = (0xFF#8, 0#48) := if_neg fun h => by simp [kindHello, kindArrive, kindDone,
    kindFail, kindAbort] at h
  unfold State.receiveHello State.refuseMessage
  rw [up, if_pos rfl, ok, if_pos rfl, if_neg fun h => link (helloFits_iff.mp h).2, echo]

/-- A reply with the release of a hold, at the end of the change. -/
theorem finish_replied_released (x : Station) (m : Message) (k : Option Nat) :
    (((s.raise .stationMode).replied l x m).releaseHold k).finish s =
      { (s.raise .stationMode).replied l x m with ring := s.ringReleased k } := by
  exact finish_releaseHold (u := (s.raise .stationMode).replied l x m) k rfl rfl le_rfl

theorem sameBut_replied_released (x : Station) (m : Message) (ring : Ring) :
    s.sameBut [.stations, .ring, .causes, .messages] { (s.raise .stationMode).replied l x m with ring := ring } := by
  constructor <;> intros <;> simp_all [State.replied, State.raise]

theorem sentSince_of_prefix {m : Sent} (told : m ∈ u.sentSince s) (before : s.sent <+: u.sent) (after : u.sent <+: t.sent) :
    m ∈ t.sentSince s := by
  obtain ⟨a, ha⟩ := before
  obtain ⟨b, hb⟩ := after
  unfold State.sentSince at *
  rw [← ha, List.drop_left] at told
  rw [← hb, ← ha, List.append_assoc, List.drop_left]
  exact List.mem_append_left b told

theorem silence_loses (s : State) (l : Link) (up : (s.station l).up = true) : ∃ t, exec (.silenceExpiry l) s = .next t ∧
    (((t.station l).Lost ∧ t.pendingCause .stationMode = true ∧ ⟨l, .mode .offline⟩ ∈ t.sentSince s) ∧
      (s.quietLink l → s.Answers l (s.station l).lost (.mode .offline) t ∧
        t.port.causes = s.port.causes ||| Cause.stationMode.field ∧ t.ring = s.ringReleased (s.facing l) ∧
        s.sameBut [.stations, .ring, .causes, .messages] t)) := by
  obtain ⟨lost, cause, told⟩ := linkDown_spec s l
  refine ⟨(s.linkDown l).finish s, congrArg Host.Outcome.next (if_pos up), ⟨?_, ?_, ?_⟩, fun quiet => ?_⟩
  · unfold State.station
    rw [finish_stations]
    exact lost
  · exact pendingCause_of_grow (calm_finish ..).grow cause
  · unfold State.sentSince
    rw [finish_sent]
    exact told
  · rw [linkDown_quiet quiet, finish_replied_released]
    exact ⟨{ answers_replied (s.raise .stationMode) l (s.station l).lost (.mode .offline) with }, rfl, rfl,
      sameBut_replied_released ..⟩

theorem restart_returns (s : State) (l : Link) (up : (s.station l).up = true) (length : payload.length = 3)
    (link : field payload 0 1 = l.number) : ∃ t, exec (.hello l payload) s = .next t ∧
      ((t.station l).verdict = none ∧ (∃ x : Station, t.station l = x.returned (field payload 1 2)) ∧
        t.pendingCause .stationMode = true ∧ t.sent.getLast? = some ⟨l, .mode .standby⟩) ∧
      (s.quietLink l → s.Answers l ((s.station l).returned (field payload 1 2)) (.mode .standby) t ∧
        t.ring = s.ringReleased (s.facing l) ∧ s.sameBut [.stations, .ring, .causes, .messages] t) := by
  obtain ⟨verdict, x, station⟩ := restart_spec s l (field payload 1 2)
  refine ⟨_, congrArg Host.Outcome.next (receiveHello_restart up length link), ⟨?_, ⟨x, ?_⟩, ?_, ?_⟩, fun quiet => ?_⟩
  · unfold State.station
    rw [finish_stations]
    exact verdict
  · unfold State.station
    rw [finish_stations]
    exact station
  · exact pendingCause_of_grow (calm_finish ..).grow (restart_cause ..)
  · rw [finish_sent]
    exact restart_sent ..
  · rw [restart_quiet quiet, finish_replied_released]
    exact ⟨{ answers_replied (s.raise .stationMode) l ((s.station l).returned _) (.mode .standby) with }, rfl,
      sameBut_replied_released ..⟩

/-- The loss of a link with no verdict open, before the end of the change. -/
theorem linkDown_quiet_spec (quiet : s.quietLink l) : (s.linkDown l).station l = (s.station l).lost ∧
    (∀ n, n ≠ l → (s.linkDown l).station n = s.station n) ∧
    (s.linkDown l).sent = s.sent ++ [⟨l, .mode .offline⟩] ∧
    (s.linkDown l).port.causes = s.port.causes ||| Cause.stationMode.field ∧
    (s.linkDown l).ring = (s.releaseHold (s.facing l)).ring ∧
    s.sameBut [.stations, .ring, .causes, .messages] (s.linkDown l) := by
  rw [linkDown_quiet quiet]
  refine ⟨?_, fun n other => ?_, ?_, ?_, ?_, ?_⟩
  · unfold State.station
    rw [stations_releaseHold]
    exact station_replied ..
  · unfold State.station
    rw [stations_releaseHold]
    exact station_replied_ne (s.raise .stationMode) l other _ _
  · rw [releaseHold_eq]
    rfl
  · rw [releaseHold_eq]
    rfl
  · exact ring_releaseHold_congr (s := s) (t := (s.raise .stationMode).replied l _ _) rfl _
  · rw [releaseHold_eq]
    exact sameBut_replied_released ..

theorem wrongKind_loses (s : State) (l : Link) (up : (s.station l).up = true) (length : payload.length = 3)
    (low : field payload 0 1 ≤ 7) (link : field payload 0 1 ≠ l.number) :
    let refuse : Sent := ⟨l, .refuse .wrongKind kindHello 0xFF#8 0#48⟩
    ∃ t, exec (.hello l payload) s = .next t ∧
      ((t.station l).Lost ∧ t.pendingCause .stationMode = true ∧ ⟨l, .mode .offline⟩ ∈ t.sentSince s) ∧
      (t.station l).refusalSeen = true ∧ t.sent.getLast? = some refuse ∧
      (s.quietLink l → t.station l = { (s.station l).lost with refusalSeen := true } ∧
        (∀ n, n ≠ l → t.station n = s.station n) ∧ t.sent = s.sent ++ [⟨l, .mode .offline⟩, refuse] ∧
        t.port.causes = (s.port.causes ||| Cause.stationMode.field |||
          (if (s.station l).attention = .all ∨ (s.station l).refusalSeen = false
            then Cause.stationRefusal.field else 0#16)) ∧
        t.ring = s.ringReleased (s.facing l) ∧ s.sameBut [.stations, .ring, .causes, .messages] t) := by
  intro refuse
  obtain ⟨lost, cause, told⟩ := linkDown_spec s l
  have replies := refuses_of_reply (s := s.linkDown l) (l := l) (kind := kindHello) (code := .wrongKind) (p := 0xFF#8)
    (tag := 0#48) (s.linkDown l) (set_station (s.linkDown l) l).symm rfl rfl rfl rfl
  have grows := (quiet_replyRefuse (s.linkDown l) l .wrongKind kindHello 0xFF#8 0#48)
  refine ⟨_, congrArg Host.Outcome.next (receiveHello_wrong up length low link), ⟨?_, ?_, ?_⟩, ?_, ?_, fun quiet => ?_⟩
  · unfold State.station
    rw [finish_stations]
    have station := replies.station
    exact ⟨(congrArg Station.up station).trans lost.up, (congrArg Station.mode station).trans lost.mode,
      (congrArg Station.verdict station).trans lost.verdict, (congrArg Station.workTimer station).trans lost.workTimer,
      (congrArg Station.silenceTimer station).trans lost.silenceTimer,
      (congrArg Station.expired station).trans lost.expired⟩
  · exact pendingCause_of_grow (calm_finish ..).grow (pendingCause_of_grow grows.causes cause)
  · unfold State.sentSince
    rw [finish_sent]
    refine sentSince_of_prefix told ?_ grows.sent
    exact (calm_linkDown s l).sent
  · unfold State.station
    rw [finish_stations]
    exact congrArg Station.refusalSeen replies.station
  · rw [finish_sent, replies.reply]
    exact List.getLast?_concat
  · obtain ⟨station, others, sent, causes, ring, rest⟩ := linkDown_quiet_spec quiet
    have refused : ((s.linkDown l).replyRefuse l .wrongKind kindHello 0xFF#8 0#48).ring = (s.linkDown l).ring ∧
        ((s.linkDown l).replyRefuse l .wrongKind kindHello 0xFF#8 0#48).orders = (s.linkDown l).orders ∧
        ((s.linkDown l).replyRefuse l .wrongKind kindHello 0xFF#8 0#48).limits = (s.linkDown l).limits := by
      have frame := sameBut_replyRefuse (s.linkDown l) l .wrongKind kindHello 0xFF#8 0#48
      exact ⟨frame.ring (by decide), frame.orders (by decide), frame.limits (by decide)⟩
    have frame := sameBut_trans rest (sameBut_replyRefuse (s.linkDown l) l .wrongKind kindHello 0xFF#8 0#48)
      (changed := [.stations, .ring, .causes, .messages]) (by decide) (by decide)
    rw [finish_released (refused.1.trans ring) (refused.2.2.trans (rest.limits (by decide)))
      (by rw [refused.2.1, rest.orders (by decide)])]
    refine ⟨?_, fun n other => (replies.others n other).trans (others n other), ?_, ?_, rfl, { frame with ring := fun m => absurd (by simp) m }⟩
    · refine replies.station.trans ?_
      rw [station]
    · refine replies.reply.trans ?_
      rw [sent, List.append_assoc]
      rfl
    · refine replies.causes.trans ?_
      rw [station, causes]
      show (if (s.station l).attention = .all ∨ (s.station l).refusalSeen = false then _ else _) = _
      split <;> simp

/-- Settles O40. -/
theorem silenceOrRestartLosesTheLink : Obligations.SilenceOrRestartLosesTheLink := by
  unfold Obligations.SilenceOrRestartLosesTheLink
  intro s l up quiet lost
  refine ⟨?_, fun payload length link => ?_, ?_⟩
  · obtain ⟨t, run, ⟨x, cause, told⟩, calm⟩ := silence_loses s l up
    exact ⟨t, run, ⟨x.up, x.mode, x.verdict, x.workTimer, x.silenceTimer, x.expired, cause, told⟩, calm⟩
  · obtain ⟨t, run, ⟨verdict, ⟨x, station⟩, cause, told⟩, calm⟩ := restart_returns s l up length link
    have part : ∀ {α : Type} (f : Station → α), f (t.station l) = f (x.returned (field payload 1 2)) :=
      fun f => congrArg f station
    exact ⟨t, run, part Station.up, part Station.mode, verdict, part Station.firmware, part Station.silenceTimer,
      part Station.expired, cause, told, calm⟩
  · intro payload length low link refuse
    obtain ⟨t, run, ⟨x, cause, told⟩, seen, last, calm⟩ := wrongKind_loses s l up length low link
    exact ⟨t, run, ⟨x.up, x.mode, x.verdict, x.workTimer, x.silenceTimer, x.expired, cause, told⟩, seen, last, calm⟩

end Sys2Proof.Machine
end

section
/-! SUPPORT. A report on a held platen at an ACTIVE ring station: what the receipt of it leaves, the way to the station's
list, and the three answers a list can give, each with the end of the change. -/

namespace Sys2Proof.Machine

variable {s t u v : State} {l : Link} {kind : Byte} {payload : List Byte} {k pos : Nat} {g : Garment}

/-! ## The receipt -/

/-- The state in which a message is handled: its link's silence timer restarted, the record it names touched (R11, R86). -/
@[irreducible] def State.received (s : State) (l : Link) (kind : Byte) (payload : List Byte) : State :=
  (s.heard l).touchBy kind payload

theorem receive_eq (hears : s.Hears l kind payload) (f : State → State) :
    s.receive l kind payload f = (f (s.received l kind payload)).finish s := by
  rw [up_next hears f, State.received]

theorem received_eq (s : State) (l : Link) (kind : Byte) (payload : List Byte) : s.received l kind payload = { s with
    stations := s.stations.set l (s.station l).heard
    garments := { s.garments with records := (s.received l kind payload).garments.records } } := by
  rw [State.received, touchBy_eq]
  rfl

theorem received_unnamed (unnamed : namesTag kind = false) : (s.received l kind payload).garments = s.garments := by
  rw [State.received, touch_none unnamed]
  rfl

theorem received_unknown (names : namesTag kind = true) (unknown : s.findTag (tagField payload 1) = none) :
    (s.received l kind payload).garments = s.garments := by
  rw [State.received, touchBy_names names]
  exact congrArg State.garments (modifyGarment_none (s := s.heard l) unknown fun g => { g with age := 0 }) |>.trans rfl

theorem received_known (names : namesTag kind = true) (live : s.findTag (tagField payload 1) = some (pos, g)) :
    (s.received l kind payload).garments =
      { s.garments with records := s.garments.records.put pos { g with age := 0 } } := by
  rw [State.received, touchBy_names names]
  exact congrArg State.garments (modifyGarment_some (s := s.heard l) live fun g => { g with age := 0 })

theorem findTag_received_known (names : namesTag kind = true) (live : s.findTag (tagField payload 1) = some (pos, g)) :
    (s.received l kind payload).findTag (tagField payload 1) = some (pos, { g with age := 0 }) := by
  rw [findTag_look, received_known names live]
  exact lookTag_put_same (g := g) (by rw [← findTag_look]; exact live) (findTag_some live).2.1

theorem findTag_received_unknown (names : namesTag kind = true) (unknown : s.findTag (tagField payload 1) = none) :
    (s.received l kind payload).findTag (tagField payload 1) = none := by
  rw [findTag_look, received_unknown names unknown, ← findTag_look]
  exact unknown

/-! ## States met on the way to the answer -/

/-- A state of the handling in which nothing has been answered yet: the link heard, and what the end of the change reads as
it was. -/
structure State.Met (s : State) (l : Link) (u : State) : Prop where
  stations : u.stations = s.stations.set l (s.station l).heard
  sent : u.sent = s.sent
  ring : u.ring = s.ring
  limits : u.limits = s.limits
  cells : s.orders.freeCells ≤ u.orders.freeCells

theorem met_received (s : State) (l : Link) (kind : Byte) (payload : List Byte) :
    s.Met l (s.received l kind payload) := by
  rw [received_eq]
  exact ⟨rfl, rfl, rfl, rfl, le_rfl⟩

theorem sameBut_received (s : State) (l : Link) (kind : Byte) (payload : List Byte) :
    s.sameBut [.garments, .stations] (s.received l kind payload) := by
  rw [received_eq]
  constructor <;> intros <;> simp_all

theorem State.Met.station (h : s.Met l u) : u.station l = (s.station l).heard := by
  unfold State.station
  rw [h.stations, stations_get_set]
  rfl

theorem State.Met.others (h : s.Met l u) {n : Link} (other : n ≠ l) : u.station n = s.station n := by
  unfold State.station
  rw [h.stations, stations_get_set_ne _ other]

theorem State.Met.mode (h : s.Met l u) (n : Link) : (u.station n).mode = (s.station n).mode := by
  by_cases here : n = l
  · rw [here, h.station]
    rfl
  · rw [h.others here]

theorem State.Met.verdictOf (h : s.Met l u) (n : Link) : u.verdictOf n = s.verdictOf n := by
  unfold State.verdictOf
  by_cases here : n = l
  · rw [here, h.station]
    rfl
  · rw [h.others here]

theorem State.Met.answers (h : s.Met l u) (x : Station) (m : Message) : s.Answers l x m (u.replied l x m) :=
  ⟨station_replied u l x m, fun _ other => (station_replied_ne u l other x m).trans (h.others other),
    congrArg (· ++ _) h.sent⟩

/-! ## The end of the change -/

/-- The hold on the reported platen released unless a verdict stands open (R108). -/
def State.settled (s : State) (l : Link) (k : Nat) : State :=
  if (s.verdictOf l).isNone then s.setHeld k false else s

theorem finish_settled_idle (idle : v.verdictOf l = none) (ring : v.ring = s.ring) (limits : v.limits = s.limits)
    (cells : s.orders.freeCells ≤ v.orders.freeCells) :
    (v.settled l k).finish s = { v with ring := s.ringReleased (some k) } := by
  have released : v.settled l k = v.releaseHold (some k) := if_pos (by rw [idle]; rfl)
  rw [released]
  exact finish_releaseHold (some k) ring limits cells

theorem finish_settled_open {w : OpenVerdict} (opened : v.verdictOf l = some w) (ring : v.ring = s.ring)
    (limits : v.limits = s.limits) (cells : s.orders.freeCells ≤ v.orders.freeCells) : (v.settled l k).finish s = v := by
  have stays : v.settled l k = v := if_neg (by rw [opened]; exact Bool.false_ne_true)
  rw [stays]
  exact finish_of_more ring limits cells

/-- A PASS given to a report. -/
theorem State.Met.passes (h : s.Met l u) (idle : s.verdictOf l = none) (r : Report) :
    let t := ((u.answerPass l r).settled l k).finish s
    s.Answers l (s.station l).answered (.verdict (platenByte r.platen) (answerTag r) .pass 0 0) t ∧
      t.ring = s.ringReleased (some k) ∧ u.sameBut [.stations, .ring, .messages] t := by
  intro t
  have reply : u.answerPass l r =
      u.replied l (s.station l).answered (.verdict (platenByte r.platen) (answerTag r) .pass 0 0) := by
    unfold State.answerPass
    rw [replyVerdict_eq, h.station]
    rfl
  have last : t = { u.answerPass l r with ring := s.ringReleased (some k) } := by
    refine finish_settled_idle ?_ h.ring h.limits h.cells
    rw [reply]
    unfold State.verdictOf
    rw [station_replied]
    exact idle
  rw [last, reply]
  refine ⟨{ h.answers (s.station l).answered (.verdict (platenByte r.platen) (answerTag r) .pass 0 0) with }, rfl, ?_⟩
  constructor <;> intros <;> simp_all [State.replied]

/-- A refusal given to an ARRIVE. -/
theorem State.Met.refuses (h : s.Met l u) (idle : s.verdictOf l = none) (causes : u.port.causes = s.port.causes)
    {r : Report} {tag : Tag} (arrives : r.tag = some tag) (code : RefusalCode) :
    let t := ((u.answerRefuse l r code).settled l k).finish s
    s.Refuses l (s.station l).heard code kindArrive (platenByte r.platen, tag) t ∧
      t.ring = s.ringReleased (some k) ∧ u.sameBut [.stations, .ring, .causes, .messages] t := by
  intro t
  have reply : u.answerRefuse l r code = u.replyRefuse l code kindArrive (platenByte r.platen) tag := by
    unfold State.answerRefuse
    rw [arrives]
  have refused := refuses_of_reply (code := code) (kind := kindArrive) (p := platenByte r.platen) (tag := tag) u h.stations
    h.sent causes rfl rfl
  have frame := sameBut_replyRefuse u l code kindArrive (platenByte r.platen) tag
  rw [← reply] at refused frame
  have last : t = { u.answerRefuse l r code with ring := s.ringReleased (some k) } := by
    refine finish_settled_idle ?_ ((frame.ring (by decide)).trans h.ring) ((frame.limits (by decide)).trans h.limits) ?_
    · exact (congrArg Station.verdict refused.station).trans idle
    · rw [frame.orders (by decide)]
      exact h.cells
  rw [last]
  exact ⟨{ refused with }, rfl, { sameBut_widen frame (changed := [.stations, .ring, .causes, .messages]) (by decide) with
    ring := fun m => absurd (by simp) m }⟩

/-- A verdict given. -/
theorem State.Met.gives (h : s.Met l u) (w : OpenVerdict) :
    let t := ((u.give l w).settled l k).finish s
    s.Gives l w t ∧ u.sameBut [.stations, .messages] t ∧ t = u.give l w := by
  intro t
  have reply : u.give l w = u.replied l { (s.station l).answered with
      verdict := some w, workTimer := s.limits.timerFor l w
      expired := if w.cls = .work then none else (s.station l).expired }
      (.verdict (platenByte w.platen) w.tag w.verdict w.param1 w.param2) := by
    have opened : (u.openRecord l w).station l = { (s.station l).heard with
        verdict := some w, workTimer := s.limits.timerFor l w
        expired := if w.cls = .work then none else (s.station l).expired } := by
      refine (station_modifyStation u l _).trans ?_
      rw [h.station, h.limits]
      rfl
    unfold State.give State.restate
    rw [replyVerdict_eq, opened]
    unfold State.replied State.openRecord State.modifyStation
    rw [set_set]
    rfl
  have last : t = u.give l w := by
    refine finish_settled_open (w := w) ?_ ?_ ?_ ?_
    · rw [reply]
      unfold State.verdictOf
      rw [station_replied]
    · rw [reply]
      exact h.ring
    · rw [reply]
      exact h.limits
    · rw [reply]
      exact h.cells
  refine ⟨?_, ?_, last⟩
  · rw [last, reply]
    exact h.answers _ _
  · rw [last, reply]
    exact sameBut_replied ..

/-! ## The way to the list -/

/-- A report of a held platen reaches the tag consistency check. -/
theorem presents_run (h : s.Presents l kind payload k) {r : Report} (platen : r.platen = some k) :
    s.receive l kind payload (fun s => s.takeReport l r) =
      (((s.received l kind payload).tagCheck l r k).settled l k).finish s := by
  have met := met_received s l kind payload
  rw [receive_eq h.hears, take_ready h (fun n => ⟨met.mode n, met.verdictOf n⟩) met.ring platen]
  rfl

theorem exec_arrive (h : s.Presents l kindArrive payload k) : exec (.arrive l payload) s =
    .next ((((s.received l kindArrive payload).tagCheck l (arriveReport payload) k).settled l k).finish s) :=
  congrArg Host.Outcome.next (presents_run h h.platen)

theorem exec_empty (h : s.Presents l kindEmpty payload k) : exec (.empty l payload) s =
    .next ((((s.received l kindEmpty payload).tagCheck l (emptyReport payload) k).settled l k).finish s) :=
  congrArg Host.Outcome.next (presents_run h h.platen)

theorem State.Met.consistent (h : s.Presents l kind payload k) (met : s.Met l u) (r : Report) :
    u.consistent l r k = u.decisionList l r k := by
  refine consistent_active ?_ ?_ ?_
  · unfold State.isActive
    rw [met.mode, h.active]
    rfl
  · rw [met.ring]
    exact h.running
  · rw [ring_eq_platen met.ring]
    exact h.held

/-! ## The garment brought -/

theorem State.Brings.named (h : s.Brings l payload k pos g) :
    (s.received l kindArrive payload).garments =
        { s.garments with records := s.garments.records.put pos { g with age := 0 } } ∧
      (s.received l kindArrive payload).findTag g.tag = some (pos, { g with age := 0 }) := by
  have live : s.findTag (tagField payload 1) = some (pos, g) := by
    rw [h.tag]
    exact h.live
  have found := findTag_received_known (l := l) (kind := kindArrive) (by decide) live
  rw [h.tag] at found
  exact ⟨received_known (by decide) live, found⟩

/-- A garment recorded on the platen it is brought on reaches the station's list, but at LOAD. -/
theorem State.Brings.run (h : s.Brings l payload k pos g) (other : l ≠ .load) : exec (.arrive l payload) s =
    .next ((((s.received l kindArrive payload).decisionList l (arriveReport payload) k).settled l k).finish s) := by
  have met := met_received s l kindArrive payload
  have tag : (arriveReport payload).tag = some g.tag := congrArg some h.tag
  have platen := ring_eq_platen met.ring k
  rw [exec_arrive h.presents]
  refine congrArg (fun u : State => Host.Outcome.next ((u.settled l k).finish s)) ?_
  unfold State.tagCheck
  rw [tag, platen]
  dsimp only
  rw [if_pos h.occupied, if_pos h.recorded, if_neg other]
  exact met.consistent h.presents _

/-- The station's own list is reached by a garment neither SPOILED nor UNVERIFIED, and by any at UNLOAD (R124). -/
theorem State.Brings.list (h : s.Brings l payload k pos g) (other : l ≠ .load)
    (fit : l = .unload ∨ (g.spoiled = false ∧ g.unverified = false)) : exec (.arrive l payload) s =
      .next ((((s.received l kindArrive payload).garmentList l (arriveReport payload) k { g with age := 0 }).settled
        l k).finish s) := by
  have tag : (arriveReport payload).tag = some g.tag := congrArg some h.tag
  have goes : ¬ (l ≠ .unload ∧ (g.spoiled = true ∨ g.unverified = true)) := by
    rintro ⟨away, flag⟩
    obtain ⟨a, b⟩ := fit.resolve_left away
    rw [a, b] at flag
    simp at flag
  rw [h.run other]
  refine congrArg (fun u : State => Host.Outcome.next ((u.settled l k).finish s)) ?_
  unfold State.decisionList
  rw [tag]
  dsimp only
  rw [h.named.2]
  exact if_neg goes

theorem State.Brings.passing (h : s.Brings l payload k pos g) (other : l ≠ .load) (away : l ≠ .unload)
    (flag : g.spoiled = true ∨ g.unverified = true) : exec (.arrive l payload) s =
      .next ((((s.received l kindArrive payload).answerPass l (arriveReport payload)).settled l k).finish s) := by
  have tag : (arriveReport payload).tag = some g.tag := congrArg some h.tag
  rw [h.run other]
  refine congrArg (fun u : State => Host.Outcome.next ((u.settled l k).finish s)) ?_
  unfold State.decisionList
  rw [tag]
  dsimp only
  rw [h.named.2]
  exact if_pos ⟨away, flag⟩

theorem arrive_platenByte (platen : platenOf payload = some k) :
    platenByte (arriveReport payload).platen = BitVec.ofNat 8 k := by
  show platenByte (platenOf payload) = _
  rw [platen]
  rfl

/-! ## The ring once a hold is released -/

theorem ringReleased_platens (s : State) (k : Option Nat) : (s.ringReleased k).platens = (s.releaseHold k).ring.platens := by
  unfold State.ringReleased State.settleRing State.ringTest
  split
  · rfl
  · split
    · split <;> rfl
    · rfl

theorem anyHeld_of_clear (clear : s.heldPlatens = []) : s.anyHeld = false := by
  unfold State.heldPlatens at clear
  unfold State.anyHeld
  simpa using clear

/-- What the release of a held platen does to a turning ring at rest: an index starts or a STOPPING ring stops once no
platen is held, and nothing more happens before. -/
theorem ringReleased_spec (held : (s.platen k).held = true) (idle : s.ring.cycle = .idle) :
    (TablesOk s → (∀ j, j ≠ k → (s.platen j).held = false) →
      (s.ring.state = .running → (s.ringReleased (some k)).cycle = .moving ∧
        (s.ringReleased (some k)).moveTimer = some s.limits.moveLimit) ∧
      (s.ring.state = .stopping → (s.ringReleased (some k)).cycle = .idle ∧ (s.ringReleased (some k)).state = .stopped)) ∧
    ((∃ j, j ≠ k ∧ (s.platen j).held = true) →
      (s.ringReleased (some k)).cycle = .idle ∧ (s.ringReleased (some k)).state = s.ring.state) := by
  let u := s.releaseHold (some k)
  have platen : ∀ j, (u.platen j).held = if k = j then false else (s.platen j).held := fun j => by
    rw [platen_releaseHold]
    simp
  have atRest : u.ring.cycle = .idle := idle
  refine ⟨fun tables alone => ?_, fun ⟨j, other, stays⟩ => ?_⟩
  · have ok : u.ring.platens.wf = true := wf_of_wfDefault ((quiet_releaseHold s (some k)).tables tables).platens
    have none : ∀ j, (u.platen j).held = false := fun j => by
      rw [platen]
      by_cases here : k = j
      · rw [if_pos here]
      · rw [if_neg here, alone j (Ne.symm here)]
    have clear : u.heldPlatens = [] := by
      rw [List.eq_nil_iff_forall_not_mem]
      intro j listed
      rw [mem_heldPlatens ok, none] at listed
      cases listed
    have changed : u.heldPlatens ≠ s.heldPlatens := fun same => by
      have listed := (mem_heldPlatens (wf_of_wfDefault tables.platens) k).mpr held
      rw [← same, clear] at listed
      cases listed
    have free : u.anyHeld = false := anyHeld_of_clear clear
    have tested : s.ringReleased (some k) = u.ringTest.ring := congrArg State.ring (if_neg changed)
    rw [tested]
    refine ⟨fun running => ?_, fun stopping => ?_⟩
    · rw [ringTest_go atRest free (.inl running)]
      exact ⟨rfl, rfl⟩
    · rw [ringTest_stop atRest free stopping]
      exact ⟨atRest, rfl⟩
  · have still : (u.platen j).held = true := by
      rw [platen, if_neg (Ne.symm other)]
      exact stays
    have same : (u.settleRing s) = u := by
      unfold State.settleRing
      rw [ringTest_of_held (anyHeld_of_platen still), ite_self]
    unfold State.ringReleased
    rw [show s.releaseHold (some k) = u from rfl, same]
    exact ⟨atRest, rfl⟩

/-- The hold on a platen released at the end of a change, in the platens and the ring. -/
theorem released_of_ring (held : (s.platen k).held = true) (idle : s.ring.cycle = .idle)
    (ring : t.ring = s.ringReleased (some k)) : t.ring = s.ringReleased (some k) ∧ (t.platen k).held = false ∧
      (∀ j, j ≠ k → t.platen j = s.platen j) ∧
      (TablesOk s → (∀ j, j ≠ k → (s.platen j).held = false) →
        (s.ring.state = .running → t.ring.cycle = .moving ∧ t.ring.moveTimer = some s.limits.moveLimit) ∧
        (s.ring.state = .stopping → t.ring.cycle = .idle ∧ t.ring.state = .stopped)) ∧
      ((∃ j, j ≠ k ∧ (s.platen j).held = true) → t.ring.cycle = .idle ∧ t.ring.state = s.ring.state) := by
  have platen : ∀ j, t.platen j = (s.releaseHold (some k)).platen j := fun j => by
    unfold State.platen
    rw [ring, ringReleased_platens]
  refine ⟨ring, ?_, fun j other => ?_, ?_⟩
  · rw [platen, platen_releaseHold]
    simp
  · rw [platen, platen_releaseHold]
    simp [Ne.symm other]
  · rw [ring]
    exact ringReleased_spec held idle

/-- A frame that lists the garments says no more where they stand. -/
theorem sameBut_of_garments {a : List Area} (h : s.sameBut (.garments :: a) t) (same : t.garments = s.garments) :
    s.sameBut a t where
  garments _ := same
  orders m := h.orders (by simp [m])
  sched m := h.sched (by simp [m])
  refs m := h.refs (by simp [m])
  stations m := h.stations (by simp [m])
  ring m := h.ring (by simp [m])
  meter m := h.meter (by simp [m])
  cure m := h.cure (by simp [m])
  bins m := h.bins (by simp [m])
  limits m := h.limits (by simp [m])
  causes m := h.causes (by simp [m])
  settings m := h.settings (by simp [m])
  transport m := h.transport (by simp [m])
  messages m := h.messages (by simp [m])
  reads m := h.reads (by simp [m])
  queue := h.queue

/-- Settles O42. -/
theorem emptyPlatenOrSpoiledGarmentPasses : Obligations.EmptyPlatenOrSpoiledGarmentPasses := by
  unfold Obligations.EmptyPlatenOrSpoiledGarmentPasses
  intro s l payload k released
  refine ⟨fun h vacant => ?_, fun pos g h other away flag => ?_⟩
  · have met := met_received s l kindEmpty payload
    have run : (s.received l kindEmpty payload).tagCheck l (emptyReport payload) k =
        (s.received l kindEmpty payload).answerPass l (emptyReport payload) := by
      unfold State.tagCheck
      rw [ring_eq_platen met.ring]
      exact (if_neg vacant).trans (met.consistent h _)
    obtain ⟨answers, ring, rest⟩ := met.passes (k := k) h.noVerdict (emptyReport payload)
    refine ⟨_, exec_empty h, ?_⟩
    rw [run]
    have byte : platenByte (emptyReport payload).platen = BitVec.ofNat 8 k := arrive_platenByte h.platen
    rw [byte] at answers
    have frame := sameBut_trans (sameBut_received s l kindEmpty payload) rest
      (changed := [.garments, .stations, .ring, .messages]) (by decide) (by decide)
    exact ⟨answers, released_of_ring h.held h.idle ring,
      sameBut_of_garments frame ((rest.garments (by decide)).trans (received_unnamed (by decide)))⟩
  · have met := met_received s l kindArrive payload
    obtain ⟨answers, ring, rest⟩ := met.passes (k := k) h.presents.noVerdict (arriveReport payload)
    refine ⟨_, h.passing other away flag, ?_⟩
    have byte := arrive_platenByte h.presents.platen
    have tag : answerTag (arriveReport payload) = g.tag := h.tag
    rw [byte, tag] at answers
    exact ⟨answers, released_of_ring h.presents.held h.presents.idle ring, (rest.garments (by decide)).trans h.named.1,
      sameBut_trans (sameBut_received s l kindArrive payload) rest (by decide) (by decide)⟩

end Sys2Proof.Machine
end

section
/-! SUPPORT. The decision lists of PRETREAT, PRESS and the print bridges. -/

namespace Sys2Proof.Machine

variable {s t u : State} {l : Link} {payload : List Byte} {k pos : Nat} {g : Garment}

/-! ## The two answers of a list -/

/-- The state in which an ARRIVE of a garment brought to a station is evaluated. -/
def State.seen (s : State) (l : Link) (payload : List Byte) : State :=
  s.received l kindArrive payload

theorem met_seen (s : State) (l : Link) (payload : List Byte) : s.Met l (s.seen l payload) := met_received ..

theorem sameBut_seen (s : State) (l : Link) (payload : List Byte) : s.sameBut [.garments, .stations] (s.seen l payload) :=
  sameBut_received ..

theorem State.Brings.passed (h : s.Brings l payload k pos g) (other : l ≠ .load)
    (fit : l = .unload ∨ (g.spoiled = false ∧ g.unverified = false)) (met : s.Met l u)
    (list : (s.seen l payload).garmentList l (arriveReport payload) k { g with age := 0 } =
      u.answerPass l (arriveReport payload)) : ∃ t, exec (.arrive l payload) s = .next t ∧
      s.Answers l (s.station l).answered (.verdict (BitVec.ofNat 8 k) g.tag .pass 0 0) t ∧
      t.ring = s.ringReleased (some k) ∧ u.sameBut [.stations, .ring, .messages] t := by
  have passes := met.passes (k := k) h.presents.noVerdict (arriveReport payload)
  have tag : answerTag (arriveReport payload) = g.tag := h.tag
  rw [arrive_platenByte h.presents.platen, tag] at passes
  refine ⟨_, (h.list other fit).trans ?_, passes⟩
  exact congrArg (fun u : State => Host.Outcome.next ((u.settled l k).finish s)) list

theorem State.Brings.given (h : s.Brings l payload k pos g) (other : l ≠ .load)
    (fit : l = .unload ∨ (g.spoiled = false ∧ g.unverified = false)) (met : s.Met l u) {w : OpenVerdict}
    (list : (s.seen l payload).garmentList l (arriveReport payload) k { g with age := 0 } = u.give l w) :
    ∃ t, exec (.arrive l payload) s = .next t ∧ s.Gives l w t ∧ u.sameBut [.stations, .messages] t := by
  obtain ⟨gives, rest, -⟩ := met.gives (k := k) w
  refine ⟨_, (h.list other fit).trans ?_, gives, rest⟩
  exact congrArg (fun u : State => Host.Outcome.next ((u.settled l k).finish s)) list

/-! ## Grants -/

theorem meter_answer_green {m : Meter} {n : Nat} (fits : n ≤ m.bc) : m.answer n = some ⟨.green, .committed⟩ := if_pos fits

theorem meter_answer_yellow {m : Meter} {n : Nat} (short : m.bc < n) (fits : n ≤ m.be) :
    m.answer n = some ⟨.yellow, .excess⟩ :=
  (if_neg (Nat.not_le.mpr short)).trans (if_pos fits)

theorem meter_answer_red {m : Meter} {n : Nat} (short : m.bc < n) (poor : m.be < n) : m.answer n = none :=
  (if_neg (Nat.not_le.mpr short)).trans (if_neg (Nat.not_le.mpr poor))

/-- The state once a grant has been debited and the garment's WET flag written (R147, R148). -/
def State.granted (s : State) (pos : Nat) (g : Garment) (n : Nat) (grant : Grant) : State :=
  { s with meter := s.meter.debit n grant }.putRecord pos { g with wet := decide (grant.colour = Colour.yellow) }

theorem requestGrant_some {n : Nat} {grant : Grant} (live : s.findTag g.tag = some (pos, g))
    (answer : s.meter.answer n = some grant) :
    s.requestGrant g.tag n = (some grant, s.granted pos g n grant) := by
  have marks := modifyGarment_some (s := { s with meter := s.meter.debit n grant }) live fun x =>
    { x with wet := grant.colour == .yellow }
  unfold State.requestGrant
  rw [answer]
  exact congrArg (Prod.mk _) marks

theorem requestGrant_none {n : Nat} (tag : Tag) (answer : s.meter.answer n = none) :
    s.requestGrant tag n = (none, s.raise .meterRed) := by
  unfold State.requestGrant
  rw [answer]

/-! ## PRETREAT -/

/-- PRETREAT sprays a BLANK garment of a pretreated class that is owed pulses (R131). -/
def State.sprays (s : State) (g : Garment) : Prop :=
  0 < (s.classEntry g.cls).rate ∧ g.stage = .blank ∧ 0 < g.full - g.delivered

theorem pretreatList_of_sprays (sprays : s.sprays g) (r : Report) : s.pretreatList r k g =
    match s.requestGrant g.tag g.owed with
    | (some a, u) => u.give .pretreat
        { platen := some k, tag := g.tag, verdict := .spray, param1 := g.owed, grant := some a }
    | (none, u) => u.answerPass .pretreat r := by
  have needs : (s.classEntry g.cls).needsPretreat = true := decide_eq_true sprays.1
  exact if_pos ⟨needs, sprays.2⟩

theorem pretreatList_of_not (idle : ¬ s.sprays g) (r : Report) : s.pretreatList r k g = s.answerPass .pretreat r := by
  refine if_neg fun h => idle ⟨?_, h.2⟩
  exact of_decide_eq_true h.1

/-! ## PRESS -/

/-- PRESS presses a TREATED garment, and a BLANK one that needs no pretreat, of a pressed class (R133). -/
def State.presses (s : State) (g : Garment) : Prop :=
  0 < (s.classEntry g.cls).pressBase ∧
    (g.stage = .treated ∨ (g.stage = .blank ∧ (s.classEntry g.cls).rate = 0))

theorem wantsPress_iff (s : State) (g : Garment) : (s.classEntry g.cls).wantsPress g = true ↔ s.presses g := by
  simp [ClassEntry.wantsPress, ClassEntry.needsPress, ClassEntry.needsPretreat, State.presses]

theorem pressList_of_presses (presses : s.presses g) (r : Report) : s.pressList r k g = s.give .press
    { platen := some k, tag := g.tag, verdict := .press, param1 := (s.classEntry g.cls).dwell g } :=
  if_pos ((wantsPress_iff s g).mpr presses)

theorem pressList_of_not (idle : ¬ s.presses g) (r : Report) : s.pressList r k g = s.answerPass .press r :=
  if_neg fun h => idle ((wantsPress_iff s g).mp h)

/-! ## PRINT -/

/-- A print bridge prints its own garments that are print-ready and not yet PRINTED (R123, R135). -/
def State.prints (s : State) (side : Bridge) (g : Garment) : Prop :=
  (g.stage ≠ .printed ∧ (0 < (s.classEntry g.cls).rate → g.stage ≠ .blank) ∧
    (0 < (s.classEntry g.cls).pressBase → g.stage = .pressed)) ∧ g.bridge = side

theorem printList_test_iff (s : State) (side : Bridge) (g : Garment) :
    (g.bridge = side ∧ g.stage ≠ .printed ∧ s.printReady g = true) ↔ s.prints side g := by
  have ready : s.printReady g = true ↔ (0 < (s.classEntry g.cls).rate → g.stage ≠ .blank) ∧
      (0 < (s.classEntry g.cls).pressBase → g.stage = .pressed) := by
    simp [State.printReady, ClassEntry.needsPretreat, ClassEntry.needsPress, imp_iff_not_or]
  rw [ready]
  constructor
  · rintro ⟨bridge, stage, ready⟩
    exact ⟨⟨stage, ready⟩, bridge⟩
  · rintro ⟨⟨stage, ready⟩, bridge⟩
    exact ⟨bridge, stage, ready⟩

theorem printList_of_prints {side : Bridge} (prints : s.prints side g) (r : Report) : s.printList side r k g =
    s.give side.link { platen := some k, tag := g.tag, verdict := .print, param1 := g.design,
                       param2 := if s.underbase g then 1 else 0 } :=
  if_pos ((printList_test_iff s side g).mpr prints)

theorem printList_of_not {side : Bridge} (idle : ¬ s.prints side g) (r : Report) :
    s.printList side r k g = s.answerPass side.link r :=
  if_neg fun h => idle ((printList_test_iff s side g).mp h)

/-! ## The three lists -/

theorem refs_seen (s : State) (l : Link) (payload : List Byte) : (s.seen l payload).refs = s.refs :=
  (sameBut_seen s l payload).refs (by decide)

theorem meter_seen (s : State) (l : Link) (payload : List Byte) : (s.seen l payload).meter = s.meter :=
  (sameBut_seen s l payload).meter (by decide)

theorem classEntry_seen (s : State) (l : Link) (payload : List Byte) (c : Nat) :
    (s.seen l payload).classEntry c = s.classEntry c := by
  unfold State.classEntry
  rw [refs_seen]

theorem designEntry_seen (s : State) (l : Link) (payload : List Byte) (d : Nat) :
    (s.seen l payload).designEntry d = s.designEntry d := by
  unfold State.designEntry
  rw [refs_seen]

/-- A verdict of a list that has changed nothing else. -/
theorem State.Brings.gives (h : s.Brings l payload k pos g) (other : l ≠ .load)
    (fit : l = .unload ∨ (g.spoiled = false ∧ g.unverified = false)) {w : OpenVerdict}
    (list : (s.seen l payload).garmentList l (arriveReport payload) k { g with age := 0 } = (s.seen l payload).give l w) :
    ∃ t, exec (.arrive l payload) s = .next t ∧ s.Gives l w t ∧ s.recordIs pos { g with age := 0 } t ∧
      s.sameBut [.garments, .stations, .messages] t := by
  obtain ⟨t, run, gives, rest⟩ := h.given other fit (met_seen s l payload) list
  exact ⟨t, run, gives, (rest.garments (by decide)).trans h.named.1,
    sameBut_trans (sameBut_seen s l payload) rest (by decide) (by decide)⟩

/-- A PASS of a list, with the cause it may have set. -/
theorem State.Brings.passes (h : s.Brings l payload k pos g) (other : l ≠ .load)
    (fit : l = .unload ∨ (g.spoiled = false ∧ g.unverified = false)) {c : BitVec 16}
    (list : (s.seen l payload).garmentList l (arriveReport payload) k { g with age := 0 } =
      State.answerPass { s.seen l payload with port := { (s.seen l payload).port with
        causes := (s.seen l payload).port.causes ||| c } } l (arriveReport payload)) :
    ∃ t, exec (.arrive l payload) s = .next t ∧
      s.Answers l (s.station l).answered (.verdict (BitVec.ofNat 8 k) g.tag .pass 0 0) t ∧
      s.recordIs pos { g with age := 0 } t ∧ t.ring = s.ringReleased (some k) ∧ t.port.causes = s.port.causes ||| c ∧
      s.sameBut [.garments, .stations, .ring, .causes, .messages] t := by
  have seen := sameBut_seen s l payload
  have met : s.Met l { s.seen l payload with port := { (s.seen l payload).port with
      causes := (s.seen l payload).port.causes ||| c } } := { met_seen s l payload with }
  obtain ⟨t, run, answers, ring, rest⟩ := h.passed other fit met list
  refine ⟨t, run, answers, (rest.garments (by decide)).trans h.named.1, ring, ?_, ?_⟩
  · refine (rest.causes (by decide)).trans ?_
    show (s.seen l payload).port.causes ||| c = _
    rw [seen.causes (by decide)]
  · refine sameBut_trans (t := { s.seen l payload with port := { (s.seen l payload).port with
      causes := (s.seen l payload).port.causes ||| c } }) (a := [.garments, .stations, .causes]) ?_ rest (by decide) (by decide)
    exact { sameBut_widen seen (changed := [.garments, .stations, .causes]) (by decide) with
      causes := fun m => absurd (by simp) m }

/-- A list that answers PASS at once. -/
theorem State.Brings.passes_plain (h : s.Brings l payload k pos g) (other : l ≠ .load)
    (fit : l = .unload ∨ (g.spoiled = false ∧ g.unverified = false))
    (list : (s.seen l payload).garmentList l (arriveReport payload) k { g with age := 0 } =
      (s.seen l payload).answerPass l (arriveReport payload)) : ∃ t, exec (.arrive l payload) s = .next t ∧
      s.Answers l (s.station l).answered (.verdict (BitVec.ofNat 8 k) g.tag .pass 0 0) t ∧
      s.recordIs pos { g with age := 0 } t ∧ t.ring = s.ringReleased (some k) ∧ t.port.causes = s.port.causes ||| 0#16 ∧
      s.sameBut [.garments, .stations, .ring, .causes, .messages] t :=
  h.passes other fit (list.trans (by rw [BitVec.or_zero]))

/-- A SPRAY granted. -/
theorem State.Brings.sprayed (h : s.Brings .pretreat payload k pos g)
    (fit : g.spoiled = false ∧ g.unverified = false) (sprays : s.sprays g) {grant : Grant}
    (answer : s.meter.answer (g.full - g.delivered) = some grant) : ∃ t, exec (.arrive .pretreat payload) s = .next t ∧
      s.Gives .pretreat ⟨some k, g.tag, .spray, g.full - g.delivered, 0, .work, some grant, none, false⟩ t ∧
      s.recordIs pos { g with age := 0, wet := decide (grant.colour = .yellow) } t ∧
      t.meter = s.meter.debit (g.full - g.delivered) grant ∧ s.sameBut [.garments, .stations, .meter, .messages] t := by
  let u := (s.seen .pretreat payload).granted pos { g with age := 0 } (g.full - g.delivered) grant
  have here : (s.seen .pretreat payload).sprays { g with age := 0 } := by
    unfold State.sprays
    rw [classEntry_seen]
    exact sprays
  have request := requestGrant_some (n := g.full - g.delivered) (grant := grant) (g := { g with age := 0 }) h.named.2
    ((congrArg (Meter.answer · _) (meter_seen s .pretreat payload)).trans answer)
  have list : (s.seen .pretreat payload).garmentList .pretreat (arriveReport payload) k { g with age := 0 } =
      u.give .pretreat ⟨some k, g.tag, .spray, g.full - g.delivered, 0, .work, some grant, none, false⟩ := by
    refine (pretreatList_of_sprays here _).trans ?_
    show (match (s.seen .pretreat payload).requestGrant g.tag (g.full - g.delivered) with
      | (some a, u) => _
      | (none, u) => _) = _
    rw [show s.seen .pretreat payload = s.received .pretreat kindArrive payload from rfl, request]
    rfl
  have met : s.Met .pretreat u := { met_seen s .pretreat payload with }
  obtain ⟨t, run, gives, rest⟩ := h.given (by decide) (.inr fit) met list
  refine ⟨t, run, gives, (rest.garments (by decide)).trans ?_, (rest.meter (by decide)).trans ?_, ?_⟩
  · have written : u.garments = { (s.seen .pretreat payload).garments with
        records := (s.seen .pretreat payload).garments.records.put pos
          { g with age := 0, wet := decide (grant.colour = .yellow) } } := rfl
    rw [written, show (s.seen .pretreat payload).garments = _ from h.named.1]
    dsimp only
    rw [put_put]
  · show (s.seen .pretreat payload).meter.debit _ grant = _
    rw [meter_seen]
  · refine sameBut_trans (t := u) (a := [.garments, .stations, .meter]) ?_ rest (by decide) (by decide)
    exact { sameBut_widen (sameBut_seen s .pretreat payload) (changed := [.garments, .stations, .meter]) (by decide) with
      garments := fun m => absurd (by simp) m, meter := fun m => absurd (by simp) m }

/-- Settles O46. -/
theorem pretreatPressAndPrintGiveTheirVerdicts : Obligations.PretreatPressAndPrintGiveTheirVerdicts := by
  unfold Obligations.PretreatPressAndPrintGiveTheirVerdicts
  intro s l payload k pos g brings fresh verified c owed seen gives passes grants sprays presses ready prints underbase
  have fit : l = .unload ∨ (g.spoiled = false ∧ g.unverified = false) := .inr ⟨fresh, verified⟩
  have entry := classEntry_seen s l payload g.cls
  have design := designEntry_seen s l payload g.design
  have spraysHere : (s.seen l payload).sprays { g with age := 0 } ↔ sprays := by
    unfold State.sprays
    rw [entry]
  have pressesHere : (s.seen l payload).presses { g with age := 0 } ↔ presses := by
    unfold State.presses
    rw [entry]
  have printsHere : ∀ side, (s.seen l payload).prints side { g with age := 0 } ↔ prints side := fun side => by
    unfold State.prints
    rw [entry]
  have underbaseHere : (s.seen l payload).underbase { g with age := 0 } = true ↔ underbase := by
    unfold State.underbase
    rw [entry, design, Bool.and_eq_true]
  refine ⟨?_, ?_, ?_, ?_, ?_, ?_, fun side here => ?_⟩
  · rintro rfl does rich
    exact brings.sprayed ⟨fresh, verified⟩ does (meter_answer_green rich)
  · rintro rfl does short fits
    exact brings.sprayed ⟨fresh, verified⟩ does (meter_answer_yellow short fits)
  · rintro rfl does short poor
    refine brings.passes (by decide) fit ((pretreatList_of_sprays (spraysHere.mpr does) _).trans ?_)
    have request := requestGrant_none (s := s.seen .pretreat payload) (n := owed) g.tag
      (by rw [meter_seen]; exact meter_answer_red short poor)
    show (match (s.seen .pretreat payload).requestGrant g.tag owed with
      | (some a, u) => _
      | (none, u) => _) = _
    rw [request]
    rfl
  · rintro rfl idle
    exact brings.passes_plain (by decide) fit (pretreatList_of_not (fun h => idle (spraysHere.mp h)) _)
  · rintro rfl does
    refine brings.gives (by decide) fit ((pressList_of_presses (pressesHere.mpr does) _).trans ?_)
    rw [entry]
    rfl
  · rintro rfl idle
    exact brings.passes_plain (by decide) fit (pressList_of_not (fun h => idle (pressesHere.mp h)) _)
  · have link : l = side.link := here.trans (by cases side <;> rfl)
    have away : l ≠ .load := by
      rw [link]
      cases side <;> decide
    have list : (s.seen l payload).garmentList l (arriveReport payload) k { g with age := 0 } =
        (s.seen l payload).printList side (arriveReport payload) k { g with age := 0 } := by
      rw [link]
      cases side <;> rfl
    refine ⟨fun does => ?_, fun idle => ?_⟩
    · rw [printList_of_prints ((printsHere side).mpr does), ← link] at list
      refine ⟨fun base => ?_, fun bare => ?_⟩
      · rw [if_pos (underbaseHere.mpr base)] at list
        exact brings.gives away fit list
      · rw [if_neg fun h => bare (underbaseHere.mp h)] at list
        exact brings.gives away fit list
    · rw [printList_of_not (fun h => idle ((printsHere side).mp h)), ← link] at list
      exact brings.passes_plain away fit list

end Sys2Proof.Machine
end

section
/-! SUPPORT. The decision list of UNLOAD. -/

namespace Sys2Proof.Machine

variable {s t u : State} {payload : List Byte} {k pos : Nat} {g : Garment}

/-! ## What a touch leaves -/

/-- An entry written over another counts as that one did. -/
theorem countP_put {α : Type} {r : Table α} (ok : Table.wf r = true) {i : Nat} {x v : α} (listed : Table.find r i = some x)
    (p : Nat × α → Bool) (same : p (i, v) = p (i, x)) : (Table.put r i v).countP p = r.countP p := by
  induction r with
  | nil => cases listed
  | cons e r ih =>
    obtain ⟨j, w⟩ := e
    rw [wf_cons, Bool.and_eq_true] at ok
    unfold Table.find at listed
    unfold Table.put
    by_cases here : i = j
    · rw [if_pos here] at listed ⊢
      obtain rfl := Option.some.inj listed
      subst here
      rw [List.countP_cons, List.countP_cons, same]
    · rw [if_neg here] at listed ⊢
      by_cases low : i < j
      · rw [find_of_above (above_mono r ok.1 low.le)] at listed
        cases listed
      · rw [if_neg low, List.countP_cons, List.countP_cons, ih ok.2 listed]

/-- A record written over one just written. -/
theorem recordIs_putRecord {x : Garment} (first : s.recordIs pos x u) (y : Garment) :
    s.recordIs pos y (u.putRecord pos y) := by
  have written : (u.putRecord pos y).garments = { u.garments with records := u.garments.records.put pos y } := rfl
  unfold State.recordIs at first ⊢
  rw [written, first]
  dsimp only
  rw [put_put]

/-- The unprinted load of a bridge does not see a touch (R127). -/
theorem bridgeLoad_put {x y : Garment} (ok : s.garments.records.wf = true) (listed : s.garments.records.find pos = some x)
    (bridge : y.bridge = x.bridge) (stage : y.stage = x.stage)
    (garments : t.garments = { s.garments with records := s.garments.records.put pos y }) (side : Bridge) :
    t.bridgeLoad side = s.bridgeLoad side := by
  have load : ∀ v : State, v.bridgeLoad side =
      v.garments.records.countP fun e => e.2.bridge == side && e.2.stage != .printed := fun v => by
    unfold State.bridgeLoad State.liveGarments
    rw [← List.countP_eq_length_filter, List.countP_map]
    rfl
  rw [load, load, garments]
  exact countP_put ok listed _ (by rw [bridge, stage])

theorem State.Met.isActive {l : Link} (met : s.Met l u) (n : Link) : u.isActive n = s.isActive n := by
  unfold State.isActive
  rw [met.mode]

theorem isActive_iff (s : State) (l : Link) : s.isActive l = true ↔ (s.station l).mode = .active :=
  beq_iff_eq

/-! ## The list -/

/-- UNLOAD returns a SPOILED garment and an unbound unprinted ORDER (R137). -/
def Garment.unwanted (g : Garment) : Prop :=
  g.spoiled = true ∨ (g.kind = .order ∧ g.binding = none ∧ g.stage ≠ .printed)

theorem unloadList_of_unwanted (unwanted : g.unwanted) (r : Report) : s.unloadList r k g = s.unloadReturn k g.tag := by
  unfold State.unloadList
  rcases unwanted with spoiled | orphan
  · exact if_pos spoiled
  · rw [if_pos orphan, ite_self]

theorem unloadList_of_printed (wanted : ¬ g.unwanted) (printed : g.stage = .printed) (r : Report) :
    s.unloadList r k g = s.unloadPrinted k g.tag := by
  unfold State.unloadList
  rw [if_neg fun h => wanted (.inl h), if_neg fun h => wanted (.inr h), if_pos printed]

theorem unloadList_of_unprinted (wanted : ¬ g.unwanted) (unprinted : g.stage ≠ .printed) (r : Report) :
    s.unloadList r k g = s.unloadUnprinted r k g := by
  unfold State.unloadList
  rw [if_neg fun h => wanted (.inl h), if_neg fun h => wanted (.inr h), if_neg unprinted]

theorem freeLane_none (full : ∀ n, n ≤ 3 → (s.lane n).free = false) : s.freeLane = none := by
  unfold State.freeLane laneNumbers
  simp [full]

theorem State.Met.freeLane (cure : u.cure = s.cure) : u.freeLane = s.freeLane := by
  unfold State.freeLane State.lane
  rw [cure]

theorem unloadPrinted_lane {n : Nat} (free : s.freeLane = some n) (tag : Tag) : s.unloadPrinted k tag =
    (s.reserveLane n tag).give .unload
      { platen := some k, tag := tag, verdict := .toBelt, param1 := n, lane := some n } := by
  unfold State.unloadPrinted
  rw [free]

theorem unloadPrinted_wait (full : s.freeLane = none) (tag : Tag) : s.unloadPrinted k tag =
    s.give .unload { platen := some k, tag := tag, verdict := .wait, cls := .wait } := by
  unfold State.unloadPrinted
  rw [full]

/-! ## The verdicts -/

theorem State.Brings.returned (h : s.Brings .unload payload k pos g)
    (unwanted : g.unwanted ∨ (g.stage ≠ .printed ∧ s.limits.lapLimit ≤ g.laps)) :
    ∃ t, exec (.arrive .unload payload) s = .next t ∧
      s.Gives .unload { platen := some k, tag := g.tag, verdict := .ret } t ∧ s.recordIs pos { g with age := 0 } t ∧
      s.sameBut [.garments, .stations, .messages] t := by
  refine h.gives (by decide) (.inl rfl) ?_
  show (s.seen .unload payload).unloadList _ k { g with age := 0 } = _
  by_cases at_once : g.unwanted
  · exact unloadList_of_unwanted (g := { g with age := 0 }) at_once _
  · obtain ⟨unprinted, laps⟩ := unwanted.resolve_left at_once
    refine (unloadList_of_unprinted (g := { g with age := 0 }) at_once unprinted _).trans (if_pos ?_)
    rw [(met_seen s .unload payload).limits]
    exact laps

theorem State.Brings.toBelt (h : s.Brings .unload payload k pos g) (wanted : ¬ g.unwanted) (printed : g.stage = .printed)
    {n : Nat} (low : n ≤ 3) (free : (s.lane n).free = true) (lowest : ∀ j, j < n → (s.lane j).free = false) :
    ∃ t, exec (.arrive .unload payload) s = .next t ∧
      s.Gives .unload { platen := some k, tag := g.tag, verdict := .toBelt, param1 := n, lane := some n } t ∧
      s.recordIs pos { g with age := 0 } t ∧ t.lane n = { s.lane n with reservation := some g.tag } ∧
      (∀ j, j ≠ n → t.lane j = s.lane j) ∧ { t.cure with lanes := s.cure.lanes } = s.cure ∧
      s.sameBut [.garments, .stations, .cure, .messages] t := by
  let v := s.seen .unload payload
  have seen := sameBut_seen s .unload payload
  have cure : v.cure = s.cure := seen.cure (by decide)
  have list : v.garmentList .unload (arriveReport payload) k { g with age := 0 } = (v.reserveLane n g.tag).give .unload
      { platen := some k, tag := g.tag, verdict := .toBelt, param1 := n, lane := some n } :=
    (unloadList_of_printed (g := { g with age := 0 }) wanted printed _).trans
      (unloadPrinted_lane ((State.Met.freeLane cure).trans (freeLane_eq s low free lowest)) _)
  have met : s.Met .unload (v.reserveLane n g.tag) := { met_seen s .unload payload with }
  obtain ⟨t, run, gives, rest⟩ := h.given (by decide) (.inl rfl) met list
  have tunnel : t.cure = (v.reserveLane n g.tag).cure := rest.cure (by decide)
  have lane : ∀ j, t.lane j = if j = n then { s.lane n with reservation := some g.tag } else s.lane j := fun j => by
    have same : ∀ j, v.lane j = s.lane j := fun j => by
      unfold State.lane
      rw [cure]
    have reserved := lane_modifyLane v n j fun x => { x with reservation := some g.tag }
    rw [same, same] at reserved
    unfold State.lane at reserved ⊢
    rw [tunnel]
    exact reserved
  refine ⟨t, run, gives, (rest.garments (by decide)).trans h.named.1, ?_, fun j other => ?_, ?_, ?_⟩
  · rw [lane, if_pos rfl]
  · rw [lane, if_neg other]
  · rw [tunnel, ← cure]
    rfl
  · refine sameBut_trans (t := v.reserveLane n g.tag) (a := [.garments, .stations, .cure]) ?_ rest (by decide) (by decide)
    exact { sameBut_widen seen (changed := [.garments, .stations, .cure]) (by decide) with
      cure := fun m => absurd (by simp) m }

theorem State.Brings.waits (h : s.Brings .unload payload k pos g) (wanted : ¬ g.unwanted) (printed : g.stage = .printed)
    (full : ∀ n, n ≤ 3 → (s.lane n).free = false) : ∃ t, exec (.arrive .unload payload) s = .next t ∧
      s.Gives .unload { platen := some k, tag := g.tag, verdict := .wait, cls := .wait } t ∧
      s.recordIs pos { g with age := 0 } t ∧ s.sameBut [.garments, .stations, .messages] t := by
  have cure : (s.seen .unload payload).cure = s.cure := (sameBut_seen s .unload payload).cure (by decide)
  refine h.gives (by decide) (.inl rfl) ?_
  exact (unloadList_of_printed (g := { g with age := 0 }) wanted printed _).trans
    (unloadPrinted_wait ((State.Met.freeLane cure).trans (freeLane_none full)) _)

/-- A bridge chosen again after a lap: the bridge rule reads what a touch leaves (R127, R138). -/
theorem State.Brings.rebridge (h : s.Brings .unload payload k pos g) (tables : TablesOk s) :
    (s.seen .unload payload).rebridge { g with age := 0 } =
      if (s.station g.bridge.link).mode = .active then g.bridge else s.bridgeRule g.bridge := by
  have met := met_seen s .unload payload
  have loads := bridgeLoad_put (t := s.seen .unload payload) (y := { g with age := 0 }) tables.records
    (findTag_some h.live).1 rfl rfl h.named.1
  unfold State.rebridge State.bridgeRule
  simp only [met.isActive, loads, isActive_iff]

theorem State.Brings.laps (h : s.Brings .unload payload k pos g) (tables : TablesOk s) (wanted : ¬ g.unwanted)
    (unprinted : g.stage ≠ .printed) (below : g.laps < s.limits.lapLimit) :
    ∃ t, exec (.arrive .unload payload) s = .next t ∧
      s.Answers .unload (s.station .unload).answered (.verdict (BitVec.ofNat 8 k) g.tag .pass 0 0) t ∧
      s.recordIs pos { g with age := 0, laps := g.laps + 1, bridge :=
        if (s.station g.bridge.link).mode = .active then g.bridge else s.bridgeRule g.bridge } t ∧
      t.ring = s.ringReleased (some k) ∧ s.sameBut [.garments, .stations, .ring, .messages] t := by
  let v := s.seen .unload payload
  let u := v.putRecord pos { g with age := 0, laps := g.laps + 1, bridge := v.rebridge { g with age := 0 } }
  have counted : (v.modifyGarment g.tag fun x => { x with laps := x.laps + 1, bridge := v.rebridge x }) = u :=
    modifyGarment_some (g := { g with age := 0 }) h.named.2 _
  have list : v.garmentList .unload (arriveReport payload) k { g with age := 0 } =
      u.answerPass .unload (arriveReport payload) := by
    refine (unloadList_of_unprinted (g := { g with age := 0 }) wanted unprinted _).trans ((if_neg ?_).trans ?_)
    · rw [(met_seen s .unload payload).limits]
      exact Nat.not_le.mpr below
    · exact congrArg (fun u : State => u.answerPass .unload (arriveReport payload)) counted
  have met : s.Met .unload u := { met_seen s .unload payload with }
  obtain ⟨t, run, answers, ring, rest⟩ := h.passed (by decide) (.inl rfl) met list
  refine ⟨t, run, answers, (rest.garments (by decide)).trans ?_, ring, ?_⟩
  · rw [← h.rebridge tables]
    exact recordIs_putRecord (x := { g with age := 0 }) h.named.1 _
  · refine sameBut_trans (t := u) (a := [.garments, .stations]) ?_ rest (by decide) (by decide)
    exact { sameBut_seen s .unload payload with garments := fun m => absurd (by simp) m }

/-- Settles O47. -/
theorem unloadGivesItsVerdicts : Obligations.UnloadGivesItsVerdicts := by
  unfold Obligations.UnloadGivesItsVerdicts
  intro s payload k pos g brings seen unwanted gives bridgeActive
  refine ⟨brings.returned, fun wanted printed n low free lowest => brings.toBelt wanted printed low free lowest,
    fun wanted printed full => brings.waits wanted printed full, fun tables wanted unprinted below => ?_⟩
  obtain ⟨t, run, answers, record, rest⟩ := brings.laps tables wanted unprinted below
  refine ⟨t, run, answers, ?_, rest⟩
  have link : g.bridge.link = (match g.bridge with | .a => .printA | .b => .printB) := by
    cases g.bridge <;> rfl
  rw [link] at record
  exact record

end Sys2Proof.Machine
end

section
/-! SUPPORT. The choice of a line, from the lines that want a garment to the candidate it takes. -/

namespace Sys2Proof.Machine

variable {s : State} {set : LineSet} {sku : Nat} {design : Option Nat}

/-! ## The classes from the top -/

theorem find_classesDown_eq {p : Nat → Bool} {c : Nat} (low : c ≤ 3) (here : p c = true)
    (above : ∀ j, c < j → j ≤ 3 → p j = false) : classesDown.find? p = some c := by
  unfold classesDown
  interval_cases c <;> simp_all

theorem find_classesDown_eq_none {p : Nat → Bool} (none : ∀ j, j ≤ 3 → p j = false) :
    classesDown.find? p = Option.none := by
  unfold classesDown
  simp [none]

/-! ## The line taken within its class -/

/-- The first of the lines of a class, by admission, slot and index, is the one taken (R53). -/
theorem earliestOf_eq (ok : s.orders.slots.wf = true) {slot i : Nat} {o : Order} {l : Line}
    (wants : s.Wants set sku design slot i o l)
    (first : ∀ slot' i' o' l', s.Wants set sku design slot' i' o' l' → s.classOf o' = s.classOf o →
      o.admission < o'.admission ∨ (o.admission = o'.admission ∧ (slot < slot' ∨ (slot = slot' ∧ i ≤ i')))) :
    earliestOf (s.candidates set sku design) (s.classOf o) = some ⟨slot, i, s.classOf o, o.admission⟩ := by
  cases taken : earliestOf (s.candidates set sku design) (s.classOf o) with
  | none =>
    have empty := earliest_eq_none.mp taken
    have listed : (⟨slot, i, s.classOf o, o.admission⟩ : Candidate) ∈ s.candidates set sku design :=
      (mem_candidates ok).mpr ⟨o, l, wants, rfl, rfl⟩
    have kept : (⟨slot, i, s.classOf o, o.admission⟩ : Candidate) ∈
        (s.candidates set sku design).filter fun x => x.cls == s.classOf o :=
      List.mem_filter.mpr ⟨listed, beq_self_eq_true (s.classOf o)⟩
    rw [empty] at kept
    cases kept
  | some x =>
    obtain ⟨o', l', wants', cls', least⟩ := earliestOf_spec ok taken
    have mine := least slot i o l wants rfl
    have its := first x.slot x.line o' l' wants' cls'
    have sameSlot : x.slot = slot := by omega
    have sameLine : x.line = i := by omega
    have sameOrder : o' = o := by
      have found := wants'.order
      rw [sameSlot, wants.order] at found
      exact (Option.some.inj found).symm
    obtain ⟨listed, cls⟩ := List.mem_filter.mp (earliest_spec (candidates_order ok |>.filter _) taken).1
    obtain ⟨o'', l'', wants'', -, admission⟩ := (mem_candidates ok).mp listed
    have again : o'' = o := by
      have found := wants''.order
      rw [sameSlot, wants.order] at found
      exact (Option.some.inj found).symm
    obtain ⟨a, b, c, d⟩ := x
    subst sameSlot sameLine
    rw [again] at admission
    have cls : c = s.classOf o := beq_iff_eq.mp cls
    rw [cls, show d = o.admission from admission]

/-! ## The choice -/

theorem choose_strict {c : Scheduler} (strict : c.mode = .strict) (cs : List Candidate) {k : Nat}
    (first : classesDown.find? (holdsCandidate cs) = some k) : c.choose cs = (earliestOf cs k).map fun x => (x, c) := by
  unfold Scheduler.choose
  rw [strict]
  dsimp only
  rw [first]

theorem choose_credited {c : Scheduler} (weighted : c.mode = .weighted) (cs : List Candidate) {k : Nat}
    (first : c.creditedClass cs = some k) : c.choose cs = (earliestOf cs k).map fun x => (x, c.spend k) := by
  unfold Scheduler.choose
  rw [weighted]
  dsimp only
  rw [first]

theorem choose_reloaded {c : Scheduler} (weighted : c.mode = .weighted) (cs : List Candidate) {k : Nat}
    (spent : c.creditedClass cs = none) (first : c.reload.creditedClass cs = some k) :
    c.choose cs = (earliestOf cs k).map fun x => (x, c.reload.spend k) := by
  unfold Scheduler.choose
  rw [weighted]
  dsimp only
  rw [spent]
  dsimp only
  rw [first]

theorem holds_eq_false (ok : s.orders.slots.wf = true) {k : Nat}
    (none : ¬ ∃ slot i o l, s.Wants set sku design slot i o l ∧ s.classOf o = k) :
    holdsCandidate (s.candidates set sku design) k = false :=
  Bool.eq_false_iff.mpr fun h => none ((holds_iff ok).mp h)

/-- The choice takes the first line of the class that the mode and the credits call for (R51 to R53). -/
theorem choose_takes (ok : s.orders.slots.wf = true) {slot i : Nat} {o : Order} {l : Line} (low : s.classOf o ≤ 3)
    (wants : s.Wants set sku design slot i o l)
    (first : ∀ slot' i' o' l', s.Wants set sku design slot' i' o' l' → s.classOf o' = s.classOf o →
      o.admission < o'.admission ∨ (o.admission = o'.admission ∧ (slot < slot' ∨ (slot = slot' ∧ i ≤ i')))) :
    let holds := fun c => ∃ slot i o l, s.Wants set sku design slot i o l ∧ s.classOf o = c
    let takes := fun (credits : List Nat) => s.sched.choose (s.candidates set sku design) =
      some (⟨slot, i, s.classOf o, o.admission⟩, { s.sched with credits := credits })
    (s.sched.mode = .strict → (∀ j, s.classOf o < j → j ≤ 3 → ¬ holds j) → takes s.sched.credits) ∧
    (s.sched.mode = .weighted → 0 < s.sched.credits.getD (s.classOf o) 0 →
      (∀ j, s.classOf o < j → j ≤ 3 → holds j → s.sched.credits.getD j 0 = 0) →
      takes (modifyAt s.sched.credits (s.classOf o) (· - 1))) ∧
    (s.sched.mode = .weighted → (∀ j, j ≤ 3 → holds j → s.sched.credits.getD j 0 = 0) →
      0 < s.sched.weights.getD (s.classOf o) 0 →
      (∀ j, s.classOf o < j → j ≤ 3 → holds j → s.sched.weights.getD j 0 = 0) →
      takes (modifyAt s.sched.weights (s.classOf o) (· - 1))) := by
  intro holds takes
  have taken := earliestOf_eq ok wants first
  have here : holdsCandidate (s.candidates set sku design) (s.classOf o) = true :=
    (holds_iff ok).mpr ⟨slot, i, o, l, wants, rfl⟩
  have poor : ∀ (j credit : Nat), (holds j → credit = 0) →
      (holdsCandidate (s.candidates set sku design) j && decide (0 < credit)) = false := by
    intro j credit zero
    by_cases h : holds j
    · rw [zero h, decide_eq_false (Nat.lt_irrefl 0), Bool.and_false]
    · rw [holds_eq_false ok h, Bool.false_and]
  refine ⟨fun strict above => ?_, fun weighted rich above => ?_, fun weighted spent heavy above => ?_⟩
  · refine (choose_strict strict _ (find_classesDown_eq low here fun j high top => ?_)).trans ?_
    · exact holds_eq_false ok (above j high top)
    · rw [taken]
      rfl
  · refine (choose_credited weighted _ (k := s.classOf o) (find_classesDown_eq low ?_ fun j high top => ?_)).trans ?_
    · exact Bool.and_eq_true_iff.mpr ⟨here, decide_eq_true rich⟩
    · exact poor j _ (above j high top)
    · rw [taken]
      rfl
  · refine (choose_reloaded weighted _ (k := s.classOf o) (find_classesDown_eq_none fun j top => ?_)
      (find_classesDown_eq low ?_ fun j high top => ?_)).trans ?_
    · exact poor j _ (spent j top)
    · exact Bool.and_eq_true_iff.mpr ⟨here, decide_eq_true heavy⟩
    · exact poor j _ (above j high top)
    · rw [taken]
      rfl

end Sys2Proof.Machine
end

section
/-! SUPPORT. The decision list of LOAD: its answers in the order of Table 7-2, and the learning of a garment. -/

namespace Sys2Proof.Machine

variable {s t u : State} {payload : List Byte} {k pos : Nat} {g : Garment}

/-! ## The checks of an arrival -/

/-- The entry of the class that a SKU names (R71). -/
def State.classNamed (s : State) (sku : Nat) : Option ClassEntry :=
  (s.refs.skus.find sku).bind fun e => s.refs.classes.find e.cls

/-- A tag that a pattern bars (R8, R125). -/
def State.blocks (s : State) (tag : Tag) : Prop :=
  ∃ p, s.patternFor tag = some p ∧ p.action = .block

/-- Every station that a class needs is ACTIVE (R126). -/
def State.routes (s : State) (c : ClassEntry) : Prop :=
  (0 < c.rate → (s.station .pretreat).mode = .active) ∧ (0 < c.pressBase → (s.station .press).mode = .active) ∧
    ((s.station .printA).mode = .active ∨ (s.station .printB).mode = .active)

theorem noRoute_iff (s : State) (c : ClassEntry) : s.noRoute c = true ↔ ¬ s.routes c := by
  have active : ∀ l, s.isActive l = true ↔ (s.station l).mode = .active := isActive_iff s
  have idle : ∀ l, s.isActive l = false ↔ ¬ (s.station l).mode = .active := fun l => by
    rw [← active, Bool.not_eq_true]
  unfold State.noRoute State.routes ClassEntry.needsPretreat ClassEntry.needsPress
  simp only [Bool.or_eq_true, Bool.and_eq_true, decide_eq_true_eq, Bool.not_eq_true', Bool.or_eq_false_iff, idle]
  tauto

theorem blocked_iff (s : State) (tag : Tag) :
    (s.patternFor tag).any (fun p => p.action == .block) = true ↔ s.blocks tag := by
  unfold State.blocks
  cases s.patternFor tag <;> simp

section
variable (r : Report) (tag : Tag) (sku : Nat)

theorem loadArrival_blocked (blocked : s.blocks tag) :
    s.loadArrival r k tag sku = s.answerRefuse .load r .blockedTag :=
  if_pos ((blocked_iff s tag).mpr blocked)

theorem loadArrival_duplicate (open_ : ¬ s.blocks tag) (live : (s.findTag tag).isSome) :
    s.loadArrival r k tag sku = s.answerRefuse .load r .duplicateTag :=
  (if_neg fun h => open_ ((blocked_iff s tag).mp h)).trans (if_pos live)

variable (fresh : s.findTag tag = none)
include fresh

theorem loadArrival_unclassed (open_ : ¬ s.blocks tag) (unclassed : s.classNamed sku = none) :
    s.loadArrival r k tag sku = s.answerRefuse .load r .classInvalid := by
  refine (if_neg fun h => open_ ((blocked_iff s tag).mp h)).trans ((if_neg (by simp [fresh])).trans ?_)
  unfold State.classNamed at unclassed
  cases entry : s.refs.skus.find sku with
  | none => rfl
  | some e =>
    rw [entry] at unclassed
    have missing : s.refs.classes.find e.cls = none := unclassed
    dsimp only
    rw [missing]

/-- An arrival of a known class goes on to the route test (R126). -/
theorem loadArrival_classed (open_ : ¬ s.blocks tag) {e : SkuEntry} {c : ClassEntry} (entry : s.refs.skus.find sku = some e)
    (cls : s.refs.classes.find e.cls = some c) : s.loadArrival r k tag sku =
      if s.noRoute c = true then s.answerRefuse .load r .noRoute
      else match s.patternFor tag with
        | some p => s.loadTest r k tag sku e.cls p.design
        | none => s.loadOrder r k tag sku e.cls := by
  refine (if_neg fun h => open_ ((blocked_iff s tag).mp h)).trans ((if_neg (by simp [fresh])).trans ?_)
  rw [entry]
  dsimp only
  rw [cls] <;> rfl

theorem loadArrival_unrouted (open_ : ¬ s.blocks tag) {c : ClassEntry} (classed : s.classNamed sku = some c)
    (unrouted : ¬ s.routes c) : s.loadArrival r k tag sku = s.answerRefuse .load r .noRoute := by
  obtain ⟨e, entry, cls⟩ := Option.bind_eq_some_iff.mp classed
  exact (loadArrival_classed r tag sku fresh open_ entry cls).trans (if_pos ((noRoute_iff s c).mpr unrouted))

theorem loadArrival_full (open_ : ¬ s.blocks tag) {c : ClassEntry} (classed : s.classNamed sku = some c)
    (routed : s.routes c) (full : s.freeWay tag = none) :
    s.loadArrival r k tag sku = s.answerRefuse .load r .tableFull := by
  obtain ⟨e, entry, cls⟩ := Option.bind_eq_some_iff.mp classed
  refine (loadArrival_classed r tag sku fresh open_ entry cls).trans ((if_neg ?_).trans ?_)
  · rw [noRoute_iff, not_not]
    exact routed
  · unfold State.loadTest State.loadOrder
    rw [full]
    split <;> rfl

theorem loadArrival_test {p : Pattern} (pattern : s.patternFor tag = some p) (test : p.action = .test) {e : SkuEntry}
    {c : ClassEntry} (entry : s.refs.skus.find sku = some e) (cls : s.refs.classes.find e.cls = some c)
    (routed : s.routes c) (way : s.freeWay tag = some pos) : s.loadArrival r k tag sku =
      s.giveLoad pos k (s.newGarment k tag .test sku e.cls p.design none) := by
  have open_ : ¬ s.blocks tag := by
    rintro ⟨q, found, bars⟩
    rw [pattern] at found
    obtain rfl := Option.some.inj found
    rw [test] at bars
    cases bars
  refine (loadArrival_classed r tag sku fresh open_ entry cls).trans ((if_neg ?_).trans ?_)
  · rw [noRoute_iff, not_not]
    exact routed
  · unfold State.loadTest
    rw [pattern, way]

theorem loadArrival_order (pattern : s.patternFor tag = none) {e : SkuEntry}
    {c : ClassEntry} (entry : s.refs.skus.find sku = some e) (cls : s.refs.classes.find e.cls = some c)
    (routed : s.routes c) (way : s.freeWay tag = some pos) : s.loadArrival r k tag sku =
      match s.sched.choose (s.candidates .all sku none) with
      | none => s.answerRefuse .load r .noDemand
      | some (x, sched) => State.giveLoad { s with sched := sched } pos k
          (s.newGarment k tag .order sku e.cls (((s.line x.slot x.line).map Line.design).getD 0)
            (some ⟨x.slot, x.line⟩)) := by
  have open_ : ¬ s.blocks tag := by
    rintro ⟨q, found, -⟩
    rw [pattern] at found
    cases found
  refine (loadArrival_classed r tag sku fresh open_ entry cls).trans ((if_neg ?_).trans ?_)
  · rw [noRoute_iff, not_not]
    exact routed
  · unfold State.loadOrder
    rw [pattern, way] <;> rfl

end

/-! ## What the checks read of a state met -/

theorem patternFor_received (l : Link) (kind : Byte) (tag : Tag) :
    (s.received l kind payload).patternFor tag = s.patternFor tag := by
  unfold State.patternFor
  rw [received_eq]

theorem blocks_received (l : Link) (kind : Byte) (tag : Tag) : (s.received l kind payload).blocks tag ↔ s.blocks tag := by
  unfold State.blocks
  rw [patternFor_received]

theorem classNamed_received (l : Link) (kind : Byte) (sku : Nat) :
    (s.received l kind payload).classNamed sku = s.classNamed sku := by
  unfold State.classNamed
  rw [(sameBut_received s l kind payload).refs (by decide)]

theorem routes_received (l : Link) (kind : Byte) (c : ClassEntry) :
    (s.received l kind payload).routes c ↔ s.routes c := by
  unfold State.routes
  simp only [(met_received s l kind payload).mode]

theorem candidates_received (l : Link) (kind : Byte) (set : LineSet) (sku : Nat) (design : Option Nat) :
    (s.received l kind payload).candidates set sku design = s.candidates set sku design := by
  unfold State.candidates
  rw [(sameBut_received s l kind payload).orders (by decide), (sameBut_received s l kind payload).sched (by decide)]

/-! ## Answers at LOAD -/

/-- The record of the tag of an ARRIVE is touched, and verified where the ARRIVE names the garment of its platen. -/
def State.touched (s : State) (tag : Tag) (verified : Bool) (t : State) : Prop :=
  (s.findTag tag = none → t.garments = s.garments) ∧
    ∀ pos g, s.findTag tag = some (pos, g) →
      s.recordIs pos { g with age := 0, unverified := g.unverified && !verified } t

theorem touched_received (l : Link) : s.touched (tagField payload 1) false (s.received l kindArrive payload) := by
  refine ⟨received_unknown (by decide), fun pos g live => ?_⟩
  refine (received_known (by decide) live).trans ?_
  rw [Bool.not_false, Bool.and_true]

theorem State.touched.later {tag : Tag} {b : Bool} (h : s.touched tag b u) (garments : t.garments = u.garments) :
    s.touched tag b t := by
  unfold State.touched State.recordIs at *
  rw [garments]
  exact h

/-- A PASS at LOAD. -/
theorem loadPasses (h : s.Presents .load kindArrive payload k) {verified : Bool} (met : s.Met .load u)
    (touched : s.touched (tagField payload 1) verified u) (frame : s.sameBut [.garments, .stations] u)
    (list : (s.received .load kindArrive payload).tagCheck .load (arriveReport payload) k =
      u.answerPass .load (arriveReport payload)) : ∃ t, exec (.arrive .load payload) s = .next t ∧
      s.Answers .load (s.station .load).answered (.verdict (BitVec.ofNat 8 k) (tagField payload 1) .pass 0 0) t ∧
      s.touched (tagField payload 1) verified t ∧
      t.ring = s.ringReleased (some k) ∧ s.sameBut [.garments, .stations, .ring, .messages] t := by
  obtain ⟨answers, ring, rest⟩ := met.passes (k := k) h.noVerdict (arriveReport payload)
  rw [arrive_platenByte h.platen, ← list] at answers
  rw [← list] at ring rest
  exact ⟨_, exec_arrive h, answers, touched.later (rest.garments (by decide)), ring,
    sameBut_trans frame rest (by decide) (by decide)⟩

/-- A refusal at LOAD. -/
theorem loadRefuses (h : s.Presents .load kindArrive payload k) {code : RefusalCode}
    (list : (s.received .load kindArrive payload).tagCheck .load (arriveReport payload) k =
      (s.received .load kindArrive payload).answerRefuse .load (arriveReport payload) code) :
    ∃ t, exec (.arrive .load payload) s = .next t ∧
      s.Refuses .load (s.station .load).heard code kindArrive (BitVec.ofNat 8 k, tagField payload 1) t ∧
      s.touched (tagField payload 1) false t ∧
      t.ring = s.ringReleased (some k) ∧ s.sameBut [.garments, .stations, .ring, .causes, .messages] t := by
  have frame := sameBut_received s .load kindArrive payload
  obtain ⟨refuses, ring, rest⟩ := (met_received s .load kindArrive payload).refuses (k := k) (tag := tagField payload 1)
    h.noVerdict (frame.causes (by decide)) (r := arriveReport payload) rfl code
  rw [arrive_platenByte h.platen, ← list] at refuses
  rw [← list] at ring rest
  exact ⟨_, exec_arrive h, refuses, (touched_received .load).later (rest.garments (by decide)), ring,
    sameBut_trans frame rest (by decide) (by decide)⟩

/-! ## The way to the list -/

theorem arrive_sku_some (word : field payload 7 1 = 1) : (arriveReport payload).sku = some (field payload 8 1) :=
  if_pos word

theorem arrive_sku_none (word : field payload 7 1 = 0) : (arriveReport payload).sku = none :=
  if_neg (by omega)

/-- An arrival on a platen not OCCUPIED reaches LOAD's decision list. -/
theorem load_vacant (h : s.Presents .load kindArrive payload k) (vacant : (s.platen k).state ≠ .occupied) :
    (s.received .load kindArrive payload).tagCheck .load (arriveReport payload) k =
      (s.received .load kindArrive payload).decisionList .load (arriveReport payload) k := by
  have met := met_received s .load kindArrive payload
  unfold State.tagCheck
  rw [ring_eq_platen met.ring]
  exact (if_neg vacant).trans ((if_pos rfl).trans (met.consistent h _))

theorem decisionList_load (r : Report) {tag : Tag} (arrives : r.tag = some tag)
    (fit : ∀ pos g, s.findTag tag = some (pos, g) → g.spoiled = false ∧ g.unverified = false) :
    s.decisionList .load r k = s.loadList r k tag := by
  unfold State.decisionList
  rw [arrives]
  dsimp only
  cases live : s.findTag tag with
  | none => exact if_pos rfl
  | some e =>
    obtain ⟨pos, g⟩ := e
    obtain ⟨fresh, verified⟩ := fit pos g live
    refine (if_neg ?_).trans ?_
    · rw [fresh, verified]
      simp
    · exact congrArg (s.loadList r k) (findTag_some live).2.1

theorem decisionList_load_flagged (r : Report) {tag : Tag} (arrives : r.tag = some tag)
    (live : s.findTag tag = some (pos, g)) (flag : g.spoiled = true ∨ g.unverified = true) :
    s.decisionList .load r k = s.answerPass .load r := by
  unfold State.decisionList
  rw [arrives]
  dsimp only
  rw [live]
  exact if_pos ⟨by decide, flag⟩

/-- LOAD answers PASS on a platen that is not EMPTY, whatever the garment (R124, R129). -/
theorem decisionList_load_full (full : (s.platen k).state ≠ .empty) (r : Report) {tag : Tag} (arrives : r.tag = some tag) :
    s.decisionList .load r k = s.answerPass .load r := by
  have list : ∀ tag, s.loadList r k tag = s.answerPass .load r := fun tag => by
    unfold State.loadList
    split
    · rfl
    · rfl
    · rename_i vacant
      exact absurd vacant full
  unfold State.decisionList
  rw [arrives]
  dsimp only
  split
  · exact (if_pos rfl).trans (list tag)
  · rename_i pos g live
    split
    · rfl
    · exact list g.tag

theorem loadList_empty (empty : (s.platen k).state = .empty) (r : Report) (tag : Tag) : s.loadList r k tag =
    match r.sku with
    | none => s.answerRefuse .load r .badRequest
    | some sku => s.loadArrival r k tag sku := by
  unfold State.loadList
  rw [empty] <;> rfl

/-- The garment named on its own platen is verified as it is answered (R114). -/
theorem load_recorded (h : s.Presents .load kindArrive payload k) (occupied : (s.platen k).state = .occupied)
    (recorded : (s.platen k).tag = some (tagField payload 1)) :
    let u := (s.received .load kindArrive payload).modifyGarment (tagField payload 1) fun g => { g with unverified := false }
    s.Met .load u ∧ s.touched (tagField payload 1) true u ∧ s.sameBut [.garments, .stations] u ∧
      (s.received .load kindArrive payload).tagCheck .load (arriveReport payload) k =
        u.answerPass .load (arriveReport payload) := by
  intro u
  have met := met_received s .load kindArrive payload
  have shape : u = { s.received .load kindArrive payload with garments := u.garments } := by
    show (s.received .load kindArrive payload).modifyGarment _ _ = _
    unfold u State.modifyGarment
    split <;> rfl
  have metU : s.Met .load u := by
    rw [shape]
    exact { met with }
  refine ⟨metU, ⟨fun unknown => ?_, fun pos g live => ?_⟩, ?_, ?_⟩
  · have stays : u = s.received .load kindArrive payload :=
      modifyGarment_none (findTag_received_unknown (by decide) unknown) _
    rw [stays]
    exact received_unknown (by decide) unknown
  · have verified : u = (s.received .load kindArrive payload).putRecord pos { g with age := 0, unverified := false } :=
      modifyGarment_some (findTag_received_known (by decide) live) _
    rw [verified, Bool.not_true, Bool.and_false]
    exact recordIs_putRecord (x := { g with age := 0 }) (received_known (by decide) live) _
  · rw [shape]
    exact { sameBut_received s .load kindArrive payload with garments := fun m => absurd (by simp) m }
  · unfold State.tagCheck
    rw [ring_eq_platen met.ring]
    refine (if_pos occupied).trans ((if_pos recorded).trans ?_)
    rw [if_pos rfl]
    refine (metU.consistent h _).trans (decisionList_load_full ?_ _ rfl)
    rw [ring_eq_platen metU.ring, occupied]
    decide

/-! ## The refusals in order -/

/-- Where no flag turns a garment away, an EMPTY platen's arrival is taken by Table 7-2. -/
theorem load_empty (h : s.Presents .load kindArrive payload k) (empty : (s.platen k).state = .empty)
    (fit : ∀ pos g, s.findTag (tagField payload 1) = some (pos, g) → g.spoiled = false ∧ g.unverified = false) :
    (s.received .load kindArrive payload).tagCheck .load (arriveReport payload) k =
      match (arriveReport payload).sku with
      | none => (s.received .load kindArrive payload).answerRefuse .load (arriveReport payload) .badRequest
      | some sku => (s.received .load kindArrive payload).loadArrival (arriveReport payload) k (tagField payload 1) sku := by
  have vacant : (s.platen k).state ≠ .occupied := by
    rw [empty]
    decide
  have emptyU : ((s.received .load kindArrive payload).platen k).state = .empty := by
    rw [ring_eq_platen (met_received s .load kindArrive payload).ring]
    exact empty
  refine (load_vacant h vacant).trans ((decisionList_load _ rfl fun pos g live => ?_).trans (loadList_empty emptyU _ _))
  cases known : s.findTag (tagField payload 1) with
  | none =>
    rw [findTag_received_unknown (by decide) known] at live
    cases live
  | some e =>
    obtain ⟨p, x⟩ := e
    rw [findTag_received_known (by decide) known] at live
    cases live
    exact fit _ x known

theorem load_empty_bare (h : s.Presents .load kindArrive payload k) (empty : (s.platen k).state = .empty)
    (fit : ∀ pos g, s.findTag (tagField payload 1) = some (pos, g) → g.spoiled = false ∧ g.unverified = false)
    (word : field payload 7 1 = 0) : (s.received .load kindArrive payload).tagCheck .load (arriveReport payload) k =
      (s.received .load kindArrive payload).answerRefuse .load (arriveReport payload) .badRequest := by
  rw [load_empty h empty fit, arrive_sku_none word]

theorem load_empty_sku (h : s.Presents .load kindArrive payload k) (empty : (s.platen k).state = .empty)
    (fit : ∀ pos g, s.findTag (tagField payload 1) = some (pos, g) → g.spoiled = false ∧ g.unverified = false)
    (word : field payload 7 1 = 1) : (s.received .load kindArrive payload).tagCheck .load (arriveReport payload) k =
      (s.received .load kindArrive payload).loadArrival (arriveReport payload) k (tagField payload 1)
        (field payload 8 1) := by
  rw [load_empty h empty fit, arrive_sku_some word]

theorem freeWay_received (unknown : s.findTag (tagField payload 1) = none) :
    (s.received .load kindArrive payload).freeWay (tagField payload 1) = s.freeWay (tagField payload 1) := by
  unfold State.freeWay
  rw [received_unknown (by decide) unknown]

/-- Settles O45. -/
theorem loadRefusesInOrder : Obligations.LoadRefusesInOrder := by
  unfold Obligations.LoadRefusesInOrder
  intro s payload k tag sku entry cls isActive routed blocked touched passes refuses h
  let u := s.received .load kindArrive payload
  have met : s.Met .load u := met_received s .load kindArrive payload
  have frame : s.sameBut [.garments, .stations] u := sameBut_received s .load kindArrive payload
  have mark : s.touched tag false u := touched_received .load
  refine ⟨fun out => ?_, fun occupied recorded => ?_, fun empty => ⟨fun pos g live flag => ?_, fun fit => ?_⟩⟩
  · refine loadPasses h met mark frame ((load_vacant h (by rw [out]; decide)).trans (decisionList_load_full ?_ _ rfl))
    rw [ring_eq_platen met.ring, out]
    decide
  · obtain ⟨metU, markU, frameU, list⟩ := load_recorded h occupied recorded
    exact loadPasses h metU markU frameU list
  · refine loadPasses h met mark frame ((load_vacant h (by rw [empty]; decide)).trans ?_)
    exact decisionList_load_flagged _ rfl (findTag_received_known (by decide) live) flag
  · have arrival := fun word => load_empty_sku h empty fit word
    have routes : ∀ c, cls = some c → (routed ↔ u.routes c) := fun c isC =>
      ⟨fun all => (routes_received .load kindArrive c).mpr (all c isC), fun r c' isC' => by
        rw [isC] at isC'
        obtain rfl := Option.some.inj isC'
        exact (routes_received .load kindArrive c).mp r⟩
    have named : u.classNamed sku = cls := classNamed_received .load kindArrive sku
    have bars : u.blocks tag ↔ blocked := blocks_received .load kindArrive tag
    have fresh : s.findTag tag = none → u.findTag tag = none := findTag_received_unknown (by decide)
    refine ⟨fun word => ?_, fun word bar => ?_, fun word free live => ?_, fun word free new unclassed => ?_,
      fun word free new classed unrouted => ?_, fun word free new classed routed full => ?_,
      fun word pattern new classed routed room none => ?_⟩
    · exact loadRefuses h (load_empty_bare h empty fit word)
    · exact loadRefuses h ((arrival word).trans (loadArrival_blocked _ _ _ (bars.mpr bar)))
    · refine loadRefuses h ((arrival word).trans (loadArrival_duplicate _ _ _ (fun b => free (bars.mp b)) ?_))
      obtain ⟨⟨pos, g⟩, known⟩ := Option.isSome_iff_exists.mp live
      rw [findTag_received_known (by decide) known]
      rfl
    · exact loadRefuses h ((arrival word).trans (loadArrival_unclassed _ _ _ (fresh new) (fun b => free (bars.mp b))
        (named.trans unclassed)))
    · obtain ⟨c, isC⟩ := Option.isSome_iff_exists.mp classed
      exact loadRefuses h ((arrival word).trans (loadArrival_unrouted _ _ _ (fresh new) (fun b => free (bars.mp b))
        (named.trans isC) fun r => unrouted ((routes c isC).mpr r)))
    · obtain ⟨c, isC⟩ := Option.isSome_iff_exists.mp classed
      exact loadRefuses h ((arrival word).trans (loadArrival_full _ _ _ (fresh new) (fun b => free (bars.mp b))
        (named.trans isC) ((routes c isC).mp routed) ((freeWay_received new).trans full)))
    · obtain ⟨c, isC⟩ := Option.isSome_iff_exists.mp classed
      obtain ⟨e, entry, isCls⟩ := Option.bind_eq_some_iff.mp (named.trans isC)
      obtain ⟨way, isWay⟩ := Option.isSome_iff_exists.mp room
      refine loadRefuses h ((arrival word).trans ((loadArrival_order _ _ _ (fresh new)
        ((patternFor_received ..).trans pattern) entry isCls ((routes c isC).mp routed)
        ((freeWay_received new).trans isWay)).trans ?_))
      rw [candidates_received, none, choose_nil]

end Sys2Proof.Machine
end

section
/-! SUPPORT. A garment learned at LOAD. -/

namespace Sys2Proof.Machine

variable {s t u : State} {payload : List Byte} {k pos : Nat} {g : Garment}

/-! ## Frames, part by part -/

/-- A part of the state is the same in both states. -/
def State.keeps (s t : State) : Area → Prop
  | .garments => t.garments = s.garments
  | .orders => t.orders = s.orders
  | .sched => t.sched = s.sched
  | .refs => t.refs = s.refs
  | .stations => t.stations = s.stations
  | .ring => t.ring = s.ring
  | .meter => t.meter = s.meter
  | .cure => t.cure = s.cure
  | .bins => t.bins = s.bins
  | .limits => t.limits = s.limits
  | .causes => t.port.causes = s.port.causes
  | .settings => t.port.mask = s.port.mask ∧ t.port.resetIndicator = s.port.resetIndicator
  | .transport =>
    t.port.state = s.port.state ∧ t.port.kept = s.port.kept ∧ t.port.reading = s.port.reading ∧ t.shifted = s.shifted
  | .messages => t.sent = s.sent
  | .reads => t.freeReads = s.freeReads

theorem sameBut_iff {changed : List Area} :
    s.sameBut changed t ↔ (∀ a, a ∉ changed → s.keeps t a) ∧ t.pending = s.pending := by
  refine ⟨fun h => ⟨fun a out => ?_, h.queue⟩, fun ⟨keeps, queue⟩ => ?_⟩
  · cases a
    · exact h.garments out
    · exact h.orders out
    · exact h.sched out
    · exact h.refs out
    · exact h.stations out
    · exact h.ring out
    · exact h.meter out
    · exact h.cure out
    · exact h.bins out
    · exact h.limits out
    · exact h.causes out
    · exact h.settings out
    · exact h.transport out
    · exact h.messages out
    · exact h.reads out
  · exact ⟨keeps .garments, keeps .orders, keeps .sched, keeps .refs, keeps .stations, keeps .ring, keeps .meter, keeps .cure,
      keeps .bins, keeps .limits, keeps .causes, keeps .settings, keeps .transport, keeps .messages, keeps .reads, queue⟩

/-- A frame need not list a part that stands. -/
theorem sameBut_narrow {wide changed : List Area} (h : s.sameBut wide t)
    (cover : ∀ a ∈ wide, a ∈ changed ∨ s.keeps t a) : s.sameBut changed t := by
  obtain ⟨keeps, queue⟩ := sameBut_iff.mp h
  refine sameBut_iff.mpr ⟨fun a out => ?_, queue⟩
  by_cases listed : a ∈ wide
  · exact (cover a listed).resolve_left out
  · exact keeps a listed

/-! ## The learning -/

/-- What a learning writes (R6, R9, R101). -/
theorem learn_eq (s : State) (pos k : Nat) (g : Garment) : s.learn pos k g = { s with
    garments := { s.garments with
      records := s.garments.records.put pos g
      loadSeq := min 4294967295 (s.garments.loadSeq + 1) }
    refs := (s.countGarment g up1).refs
    orders := (s.enterLine g.binding).orders
    ring := { s.ring with platens :=
      s.ring.platens.store {} k { s.platen k with state := .occupied, tag := some g.tag } } } := by
  unfold State.learn State.enterLine
  cases g.binding <;> rfl

/-- The state of the checks at LOAD for a tag not yet live: only the link has changed. -/
theorem received_fresh (fresh : s.findTag (tagField payload 1) = none) (l : Link) :
    s.received l kindArrive payload = { s with stations := s.stations.set l (s.station l).heard } := by
  rw [received_eq, received_unknown (by decide) fresh]

/-- The record of a garment learned reads what the receipt of its ARRIVE leaves. -/
theorem newGarment_received (fresh : s.findTag (tagField payload 1) = none) (sched : Scheduler) (tag : Tag) (kind : Kind)
    (sku cls design : Nat) (b : Option Binding) :
    State.newGarment { s.received .load kindArrive payload with sched := sched } k tag kind sku cls design b =
      s.newGarment k tag kind sku cls design b := by
  have met := met_received s .load kindArrive payload
  have rule : (s.received .load kindArrive payload).bridgeRule .a = s.bridgeRule .a := by
    unfold State.bridgeRule State.bridgeLoad State.liveGarments
    simp only [met.isActive, received_unknown (l := .load) (kind := kindArrive) (by decide) fresh]
  have garment : ∀ v : State, v.newGarment k tag kind sku cls design b =
      { s.newGarment k tag kind sku cls design b with
        loadSeq := v.garments.loadSeq, bridge := v.bridgeRule .a, full := v.fullPulses design cls } := fun v => rfl
  rw [garment]
  have bridge : State.bridgeRule { s.received .load kindArrive payload with sched := sched } .a = s.bridgeRule .a := rule
  rw [bridge]
  have full : State.fullPulses { s.received .load kindArrive payload with sched := sched } design cls =
      s.fullPulses design cls := by
    rw [received_fresh fresh]
    rfl
  have seq : s.garments.loadSeq = (s.received .load kindArrive payload).garments.loadSeq := by
    rw [received_unknown (by decide) fresh]
  rw [full]
  show { s.newGarment k tag kind sku cls design b with loadSeq := (s.received .load kindArrive payload).garments.loadSeq } = _
  rw [← seq]
  rfl

/-- A garment learned, with its LOAD verdict, as the end of the change. -/
theorem loadLearns (h : s.Presents .load kindArrive payload k) (fresh : s.findTag (tagField payload 1) = none)
    (sched : Scheduler) (tag : g.tag = tagField payload 1)
    (list : (s.received .load kindArrive payload).tagCheck .load (arriveReport payload) k =
      State.giveLoad { s.received .load kindArrive payload with sched := sched } pos k g) :
    ∃ t, exec (.arrive .load payload) s = .next t ∧
      s.Gives .load { platen := some k, tag := tagField payload 1, verdict := .load, param1 := g.design } t ∧
      t.garments = { s.garments with
        records := s.garments.records.put pos g, loadSeq := min 4294967295 (s.garments.loadSeq + 1) } ∧
      t.refs = (s.countGarment g (· + 1)).refs ∧
      t.ring = { s.ring with platens := s.ring.platens.store {} k ⟨.occupied, some (tagField payload 1), true⟩ } ∧
      t.sched = sched ∧ t.orders = (s.enterLine g.binding).orders ∧
      s.sameBut [.garments, .orders, .sched, .refs, .stations, .ring, .messages] t := by
  let v := State.learn { s.received .load kindArrive payload with sched := sched } pos k g
  have shape : v = { s with
      stations := s.stations.set .load (s.station .load).heard
      sched := sched
      garments := { s.garments with
        records := s.garments.records.put pos g, loadSeq := min 4294967295 (s.garments.loadSeq + 1) }
      refs := (s.countGarment g (· + 1)).refs
      orders := (s.enterLine g.binding).orders
      ring := { s.ring with platens := s.ring.platens.store {} k ⟨.occupied, some (tagField payload 1), true⟩ } } := by
    have writes := learn_eq { s.received .load kindArrive payload with sched := sched } pos k g
    rw [received_fresh fresh] at writes
    have platen : ({ s.platen k with state := .occupied, tag := some g.tag } : Platen) =
        ⟨.occupied, some (tagField payload 1), true⟩ := by
      rw [tag, ← h.held]
    refine (congrArg (fun u : State => State.learn { u with sched := sched } pos k g) (received_fresh fresh .load)).trans ?_
    refine writes.trans ?_
    have orders : (State.enterLine { s with
        stations := s.stations.set .load (s.station .load).heard, sched := sched } g.binding).orders =
        (s.enterLine g.binding).orders := by
      unfold State.enterLine
      cases g.binding <;> rfl
    rw [← platen, ← orders]
    rfl
  have cells : v.orders.freeCells = s.orders.freeCells := by
    rw [shape]
    show (s.enterLine g.binding).orders.freeCells = _
    unfold State.enterLine
    cases g.binding with
    | none => rfl
    | some b => exact (binds_modifyLine s b.slot b.line Line.raiseF fun l => rfl).cells
  have met : State.Met { s with ring := v.ring } .load v :=
    ⟨(congrArg State.stations shape).trans rfl, (congrArg State.sent shape).trans rfl, rfl,
      (congrArg State.limits shape).trans rfl, cells.ge⟩
  let w : OpenVerdict := { platen := some k, tag := tagField payload 1, verdict := .load, param1 := g.design }
  obtain ⟨gives, rest, last⟩ := met.gives (k := k) w
  rw [last] at gives rest
  have given : State.giveLoad { s.received .load kindArrive payload with sched := sched } pos k g = v.give .load w := by
    unfold State.giveLoad
    rw [tag]
  have done : ((v.give .load w).settled .load k).finish s = v.give .load w := by
    have opened : ((v.give .load w).verdictOf .load).isNone = false := by
      unfold State.verdictOf
      rw [gives.station]
      rfl
    have stays : (v.give .load w).settled .load k = v.give .load w := if_neg (by rw [opened]; exact Bool.false_ne_true)
    rw [stays]
    refine finish_of_anyHeld (anyHeld_of_platen (k := k) ?_) ?_ ?_
    · unfold State.platen
      rw [rest.ring (by decide), shape]
      dsimp only
      rw [look_store, if_pos rfl]
    · rw [rest.orders (by decide)]
      exact cells
    · rw [rest.limits (by decide), shape]
  refine ⟨v.give .load w, ?_, { gives with }, ?_, ?_, ?_, ?_, ?_, ?_⟩
  · rw [exec_arrive h, list, given, done]
  · rw [rest.garments (by decide), shape]
  · rw [rest.refs (by decide), shape]
  · rw [rest.ring (by decide), shape]
  · rw [rest.sched (by decide), shape]
  · rw [rest.orders (by decide), shape]
  · refine sameBut_trans (t := v) (a := [.garments, .orders, .sched, .refs, .stations, .ring]) ?_ rest (by decide)
      (by decide)
    rw [shape]
    constructor <;> intros <;> simp_all

/-- Settles O44. -/
theorem loadLearnsTheGarment : Obligations.LoadLearnsTheGarment := by
  unfold Obligations.LoadLearnsTheGarment
  refine ⟨fun s set sku design tables => ?_, ?_⟩
  · intro wants classOf holds credit weight choice
    refine ⟨candidates_nil tables.slots, fun nobody => ?_, fun c slot i o l low want cls first => ?_⟩
    · show s.sched.choose (s.candidates set sku design) = none
      rw [(candidates_nil tables.slots).mpr nobody, choose_nil]
    · subst cls
      exact choose_takes tables.slots low want first
  · intro s payload k pos e c tag sku isActive record learned h empty word fresh entry cls pretreat press print way
    let u := s.received .load kindArrive payload
    have frame : s.sameBut [.garments, .stations] u := sameBut_received s .load kindArrive payload
    have unknown : u.findTag tag = none := findTag_received_unknown (by decide) fresh
    have refs : u.refs = s.refs := frame.refs (by decide)
    have entryU : u.refs.skus.find sku = some e := by
      rw [refs]
      exact entry
    have clsU : u.refs.classes.find e.cls = some c := by
      rw [refs]
      exact cls
    have routes : u.routes c := (routes_received .load kindArrive c).mpr ⟨pretreat, press, print⟩
    have wayU : u.freeWay tag = some pos := (freeWay_received fresh).trans way
    have arrival := load_empty_sku h empty (fun p g live => by rw [fresh] at live; cases live) word
    refine ⟨fun p pattern test => ?_, fun pattern x sched line choice listed => ?_⟩
    · have list := arrival.trans (loadArrival_test _ _ _ unknown ((patternFor_received ..).trans pattern) test entryU clsU
        routes wayU)
      rw [show u.newGarment k tag .test sku e.cls p.design none = s.newGarment k tag .test sku e.cls p.design none from
        newGarment_received fresh u.sched ..] at list
      obtain ⟨t, run, gives, garments, refs, ring, sched, orders, rest⟩ := loadLearns h fresh u.sched rfl list
      refine ⟨t, ⟨run, gives, garments, refs, ring⟩, ?_⟩
      refine sameBut_narrow rest ?_
      have stands : s.keeps t .sched ∧ s.keeps t .orders := ⟨sched.trans (frame.sched (by decide)), orders⟩
      simp [stands]
    · have list := arrival.trans ((loadArrival_order _ _ _ unknown ((patternFor_received ..).trans pattern) entryU clsU
        routes wayU))
      have choiceU : u.sched.choose (u.candidates .all sku none) = some (x, sched) := by
        rw [candidates_received, frame.sched (by decide)]
        exact choice
      have lineU : u.line x.slot x.line = some line := by
        unfold State.line State.order at listed ⊢
        rw [frame.orders (by decide)]
        exact listed
      rw [choiceU] at list
      dsimp only at list
      rw [lineU] at list
      rw [show u.newGarment k tag .order sku e.cls (((some line).map Line.design).getD 0) (some ⟨x.slot, x.line⟩) =
        s.newGarment k tag .order sku e.cls line.design (some ⟨x.slot, x.line⟩) from
        newGarment_received fresh u.sched ..] at list
      obtain ⟨t, run, gives, garments, refs, ring, scheduled, orders, rest⟩ := loadLearns h fresh sched rfl list
      exact ⟨t, ⟨run, gives, garments, refs, ring⟩, scheduled, orders, rest⟩

end Sys2Proof.Machine
end

section
/-! SUPPORT. The checks of a report before the decision lists: the way of an ARRIVE or an EMPTY at a ring station with no
verdict open, and the answer at each check. -/

namespace Sys2Proof.Machine

variable {s t u v : State} {l : Link} {kind : Byte} {payload : List Byte} {k pos : Nat} {g : Garment}

/-! ## The report of a message -/

/-- What an ARRIVE or an EMPTY reports, by its kind. -/
def reportOf (kind : Byte) (payload : List Byte) : Report :=
  if kind = kindArrive then arriveReport payload else emptyReport payload

theorem reportOf_arrive (payload : List Byte) : reportOf kindArrive payload = arriveReport payload := rfl

theorem reportOf_empty (payload : List Byte) : reportOf kindEmpty payload = emptyReport payload := rfl

theorem platen_reportOf (kind : Byte) (payload : List Byte) : (reportOf kind payload).platen = platenOf payload := by
  unfold reportOf
  split <;> rfl

theorem answerTag_reportOf (kind : Byte) (payload : List Byte) :
    answerTag (reportOf kind payload) = if kind = kindArrive then tagField payload 1 else 0#48 := by
  unfold reportOf
  split <;> rfl

/-- The platen byte of an answer repeats that of the report (R83). -/
theorem platenByte_platenOf (platen : platenOf payload = some k) : platenByte (platenOf payload) = payload.headD 0#8 := by
  unfold platenOf at platen ⊢
  cases payload with
  | nil => rfl
  | cons b rest =>
    have byte : field (b :: rest) 0 1 = b.toNat := by
      simp [field, beNat]
    rw [byte] at platen ⊢
    by_cases none : b.toNat = 255
    · simp [none] at platen
    · simp [none, platenByte]

theorem pass_reportOf (platen : platenOf payload = some k) :
    (.verdict (platenByte (reportOf kind payload).platen) (answerTag (reportOf kind payload)) .pass 0 0 : Message) =
      passFor kind payload := by
  rw [platen_reportOf, platenByte_platenOf platen, answerTag_reportOf]
  rfl

theorem length_of_ok (ok : messageOk l kind payload = true) : messageLength kind = some payload.length := by
  unfold messageOk at ok
  rw [Bool.and_eq_true, Bool.and_eq_true, beq_iff_eq] at ok
  exact ok.1.1

/-- A refusal of a report repeats what the message carries (R83). -/
theorem answerRefuse_reportOf (isReport : kind = kindArrive ∨ kind = kindEmpty) (ok : messageOk l kind payload = true)
    (platen : platenOf payload = some k) (code : RefusalCode) : u.answerRefuse l (reportOf kind payload) code =
      u.replyRefuse l code kind (refuseEcho kind payload).1 (refuseEcho kind payload).2 := by
  have length := length_of_ok ok
  unfold State.answerRefuse refuseEcho
  rcases isReport with rfl | rfl
  · rw [if_pos ⟨length, .inl rfl⟩, ← platenByte_platenOf platen]
    rfl
  · rw [if_neg fun h => absurd h.2 (by decide)]
    rfl

/-! ## Answers that leave the holds -/

theorem State.Met.answerPass (h : s.Met l u) (platen : platenOf payload = some k) :
    s.Answers l (s.station l).answered (passFor kind payload) (u.answerPass l (reportOf kind payload)) ∧
      u.sameBut [.stations, .messages] (u.answerPass l (reportOf kind payload)) := by
  have reply : u.answerPass l (reportOf kind payload) = u.replied l (s.station l).answered (passFor kind payload) := by
    unfold State.answerPass
    rw [replyVerdict_eq, h.station, pass_reportOf platen]
    rfl
  rw [reply]
  exact ⟨h.answers _ _, sameBut_replied ..⟩

theorem finish_answer {a : List Area} (h : s.Met l u) (rest : u.sameBut a t) (ring : Area.ring ∉ a)
    (limits : Area.limits ∉ a) (orders : Area.orders ∉ a) : t.finish s = t :=
  finish_of_more ((rest.ring ring).trans h.ring) ((rest.limits limits).trans h.limits)
    (by rw [rest.orders orders]; exact h.cells)

theorem State.Met.answerRefuse (h : s.Met l u) (causes : u.port.causes = s.port.causes)
    (isReport : kind = kindArrive ∨ kind = kindEmpty) (ok : messageOk l kind payload = true)
    (platen : platenOf payload = some k) (code : RefusalCode) :
    s.Refuses l (s.station l).heard code kind (refuseEcho kind payload) (u.answerRefuse l (reportOf kind payload) code) ∧
      u.sameBut [.stations, .causes, .messages] (u.answerRefuse l (reportOf kind payload) code) := by
  rw [answerRefuse_reportOf isReport ok platen]
  exact ⟨refuses_of_reply u h.stations h.sent causes rfl rfl, sameBut_replyRefuse ..⟩

/-! ## The steps of a report -/

section
variable (isReport : kind = kindArrive ∨ kind = kindEmpty) (hears : s.Hears l kind payload) (atRing : l.isRing = true)
  (idle : s.verdictOf l = none) (platen : platenOf payload = some k)
include isReport hears idle

theorem report_run : exec (reportRow kind l payload) s =
    .next (((s.received l kind payload).evaluate l (reportOf kind payload)).finish s) := by
  have none : (s.received l kind payload).verdictOf l = Option.none := ((met_received s l kind payload).verdictOf l).trans idle
  have taken : (s.received l kind payload).takeReport l (reportOf kind payload) =
      (s.received l kind payload).evaluate l (reportOf kind payload) := by
    unfold State.takeReport
    rw [none]
  rw [← taken]
  rcases isReport with rfl | rfl
  · exact congrArg Host.Outcome.next (receive_eq hears _)
  · exact congrArg Host.Outcome.next (receive_eq hears _)

include atRing

theorem report_low (low : (s.station l).working = false) : exec (reportRow kind l payload) s =
    .next (((s.received l kind payload).answerPass l (reportOf kind payload)).finish s) := by
  have mode : ((s.received l kind payload).station l).working = false := by
    unfold Station.working
    rw [(met_received s l kind payload).mode]
    exact low
  rw [report_run isReport hears idle]
  unfold State.evaluate
  rw [if_pos atRing, mode, if_neg Bool.false_ne_true]

theorem report_checked (working : (s.station l).working = true) : exec (reportRow kind l payload) s =
    .next (((s.received l kind payload).ringReport l (reportOf kind payload)).finish s) := by
  have mode : ((s.received l kind payload).station l).working = true := by
    unfold Station.working
    rw [(met_received s l kind payload).mode]
    exact working
  rw [report_run isReport hears idle]
  unfold State.evaluate
  rw [if_pos atRing, mode, if_pos rfl]

include platen

/-- A report that passes the ring's own checks meets the check of its platen (R112, R113). -/
theorem report_platen (working : (s.station l).working = true) (still : s.ring.cycle = .idle)
    (runs : s.ring.state ≠ .halted) (lap : ¬ (s.ring.state = .verifying ∧ l ≠ .load)) :
    exec (reportRow kind l payload) s =
      .next (((s.received l kind payload).platenCheck l (reportOf kind payload) k).finish s) := by
  have ring := (met_received s l kind payload).ring
  rw [report_checked isReport hears atRing idle working]
  refine congrArg (fun u : State => Host.Outcome.next (u.finish s)) ?_
  unfold State.ringReport
  rw [ring, platen_reportOf, platen, if_neg (by rw [still]; decide), if_neg runs, if_neg lap]

/-- On a ring neither HALTED nor VERIFYING a report of the facing platen meets the tag consistency check (R114). -/
theorem report_steady (working : (s.station l).working = true) (still : s.ring.cycle = .idle)
    (runs : s.ring.state ≠ .halted) (noLap : s.ring.state ≠ .verifying) (facing : s.facing l = some k) :
    exec (reportRow kind l payload) s =
      .next ((((s.received l kind payload).tagCheck l (reportOf kind payload) k).settled l k).finish s) := by
  have ring := (met_received s l kind payload).ring
  rw [report_platen isReport hears atRing idle platen working still runs fun h => noLap h.1]
  refine congrArg (fun u : State => Host.Outcome.next (u.finish s)) ?_
  have faces : (s.received l kind payload).facing l = some k := by
    unfold State.facing
    rw [ring]
    exact facing
  have unread : (l == Link.load && (s.received l kind payload).ring.state == .verifying &&
      ((s.received l kind payload).platen k).held) = false := by
    rw [ring, show (s.ring.state == RingState.verifying) = false from beq_eq_false_iff_ne.mpr noLap]
    simp
  unfold State.platenCheck
  rw [ring, if_neg fun h => noLap h.1, if_pos faces]
  unfold State.answerChecked
  rw [unread]
  rfl

end

/-! ## A halt -/

/-- The verdicts of the ring stations withdrawn at a halt (R117). -/
def State.haltUndone (s : State) : State :=
  Link.ring.foldl (State.withdraw .halt) s.stopDrive

theorem halt_eq (runs : s.ring.state ≠ .halted) : s.halt = State.raise { s.haltUndone with
    garments := s.haltUndone.markUnverified.garments
    ring := { s.haltUndone.ring with
      platens := Table.mapStore {} s.haltUndone.ring.platens Platen.unhold
      lapCount := 0, lapSynced := false, state := .halted } } .ringHalted :=
  if_neg runs

theorem halt_spec (runs : s.ring.state ≠ .halted) : s.halt.ring.state = .halted ∧ s.halt.anyHeld = false ∧
    s.halt.pendingCause .ringHalted = true ∧ s.halt.ring.offset = s.ring.offset := by
  have quiet : Quiet s.stopDrive s.haltUndone := Quiet.foldl (fun s l => quiet_withdraw s .halt l) Link.ring s.stopDrive
  have offset := congrArg (fun x : State => x.ring.offset) quiet.fixed
  rw [halt_eq runs]
  exact ⟨rfl, unhold_none _, pendingCause_raise _ _, offset⟩

/-- A change that leaves the ring stopped or halted ends with the ring as it is. -/
theorem ring_finish_off (off : t.ring.state = .stopped ∨ t.ring.state = .halted) : (t.finish s).ring = t.ring := by
  rw [finish_ring]
  unfold State.settleRing
  split
  · rfl
  · rw [ringTest_of_still off]

/-! ## A garment lost at the check -/

/-- The touch of another garment leaves a garment where it is found. -/
theorem findTag_received_other {tag : Tag} (other : tagField payload 1 ≠ tag) (live : s.findTag tag = some (pos, g)) :
    (s.received l kind payload).findTag tag = some (pos, g) := by
  rw [findTag_look] at live ⊢
  by_cases names : namesTag kind = true
  · cases known : s.findTag (tagField payload 1) with
    | none =>
      rw [received_unknown names known]
      exact live
    | some e =>
      obtain ⟨q, x⟩ := e
      obtain ⟨listed, isTag, -⟩ := findTag_some known
      rw [received_known names known]
      refine (lookTag_put_other listed ?_ ?_).trans live
      · rw [isTag]
        exact other
      · show x.tag ≠ tag
        rw [isTag]
        exact other
  · rw [received_unnamed (Bool.eq_false_iff.mpr names)]
    exact live

/-- A touch leaves every garment's binding and kind. -/
theorem unbound_received (test : ∀ x ∈ s.liveGarments, x.binding = none → x.kind = .test) :
    ∀ x ∈ (s.received l kind payload).liveGarments, x.binding = none → x.kind = .test := by
  by_cases names : namesTag kind = true
  · cases known : s.findTag (tagField payload 1) with
    | none =>
      unfold State.liveGarments
      rw [received_unknown names known]
      exact test
    | some e =>
      obtain ⟨q, y⟩ := e
      have listed := (findTag_some known).1
      unfold State.liveGarments
      rw [received_known names known]
      intro x there
      obtain ⟨e, mem, rfl⟩ := List.mem_map.mp there
      rcases mem_put mem with rfl | old
      · exact test y (List.mem_map.mpr ⟨_, mem_of_find listed, rfl⟩)
      · exact test e.2 (List.mem_map.mpr ⟨e, old, rfl⟩)
  · unfold State.liveGarments
    rw [received_unnamed (Bool.eq_false_iff.mpr names)]
    exact test

theorem garmentLost_retire {tag : Tag} (live : s.findTag tag = some (pos, g)) :
    (s.retire .lost tag).pendingCause .garmentLost = true := by
  rw [retire_eq .lost live]
  refine pendingCause_of_grow (quiet_endBinding ..).causes ?_
  unfold State.pendingCause
  rw [gone_port]
  exact pendingCause_raise s .garmentLost

/-- The platen, the record and the cause once the garment of a platen has been retired LOST at its check (R114). -/
structure State.LosesAt (s : State) (k pos : Nat) (g : Garment) (t : State) : Prop where
  gone : t.garments.records.find pos = none
  cause : t.pendingCause .garmentLost = true
  platen : (t.platen k).held = false ∧
    (g.location = .ring k → (t.platen k).state = .empty ∧ (t.platen k).tag = none)
  order : ∀ b o, g.binding = some b → s.order b.slot = some o → o.state ≠ .cancelling →
    (∀ x ∈ s.liveGarments, x.binding = none → x.kind = .test) → t.order b.slot = some (o.less b.line)

/-- The answer that follows, and the end of the change, leave what the loss has done. -/
theorem losesAt_answered {tag : Tag} {w : State} (live : u.findTag tag = some (pos, g)) (idle : u.verdictOf l = none)
    (rest : (u.retire .lost tag).sameBut [.stations, .causes, .messages] w)
    (verdict : w.verdictOf l = (u.retire .lost tag).verdictOf l)
    (grows : CausesGrow (u.retire .lost tag).port.causes w.port.causes) : u.LosesAt k pos g ((w.settled l k).finish s) := by
  have none : w.verdictOf l = Option.none := verdict.trans ((rests_retire u .lost tag).verdict idle)
  have released : w.settled l k = w.setHeld k false := if_pos (by rw [none]; rfl)
  have ends := endsBinding_retire (reason := .lost) (.inr rfl) live
  obtain ⟨served, gives, -⟩ := givesBack_retire u live .lost
  have platen : ((w.settled l k).finish s).platen k =
      { (u.retire .lost tag).platen k with held := false } := by
    have platens : ((w.settled l k).finish s).platen k = (w.setHeld k false).platen k := by
      unfold State.platen
      rw [ring_platens_finish, released]
    rw [platens, platen_setHeld, if_pos rfl, ring_eq_platen (rest.ring (by decide))]
  refine ⟨?_, ?_, ⟨?_, fun here => ?_⟩, fun b o bound listed live' test => ?_⟩
  · rw [finish_garments, released]
    show w.garments.records.find pos = _
    rw [rest.garments (by decide)]
    exact find_retire .lost live
  · refine pendingCause_of_grow (calm_finish ..).grow ?_
    rw [released]
    exact pendingCause_of_grow (t := w) grows (garmentLost_retire live)
  · rw [platen]
  · rw [platen, gives.platens, if_pos here, if_pos here]
    exact ⟨rfl, rfl⟩
  · obtain ⟨o', now, -, -, orphans, -⟩ := ends.offered b o bound listed live'
    obtain ⟨less, -⟩ := orphans test
    have same : ((w.settled l k).finish s).order b.slot = (u.retire .lost tag).order b.slot := by
      unfold State.order
      rw [finish_orders, released]
      show w.orders.slots.find b.slot = _
      rw [rest.orders (by decide)]
    rw [same, now, less]

/-- A report that does not name the garment of its OCCUPIED platen. -/
theorem tagCheck_lost (isReport : kind = kindArrive ∨ kind = kindEmpty) (occupied : (u.platen k).state = .occupied)
    {tag : Tag} (recorded : (u.platen k).tag = some tag) (other : kind = kindArrive → tagField payload 1 ≠ tag) :
    u.tagCheck l (reportOf kind payload) k = if kind = kindArrive
      then (u.retire .lost tag).answerRefuse l (reportOf kind payload) .notHere
      else (u.retire .lost tag).answerPass l (reportOf kind payload) := by
  have loses : u.loseRecorded k = u.retire .lost tag := by
    unfold State.loseRecorded
    rw [recorded]
  unfold State.tagCheck
  rcases isReport with rfl | rfl
  · refine (if_pos occupied).trans ((if_neg ?_).trans ?_)
    · rw [recorded]
      exact fun same => other rfl (Option.some.inj same).symm
    · rw [loses]
      rfl
  · refine (if_pos occupied).trans ?_
    rw [loses]
    rfl

theorem verdictOf_eq {x : Station} (station : t.station l = x) : t.verdictOf l = x.verdict :=
  congrArg Station.verdict station

/-- What is answered where the garment of the platen has been lost (R114). -/
def lossAnswer (kind : Byte) (payload : List Byte) : Message :=
  if kind = kindArrive then .refuse .notHere kind (refuseEcho kind payload).1 (refuseEcho kind payload).2
  else passFor kind payload

theorem lost_answer (isReport : kind = kindArrive ∨ kind = kindEmpty) (ok : messageOk l kind payload = true)
    (platen : platenOf payload = some k) (v : State) :
    let w := if kind = kindArrive then v.answerRefuse l (reportOf kind payload) .notHere
      else v.answerPass l (reportOf kind payload)
    v.sameBut [.stations, .causes, .messages] w ∧ w.verdictOf l = v.verdictOf l ∧
      CausesGrow v.port.causes w.port.causes ∧ w.sent = v.sent ++ [⟨l, lossAnswer kind payload⟩] := by
  have echo := answerRefuse_reportOf (u := v) isReport ok platen .notHere
  rcases isReport with rfl | rfl
  · have frame := sameBut_replyRefuse v l .notHere kindArrive (refuseEcho kindArrive payload).1
      (refuseEcho kindArrive payload).2
    have refused := refuses_of_reply (s := v) (kind := kindArrive) (code := .notHere) (p := (refuseEcho kindArrive payload).1)
      (tag := (refuseEcho kindArrive payload).2) v (set_station v l).symm rfl rfl rfl rfl
    have grows := (quiet_replyRefuse v l .notHere kindArrive (refuseEcho kindArrive payload).1
      (refuseEcho kindArrive payload).2).causes
    rw [← echo] at frame refused grows
    exact ⟨frame, (verdictOf_eq refused.station).trans rfl, grows, refused.reply⟩
  · have reply : v.answerPass l (reportOf kindEmpty payload) =
        v.replied l { v.station l with refusalSeen := false } (passFor kindEmpty payload) := by
      unfold State.answerPass
      rw [replyVerdict_eq, pass_reportOf platen]
    have verdict : (v.answerPass l (reportOf kindEmpty payload)).verdictOf l = v.verdictOf l := by
      rw [reply]
      exact (verdictOf_eq (station_replied v l { v.station l with refusalSeen := false } (passFor kindEmpty payload))).trans rfl
    refine ⟨?_, verdict, ?_, ?_⟩
    · show v.sameBut _ (v.answerPass l (reportOf kindEmpty payload))
      rw [reply]
      exact sameBut_widen (sameBut_replied ..) (by decide)
    · exact .refl _
    · show (v.answerPass l (reportOf kindEmpty payload)).sent = _
      rw [reply]
      rfl

/-! ## A consistent report -/

/-- The state in which a consistent report is answered: LOAD's report of a platen's own garment has verified it (R114). -/
def State.verified (u : State) (l : Link) (k : Nat) (tag : Tag) : State :=
  if l = .load ∧ (u.platen k).state = .occupied then u.modifyGarment tag fun g => { g with unverified := false } else u

/-- A report consistent with the record of its platen (R114, R115). -/
def State.fits (s : State) (l : Link) (kind : Byte) (payload : List Byte) (k : Nat) : Prop :=
  (kind = kindEmpty ∧ (s.platen k).state ≠ .occupied) ∨
    (kind = kindArrive ∧ (s.platen k).state = .occupied ∧ (s.platen k).tag = some (tagField payload 1)) ∨
    (kind = kindArrive ∧ (s.platen k).state ≠ .occupied ∧ l = .load)

/-- What the record of an ARRIVE's tag becomes at a consistent report. -/
def Garment.reported (g : Garment) (verified : Bool) : Garment :=
  { g with age := 0, unverified := g.unverified && !verified }

/-- Where no list is asked, a consistent report is answered PASS (R115). -/
theorem tagCheck_plain (fits : u.fits l kind payload k)
    (plain : ∀ v : State, v.stations = u.stations → v.ring = u.ring →
      v.consistent l (reportOf kind payload) k = v.answerPass l (reportOf kind payload)) :
    u.tagCheck l (reportOf kind payload) k =
      (if kind = kindArrive then u.verified l k (tagField payload 1) else u).answerPass l (reportOf kind payload) := by
  have edits : (u.modifyGarment (tagField payload 1) fun g => { g with unverified := false }).stations = u.stations ∧
      (u.modifyGarment (tagField payload 1) fun g => { g with unverified := false }).ring = u.ring := by
    unfold State.modifyGarment
    split <;> exact ⟨rfl, rfl⟩
  unfold State.tagCheck State.verified
  rcases fits with ⟨rfl, vacant⟩ | ⟨rfl, occupied, recorded⟩ | ⟨rfl, vacant, rfl⟩
  · exact (if_neg vacant).trans (plain u rfl rfl)
  · refine (if_pos occupied).trans ((if_pos recorded).trans ?_)
    rw [if_pos rfl]
    by_cases load : l = .load
    · rw [if_pos load, if_pos ⟨load, occupied⟩]
      exact plain _ edits.1 edits.2
    · rw [if_neg load, if_neg fun h => load h.1]
      exact plain u rfl rfl
  · refine (if_neg vacant).trans ((if_pos rfl).trans ?_)
    rw [if_pos rfl, if_neg fun h => vacant h.2]
    exact plain u rfl rfl

/-- The state of a consistent report, before its answer. -/
def State.reportedAs (s : State) (l : Link) (kind : Byte) (payload : List Byte) (k : Nat) : State :=
  if kind = kindArrive then (s.received l kind payload).verified l k (tagField payload 1) else s.received l kind payload

theorem reportedAs_spec (isReport : kind = kindArrive ∨ kind = kindEmpty) :
    s.Met l (s.reportedAs l kind payload k) ∧ s.sameBut [.garments, .stations] (s.reportedAs l kind payload k) ∧
      (kind = kindEmpty → (s.reportedAs l kind payload k).garments = s.garments) ∧
      (kind = kindArrive → s.findTag (tagField payload 1) = none → (s.reportedAs l kind payload k).garments = s.garments) ∧
      ∀ pos g, kind = kindArrive → s.findTag (tagField payload 1) = some (pos, g) →
        s.recordIs pos (g.reported (decide (l = .load ∧ (s.platen k).state = .occupied)))
          (s.reportedAs l kind payload k) := by
  have met := met_received s l kind payload
  have frame := sameBut_received s l kind payload
  have platen := ring_eq_platen met.ring k
  rcases isReport with rfl | rfl
  · have whole : s.reportedAs l kindArrive payload k =
        (s.received l kindArrive payload).verified l k (tagField payload 1) := if_pos rfl
    rw [whole]
    unfold State.verified
    rw [platen]
    by_cases here : l = .load ∧ (s.platen k).state = .occupied
    · rw [if_pos here]
      have shape : ∃ G : GarmentBlock, (s.received l kindArrive payload).modifyGarment (tagField payload 1)
          (fun g => { g with unverified := false }) = { s.received l kindArrive payload with garments := G } := by
        unfold State.modifyGarment
        split <;> exact ⟨_, rfl⟩
      refine ⟨?_, ?_, fun empty => absurd empty (by decide), fun _ unknown => ?_, fun pos g _ live => ?_⟩
      · obtain ⟨G, shape⟩ := shape
        rw [shape]
        exact { met with }
      · obtain ⟨G, shape⟩ := shape
        rw [shape]
        exact { frame with garments := fun m => absurd (by simp) m }
      · rw [modifyGarment_none (findTag_received_unknown (by decide) unknown)]
        exact received_unknown (by decide) unknown
      · rw [modifyGarment_some (findTag_received_known (by decide) live)]
        unfold Garment.reported
        rw [decide_eq_true here, Bool.not_true, Bool.and_false]
        exact recordIs_putRecord (x := { g with age := 0 }) (received_known (by decide) live) _
    · rw [if_neg here]
      refine ⟨met, frame, fun empty => absurd empty (by decide), fun _ unknown => received_unknown (by decide) unknown,
        fun pos g _ live => ?_⟩
      unfold Garment.reported
      rw [decide_eq_false here, Bool.not_false, Bool.and_true]
      exact received_known (by decide) live
  · have whole : s.reportedAs l kindEmpty payload k = s.received l kindEmpty payload := if_neg (by decide)
    rw [whole]
    exact ⟨met, frame, fun _ => received_unnamed (by decide), fun h => absurd h (by decide),
      fun _ _ h => absurd h (by decide)⟩

/-! ## The checks in order -/

theorem working_iff (x : Station) : x.working = true ↔ x.mode = .check ∨ x.mode = .active := by
  simp [Station.working]

theorem findTag_received_lost {tag : Tag} (isReport : kind = kindArrive ∨ kind = kindEmpty)
    (other : kind = kindArrive → tagField payload 1 ≠ tag) (live : s.findTag tag = some (pos, g)) :
    (s.received l kind payload).findTag tag = some (pos, g) := by
  rcases isReport with rfl | rfl
  · exact findTag_received_other (other rfl) live
  · rw [findTag_look, received_unnamed (by decide)]
    exact live

theorem refuseEcho_arrive (ok : messageOk l kindArrive payload = true) (platen : platenOf payload = some k) :
    refuseEcho kindArrive payload = (platenByte (arriveReport payload).platen, tagField payload 1) := by
  unfold refuseEcho
  rw [if_pos ⟨length_of_ok ok, .inl rfl⟩, ← platenByte_platenOf platen]
  rfl

section
variable (hears : s.Hears l kind payload) (atRing : l.isRing = true)
  (idle : s.verdictOf l = none) (platen : platenOf payload = some k) (working : (s.station l).working = true)
  (still : s.ring.cycle = .idle) (runs : s.ring.state ≠ .halted) (noLap : s.ring.state ≠ .verifying)
  (facing : s.facing l = some k)
include hears atRing idle platen working still runs noLap facing

/-- A garment that a report of its platen does not name is lost (R114). -/
theorem report_loses (isReport : kind = kindArrive ∨ kind = kindEmpty) (occupied : (s.platen k).state = .occupied)
    {tag : Tag} (recorded : (s.platen k).tag = some tag) (other : kind = kindArrive → tagField payload 1 ≠ tag)
    (live : s.findTag tag = some (pos, g)) : ∃ t, exec (reportRow kind l payload) s = .next t ∧ s.LosesAt k pos g t ∧
      ∃ before, t.sent = before ++ [⟨l, lossAnswer kind payload⟩] := by
  let u := s.received l kind payload
  have met : s.Met l u := met_received s l kind payload
  have orders : u.orders = s.orders := (sameBut_received s l kind payload).orders (by decide)
  have platenU := ring_eq_platen met.ring k
  have liveU : u.findTag tag = some (pos, g) := findTag_received_lost isReport other live
  have check := tagCheck_lost (u := u) (l := l) (k := k) isReport (platenU ▸ occupied) (platenU ▸ recorded) other
  obtain ⟨rest, verdict, grows, sent⟩ := lost_answer (l := l) isReport hears.ok platen (u.retire .lost tag)
  rw [← check] at rest verdict grows sent
  have loses := losesAt_answered (s := s) (k := k) liveU ((met.verdictOf l).trans idle) rest verdict grows
  refine ⟨_, report_steady isReport hears atRing idle platen working still runs noLap facing,
    ⟨loses.gone, loses.cause, loses.platen, fun b o bound listed open_ test => ?_⟩,
    (u.retire .lost tag).sent, ?_⟩
  · refine loses.order b o bound ?_ open_ (unbound_received test)
    unfold State.order at listed ⊢
    rw [orders]
    exact listed
  · rw [finish_sent]
    refine Eq.trans ?_ sent
    unfold State.settled
    split <;> rfl

/-- A garment reported on a platen not OCCUPIED, but at LOAD (R114). -/
theorem report_refused (vacant : (s.platen k).state ≠ .occupied) (arrives : kind = kindArrive) (away : l ≠ .load) :
    ∃ t, exec (reportRow kind l payload) s = .next t ∧
      s.Refuses l (s.station l).heard .notHere kind (refuseEcho kind payload) t ∧
      t.ring = s.ringReleased (some k) ∧ s.sameBut [.garments, .stations, .ring, .causes, .messages] t := by
  subst arrives
  have met := met_received s l kindArrive payload
  have frame := sameBut_received s l kindArrive payload
  have check : (s.received l kindArrive payload).tagCheck l (reportOf kindArrive payload) k =
      (s.received l kindArrive payload).answerRefuse l (arriveReport payload) .notHere := by
    unfold State.tagCheck
    rw [ring_eq_platen met.ring]
    exact (if_neg vacant).trans (if_neg away)
  obtain ⟨refuses, ring, rest⟩ := met.refuses (k := k) (tag := tagField payload 1) idle (frame.causes (by decide))
    (r := arriveReport payload) rfl .notHere
  rw [← refuseEcho_arrive hears.ok platen] at refuses
  refine ⟨_, (report_steady (.inl rfl) hears atRing idle platen working still runs noLap facing).trans ?_, refuses, ring,
    sameBut_trans frame rest (by decide) (by decide)⟩
  rw [check]

/-- A consistent report that no list is asked about (R115). -/
theorem report_passes (isReport : kind = kindArrive ∨ kind = kindEmpty) (fits : s.fits l kind payload k)
    (low : (s.station l).mode = .check ∨ s.ring.state = .stopped ∨ (s.platen k).held = false) :
    ∃ t, exec (reportRow kind l payload) s = .next t ∧ s.Answers l (s.station l).answered (passFor kind payload) t ∧
      t.ring = s.ringReleased (some k) ∧ (kind = kindEmpty → t.garments = s.garments) ∧
      (∀ pos g, kind = kindArrive → s.findTag (tagField payload 1) = some (pos, g) →
        s.recordIs pos (g.reported (decide (l = .load ∧ (s.platen k).state = .occupied))) t) ∧
      s.sameBut [.garments, .stations, .ring, .messages] t := by
  have met := met_received s l kind payload
  have platenU := ring_eq_platen met.ring k
  obtain ⟨metV, frame, empties, -, records⟩ := reportedAs_spec (s := s) (l := l) (payload := payload) (k := k) isReport
  have plain : ∀ v : State, v.stations = (s.received l kind payload).stations → v.ring = (s.received l kind payload).ring →
      v.consistent l (reportOf kind payload) k = v.answerPass l (reportOf kind payload) := by
    intro v stations ring
    refine if_neg ?_
    rintro ⟨active, turning, held⟩
    rw [isActive_iff] at active
    unfold State.station at active
    rw [stations] at active
    have mode : (s.station l).mode = .active := (met.mode l).symm.trans active
    rw [ring, met.ring] at turning
    rw [ring_eq_platen (ring.trans met.ring)] at held
    rcases low with check | stopped | free
    · rw [check] at mode
      cases mode
    · rw [stopped] at turning
      simp at turning
    · rw [free] at held
      cases held
  have check : (s.received l kind payload).tagCheck l (reportOf kind payload) k =
      (s.reportedAs l kind payload k).answerPass l (reportOf kind payload) := by
    have fitsU : (s.received l kind payload).fits l kind payload k := by
      unfold State.fits
      rw [platenU]
      exact fits
    exact tagCheck_plain fitsU plain
  obtain ⟨answers, ring, rest⟩ := metV.passes (k := k) idle (reportOf kind payload)
  rw [pass_reportOf platen] at answers
  have garments := rest.garments (by decide)
  refine ⟨_, (report_steady isReport hears atRing idle platen working still runs noLap facing).trans ?_, answers, ring,
    fun empty => garments.trans (empties empty), fun pos g arrives live => garments.trans (records pos g arrives live),
    sameBut_trans frame rest (by decide) (by decide)⟩
  rw [check]

end

/-- Settles O43. -/
theorem reportsAreCheckedBeforeTheLists : Obligations.ReportsAreCheckedBeforeTheLists := by
  unfold Obligations.ReportsAreCheckedBeforeTheLists
  intro s l kind payload k isReport hears atRing idle platen done named working passes refuses steady
  let u := s.received l kind payload
  have met : s.Met l u := met_received s l kind payload
  have frame : s.sameBut [.garments, .stations] u := sameBut_received s l kind payload
  have works : working → (s.station l).working = true := (working_iff _).mpr
  have pass : ∀ run : done = .next ((u.answerPass l (reportOf kind payload)).finish s), passes := fun run => by
    obtain ⟨answers, rest⟩ := met.answerPass (kind := kind) platen
    rw [finish_answer met rest (by decide) (by decide) (by decide)] at run
    exact ⟨_, run, answers, sameBut_trans frame rest (by decide) (by decide)⟩
  have refuse : ∀ code, done = .next ((u.answerRefuse l (reportOf kind payload) code).finish s) → refuses code :=
    fun code run => by
      obtain ⟨answers, rest⟩ := met.answerRefuse (frame.causes (by decide)) isReport hears.ok platen code
      rw [finish_answer met rest (by decide) (by decide) (by decide)] at run
      exact ⟨_, run, answers, sameBut_trans frame rest (by decide) (by decide)⟩
  refine ⟨fun low => ?_, fun work moving => ?_, fun work still halted => ?_, fun work still lap away => ?_,
    fun work still reads astray => ?_, ?_, ?_, ?_⟩
  · exact pass (report_low isReport hears atRing idle (Bool.eq_false_iff.mpr fun h => low ((working_iff _).mp h)))
  · refine refuse _ ((report_checked isReport hears atRing idle (works work)).trans ?_)
    refine congrArg (fun v : State => Host.Outcome.next (v.finish s)) (if_pos ?_)
    rw [met.ring]
    exact moving
  · refine refuse _ ((report_checked isReport hears atRing idle (works work)).trans ?_)
    refine congrArg (fun v : State => Host.Outcome.next (v.finish s)) ((if_neg ?_).trans (if_pos ?_)) <;> rw [met.ring]
    · rw [still]
      decide
    · exact halted
  · refine pass ((report_checked isReport hears atRing idle (works work)).trans ?_)
    refine congrArg (fun v : State => Host.Outcome.next (v.finish s)) ((if_neg ?_).trans ((if_neg ?_).trans (if_pos ?_))) <;>
      rw [met.ring]
    · rw [still]
      decide
    · rw [lap]
      decide
    · exact ⟨lap, away⟩
  · have runs : s.ring.state ≠ .halted := by
      rcases reads with steady | lap
      · exact steady.1
      · rw [lap.1]
        decide
    have goes : ¬ (s.ring.state = .verifying ∧ l ≠ .load) := by
      rintro ⟨lap, away⟩
      rcases reads with steady | h
      · exact steady.2 lap
      · exact away h.2.1
    have halts : u.platenCheck l (reportOf kind payload) k = u.halt.answerRefuse l (reportOf kind payload) .notHere := by
      unfold State.platenCheck State.facing
      rw [met.ring, if_neg ?_, if_neg (show ¬ (Option.map _ (s.ring.positions.of l)) = some k from astray)]
      rintro ⟨lap, unsynced⟩
      rcases reads with steady | h
      · exact steady.2 lap
      · rw [h.2.2] at unsynced
        cases unsynced
    obtain ⟨state, free, cause, offset⟩ := halt_spec (s := u) (by rw [met.ring]; exact runs)
    rw [answerRefuse_reportOf isReport hears.ok platen] at halts
    have rest := sameBut_replyRefuse u.halt l .notHere kind (refuseEcho kind payload).1 (refuseEcho kind payload).2
    have grows := (quiet_replyRefuse u.halt l .notHere kind (refuseEcho kind payload).1 (refuseEcho kind payload).2).causes
    have sent := (refuses_of_reply (s := u.halt) (l := l) (kind := kind) (code := .notHere)
      (p := (refuseEcho kind payload).1) (tag := (refuseEcho kind payload).2) u.halt (set_station u.halt l).symm rfl rfl rfl
      rfl).reply
    generalize u.halt.replyRefuse l .notHere kind (refuseEcho kind payload).1 (refuseEcho kind payload).2 = w at *
    have ring : w.ring = u.halt.ring := rest.ring (by decide)
    have last : (w.finish s).ring = w.ring := ring_finish_off (.inr (ring ▸ state))
    refine ⟨w.finish s, (report_platen isReport hears atRing idle platen (works work) still runs goes).trans ?_, ?_⟩
    · exact congrArg (fun v : State => Host.Outcome.next (v.finish s)) halts
    · refine ⟨?_, ?_, ?_, ?_, ?_⟩
      · rw [last, ring, state]
      · unfold State.anyHeld at free ⊢
        rw [last, ring, free]
      · exact pendingCause_of_grow (calm_finish ..).grow (pendingCause_of_grow grows cause)
      · rw [last, ring, offset, met.ring]
      · rw [finish_sent, sent, List.getLast?_concat]
  · intro work still steady facing occupied tag pos g recorded other live
    obtain ⟨t, run, loses, before, sent⟩ := report_loses hears atRing idle platen (works work) still steady.1 steady.2
      facing isReport occupied recorded other live
    exact ⟨t, run, loses.gone, loses.cause, loses.platen.1, loses.platen.2, loses.order, by
      rw [sent, List.getLast?_concat]
      rfl⟩
  · intro work still steady facing vacant arrives away
    exact report_refused hears atRing idle platen (works work) still steady.1 steady.2 facing vacant arrives away
  · intro work still steady facing fits low
    exact report_passes hears atRing idle platen (works work) still steady.1 steady.2 facing isReport fits low

end Sys2Proof.Machine
end

section
/-! SUPPORT. The verify lap: its first report, which fixes the offset, the count of its readings, and its end. -/

namespace Sys2Proof.Machine

variable {s t u v x z : State} {kind : Byte} {payload : List Byte} {k pos : Nat} {g : Garment}

/-! ## The count of a reading -/

/-- The ring stations that a completed lap holds for (R119). -/
def lapStations : List Link := [.pretreat, .press, .printA, .printB, .unload]

/-- A reading counted with the ring's other registers as they are. -/
theorem countLap_eq (x : State) : x.countLap = { x with ring := { x.ring with
    lapCount := x.ring.lapCount + 1
    state := x.countLap.ring.state
    platens := x.countLap.ring.platens } } := by
  unfold State.countLap State.endLap
  dsimp only
  split
  · rw [foldl_holdIfWorking_eq]
  · rfl

theorem countLap_early (early : x.ring.lapCount < 23) :
    x.countLap = { x with ring := { x.ring with lapCount := x.ring.lapCount + 1 } } :=
  if_neg (by omega)

theorem countLap_last (last : 23 ≤ x.ring.lapCount) : x.countLap = lapStations.foldl State.holdIfWorking
    { x with ring := { x.ring with lapCount := x.ring.lapCount + 1, state := .running } } :=
  if_pos (by omega)

/-- A reading changes no platen's state or tag. -/
theorem platen_countLap (x : State) (j : Nat) : (x.countLap.platen j).state = (x.platen j).state ∧
    (x.countLap.platen j).tag = (x.platen j).tag := by
  rcases Nat.lt_or_ge x.ring.lapCount 23 with early | last
  · rw [countLap_early early]
    exact ⟨rfl, rfl⟩
  · rw [countLap_last last]
    let y : State := { x with ring := { x.ring with lapCount := x.ring.lapCount + 1, state := .running } }
    obtain ⟨watched, rest⟩ := platen_foldl_holdIfWorking lapStations y j
    by_cases h : y.watchedBy lapStations j
    · rw [watched h]
      exact ⟨rfl, rfl⟩
    · rw [rest h]
      exact ⟨rfl, rfl⟩

theorem state_countLap (x : State) : x.countLap.ring.state = .running ∨ x.countLap.ring.state = x.ring.state := by
  rcases Nat.lt_or_ge x.ring.lapCount 23 with early | last
  · rw [countLap_early early]
    exact .inr rfl
  · rw [countLap_last last, foldl_holdIfWorking_eq]
    exact .inl rfl

/-- The end of a change on a ring that is not STOPPING can only start an index. -/
theorem ring_finish_turning (turning : t.ring.state ≠ .stopping) : (t.finish s).ring =
    { t.ring with cycle := (t.finish s).ring.cycle, moveTimer := (t.finish s).ring.moveTimer } := by
  rw [finish_ring]
  unfold State.settleRing State.ringTest
  split
  · rfl
  · split
    · split
      · rename_i stopping
        exact absurd stopping turning
      · rfl
      · rfl
      · rfl
      · rfl
    · rfl

/-! ## What a counted reading leaves -/

/-- The ring of a lap state once a report of a platen has been answered and its hold released. -/
structure State.LapRead (z : State) (k : Nat) (x : State) : Prop where
  ring : x.ring = { z.ring with platens := x.ring.platens }
  modes : ∀ n, (x.station n).mode = (z.station n).mode
  free : (x.platen k).held = false

/-- The end of a counted reading (R119). -/
structure State.LapCounted (z : State) (k : Nat) (t : State) : Prop where
  count : t.ring.lapCount = z.ring.lapCount + 1
  positions : t.ring.positions = z.ring.positions
  offset : t.ring.offset = z.ring.offset
  synced : t.ring.lapSynced = z.ring.lapSynced
  early : z.ring.lapCount < 23 → t.ring.state = .verifying ∧ (t.platen k).held = false
  last : 23 ≤ z.ring.lapCount → t.ring.state = .running ∧ ∀ l ∈ lapStations, ∀ j,
    (z.station l).working = true → t.facing l = some j → (t.platen j).held = true

theorem lapCounted_finish (verifying : z.ring.state = .verifying) (read : z.LapRead k x) :
    z.LapCounted k (x.countLap.finish s) := by
  have whole := countLap_eq x
  have turning : x.countLap.ring.state ≠ .stopping := by
    rcases state_countLap x with running | same
    · rw [running]
      decide
    · rw [same, read.ring]
      show z.ring.state ≠ _
      rw [verifying]
      decide
  have ring := ring_finish_turning (s := s) turning
  have count : x.ring.lapCount = z.ring.lapCount := by rw [read.ring]
  have platen : ∀ j, (x.countLap.finish s).platen j = x.countLap.platen j := fun j => by
    unfold State.platen
    rw [ring]
  refine ⟨?_, ?_, ?_, ?_, fun early => ?_, fun last => ?_⟩
  · rw [ring, whole]
    show x.ring.lapCount + 1 = _
    rw [count]
  · rw [ring, whole]
    show x.ring.positions = _
    rw [read.ring]
  · rw [ring, whole]
    show x.ring.offset = _
    rw [read.ring]
  · rw [ring, whole]
    show x.ring.lapSynced = _
    rw [read.ring]
  · have here := countLap_early (x := x) (by omega)
    rw [platen, ring]
    dsimp only
    rw [here]
    refine ⟨?_, read.free⟩
    show x.ring.state = _
    rw [read.ring]
    exact verifying
  · have here := countLap_last (x := x) (by omega)
    let y : State := { x with ring := { x.ring with lapCount := x.ring.lapCount + 1, state := .running } }
    have shape := foldl_holdIfWorking_eq lapStations y
    refine ⟨?_, fun l listed j working facing => ?_⟩
    · rw [ring]
      show x.countLap.ring.state = _
      rw [here, shape]
    · have watched : y.watchedBy lapStations j := by
        refine ⟨l, listed, ?_, ?_⟩
        · show (x.station l).working = true
          unfold Station.working at working ⊢
          rw [read.modes]
          exact working
        · refine Eq.trans ?_ facing
          unfold State.facing
          rw [ring]
          dsimp only
          rw [here, shape]
      rw [platen, here, (platen_foldl_holdIfWorking lapStations y j).1 watched]

/-! ## The first report of the lap -/

theorem facingPlaten_facingPlaten {p k : Nat} (low : k ≤ 23) : facingPlaten p (facingPlaten p k) = k := by
  unfold facingPlaten
  omega

/-- The state in which a LOAD report of the lap is checked: the first one has fixed the offset and brought the hold to its
platen (R118). -/
def State.lapBase (s : State) (k : Nat) : State :=
  if s.ring.lapSynced = false then s.resync k else s

/-- The lap synchronised on a platen. -/
structure State.Synced (s : State) (k : Nat) (z : State) : Prop where
  ring : z = { s with ring := { s.ring with
    platens := z.ring.platens, offset := z.ring.offset, lapSynced := z.ring.lapSynced } }
  platens : ∀ j, (z.platen j).state = (s.platen j).state ∧ (z.platen j).tag = (s.platen j).tag
  held : (z.platen k).held = true
  facing : z.facing .load = some k
  synced : z.ring.lapSynced = true
  offset : s.ring.lapSynced = false → z.ring.offset ≤ 23
  stays : s.ring.lapSynced = true → z.ring.offset = s.ring.offset

theorem facing_load (s : State) : s.facing .load = some (facingPlaten s.ring.positions.load s.ring.offset) := rfl

theorem synced_lapBase (low : k ≤ 23) (held : ∀ j, s.facing .load = some j → (s.platen j).held = true)
    (reads : s.ring.lapSynced = false ∨ s.facing .load = some k) : s.Synced k (s.lapBase k) := by
  unfold State.lapBase
  by_cases unsynced : s.ring.lapSynced = false
  · rw [if_pos unsynced]
    let old := facingPlaten s.ring.positions.load s.ring.offset
    have oldHeld : (s.platen old).held = true := held old rfl
    let y := if old = k then s else (s.setHeld old false).setHeld k true
    have first : s.resync k = { y with ring := { y.ring with
        offset := facingPlaten y.ring.positions.load k, lapSynced := true } } := by
      unfold State.resync
      rw [facing_load]
      dsimp only [y]
      unfold State.moveHold
      rw [oldHeld, if_pos rfl]
    have shape : y = { s with ring := { s.ring with platens := y.ring.platens } } := by
      dsimp only [y]
      split <;> rfl
    have platens : ∀ j, (y.platen j).state = (s.platen j).state ∧ (y.platen j).tag = (s.platen j).tag := by
      intro j
      dsimp only [y]
      split
      · exact ⟨rfl, rfl⟩
      · rw [platen_setHeld_eq, platen_setHeld_eq]
        exact ⟨rfl, rfl⟩
    have heldHere : (y.platen k).held = true := by
      dsimp only [y]
      split
      · rename_i same
        rw [← same]
        exact oldHeld
      · rw [platen_setHeld, if_pos rfl]
    rw [first]
    refine ⟨?_, platens, heldHere, ?_, rfl, fun _ => ?_, fun synced => ?_⟩
    · rw [shape]
    · rw [facing_load]
      exact congrArg some (facingPlaten_facingPlaten low)
    · exact Nat.le_of_lt_succ (Nat.mod_lt _ (by decide))
    · rw [unsynced] at synced
      cases synced
  · have synced : s.ring.lapSynced = true := Bool.not_eq_false _ ▸ unsynced
    have facing := reads.resolve_left unsynced
    rw [if_neg unsynced]
    exact ⟨rfl, fun j => ⟨rfl, rfl⟩, held k facing, facing, synced, fun h => absurd h unsynced, fun _ => rfl⟩

/-! ## The way of a reading -/

theorem ring_resync (ring : u.ring = s.ring) (k : Nat) : (u.resync k).ring = (s.resync k).ring := by
  have hold : ∀ a, (u.moveHold a k).ring = (s.moveHold a k).ring := fun a => by
    unfold State.moveHold
    rw [ring_eq_platen ring]
    split
    · unfold State.setHeld State.modifyPlaten State.platen
      simp only [ring]
    · exact ring
  unfold State.resync
  rw [facing_load, facing_load, ring]
  dsimp only
  split
  · simp only [ring]
  · simp only [hold]

theorem lapBase_eq (s : State) (k : Nat) : s.lapBase k = { s with ring := (s.lapBase k).ring } := by
  unfold State.lapBase
  split
  · unfold State.resync State.moveHold
    split
    · split
      · rfl
      · split <;> rfl
    · rfl
  · rfl

/-- The receipt of a message reads the garments alone. -/
theorem garments_received_congr {l : Link} (garments : t.garments = s.garments) :
    (t.received l kind payload).garments = (s.received l kind payload).garments := by
  by_cases names : namesTag kind = true
  · have found : t.findTag (tagField payload 1) = s.findTag (tagField payload 1) := by
      rw [findTag_look, findTag_look, garments]
    cases live : s.findTag (tagField payload 1) with
    | none => rw [received_unknown names live, received_unknown names (found.trans live), garments]
    | some e => rw [received_known names live, received_known names (found.trans live), garments]
  · have unnamed := Bool.eq_false_iff.mpr names
    rw [received_unnamed unnamed, received_unnamed unnamed, garments]

/-- The receipt of a message and the synchronisation reach different parts of the state. -/
theorem lapBase_received (s : State) (l : Link) (kind : Byte) (payload : List Byte) (k : Nat) :
    (s.received l kind payload).lapBase k = (s.lapBase k).received l kind payload := by
  have ring := (met_received s l kind payload).ring
  have same : ((s.received l kind payload).lapBase k).ring = (s.lapBase k).ring := by
    unfold State.lapBase
    rw [ring]
    split
    · exact ring_resync ring k
    · exact ring
  have garments : ((s.lapBase k).received l kind payload).garments = (s.received l kind payload).garments :=
    garments_received_congr (by rw [lapBase_eq])
  rw [lapBase_eq (s.received l kind payload), same, received_eq s, received_eq (s.lapBase k), garments, lapBase_eq s]
  rfl

theorem platen_le_of_ok (isReport : kind = kindArrive ∨ kind = kindEmpty) {l : Link} (atRing : l.isRing = true)
    (ok : messageOk l kind payload = true) (platen : platenOf payload = some k) : k ≤ 23 := by
  have fields : platenFieldOk l payload = true := by
    unfold messageOk at ok
    rw [Bool.and_eq_true] at ok
    rcases isReport with rfl | rfl
    · have parts : (platenFieldOk l payload && (yesNo (field payload 7 1)).isSome &&
          (yesNo (field payload 9 1)).isSome) = true := ok.2
      rw [Bool.and_eq_true, Bool.and_eq_true] at parts
      exact parts.1.1
    · exact ok.2
  unfold platenFieldOk at fields
  rw [if_pos atRing] at fields
  have low : field payload 0 1 ≤ 23 := of_decide_eq_true fields
  unfold platenOf at platen
  dsimp only at platen
  rw [if_neg (by omega)] at platen
  rw [← Option.some.inj platen]
  exact low

section
variable (isReport : kind = kindArrive ∨ kind = kindEmpty) (hears : s.Hears .load kind payload)
  (platen : platenOf payload = some k) (working : (s.station .load).working = true) (idle : s.verdictOf .load = none)
  (still : s.ring.cycle = .idle) (verifying : s.ring.state = .verifying)
  (held : ∀ j, s.facing .load = some j → (s.platen j).held = true)
  (reads : s.ring.lapSynced = false ∨ s.facing .load = some k)
include isReport hears platen

include held reads in
theorem synced_of_report : s.Synced k (s.lapBase k) :=
  synced_lapBase (platen_le_of_ok isReport rfl hears.ok platen) held reads

include working idle still verifying held reads

theorem lap_run : exec (reportRow kind .load payload) s =
    .next ((((((s.lapBase k).received .load kind payload).tagCheck .load (reportOf kind payload) k).settled
      .load k).countLap).finish s) := by
  have synced := synced_of_report isReport hears platen held reads
  have ring := (met_received s .load kind payload).ring
  have after := (met_received (s.lapBase k) .load kind payload).ring
  have lap : (s.lapBase k).ring.state = .verifying := by
    rw [synced.ring]
    exact verifying
  rw [report_platen isReport hears rfl idle platen working still (by rw [verifying]; decide) fun h => h.2 rfl]
  refine congrArg (fun v : State => Host.Outcome.next (v.finish s)) ?_
  have counted : ((s.lapBase k).received .load kind payload).answerChecked .load (reportOf kind payload) k =
      ((((s.lapBase k).received .load kind payload).tagCheck .load (reportOf kind payload) k).settled
        .load k).countLap := by
    have reading : (Link.load == Link.load && ((s.lapBase k).received .load kind payload).ring.state == .verifying &&
        (((s.lapBase k).received .load kind payload).platen k).held) = true := by
      rw [after, lap, ring_eq_platen after, synced.held]
      rfl
    unfold State.answerChecked
    rw [reading]
    rfl
  rw [← counted, ← lapBase_received]
  unfold State.platenCheck State.lapBase
  by_cases unsynced : s.ring.lapSynced = false
  · rw [ring, if_pos ⟨verifying, unsynced⟩, if_pos unsynced]
  · have faces : (s.received .load kind payload).facing .load = some k := by
      unfold State.facing
      rw [ring]
      exact reads.resolve_left unsynced
    rw [if_pos faces, ring, if_neg fun h => unsynced h.2, if_neg unsynced]

end

/-- What a reading leaves of the ring, in the terms of the state before it. -/
theorem counted_of_lapCounted (synced : s.Synced k z) (counted : z.LapCounted k t) :
    t.ring.lapCount = s.ring.lapCount + 1 ∧ t.ring.positions = s.ring.positions ∧
      (s.ring.lapSynced = false → t.ring.lapSynced = true ∧ t.facing .load = some k ∧ t.ring.offset ≤ 23) ∧
      (s.ring.lapSynced = true → t.ring.offset = s.ring.offset) ∧
      (s.ring.lapCount < 23 → t.ring.state = .verifying ∧ (t.platen k).held = false) ∧
      (23 ≤ s.ring.lapCount → t.ring.state = .running ∧ ∀ l ∈ [Link.pretreat, .press, .printA, .printB, .unload], ∀ j,
        (s.station l).working = true → t.facing l = some j → (t.platen j).held = true) := by
  have count : z.ring.lapCount = s.ring.lapCount := by rw [synced.ring]
  have stations : ∀ n, z.station n = s.station n := fun n => by rw [synced.ring]; rfl
  refine ⟨by rw [counted.count, count], ?_, fun unsynced => ⟨?_, ?_, ?_⟩, fun was => ?_, fun early => ?_, fun last => ?_⟩
  · rw [counted.positions, synced.ring]
  · rw [counted.synced, synced.synced]
  · rw [← synced.facing]
    unfold State.facing
    rw [counted.positions, counted.offset]
  · rw [counted.offset]
    exact synced.offset unsynced
  · rw [counted.offset, synced.stays was]
  · exact counted.early (by omega)
  · obtain ⟨running, holds⟩ := counted.last (by omega)
    refine ⟨running, fun l listed j working => holds l listed j ?_⟩
    rw [stations]
    exact working

/-! ## The answers of the lap -/

/-- An answer given with the ring as the check found it, and the hold then released. -/
theorem lapRead_settled {w : State} (ring : w.ring = { z.ring with platens := w.ring.platens })
    (modes : ∀ n, (w.station n).mode = (z.station n).mode) (idle : w.verdictOf .load = none) :
    z.LapRead k (w.settled .load k) := by
  have released : w.settled .load k = w.setHeld k false := if_pos (by rw [idle]; rfl)
  rw [released]
  refine ⟨?_, modes, ?_⟩
  · have step : (w.setHeld k false).ring = { w.ring with platens := (w.setHeld k false).ring.platens } := rfl
    rw [step, ring]
  · rw [platen_setHeld, if_pos rfl]

/-- What the count and the end of the change leave of the answered state. -/
theorem lap_end (w s : State) (k : Nat) (idle : w.verdictOf .load = none) (limits : w.limits = s.limits)
    (cells : s.orders.freeCells ≤ w.orders.freeCells) :
    w.sameBut [.ring] (((w.settled .load k).countLap).finish s) := by
  have released : w.settled .load k = w.setHeld k false := if_pos (by rw [idle]; rfl)
  have causes : (((w.settled .load k).countLap).finish s).port.causes = w.port.causes := by
    refine (finish_causes_of_more ?_ ?_).trans ?_ <;> rw [countLap_eq, released]
    · exact limits
    · exact cells
    · rfl
  have ends := sameBut_finish (w.settled .load k).countLap s
  have frame : w.sameBut [.ring] (w.settled .load k).countLap := by
    rw [countLap_eq, released]
    constructor <;> intros <;> simp_all [State.setHeld, State.modifyPlaten]
  exact sameBut_narrow (sameBut_trans frame ends (changed := [.ring, .causes]) (by decide) (by decide)) (by
    have stands : w.keeps (((w.settled .load k).countLap).finish s) .causes := causes
    simp [stands])

section
variable (isReport : kind = kindArrive ∨ kind = kindEmpty) (hears : s.Hears .load kind payload)
  (platen : platenOf payload = some k) (working : (s.station .load).working = true) (idle : s.verdictOf .load = none)
  (still : s.ring.cycle = .idle) (verifying : s.ring.state = .verifying)
  (held : ∀ j, s.facing .load = some j → (s.platen j).held = true)
  (reads : s.ring.lapSynced = false ∨ s.facing .load = some k)
include isReport hears platen working idle still verifying held reads

theorem lap_passes (fits : s.fits .load kind payload k) : ∃ t, exec (reportRow kind .load payload) s = .next t ∧
    s.Answers .load (s.station .load).answered (passFor kind payload) t ∧ (s.lapBase k).LapCounted k t ∧
    t.garments = ((s.lapBase k).reportedAs .load kind payload k).garments ∧
    s.sameBut [.garments, .stations, .ring, .messages] t := by
  let z := s.lapBase k
  have synced : s.Synced k z := synced_of_report isReport hears platen held reads
  have lap : z.ring.state = .verifying := by
    rw [synced.ring]
    exact verifying
  obtain ⟨met, frame, -, -, -⟩ := reportedAs_spec (s := z) (l := .load) (payload := payload) (k := k) isReport
  have after := met_received z .load kind payload
  have plain : ∀ v : State, v.stations = (z.received .load kind payload).stations →
      v.ring = (z.received .load kind payload).ring →
      v.consistent .load (reportOf kind payload) k = v.answerPass .load (reportOf kind payload) := by
    intro v _ ring
    refine if_neg ?_
    rintro ⟨-, turning, -⟩
    rw [ring, after.ring, lap] at turning
    simp at turning
  have check : (z.received .load kind payload).tagCheck .load (reportOf kind payload) k =
      (z.reportedAs .load kind payload k).answerPass .load (reportOf kind payload) := by
    refine tagCheck_plain ?_ plain
    unfold State.fits
    rw [ring_eq_platen after.ring, (synced.platens k).1, (synced.platens k).2]
    exact fits
  obtain ⟨answers, rest⟩ := met.answerPass (kind := kind) platen
  have run := lap_run isReport hears platen working idle still verifying held reads
  rw [check] at run
  generalize (z.reportedAs .load kind payload k).answerPass .load (reportOf kind payload) = w at *
  have idleW : w.verdictOf .load = none := by
    rw [verdictOf_eq answers.station, synced.ring]
    exact idle
  have modes : ∀ n, (w.station n).mode = (z.station n).mode := fun n => by
    by_cases here : n = .load
    · rw [here, answers.station]
      rfl
    · rw [answers.others n here]
  have whole := sameBut_trans frame rest (changed := [.garments, .stations, .messages]) (by decide) (by decide)
  have fromS : s.sameBut [.ring] z := by
    rw [synced.ring]
    constructor <;> intros <;> simp_all
  have ends := lap_end w s k idleW ((whole.limits (by decide)).trans (fromS.limits (by decide)))
    (by rw [whole.orders (by decide), fromS.orders (by decide)])
  have read : z.LapRead k (w.settled .load k) :=
    lapRead_settled (by rw [whole.ring (by decide)]) modes idleW
  refine ⟨_, run, ?_, lapCounted_finish lap read, (ends.garments (by decide)).trans (rest.garments (by decide)), ?_⟩
  · have stations : ∀ n, z.station n = s.station n := fun n => by rw [synced.ring]; rfl
    have same : ∀ n, State.station (((w.settled .load k).countLap).finish s) n = w.station n := fun n => by
      unfold State.station
      rw [ends.stations (by decide)]
    refine ⟨?_, fun n other => ?_, ?_⟩
    · rw [same, answers.station, stations]
    · rw [same, answers.others n other, stations]
    · rw [ends.messages (by decide), answers.reply, fromS.messages (by decide)]
  · exact sameBut_trans (sameBut_trans fromS whole (changed := [.garments, .stations, .ring, .messages]) (by decide)
      (by decide)) ends (by decide) (by decide)

theorem lap_loses (occupied : (s.platen k).state = .occupied) {tag : Tag} (recorded : (s.platen k).tag = some tag)
    (other : kind = kindArrive → tagField payload 1 ≠ tag) (live : s.findTag tag = some (pos, g)) :
    ∃ t, exec (reportRow kind .load payload) s = .next t ∧ (s.lapBase k).LapCounted k t ∧
      t.garments.records.find pos = none ∧ t.pendingCause .garmentLost = true ∧
      (g.location = .ring k → (t.platen k).state = .empty ∧ (t.platen k).tag = none) ∧
      (∃ before, t.sent = before ++ [⟨.load, lossAnswer kind payload⟩]) ∧
      s.sameBut [.garments, .orders, .sched, .refs, .stations, .ring, .cure, .bins, .causes, .messages] t := by
  let z := s.lapBase k
  have synced : s.Synced k z := synced_of_report isReport hears platen held reads
  have lap : z.ring.state = .verifying := by
    rw [synced.ring]
    exact verifying
  have fromS : s.sameBut [.ring] z := by
    rw [synced.ring]
    constructor <;> intros <;> simp_all
  let u := z.received .load kind payload
  have met := met_received z .load kind payload
  have frame := sameBut_received z .load kind payload
  have platenU : u.platen k = z.platen k := ring_eq_platen met.ring k
  have liveZ : z.findTag tag = some (pos, g) := by
    rw [findTag_look, fromS.garments (by decide)]
    exact live
  have liveU : u.findTag tag = some (pos, g) := findTag_received_lost isReport other liveZ
  have check := tagCheck_lost (u := u) (l := .load) (k := k) isReport
    (by rw [platenU, (synced.platens k).1]; exact occupied) (by rw [platenU, (synced.platens k).2]; exact recorded) other
  obtain ⟨rest, verdict, grows, sent⟩ := lost_answer (l := .load) isReport hears.ok platen (u.retire .lost tag)
  rw [← check] at rest verdict grows sent
  have run := lap_run isReport hears platen working idle still verifying held reads
  have retired := sameBut_retire (reason := .lost) liveU
  have keeps := rests_retire u .lost tag
  have ring := ring_retire (reason := .lost) liveU
  obtain ⟨served, gives, -⟩ := givesBack_retire u liveU .lost
  have answered : Quiet (u.retire .lost tag) (u.tagCheck .load (reportOf kind payload) k) := by
    rw [check]
    split
    · exact quiet_answerRefuse ..
    · exact quiet_answerPass ..
  generalize u.tagCheck .load (reportOf kind payload) k = w at *
  have idleW : w.verdictOf .load = none := by
    refine verdict.trans (keeps.verdict ((met.verdictOf .load).trans ?_))
    rw [verdictOf_eq (x := s.station .load) (by rw [synced.ring]; rfl)]
    exact idle
  have whole := sameBut_trans (sameBut_trans frame retired
    (changed := [.garments, .orders, .sched, .refs, .stations, .ring, .cure, .bins, .causes, .messages]) (by decide)
    (by decide)) rest (changed := [.garments, .orders, .sched, .refs, .stations, .ring, .cure, .bins, .causes, .messages])
    (by decide) (by decide)
  have cells : s.orders.freeCells ≤ w.orders.freeCells := by
    have more := cells_retire (reason := .lost) liveU
    rw [frame.orders (by decide), fromS.orders (by decide)] at more
    rw [rest.orders (by decide)]
    exact more
  have ends := lap_end w s k idleW ((whole.limits (by decide)).trans (fromS.limits (by decide))) cells
  have modes : ∀ n, (w.station n).mode = (z.station n).mode := fun n =>
    ((answered.links n).mode.trans (keeps.keeps n).mode).trans (met.mode n)
  have ringW : w.ring = { z.ring with platens := w.ring.platens } := by
    have same : w.ring = (u.retire .lost tag).ring := rest.ring (by decide)
    rw [same, ring, met.ring]
  have read : z.LapRead k (w.settled .load k) := lapRead_settled ringW modes idleW
  have counted := lapCounted_finish (s := s) lap read
  refine ⟨_, run, counted, ?_, ?_, fun here => ?_, ⟨(u.retire .lost tag).sent, (ends.messages (by decide)).trans sent⟩, ?_⟩
  · rw [ends.garments (by decide), rest.garments (by decide)]
    exact find_retire .lost liveU
  · refine pendingCause_of_grow (t := ((w.settled .load k).countLap).finish s) ?_
      (pendingCause_of_grow grows (garmentLost_retire liveU))
    rw [ends.causes (by decide)]
    exact .refl _
  · have platens : (((w.settled .load k).countLap).finish s).platen k = (w.settled .load k).countLap.platen k := by
      unfold State.platen
      rw [ring_platens_finish]
    have released : w.settled .load k = w.setHeld k false := if_pos (by rw [idleW]; rfl)
    have retiredPlaten : w.platen k = (u.retire .lost tag).platen k := ring_eq_platen (rest.ring (by decide)) k
    rw [platens, (platen_countLap ..).1, (platen_countLap ..).2, released, platen_setHeld, if_pos rfl]
    show (w.platen k).state = .empty ∧ (w.platen k).tag = none
    rw [retiredPlaten, gives.platens, if_pos here, if_pos here]
    exact ⟨rfl, rfl⟩
  · exact sameBut_trans (sameBut_trans fromS whole
      (changed := [.garments, .orders, .sched, .refs, .stations, .ring, .cure, .bins, .causes, .messages]) (by decide)
      (by decide)) ends (by decide) (by decide)

end

/-- Settles O48. -/
theorem verifyLapSynchronisesAndCounts : Obligations.VerifyLapSynchronisesAndCounts := by
  unfold Obligations.VerifyLapSynchronisesAndCounts
  intro s kind payload k isReport hears platen working idle still verifying held reads named done counted passes
  have synced := synced_of_report isReport hears platen held reads
  obtain ⟨-, -, empties, unknown, records⟩ :=
    reportedAs_spec (s := s.lapBase k) (l := .load) (payload := payload) (k := k) isReport
  have garments : (s.lapBase k).garments = s.garments := by rw [synced.ring]
  have found : ∀ tag, (s.lapBase k).findTag tag = s.findTag tag := fun tag => by
    rw [findTag_look, findTag_look, garments]
  have pass : ∀ fits : s.fits .load kind payload k, ∀ P : State → Prop,
      (∀ t : State, t.garments = ((s.lapBase k).reportedAs .load kind payload k).garments → P t) → passes P := by
    intro fits P holds
    obtain ⟨t, run, answers, lap, same, rest⟩ :=
      lap_passes isReport hears platen working idle still verifying held reads fits
    exact ⟨t, run, answers, counted_of_lapCounted synced lap, holds t same, rest⟩
  have record : ∀ pos g t, kind = kindArrive → s.findTag named = some (pos, g) →
      t.garments = ((s.lapBase k).reportedAs .load kind payload k).garments →
      s.recordIs pos (g.reported (decide ((s.platen k).state = .occupied))) t := by
    intro pos g t arrives live same
    have written := records pos g arrives ((found named).trans live)
    unfold State.recordIs at written ⊢
    rw [same, written, garments, (synced.platens k).1]
    simp
  refine ⟨fun empty vacant => ?_, fun arrives vacant => ?_, fun arrives occupied recorded pos g live => ?_, ?_⟩
  · exact pass (.inl ⟨empty, vacant⟩) _ fun t same => (same.trans (empties empty)).trans garments
  · refine pass (.inr (.inr ⟨arrives, vacant, rfl⟩)) _ fun t same => ⟨fun new => ?_, fun pos g live => ?_⟩
    · exact (same.trans (unknown arrives ((found named).trans new))).trans garments
    · have written := record pos g t arrives live same
      unfold Garment.reported at written
      rw [decide_eq_false vacant, Bool.not_false, Bool.and_true] at written
      exact written
  · refine pass (.inr (.inl ⟨arrives, occupied, recorded⟩)) _ fun t same => ?_
    have written := record pos g t arrives live same
    unfold Garment.reported at written
    rw [decide_eq_true occupied, Bool.not_true, Bool.and_false] at written
    exact written
  · intro occupied tag pos g recorded other live
    obtain ⟨t, run, lap, gone, cause, emptied, ⟨before, sent⟩, rest⟩ :=
      lap_loses isReport hears platen working idle still verifying held reads occupied recorded other live
    refine ⟨t, run, counted_of_lapCounted synced lap, gone, cause, emptied, ?_, rest⟩
    rw [sent, List.getLast?_concat]
    rfl

end Sys2Proof.Machine
end

section
/-! SUPPORT. An index completed: the ring turned, the holds it makes, and the index test. -/

namespace Sys2Proof.Machine

variable {s t : State}

/-- The ring turned to the next position, before any hold is made: the drive stopped, the garments on it touched. -/
def State.turned (s : State) : State :=
  ({ s.stopDrive with ring.offset := (s.ring.offset + 1) % 24 } : State).touchRing

theorem completeIndex_eq (s : State) : s.completeIndex = s.turned.holdAfterIndex.ringTest := rfl

theorem platen_turned (s : State) (k : Nat) : s.turned.platen k = s.platen k := rfl

theorem find_turned (s : State) (pos : Nat) : s.turned.garments.records.find pos =
    (s.garments.records.find pos).map fun g => if g.onRing then { g with age := 0 } else g :=
  find_mapVal s.garments.records (fun g => if g.onRing then { g with age := 0 } else g) pos

/-- An index test made twice is made once: the first leaves the ring MOVING, STOPPED or held. -/
theorem ringTest_ringTest (s : State) : s.ringTest.ringTest = s.ringTest := by
  by_cases moving : s.ring.cycle = .moving
  · rw [ringTest_of_moving moving, ringTest_of_moving moving]
  have idle : s.ring.cycle = .idle := by cases h : s.ring.cycle <;> simp_all
  by_cases held : s.anyHeld = true
  · rw [ringTest_of_held held, ringTest_of_held held]
  have free : s.anyHeld = false := Bool.eq_false_iff.mpr held
  cases state : s.ring.state
  case running =>
    rw [ringTest_go idle free (.inl state)]
    exact ringTest_of_moving rfl
  case verifying =>
    rw [ringTest_go idle free (.inr state)]
    exact ringTest_of_moving rfl
  case stopping =>
    rw [ringTest_stop idle free state]
    exact ringTest_of_still (.inl rfl)
  case stopped => rw [ringTest_of_still (.inl state), ringTest_of_still (.inl state)]
  case halted => rw [ringTest_of_still (.inr state), ringTest_of_still (.inr state)]

theorem finish_ringTest (cells : t.ringTest.orders.freeCells = s.orders.freeCells)
    (limits : t.ringTest.limits = s.limits) : t.ringTest.finish s = t.ringTest := by
  have settled : t.ringTest.settleRing s = t.ringTest := by
    rw [State.settleRing, ringTest_ringTest, ite_self]
  rw [State.finish, settled, checkCells_eq, if_neg (by rw [cells, limits]; omega)]

theorem facing_isSome {l : Link} (ring : l ∈ Link.ring) (s : State) : ∃ k, s.facing l = some k := by
  rw [State.facing, ← Option.isSome_iff_exists, Option.isSome_map]
  cases l <;> simp_all [Positions.of, Link.ring]

theorem watched_of_working (h : ∃ l ∈ Link.ring, (s.station l).working = true) : ∃ k, s.watchedBy Link.ring k := by
  obtain ⟨l, ring, working⟩ := h
  obtain ⟨k, facing⟩ := facing_isSome ring s
  exact ⟨k, l, ring, working, facing⟩

theorem unwatched_of_idle {ls : List Link} (h : ¬ ∃ l ∈ ls, (s.station l).working = true) : ¬ ∃ k, s.watchedBy ls k :=
  fun ⟨_, l, ring, working, _⟩ => h ⟨l, ring, working⟩

/-- The ring after an index, with the platens, the cycle and the move timer that the holds leave. -/
def State.indexed (s : State) (platens : Table Platen) (cycle : Cycle) (timer : Option Nat) : State :=
  { s.turned with ring := { s.turned.ring with
      platens := platens, state := if s.ring.state = .stopping then .stopped else s.ring.state
      cycle := cycle, moveTimer := timer } }

theorem completeIndex_working (running : s.ring.state = .running) (h : ∃ l ∈ Link.ring, (s.station l).working = true) :
    s.completeIndex = s.indexed (Link.ring.foldl State.holdIfWorking s.turned).ring.platens .idle none := by
  have holds : s.turned.holdAfterIndex = Link.ring.foldl State.holdIfWorking s.turned := by
    rw [State.holdAfterIndex, show s.turned.ring.state = .running from running]
  obtain ⟨k, watched⟩ := watched_of_working (s := s.turned) h
  have held : (Link.ring.foldl State.holdIfWorking s.turned).anyHeld = true :=
    anyHeld_of_platen (k := k) (by rw [(platen_foldl_holdIfWorking Link.ring s.turned k).1 watched])
  rw [completeIndex_eq, holds, ringTest_of_held held, State.indexed, if_neg (by rw [running]; decide)]
  exact foldl_holdIfWorking_eq Link.ring s.turned

theorem completeIndex_unwatched (free : s.anyHeld = false) (running : s.ring.state = .running)
    (h : ¬ ∃ l ∈ Link.ring, (s.station l).working = true) :
    s.completeIndex = s.indexed s.ring.platens .moving (some s.limits.moveLimit) := by
  have holds : s.turned.holdAfterIndex = s.turned := by
    rw [State.holdAfterIndex, show s.turned.ring.state = .running from running]
    exact foldl_holdIfWorking_of_unwatched (unwatched_of_idle h)
  rw [completeIndex_eq, holds, ringTest_go (s := s.turned) rfl free (.inl running), State.indexed, if_neg (by rw [running]; decide)]
  rfl

theorem completeIndex_verifying (verifying : s.ring.state = .verifying) {k : Nat} (facing : s.turned.facing .load = some k) :
    s.completeIndex = s.indexed (s.turned.setHeld k true).ring.platens .idle none := by
  have holds : s.turned.holdAfterIndex = s.turned.setHeld k true := by
    rw [State.holdAfterIndex, show s.turned.ring.state = .verifying from verifying]
    exact holdFacing_some facing
  have held : (s.turned.setHeld k true).anyHeld = true :=
    anyHeld_of_platen (k := k) (by rw [platen_setHeld, if_pos rfl])
  rw [completeIndex_eq, holds, ringTest_of_held held, State.indexed, if_neg (by rw [verifying]; decide)]
  rfl

theorem completeIndex_stopping (stopping : s.ring.state = .stopping) :
    s.completeIndex = s.indexed s.ring.platens .idle none := by
  have holds : s.turned.holdAfterIndex = { s.turned with ring := { s.turned.ring with state := .stopped } } := by
    rw [State.holdAfterIndex, show s.turned.ring.state = .stopping from stopping]
  rw [completeIndex_eq, holds, ringTest_of_still (.inl rfl), State.indexed, if_pos stopping]
  rfl

/-- What an index makes of a platen: it is held where a station watches it, by the ring state. -/
def State.heldAfterIndex (s : State) (k : Nat) : Prop :=
  (s.ring.state = .running ∧ s.turned.watchedBy Link.ring k) ∨
    (s.ring.state = .verifying ∧ s.turned.facing .load = some k)

/-- An index of a MOVING ring: what the platens become, and whether the ring moves again. -/
theorem completeIndex_spec (safe : RingSafe s) (moving : s.ring.cycle = .moving) :
    ∃ p c m, s.completeIndex = s.indexed p c m ∧
      (∀ k, (p.look {} k).state = (s.platen k).state ∧ (p.look {} k).tag = (s.platen k).tag ∧
        ((p.look {} k).held = true ↔ s.heldAfterIndex k)) ∧
      (s.ring.state = .running → (¬ ∃ l ∈ Link.ring, (s.station l).working = true) →
        c = .moving ∧ m = some s.limits.moveLimit) ∧
      (s.ring.state ≠ .running ∨ (∃ l ∈ Link.ring, (s.station l).working = true) → c = .idle ∧ m = none) := by
  have free := (safe.moving moving).1
  have clear : ∀ k, (s.platen k).held = false := held_false_of free
  cases state : s.ring.state
  case running =>
    by_cases working : ∃ l ∈ Link.ring, (s.station l).working = true
    · refine ⟨_, _, _, completeIndex_working state working, fun k => ?_, fun _ h => absurd working h,
        fun _ => ⟨rfl, rfl⟩⟩
      obtain ⟨holds, leaves⟩ := platen_foldl_holdIfWorking Link.ring s.turned k
      have watch : s.heldAfterIndex k ↔ s.turned.watchedBy Link.ring k := by simp [State.heldAfterIndex, state]
      by_cases watched : s.turned.watchedBy Link.ring k
      · exact ⟨(congrArg Platen.state (holds watched)).trans rfl, (congrArg Platen.tag (holds watched)).trans rfl,
          iff_of_true ((congrArg Platen.held (holds watched)).trans rfl) (watch.mpr watched)⟩
      · refine ⟨(congrArg Platen.state (leaves watched)).trans rfl, (congrArg Platen.tag (leaves watched)).trans rfl,
          iff_of_false ?_ (fun h => watched (watch.mp h))⟩
        have unheld := (congrArg Platen.held (leaves watched)).trans (clear k)
        exact fun h => Bool.false_ne_true (unheld.symm.trans h)
    · refine ⟨_, _, _, completeIndex_unwatched free state working, fun k => ⟨rfl, rfl, iff_of_false ?_ ?_⟩,
        fun _ _ => ⟨rfl, rfl⟩, fun h => ?_⟩
      · exact fun h => Bool.false_ne_true ((clear k).symm.trans h)
      · rintro (⟨_, watched⟩ | ⟨verifying, _⟩)
        · exact unwatched_of_idle (s := s.turned) working ⟨k, watched⟩
        · rw [state] at verifying; cases verifying
      · exact h.elim (fun h => absurd rfl h) (fun h => absurd h working)
  case verifying =>
    obtain ⟨load, facing⟩ := facing_isSome (l := .load) (by decide) s.turned
    refine ⟨_, _, _, completeIndex_verifying state facing, fun k => ?_, (fun h => nomatch h), fun _ => ⟨rfl, rfl⟩⟩
    have made : (s.turned.setHeld load true).ring.platens.look {} k =
        if k = load then { s.platen load with held := true } else s.platen k := platen_setHeld s.turned load k true
    rw [made]
    have watch : s.heldAfterIndex k ↔ load = k := by simp [State.heldAfterIndex, state, facing]
    by_cases at_ : k = load
    · rw [if_pos at_, at_]
      exact ⟨rfl, rfl, iff_of_true rfl (at_ ▸ watch.mpr at_.symm)⟩
    · rw [if_neg at_]
      exact ⟨rfl, rfl, iff_of_false (by rw [clear k]; exact Bool.false_ne_true) fun h => at_ (watch.mp h).symm⟩
  case stopping =>
    refine ⟨_, _, _, completeIndex_stopping state, fun k => ⟨rfl, rfl, iff_of_false ?_ ?_⟩, (fun h => nomatch h),
      fun _ => ⟨rfl, rfl⟩⟩
    · exact fun h => Bool.false_ne_true ((clear k).symm.trans h)
    · rintro (⟨running, _⟩ | ⟨verifying, _⟩) <;> simp_all
  case stopped => exact absurd ((safe.still (.inl state)).1.symm.trans moving) (by decide)
  case halted => exact absurd ((safe.still (.inr state)).1.symm.trans moving) (by decide)

/-- Settles O56: the ring turned (`completeIndex_spec`) has had its index test, so the event's end changes no more. -/
theorem indexDoneTurnsTheRing : Obligations.IndexDoneTurnsTheRing := by
  unfold Obligations.IndexDoneTurnsTheRing
  intro s safe moving
  obtain ⟨p, c, m, shape, platens, again, rests⟩ := completeIndex_spec safe moving
  have finished : s.completeIndex.finish s = s.indexed p c m := by
    have tested : s.turned.holdAfterIndex.ringTest = s.indexed p c m := (completeIndex_eq s).symm.trans shape
    have done := finish_ringTest (s := s) (t := s.turned.holdAfterIndex) (by rw [tested]; rfl) (by rw [tested]; rfl)
    rw [shape]
    rw [tested] at done
    exact done
  have run : exec .indexDone s = .next (s.indexed p c m) := by
    rw [← finished]
    change Host.Outcome.next (s.indexDone.finish s) = _
    rw [State.indexDone, if_pos moving]
  exact ⟨_, run, rfl, rfl, rfl, find_turned s, fun k => platens k, again, rests,
    by constructor <;> intros <;> simp_all [State.indexed, State.turned, State.touchRing, State.mapRecords, State.stopDrive]⟩

end Sys2Proof.Machine
end

section
/-! SUPPORT. The MATCH decision list: an ARRIVE on its way to the list, and the list's tests in order. -/

namespace Sys2Proof.Machine

variable {s t u : State} {l : Link} {kind : Byte} {payload : List Byte} {pos slot bin n : Nat} {g : Garment} {tag : Tag}
  {r : Report} {w : OpenVerdict}

/-! ## A verdict given -/

theorem give_eq (stations : u.stations = s.stations.set l (s.station l).heard) (limits : u.limits = s.limits)
    (w : OpenVerdict) : u.give l w = u.replied l { (s.station l).answered with
      verdict := some w, workTimer := s.limits.timerFor l w
      expired := if w.cls = .work then none else (s.station l).expired }
      (.verdict (platenByte w.platen) w.tag w.verdict w.param1 w.param2) := by
  have station : u.station l = (s.station l).heard := by
    unfold State.station
    rw [stations]
    exact stations_get_set ..
  have opened : (u.openRecord l w).station l = { (s.station l).heard with
      verdict := some w, workTimer := s.limits.timerFor l w
      expired := if w.cls = .work then none else (s.station l).expired } := by
    refine (station_modifyStation u l _).trans ?_
    rw [station, limits]
    rfl
  unfold State.give State.restate
  rw [replyVerdict_eq, opened]
  unfold State.replied State.openRecord State.modifyStation
  rw [set_set]
  rfl

/-- A reply from a state that may have taken cells: CELLS_LOW follows (R33). -/
theorem answers_checked (others : ∀ n, n ≠ l → u.station n = s.station n) (sent : u.sent = s.sent)
    (ring : u.ring = s.ring) (limits : u.limits = s.limits) (x : Station) (m : Message) :
    s.Answers l x m ((u.replied l x m).finish s) ∧
      u.sameBut [.stations, .causes, .messages] ((u.replied l x m).finish s) ∧
      ((u.replied l x m).finish s).port.causes =
        if u.orders.freeCells < s.limits.holdReserve ∧ s.limits.holdReserve ≤ s.orders.freeCells
        then u.port.causes ||| Cause.cellsLow.field else u.port.causes := by
  rw [finish_of_ring (s := s) (t := u.replied l x m) ring, checkCells_eq, ← limits]
  refine ⟨⟨station_replied u l x m, fun n other => ?_, congrArg (· ++ _) sent⟩, ?_, rfl⟩
  · exact (station_replied_ne u l other x m).trans (others n other)
  · constructor <;> intros <;> simp_all [State.replied]

theorem gives_checked (stations : u.stations = s.stations.set l (s.station l).heard) (sent : u.sent = s.sent)
    (ring : u.ring = s.ring) (limits : u.limits = s.limits) (w : OpenVerdict) :
    s.Gives l w ((u.give l w).finish s) ∧ u.sameBut [.stations, .causes, .messages] ((u.give l w).finish s) ∧
      ((u.give l w).finish s).port.causes =
        if u.orders.freeCells < s.limits.holdReserve ∧ s.limits.holdReserve ≤ s.orders.freeCells
        then u.port.causes ||| Cause.cellsLow.field else u.port.causes := by
  rw [give_eq stations limits]
  refine answers_checked (fun n other => ?_) sent ring limits _ _
  unfold State.station
  rw [stations, stations_get_set_ne _ other]

/-! ## The way to the list -/

theorem platen_of_match (ok : messageOk .matching kindArrive payload = true) : platenOf payload = none := by
  have byte : field payload 0 1 = 255 := by
    unfold messageOk fieldsOk platenFieldOk at ok
    simp_all [kindArrive, Link.isRing]
  rw [platenOf, byte]
  rfl

section
variable (hears : s.Hears .matching kindArrive payload) (idle : s.verdictOf .matching = none)
include hears idle

theorem match_low (low : (s.station .matching).mode ≠ .active) : exec (.arrive .matching payload) s =
    .next (((s.received .matching kindArrive payload).answerPass .matching (arriveReport payload)).finish s) := by
  have mode : (s.received .matching kindArrive payload).isActive .matching = false := by
    rw [Bool.eq_false_iff, (met_received ..).isActive, Ne, isActive_iff]
    exact low
  refine (report_run (.inl rfl) hears idle).trans ?_
  unfold State.evaluate
  rw [if_neg (by decide), mode, if_neg Bool.false_ne_true]
  rfl

theorem match_list (active : (s.station .matching).mode = .active) : exec (.arrive .matching payload) s =
    .next (((s.received .matching kindArrive payload).matchList (arriveReport payload)).finish s) := by
  have mode : (s.received .matching kindArrive payload).isActive .matching = true := by
    rw [(met_received ..).isActive, isActive_iff]
    exact active
  refine (report_run (.inl rfl) hears idle).trans ?_
  unfold State.evaluate
  rw [if_neg (by decide), mode, if_pos rfl]
  rfl

/-- MATCH below ACTIVE passes the garment, which is touched. -/
theorem match_passes (low : (s.station .matching).mode ≠ .active) : ∃ t, exec (.arrive .matching payload) s = .next t ∧
    s.Answers .matching (s.station .matching).answered (.verdict 0xFF#8 (tagField payload 1) .pass 0 0) t ∧
    (s.findTag (tagField payload 1) = none → t.garments = s.garments) ∧
    (∀ pos g, s.findTag (tagField payload 1) = some (pos, g) → s.recordIs pos { g with age := 0 } t) ∧
    s.sameBut [.garments, .stations, .messages] t := by
  have met := met_received s .matching kindArrive payload
  have seen := sameBut_received s .matching kindArrive payload
  have reply : (s.received .matching kindArrive payload).answerPass .matching (arriveReport payload) =
      (s.received .matching kindArrive payload).replied .matching (s.station .matching).answered
        (.verdict 0xFF#8 (tagField payload 1) .pass 0 0) := by
    unfold State.answerPass
    rw [replyVerdict_eq, met.station, show (arriveReport payload).platen = none from platen_of_match hears.ok]
    rfl
  have done := finish_answer (t := (s.received .matching kindArrive payload).replied .matching
    (s.station .matching).answered (.verdict 0xFF#8 (tagField payload 1) .pass 0 0)) met (sameBut_replied ..)
    (by decide) (by decide) (by decide)
  refine ⟨_, (match_low hears idle low).trans (by rw [reply, done]), met.answers _ _, ?_, ?_, ?_⟩
  · exact fun unknown => received_unknown rfl unknown
  · exact fun pos g live => received_known rfl live
  · exact sameBut_trans seen (sameBut_replied ..) (by decide) (by decide)

/-- A list that refuses changes no more than the touch and the refusal. -/
theorem match_refuses (active : (s.station .matching).mode = .active) {code : RefusalCode}
    (list : (s.received .matching kindArrive payload).matchList (arriveReport payload) =
      (s.received .matching kindArrive payload).answerRefuse .matching (arriveReport payload) code) :
    ∃ t, exec (.arrive .matching payload) s = .next t ∧
      s.Refuses .matching (s.station .matching).heard code kindArrive (0xFF#8, tagField payload 1) t ∧
      s.sameBut [.garments, .stations, .causes, .messages] t := by
  have met := met_received s .matching kindArrive payload
  have seen := sameBut_received s .matching kindArrive payload
  have reply : (s.received .matching kindArrive payload).answerRefuse .matching (arriveReport payload) code =
      (s.received .matching kindArrive payload).replyRefuse .matching code kindArrive 0xFF#8 (tagField payload 1) := by
    unfold State.answerRefuse
    rw [show (arriveReport payload).platen = none from platen_of_match hears.ok]
    rfl
  have done := finish_answer met (sameBut_replyRefuse (s.received .matching kindArrive payload) .matching code kindArrive
    0xFF#8 (tagField payload 1)) (by decide) (by decide) (by decide)
  refine ⟨_, (match_list hears idle active).trans (by rw [list, reply, done]), ?_, ?_⟩
  · exact refuses_of_reply _ met.stations met.sent (seen.causes (by decide)) rfl rfl
  · exact sameBut_trans seen (sameBut_replyRefuse ..) (by decide) (by decide)

/-- A list that gives a verdict, after changes `u` to what is not a station's. -/
theorem match_gives (active : (s.station .matching).mode = .active) {a : List Area}
    (changed : (s.received .matching kindArrive payload).sameBut a u) (kept : ∀ x ∈ a, x ∈ [Area.orders, .bins, .cure])
    (list : (s.received .matching kindArrive payload).matchList (arriveReport payload) = u.give .matching w) :
    ∃ t, exec (.arrive .matching payload) s = .next t ∧ s.Gives .matching w t ∧
      u.sameBut [.stations, .causes, .messages] t ∧
      s.sameBut (a ++ [.garments, .stations, .causes, .messages]) t ∧
      t.port.causes = if u.orders.freeCells < s.limits.holdReserve ∧ s.limits.holdReserve ≤ s.orders.freeCells
        then s.port.causes ||| Cause.cellsLow.field else s.port.causes := by
  have met := met_received s .matching kindArrive payload
  have seen := sameBut_received s .matching kindArrive payload
  have away : ∀ x, x ∉ [Area.orders, .bins, .cure] → x ∉ a := fun x out here => out (kept x here)
  obtain ⟨gives, rest, causes⟩ := gives_checked ((changed.stations (away _ (by decide))).trans met.stations)
    ((changed.messages (away _ (by decide))).trans met.sent) ((changed.ring (away _ (by decide))).trans met.ring)
    ((changed.limits (away _ (by decide))).trans met.limits) w
  refine ⟨_, (match_list hears idle active).trans (by rw [list]), gives, rest, ?_, ?_⟩
  · refine sameBut_trans (sameBut_trans seen changed (changed := a ++ [.garments, .stations]) ?_ ?_) rest ?_ ?_ <;>
      intro x <;> simp <;> tauto
  · rw [causes, (changed.causes (away _ (by decide))).trans (seen.causes (by decide))]

end

/-! ## The tests in order -/

theorem matchList_unknown (unknown : s.findTag (answerTag r) = none) :
    s.matchList r = s.answerRefuse .matching r .unknownTag := by
  rw [State.matchList, unknown]

/-- The garments that MATCH decides on (R182). -/
def Garment.matchable (g : Garment) : Prop :=
  g.location = .exit ∨ g.location = .overflow

theorem matchList_away (live : s.findTag (answerTag r) = some (pos, g)) (away : ¬ g.matchable) :
    s.matchList r = s.answerRefuse .matching r .notHere := by
  rw [State.matchList, live]
  unfold Garment.matchable at away
  cases at_ : g.location <;> simp_all

theorem matchList_here (live : s.findTag (answerTag r) = some (pos, g)) (here : g.matchable) :
    s.matchList r = s.matchGarment r g := by
  rw [State.matchList, live]
  rcases here with at_ | at_ <;> simp [at_]

theorem matchGarment_test (test : g.kind = .test) :
    s.matchGarment r g = s.give .matching { platen := none, tag := g.tag, verdict := .testOut } :=
  if_pos test

theorem rejected_iff (g : Garment) (defect : Bool) : g.rejected defect = true ↔
    defect = true ∨ g.spoiled = true ∨ g.result = .over ∨ (g.result = .under ∧ g.recures = 1) := by
  simp [Garment.rejected, or_assoc]

section
variable (order : g.kind = .order)
include order

theorem matchGarment_order : s.matchGarment r g =
    if g.rejected r.defect = true then s.give .matching { platen := none, tag := g.tag, verdict := .reject }
    else if g.result = .under then s.matchRecure r g.tag
    else match g.binding with
      | none => s.give .matching { platen := none, tag := g.tag, verdict := .spare }
      | some b => s.matchBound r g b.slot :=
  (if_neg (by rw [order]; decide)).trans rfl

theorem matchGarment_reject (spoilt : g.rejected r.defect = true) :
    s.matchGarment r g = s.give .matching { platen := none, tag := g.tag, verdict := .reject } :=
  (matchGarment_order order).trans (if_pos spoilt)

theorem matchGarment_recure (sound : ¬ g.rejected r.defect = true) (under : g.result = .under) :
    s.matchGarment r g = s.matchRecure r g.tag :=
  (matchGarment_order order).trans ((if_neg sound).trans (if_pos under))

theorem matchGarment_spare (sound : ¬ g.rejected r.defect = true) (cured : g.result ≠ .under)
    (unbound : g.binding = none) :
    s.matchGarment r g = s.give .matching { platen := none, tag := g.tag, verdict := .spare } := by
  rw [matchGarment_order order, if_neg sound, if_neg cured, unbound]

theorem matchGarment_bound (sound : ¬ g.rejected r.defect = true) (cured : g.result ≠ .under) {b : Binding}
    (bound : g.binding = some b) : s.matchGarment r g = s.matchBound r g b.slot := by
  rw [matchGarment_order order, if_neg sound, if_neg cured, bound]

end

theorem matchRecure_lane (free : s.freeLane = some n) (tag : Tag) : s.matchRecure r tag =
    (s.reserveLane n tag).give .matching
      { platen := none, tag := tag, verdict := .recure, param1 := n, lane := some n } := by
  rw [State.matchRecure, free]

theorem matchRecure_full (full : s.freeLane = none) (tag : Tag) :
    s.matchRecure r tag = s.answerRefuse .matching r .recureLater := by
  rw [State.matchRecure, full]

theorem freeBin_eq (low : bin ≤ 47) (free : (s.bin bin).state = .free)
    (lowest : ∀ j, j < bin → (s.bin j).state ≠ .free) : s.freeBin = some bin := by
  unfold State.freeBin binNumbers
  rw [List.find?_range_eq_some]
  simp only [decide_eq_true_eq, free, true_and]
  exact ⟨List.mem_range.mpr (by omega), fun j below => by simpa using lowest j below⟩

theorem freeBin_none (full : ∀ j, j ≤ 47 → (s.bin j).state ≠ .free) : s.freeBin = none := by
  unfold State.freeBin binNumbers
  rw [List.find?_eq_none]
  intro j listed
  have low : j ≤ 47 := by have := List.mem_range.mp listed; omega
  simpa using full j low

section
variable {o : Order} (order : s.order slot = some o)
include order

theorem matchBound_named (named : o.bin = some bin) : s.matchBound r g slot = s.giveBin g.tag bin := by
  rw [State.matchBound, order, Option.bind_some, named]

theorem matchBound_free (unnamed : o.bin = none) (free : s.freeBin = some bin) :
    s.matchBound r g slot = (s.assignBin bin slot).giveBin g.tag bin := by
  rw [State.matchBound, order, Option.bind_some, unnamed, free]

theorem matchBound_full (unnamed : o.bin = none) (full : s.freeBin = none) :
    s.matchBound r g slot = s.matchOverflow r g := by
  rw [State.matchBound, order, Option.bind_some, unnamed, full]

end

theorem matchOverflow_again (there : g.location = .overflow) :
    s.matchOverflow r g = s.give .matching { platen := none, tag := g.tag, verdict := .overflow } :=
  if_pos there

theorem matchOverflow_cell (here : g.location = .exit) (cells : 0 < s.orders.freeCells) :
    s.matchOverflow r g =
      (s.takeCells 1).give .matching { platen := none, tag := g.tag, verdict := .overflow, holdTaken := true } :=
  (if_neg (by rw [here]; decide)).trans (if_pos cells)

theorem matchOverflow_none (here : g.location = .exit) (cells : s.orders.freeCells = 0) :
    s.matchOverflow r g = s.answerRefuse .matching r .noRoom :=
  (if_neg (by rw [here]; decide)).trans (if_neg (by omega))

/-! ## Bins assigned -/

theorem bin_assignBin (s : State) (bin slot j : Nat) :
    (s.assignBin bin slot).bin j = if j = bin then ⟨.filling, some slot⟩ else s.bin j :=
  bin_setBin s bin j _

theorem order_assignBin (s : State) (bin slot k : Nat) : (s.assignBin bin slot).order k =
    if k = slot then (s.order slot).map fun o => { o with bin := some bin } else s.order k :=
  order_modifyOrder (s := s.setBin bin _) slot k _

theorem sameBut_assignBin (s : State) (bin slot : Nat) : s.sameBut [.orders, .bins] (s.assignBin bin slot) := by
  constructor <;> intros <;> simp_all [State.assignBin, State.setBin, State.modifyOrder]

theorem sameBut_reserveLane (s : State) (n : Nat) (tag : Tag) : s.sameBut [.cure] (s.reserveLane n tag) := by
  constructor <;> intros <;> simp_all [State.reserveLane, State.modifyLane]

theorem sameBut_takeCells (s : State) (n : Nat) : s.sameBut [.orders] (s.takeCells n) := by
  constructor <;> intros <;> simp_all [State.takeCells]

theorem lane_reserveLane (s : State) (n : Nat) (tag : Tag) (j : Nat) : (s.reserveLane n tag).lane j =
    if j = n then { s.lane n with reservation := some tag } else s.lane j :=
  lane_modifyLane s n j _

/-! ## The verdicts of MATCH -/

section
variable (hears : s.Hears .matching kindArrive payload) (idle : s.verdictOf .matching = none)
  (active : (s.station .matching).mode = .active) (live : s.findTag (tagField payload 1) = some (pos, g))
include hears idle active live

/-- A verdict given after changes that take no cell. -/
theorem match_gives_full {a : List Area}
    (changed : (s.received .matching kindArrive payload).sameBut a u) (kept : ∀ x ∈ a, x ∈ [Area.orders, .bins, .cure])
    (cells : u.orders.freeCells = s.orders.freeCells)
    (list : (s.received .matching kindArrive payload).matchList (arriveReport payload) = u.give .matching w) :
    ∃ t, exec (.arrive .matching payload) s = .next t ∧ s.Gives .matching w t ∧ s.recordIs pos { g with age := 0 } t ∧
      u.sameBut [.stations, .causes, .messages] t ∧ s.sameBut (a ++ [.garments, .stations, .messages]) t := by
  obtain ⟨t, run, gives, rest, frame, causes⟩ := match_gives hears idle active changed kept list
  have away : Area.garments ∉ a := fun here => absurd (kept _ here) (by decide)
  have record : t.garments = _ := (rest.garments (by decide)).trans (changed.garments away)
  refine ⟨t, run, gives, record.trans (received_known rfl live), rest, sameBut_narrow frame fun x listed => ?_⟩
  have same : t.port.causes = s.port.causes := by
    rw [causes, if_neg (by rw [cells]; omega)]
  by_cases here : x = .causes
  · exact .inr (here ▸ same)
  · left
    simp only [List.mem_append, List.mem_cons, List.not_mem_nil, or_false] at listed ⊢
    tauto

theorem match_plain (list : (s.received .matching kindArrive payload).matchList (arriveReport payload) =
      (s.received .matching kindArrive payload).give .matching w) :
    ∃ t, exec (.arrive .matching payload) s = .next t ∧ s.Gives .matching w t ∧ s.recordIs pos { g with age := 0 } t ∧
      s.sameBut [.garments, .stations, .messages] t := by
  have seen := sameBut_received s .matching kindArrive payload
  obtain ⟨t, run, gives, record, _, frame⟩ := match_gives_full hears idle active live (a := [])
    (sameBut_widen (changed := []) (a := []) (by constructor <;> intros <;> simp) (by simp)) (by simp)
    (by rw [seen.orders (by decide)]) list
  exact ⟨t, run, gives, record, frame⟩

theorem match_recures {n : Nat} (low : n ≤ 3) (free : (s.lane n).free = true)
    (lowest : ∀ j, j < n → (s.lane j).free = false)
    (list : (s.received .matching kindArrive payload).matchList (arriveReport payload) =
      (s.received .matching kindArrive payload).matchRecure (arriveReport payload) (tagField payload 1)) :
    ∃ t, exec (.arrive .matching payload) s = .next t ∧
      s.Gives .matching { platen := none, tag := tagField payload 1, verdict := .recure, param1 := n, lane := some n } t ∧
      s.recordIs pos { g with age := 0 } t ∧
      (t.lane n = { s.lane n with reservation := some (tagField payload 1) } ∧ ∀ j, j ≠ n → t.lane j = s.lane j) ∧
      s.sameBut ([.cure] ++ [.garments, .stations, .messages]) t := by
  have seen := sameBut_received s .matching kindArrive payload
  have cure := seen.cure (by decide)
  have open_ := (State.Met.freeLane cure).trans (freeLane_eq s low free lowest)
  obtain ⟨t, run, gives, record, rest, frame⟩ := match_gives_full hears idle active live (a := [.cure])
    (sameBut_reserveLane _ n (tagField payload 1)) (by simp) (congrArg OrderBlock.freeCells (seen.orders (by decide)))
    (list.trans (matchRecure_lane open_ _))
  have lane : ∀ j, t.lane j =
      if j = n then { s.lane n with reservation := some (tagField payload 1) } else s.lane j := fun j => by
    have made := lane_reserveLane (s.received .matching kindArrive payload) n (tagField payload 1) j
    unfold State.lane at made ⊢
    rw [rest.cure (by decide), made, cure]
  exact ⟨t, run, gives, record, ⟨(lane n).trans (if_pos rfl), fun j other => (lane j).trans (if_neg other)⟩, frame⟩

theorem match_assigns {o : Order} {bin slot : Nat} (order : s.order slot = some o) (low : bin ≤ 47)
    (free : (s.bin bin).state = .free) (lowest : ∀ j, j < bin → (s.bin j).state ≠ .free) (unnamed : o.bin = none)
    (list : (s.received .matching kindArrive payload).matchList (arriveReport payload) =
      (s.received .matching kindArrive payload).matchBound (arriveReport payload) { g with age := 0 } slot) :
    ∃ t, exec (.arrive .matching payload) s = .next t ∧
      s.Gives .matching { platen := none, tag := g.tag, verdict := .bin, param1 := bin } t ∧
      s.recordIs pos { g with age := 0 } t ∧
      (t.bin bin = ⟨.filling, some slot⟩ ∧ (∀ j, j ≠ bin → t.bin j = s.bin j) ∧
        t.order slot = some { o with bin := some bin } ∧ ∀ k, k ≠ slot → t.order k = s.order k) ∧
      s.sameBut ([.orders, .bins] ++ [.garments, .stations, .messages]) t := by
  let v := s.received .matching kindArrive payload
  have seen : s.sameBut [.garments, .stations] v := sameBut_received s .matching kindArrive payload
  have orders : v.orders = s.orders := seen.orders (by decide)
  have bins : v.bins = s.bins := seen.bins (by decide)
  have order' : ∀ k, v.order k = s.order k := fun k => by
    unfold State.order
    rw [orders]
  have bin' : ∀ j, v.bin j = s.bin j := fun j => by
    unfold State.bin
    rw [bins]
  have open_ : v.freeBin = some bin :=
    freeBin_eq low (by rw [bin']; exact free) fun j below => by rw [bin']; exact lowest j below
  have cells : (v.assignBin bin slot).orders.freeCells = s.orders.freeCells :=
    (rfl : _ = v.orders.freeCells).trans (congrArg OrderBlock.freeCells orders)
  obtain ⟨t, run, gives, record, rest, frame⟩ := match_gives_full hears idle active live (a := [.orders, .bins])
    (sameBut_assignBin v bin slot) (by simp) cells
    (list.trans (matchBound_free ((order' slot).trans order) unnamed open_))
  have bin_ : ∀ j, t.bin j = if j = bin then ⟨.filling, some slot⟩ else s.bin j := fun j => by
    rw [← bin', ← bin_assignBin v bin slot j]
    unfold State.bin
    rw [rest.bins (by decide)]
  have order_ : ∀ k, t.order k =
      if k = slot then (s.order slot).map fun o => { o with bin := some bin } else s.order k := fun k => by
    rw [← order', ← order' k, ← order_assignBin v bin slot k]
    unfold State.order
    rw [rest.orders (by decide)]
  refine ⟨t, run, gives, record, ⟨(bin_ bin).trans (if_pos rfl), fun j other => (bin_ j).trans (if_neg other), ?_,
    fun k other => (order_ k).trans (if_neg other)⟩, frame⟩
  rw [order_, if_pos rfl, order]
  rfl

theorem match_takesCell (cells : 0 < s.orders.freeCells)
    (list : (s.received .matching kindArrive payload).matchList (arriveReport payload) =
      ((s.received .matching kindArrive payload).takeCells 1).give .matching w) :
    ∃ t, exec (.arrive .matching payload) s = .next t ∧ s.Gives .matching w t ∧ s.recordIs pos { g with age := 0 } t ∧
      (t.orders = { s.orders with freeCells := s.orders.freeCells - 1 } ∧
        t.port.causes = if s.orders.freeCells = s.limits.holdReserve
          then s.port.causes ||| Cause.cellsLow.field else s.port.causes) ∧
      s.sameBut ([.orders, .causes] ++ [.garments, .stations, .messages]) t := by
  have seen := sameBut_received s .matching kindArrive payload
  have orders := seen.orders (by decide)
  obtain ⟨t, run, gives, rest, frame, causes⟩ := match_gives hears idle active
    (sameBut_takeCells (s.received .matching kindArrive payload) 1) (by simp) list
  have left : ((s.received .matching kindArrive payload).takeCells 1).orders =
      { s.orders with freeCells := s.orders.freeCells - 1 } := by
    rw [← orders]
    rfl
  refine ⟨t, run, gives, (rest.garments (by decide)).trans (received_known rfl live),
    ⟨(rest.orders (by decide)).trans left, ?_⟩, sameBut_widen frame (by decide)⟩
  rw [causes, left]
  exact if_congr (by dsimp only; omega) rfl rfl

end

/-- Settles O59, the tests of Table 10-3 in order. -/
theorem matchDecidesInOrder : Obligations.MatchDecidesInOrder := by
  unfold Obligations.MatchDecidesInOrder
  intro s payload hears idle tag
  refine ⟨match_passes hears idle, fun active => ?_⟩
  intro refuses
  have refuse {code : RefusalCode} := match_refuses (s := s) (payload := payload) hears idle active (code := code)
  refine ⟨fun unknown => refuse (matchList_unknown (findTag_received_unknown rfl unknown)), ?_⟩
  intro pos g live matchable spoilt gives plain good
  have named : g.tag = tag := (findTag_some live).2.1
  have known := findTag_received_known (l := .matching) (payload := payload) (kind := kindArrive) rfl live
  let v := s.received .matching kindArrive payload
  have seen : s.sameBut [.garments, .stations] v := sameBut_received s .matching kindArrive payload
  have cure : v.cure = s.cure := seen.cure (by decide)
  have orders : v.orders = s.orders := seen.orders (by decide)
  have order' : ∀ k, v.order k = s.order k := fun k => by
    unfold State.order
    rw [orders]
  have bin' : ∀ j, v.bin j = s.bin j := fun j => by
    unfold State.bin
    rw [seen.bins (by decide)]
  have give {w : OpenVerdict} (list : v.matchList (arriveReport payload) = v.give .matching w) : plain w := by
    obtain ⟨t, run, given, record, frame⟩ := match_plain hears idle active live list
    exact ⟨t, run, given, record, trivial, frame⟩
  have here (at_ : matchable) : v.matchList (arriveReport payload) =
      v.matchGarment (arriveReport payload) { g with age := 0 } := matchList_here known at_
  have rejects : Garment.rejected { g with age := 0 } (arriveReport payload).defect = true ↔ spoilt :=
    (rejected_iff _ _).trans (or_congr_left decide_eq_true_iff)
  have bound (fit : good) {b : Binding} (binding : g.binding = some b) : v.matchList (arriveReport payload) =
      v.matchBound (arriveReport payload) { g with age := 0 } b.slot := by
    obtain ⟨at_, order, sound, cured⟩ := fit
    exact (here at_).trans (matchGarment_bound order (mt rejects.mp sound) cured binding)
  refine ⟨fun away => refuse (matchList_away known away), fun at_ test => ?_, fun at_ order bad => ?_,
    fun at_ order sound under => ?_, fun fit unbound => ?_, fun fit b o binding order => ?_⟩
  · exact named ▸ give ((here at_).trans (matchGarment_test test))
  · exact named ▸ give ((here at_).trans (matchGarment_reject order (rejects.mpr bad)))
  · have list : v.matchList (arriveReport payload) = v.matchRecure (arriveReport payload) tag :=
      ((here at_).trans (matchGarment_recure order (mt rejects.mp sound) under)).trans (by rw [← named])
    refine ⟨fun n low free lowest => match_recures hears idle active live low free lowest list, fun full => ?_⟩
    exact refuse (list.trans (matchRecure_full ((State.Met.freeLane cure).trans (freeLane_none full)) _))
  · obtain ⟨at_, order, sound, cured⟩ := fit
    exact named ▸ give ((here at_).trans (matchGarment_spare order (mt rejects.mp sound) cured unbound))
  · have order_ := (order' b.slot).trans order
    refine ⟨fun bin bin_ => named ▸ give ((bound fit binding).trans (matchBound_named order_ bin_)),
      fun unnamed bin low free lowest => ?_, fun unnamed full => ⟨fun there => ?_, fun exit cells => ?_,
      fun exit cells => ?_⟩⟩
    · exact named ▸ match_assigns hears idle active live order low free lowest unnamed (bound fit binding)
    all_goals
      have list := (bound fit binding).trans
        (matchBound_full order_ unnamed (freeBin_none fun j low => by rw [bin']; exact full j low))
    · exact named ▸ give (list.trans (matchOverflow_again there))
    · exact named ▸ match_takesCell hears idle active live cells
        (list.trans (matchOverflow_cell exit (by rw [orders]; exact cells)))
    · exact refuse (list.trans (matchOverflow_none exit (by rw [orders]; exact cells)))

end Sys2Proof.Machine
end

section
/-! SUPPORT. BIN CLEARED: the order of a bin emptied, and the handover of the bin. -/

namespace Sys2Proof.Machine

variable {s t c : State} {payload : List Byte} {bin slot k : Nat} {o x : Order}

/-! ## A slot freed -/

theorem freeSlot_frees (listed : s.order slot = some o) : (s.freeSlot slot).order slot = none ∧
    (∀ k, k ≠ slot → (s.freeSlot slot).order k = s.order k) ∧
    (s.freeSlot slot).orders.freeCells = s.orders.freeCells + o.lines.length ∧
    (s.freeSlot slot).pendingCause .orderFreed = true := by
  rw [freeSlot_of_order listed]
  refine ⟨(find_erase ..).trans (if_pos rfl), fun k other => (find_erase ..).trans (if_neg other), rfl,
    pendingCause_raise _ _⟩

/-! ## A bin emptied -/

theorem bin_emptyBin (s : State) (bin slot j : Nat) :
    (s.emptyBin bin slot).bin j = if j = bin then {} else s.bin j :=
  bin_setBin s bin j _

theorem order_emptyBin (s : State) (bin slot k : Nat) : (s.emptyBin bin slot).order k =
    if k = slot then (s.order slot).map fun o => { o with bin := none } else s.order k :=
  order_modifyOrder (s := s.setBin bin _) slot k _

theorem sameBut_emptyBin (s : State) (bin slot : Nat) : s.sameBut [.orders, .bins] (s.emptyBin bin slot) := by
  constructor <;> intros <;> simp_all [State.emptyBin, State.setBin, State.modifyOrder]

/-- A bin emptied and its order freed, or left naming no bin. -/
structure State.Empties (s : State) (bin slot : Nat) (o : Order) (c : State) : Prop where
  frame : s.sameBut [.orders, .refs, .bins, .causes] c
  bins : ∀ j, c.bin j = if j = bin then {} else s.bin j
  overflow : c.bins.overflow = s.bins.overflow
  others : ∀ k, k ≠ slot → c.order k = s.order k
  order : (c.order slot = none ∧ c.orders.freeCells = s.orders.freeCells + o.lines.length ∧
      c.pendingCause .orderFreed = true) ∨
    (c.order slot = some { o with bin := none } ∧ c.orders.freeCells = s.orders.freeCells)

theorem empties_of_ready (listed : s.order slot = some o) :
    s.Empties bin slot o ((s.emptyBin bin slot).freeSlot slot) ∧
      ((s.emptyBin bin slot).freeSlot slot).order slot = none := by
  have mine : (s.emptyBin bin slot).order slot = some { o with bin := none } := by
    rw [order_emptyBin, if_pos rfl, listed]
    rfl
  obtain ⟨gone, others, cells, cause⟩ := freeSlot_frees mine
  have rest := sameBut_freeSlot (s.emptyBin bin slot) slot
  refine ⟨⟨sameBut_trans (sameBut_emptyBin s bin slot) rest (by decide) (by decide), fun j => ?_, ?_, fun k other => ?_,
    .inl ⟨gone, cells, cause⟩⟩, gone⟩
  · rw [← bin_emptyBin s bin slot j]
    unfold State.bin
    rw [rest.bins (by decide)]
  · rw [rest.bins (by decide)]
    rfl
  · rw [others k other, order_emptyBin, if_neg other]

theorem empties_of_void (listed : s.order slot = some o) :
    s.Empties bin slot o ((s.emptyBin bin slot).drainTest slot) ∧
      (o.state = .cancelling → (∀ l ∈ o.lines, l.inFlight = 0) →
        ((s.emptyBin bin slot).drainTest slot).order slot = none) ∧
      (o.state = .cancelling → ¬ (∀ l ∈ o.lines, l.inFlight = 0) →
        ((s.emptyBin bin slot).drainTest slot).order slot = some { o with bin := none }) := by
  have mine : (s.emptyBin bin slot).order slot = some { o with bin := none } := by
    rw [order_emptyBin, if_pos rfl, listed]
    rfl
  cases drained : ({ o with bin := none } : Order).drained
  · rw [drainTest_of_not mine drained]
    refine ⟨⟨sameBut_widen (sameBut_emptyBin s bin slot) (by decide), bin_emptyBin s bin slot, rfl, fun k other => ?_,
      .inr ⟨mine, rfl⟩⟩, fun cancelling idle => ?_, fun _ _ => mine⟩
    · rw [order_emptyBin, if_neg other]
    · exact absurd ((drained_iff { o with bin := none }).mpr ⟨cancelling, idle, rfl⟩) (by rw [drained]; decide)
  · rw [drainTest_of_drained mine drained]
    obtain ⟨empties, gone⟩ := empties_of_ready (bin := bin) listed
    exact ⟨empties, fun _ _ => gone, fun _ busy => absurd ((drained_iff { o with bin := none }).mp drained).2.1 busy⟩

/-! ## The handover -/

theorem handover_none (none : s.handoverOrder = Option.none) : s.handover bin = s := by
  rw [State.handover, none]

theorem handover_some (taker : s.handoverOrder = some slot) :
    s.handover bin = (s.assignBin bin slot).raise .binAssigned := by
  rw [State.handover, taker]

theorem sameBut_handover (s : State) (bin : Nat) : s.sameBut [.orders, .bins, .causes] (s.handover bin) := by
  cases taker : s.handoverOrder with
  | none =>
    rw [handover_none taker]
    constructor <;> intros <;> simp
  | some slot =>
    rw [handover_some taker]
    exact sameBut_trans (sameBut_assignBin s bin slot) (sameBut_raise ..) (by decide) (by decide)

/-- What a handover leaves whoever takes the bin. -/
theorem handover_leaves (s : State) (bin : Nat) : (∀ j, j ≠ bin → (s.handover bin).bin j = s.bin j) ∧
    (s.handover bin).bins.overflow = s.bins.overflow ∧ (s.handover bin).orders.freeCells = s.orders.freeCells ∧
    CausesGrow s.port.causes (s.handover bin).port.causes ∧
    ∀ k, s.handoverOrder ≠ some k → (s.handover bin).order k = s.order k := by
  cases taker : s.handoverOrder with
  | none =>
    rw [handover_none taker]
    exact ⟨fun _ _ => rfl, rfl, rfl, .refl _, fun _ _ => rfl⟩
  | some slot =>
    rw [handover_some taker]
    refine ⟨fun j other => (bin_assignBin s bin slot j).trans (if_neg other), rfl, rfl, .or _ _ (by decide),
      fun k other => ?_⟩
    exact (order_assignBin s bin slot k).trans (if_neg fun same => other (congrArg some same.symm))

theorem wantsBin_iff (s : State) (tag : Tag) (k : Nat) : s.wantsBin tag = some k ↔ ∃ pos g b o,
    s.findTag tag = some (pos, g) ∧ g.binding = some b ∧ s.order b.slot = some o ∧ b.slot = k ∧
      o.bin = none ∧ (o.takes = true ∨ o.state = .held) := by
  unfold State.wantsBin
  cases live : s.findTag tag with
  | none => simp
  | some e =>
    obtain ⟨pos, g⟩ := e
    cases binding : g.binding with
    | none => simp [binding]
    | some b =>
      cases order : s.order b.slot with
      | none => simp [binding, order]
      | some o =>
        simp [binding, order]
        tauto

/-- The order that a handover takes once a slot's order takes no bin: the first of the overflow list but for that one. -/
theorem handoverOrder_eq (empties : s.Empties bin slot o c)
    (closed : ∀ x, c.order slot = some x → x.state = .cancelling) :
    c.handoverOrder = s.bins.overflow.findSome? fun tag => (s.wantsBin tag).filter (· ≠ slot) := by
  have wants : ∀ tag, c.wantsBin tag = (s.wantsBin tag).filter (· ≠ slot) := fun tag => by
    have find : c.findTag tag = s.findTag tag := by
      unfold State.findTag
      rw [empties.frame.garments (by decide)]
    ext k
    rw [Option.filter_eq_some_iff, decide_eq_true_iff, wantsBin_iff, wantsBin_iff, find]
    constructor
    · rintro ⟨pos, g, b, x, live, binding, order, rfl, unnamed, takes⟩
      have other : b.slot ≠ slot := fun mine => by
        have cancelling := closed x (mine ▸ order)
        simp [Order.takes, cancelling] at takes
      exact ⟨⟨pos, g, b, x, live, binding, (empties.others _ other).symm.trans order, rfl, unnamed, takes⟩, other⟩
    · rintro ⟨⟨pos, g, b, x, live, binding, order, rfl, unnamed, takes⟩, other⟩
      exact ⟨pos, g, b, x, live, binding, (empties.others _ other).trans order, rfl, unnamed, takes⟩
  unfold State.handoverOrder
  rw [empties.overflow]
  exact congrArg (fun f => s.bins.overflow.findSome? f) (funext wants)

/-- A bin emptied, handed over, and acknowledged. -/
theorem handed (empties : s.Empties bin slot o c) (closed : ∀ x, c.order slot = some x → x.state = .cancelling) :
    let taker := s.bins.overflow.findSome? fun tag => (s.wantsBin tag).filter (· ≠ slot)
    (c.handover bin).order slot = c.order slot ∧
      (taker = none → (c.handover bin).bin bin = ⟨.free, none⟩) ∧
      ∀ k x, taker = some k → s.order k = some x → (c.handover bin).bin bin = ⟨.filling, some k⟩ ∧
        (c.handover bin).order k = some { x with bin := some bin } ∧ (c.handover bin).pendingCause .binAssigned = true := by
  intro taker
  have takes : c.handoverOrder = taker := handoverOrder_eq empties closed
  have other : ∀ k, taker = some k → k ≠ slot := fun k some_ => by
    obtain ⟨tag, -, wants⟩ := List.exists_of_findSome?_eq_some some_
    exact of_decide_eq_true (Option.filter_eq_some_iff.mp wants).2
  refine ⟨?_, fun none => ?_, fun k x some_ listed => ?_⟩
  · exact (handover_leaves c bin).2.2.2.2 slot fun same => other slot (takes.symm.trans same) rfl
  · rw [handover_none (takes.trans none), empties.bins, if_pos rfl]
  · rw [handover_some (takes.trans some_)]
    refine ⟨(bin_assignBin c bin k bin).trans (if_pos rfl), ?_, pendingCause_raise _ _⟩
    refine (order_assignBin c bin k k).trans ((if_pos rfl).trans ?_)
    rw [empties.others k (other k some_), listed]
    rfl

/-! ## BIN CLEARED -/

section
variable (hears : s.Hears .matching kindBinCleared payload)
include hears

theorem exec_binCleared : exec (.binCleared .matching payload) s =
    .next (((s.heard .matching).binCleared (field payload 0 1)).finish s) :=
  congrArg Host.Outcome.next ((receive_eq hears _).trans (by rw [State.received]; rfl))

theorem binCleared_refuses {code : RefusalCode} (refused : (s.heard .matching).binCleared (field payload 0 1) =
      (s.heard .matching).replyRefuse .matching code kindBinCleared 0xFF#8 0#48) :
    ∃ t, exec (.binCleared .matching payload) s = .next t ∧
      s.Refuses .matching (s.station .matching).heard code kindBinCleared (0xFF#8, 0#48) t ∧
      s.sameBut [.stations, .causes, .messages] t := by
  have rest := sameBut_replyRefuse (s.heard .matching) .matching code kindBinCleared 0xFF#8 0#48
  have done := finish_of_more (s := s) (rest.ring (by decide)) (rest.limits (by decide))
    (congrArg OrderBlock.freeCells (rest.orders (by decide))).ge
  refine ⟨_, (exec_binCleared hears).trans (by rw [refused, done]), ?_, ?_⟩
  · exact refuses_of_reply _ rfl rfl rfl rfl rfl
  · exact sameBut_trans (sameBut_heard ..) rest (by decide) (by decide)

/-- A bin cleared is acknowledged. -/
theorem binCleared_done (low : ¬ 47 < field payload 0 1)
    (empties : (s.heard .matching).Empties (field payload 0 1) slot o c)
    (cleared : (s.heard .matching).clearBin (field payload 0 1) = some (c.handover (field payload 0 1))) :
    ∃ t, exec (.binCleared .matching payload) s = .next t ∧
      s.Answers .matching (s.station .matching).answered (.ack kindBinCleared (s.station .matching).mode) t ∧
      (c.handover (field payload 0 1)).sameBut [.stations, .messages] t ∧
      s.sameBut [.orders, .refs, .stations, .bins, .causes, .messages] t := by
  let bin := field payload 0 1
  have rest : (s.heard .matching).sameBut [.orders, .refs, .bins, .causes] (c.handover bin) :=
    sameBut_trans empties.frame (sameBut_handover c bin) (by decide) (by decide)
  have cells : s.orders.freeCells ≤ (c.handover bin).orders.freeCells := by
    rw [(handover_leaves c bin).2.2.1]
    rcases empties.order with ⟨-, more, -⟩ | ⟨-, same⟩
    · rw [more]
      exact Nat.le_add_right ..
    · rw [same]
      exact le_rfl
  have station : ∀ n, (c.handover bin).station n = (s.heard .matching).station n := fun n => by
    unfold State.station
    rw [rest.stations (by decide)]
  have reply : (s.heard .matching).binCleared bin = (c.handover bin).replied .matching (s.station .matching).answered
      (.ack kindBinCleared (s.station .matching).mode) := by
    unfold State.binCleared
    rw [if_neg low, cleared]
    dsimp only
    rw [replyAck_eq, station]
    rfl
  refine ⟨_, (exec_binCleared hears).trans (by rw [reply]), ?_, ?_, ?_⟩
  all_goals rw [finish_of_more (s := s) (t := (c.handover bin).replied .matching (s.station .matching).answered
    (.ack kindBinCleared (s.station .matching).mode)) (rest.ring (by decide)) (rest.limits (by decide)) cells]
  · refine ⟨station_replied .., fun n other => ?_, congrArg (· ++ _) (rest.messages (by decide))⟩
    rw [station_replied_ne _ _ other, station]
    exact station_modifyStation_ne _ other _
  · exact sameBut_replied ..
  · exact sameBut_trans (sameBut_trans (changed := [.orders, .refs, .stations, .bins, .causes]) (sameBut_heard ..) rest
      (by decide) (by decide)) (sameBut_replied ..) (by decide) (by decide)

end

theorem clearBin_none (held : (s.bin bin).state = .free ∨ (s.bin bin).state = .filling) : s.clearBin bin = none := by
  unfold State.clearBin
  cases whole : s.bin bin with
  | mk state order => rcases held with h | h <;> simp_all

theorem clearBin_ready (ready : (s.bin bin).state = .ready) (order : (s.bin bin).order = some slot) :
    s.clearBin bin = some (((s.emptyBin bin slot).freeSlot slot).handover bin) := by
  unfold State.clearBin
  cases whole : s.bin bin with
  | mk state order => simp_all

theorem clearBin_void (void : (s.bin bin).state = .void) (order : (s.bin bin).order = some slot)
    (unnamed : s.binNamed bin = false) :
    s.clearBin bin = some (((s.emptyBin bin slot).drainTest slot).handover bin) := by
  unfold State.clearBin
  cases whole : s.bin bin with
  | mk state order => simp_all

theorem clearBin_named (void : (s.bin bin).state = .void) (named : s.binNamed bin = true) : s.clearBin bin = none := by
  unfold State.clearBin
  cases whole : s.bin bin with
  | mk state order => cases order <;> simp_all

theorem binNamed_iff (s : State) (bin : Nat) : s.binNamed bin = true ↔
    ∃ v, s.verdictOf .matching = some v ∧ v.verdict = .bin ∧ v.param1 = bin := by
  unfold State.binNamed
  cases s.verdictOf .matching <;> simp

/-- What the obligation claims of an order and a bin, whichever way the bin is cleared. -/
theorem binCleared_clears (hears : s.Hears .matching kindBinCleared payload) (low : field payload 0 1 ≤ 47)
    (empties : (s.heard .matching).Empties (field payload 0 1) slot o c)
    (cleared : (s.heard .matching).clearBin (field payload 0 1) = some (c.handover (field payload 0 1)))
    {ready : Prop} (freed : ready ∨ (o.state = .cancelling ∧ ∀ l ∈ o.lines, l.inFlight = 0) → c.order slot = none)
    (stands : o.state = .cancelling → ¬ (∀ l ∈ o.lines, l.inFlight = 0) → ¬ ready →
      c.order slot = some { o with bin := none }) :
    let bin := field payload 0 1
    let taker := s.bins.overflow.findSome? fun tag => (s.wantsBin tag).filter (· ≠ slot)
    ∃ t, exec (.binCleared .matching payload) s = .next t ∧
      s.Answers .matching (s.station .matching).answered (.ack kindBinCleared (s.station .matching).mode) t ∧
      (ready ∨ (o.state = .cancelling ∧ ∀ l ∈ o.lines, l.inFlight = 0) →
        t.order slot = none ∧ t.orders.freeCells = s.orders.freeCells + o.lines.length ∧
        t.pendingCause .orderFreed = true) ∧
      (¬ ready → o.state = .cancelling → ¬ (∀ l ∈ o.lines, l.inFlight = 0) →
        t.order slot = some { o with bin := none } ∧ t.orders.freeCells = s.orders.freeCells) ∧
      (ready ∨ o.state = .cancelling →
        (taker = none → t.bin bin = ⟨.free, none⟩) ∧
        (∀ k x, taker = some k → s.order k = some x → t.bin bin = ⟨.filling, some k⟩ ∧
          t.order k = some { x with bin := some bin } ∧ t.pendingCause .binAssigned = true)) ∧
      (∀ j, j ≠ bin → t.bin j = s.bin j) ∧ t.bins.overflow = s.bins.overflow ∧
      s.sameBut [.orders, .refs, .stations, .bins, .causes, .messages] t := by
  intro bin taker
  obtain ⟨t, run, answer, rest, frame⟩ := binCleared_done hears (by omega) empties cleared
  obtain ⟨away, overflow, cells, grow, untaken⟩ := handover_leaves c bin
  have order_ : ∀ k, t.order k = (c.handover bin).order k := fun k => by
    unfold State.order
    rw [rest.orders (by decide)]
  have bin_ : ∀ j, t.bin j = (c.handover bin).bin j := fun j => by
    unfold State.bin
    rw [rest.bins (by decide)]
  have cells_ : t.orders.freeCells = c.orders.freeCells := by rw [rest.orders (by decide), cells]
  have cause {f : Cause} (h : (c.handover bin).pendingCause f = true) : t.pendingCause f = true := by
    unfold State.pendingCause at h ⊢
    rwa [rest.causes (by decide)]
  have closed : ready ∨ o.state = .cancelling → ∀ x, c.order slot = some x → x.state = .cancelling := fun fits x at_ => by
    rcases fits with fits | cancelling
    · rw [freed (.inl fits)] at at_
      cases at_
    · rcases empties.order with ⟨gone, -⟩ | ⟨left, -⟩
      · rw [gone] at at_
        cases at_
      · rw [left] at at_
        cases at_
        exact cancelling
  refine ⟨t, run, answer, fun free => ?_, fun kept cancelling busy => ?_, fun fits => ?_, fun j other => ?_, ?_, frame⟩
  · have gone := freed free
    obtain ⟨same, -⟩ := handed empties (closed (free.imp_right And.left))
    rcases empties.order with ⟨-, more, raised⟩ | ⟨left, -⟩
    · exact ⟨(order_ slot).trans (same.trans gone), cells_.trans more, cause (pendingCause_of_grow grow raised)⟩
    · rw [gone] at left
      cases left
  · have left := stands cancelling busy kept
    obtain ⟨same, -⟩ := handed empties (closed (.inr cancelling))
    rcases empties.order with ⟨gone, -⟩ | ⟨-, level⟩
    · rw [left] at gone
      cases gone
    · exact ⟨(order_ slot).trans (same.trans left), cells_.trans level⟩
  · obtain ⟨-, none, some_⟩ := handed empties (closed fits)
    refine ⟨fun idle => (bin_ bin).trans (none idle), fun k x takes at_ => ?_⟩
    obtain ⟨now, named, raised⟩ := some_ k x takes at_
    exact ⟨(bin_ bin).trans now, (order_ k).trans named, cause raised⟩
  · rw [bin_, away j other, empties.bins, if_neg other]
    rfl
  · rw [rest.bins (by decide), overflow, empties.overflow]
    rfl

/-- Settles O60, by the state of the bin. -/
theorem binClearedFreesTheBin : Obligations.BinClearedFreesTheBin := by
  unfold Obligations.BinClearedFreesTheBin
  intro s payload hears bin refuses named
  have named_ : (s.heard .matching).binNamed bin = true ↔ named := by
    have same : (s.heard .matching).verdictOf .matching = s.verdictOf .matching := rfl
    rw [binNamed_iff, same]
  have badState (low : bin ≤ 47) (kept : (s.heard .matching).clearBin bin = none) : refuses .badState := by
    refine binCleared_refuses hears ?_
    rw [State.binCleared, if_neg (by omega), show (s.heard .matching).clearBin (field payload 0 1) = none from kept]
  refine ⟨fun high => ?_, fun low busy => badState low (clearBin_none busy),
    fun low void name => badState low (clearBin_named void (named_.mpr name)), fun slot o low order listed clears => ?_⟩
  · exact binCleared_refuses hears (if_pos high)
  intro idle taker
  rcases clears with ready | ⟨void, unnamed⟩
  · obtain ⟨empties, gone⟩ := empties_of_ready (s := s.heard .matching) (bin := bin) listed
    obtain ⟨t, run, answer, freed, -, taken, rest⟩ := binCleared_clears (ready := True) hears low empties
      (clearBin_ready ready order) (fun _ => gone) fun _ _ no => absurd trivial no
    exact ⟨t, run, answer, fun _ => freed (.inl trivial), (fun void => nomatch ready.symm.trans void),
      fun _ => taken (.inl trivial), rest⟩
  · obtain ⟨empties, gone, left⟩ := empties_of_void (s := s.heard .matching) (bin := bin) listed
    obtain ⟨t, run, answer, freed, stays, taken, rest⟩ := binCleared_clears (ready := False) hears low empties
      (clearBin_void void order (Bool.eq_false_iff.mpr (mt named_.mp unnamed)))
      (fun h => h.elim False.elim fun h => gone h.1 h.2) fun cancelling busy _ => left cancelling busy
    have unready {p : Prop} (h : (s.bin bin).state = .ready ∨ p) : False ∨ p :=
      h.imp_left fun ready => by rw [void] at ready; cases ready
    exact ⟨t, run, answer, fun h => freed (unready h), fun _ => stays id, fun h => taken (unready h), rest⟩

end Sys2Proof.Machine
end

section
/-! SUPPORT. What follows the end of an open verdict: the garment of an order being cancelled is taken up, and what a
station's own retirement of its garment gives back. -/

namespace Sys2Proof.Machine

variable {s t u : State} {l : Link} {tag : Tag} {pos : Nat} {g : Garment} {b : Binding} {o : Order} {v : OpenVerdict}

/-! ## Tags that stay where they are -/

/-- The live records stand where they stood, under the tags they had. -/
structure State.SameTags (s t : State) : Prop where
  tags : ∀ p, (t.garments.records.find p).map Garment.tag = (s.garments.records.find p).map Garment.tag

theorem State.SameTags.refl (s : State) : s.SameTags s := ⟨fun _ => rfl⟩

theorem State.SameTags.trans (h : s.SameTags t) (k : t.SameTags u) : s.SameTags u := ⟨fun p => (k.tags p).trans (h.tags p)⟩

theorem sameTags_of_garments (h : t.garments = s.garments) : s.SameTags t := ⟨fun p => by rw [h]⟩

theorem sameTags_putRecord (h : u.garments = s.garments) (listed : s.garments.records.find pos = some g) {x : Garment}
    (tag : x.tag = g.tag) : s.SameTags (u.putRecord pos x) := ⟨fun p => by
  show ((u.garments.records.put pos x).find p).map Garment.tag = _
  rw [h]
  by_cases here : p = pos
  · rw [here, find_put_same, listed]
    exact congrArg some tag
  · rw [find_put_ne _ here]⟩

theorem sameTags_bindGarment (s : State) (tag : Tag) (slot line : Nat) : s.SameTags (s.bindGarment tag slot line) := by
  unfold State.bindGarment
  split
  · rename_i p g x live _
    refine sameTags_putRecord ?_ (findTag_some live).1 (tag_repulse ..)
    rw [garments_moveDesign]
    exact garments_leaveLine ..
  · exact .refl s

theorem sameTags_chooseAndBind (s : State) (tag : Tag) (set : LineSet) : s.SameTags (s.chooseAndBind tag set).1 := by
  unfold State.chooseAndBind
  split
  · exact .refl s
  · split
    · exact .refl s
    · rename_i c sched _
      exact State.SameTags.trans (t := { s with sched := sched }) (sameTags_of_garments rfl)
        (sameTags_bindGarment _ tag c.slot c.line)

theorem sameTags_offer (s : State) (set : LineSet) : s.SameTags (s.offer set) := by
  unfold State.offer State.offerCounted
  generalize s.orphans = tags, 0 = n
  induction tags generalizing s n with
  | nil => exact .refl s
  | cons tag tags ih => exact (sameTags_chooseAndBind s tag set).trans (ih _ _)

theorem sameTags_endBinding (s : State) (reason : Reason) (b : Option Binding) :
    s.SameTags (s.endBinding reason b) := by
  cases b with
  | none => exact .refl s
  | some b =>
    have drain (z : State) : z.SameTags (z.drainTest b.slot) :=
      sameTags_of_garments ((sameBut_drainTest z b.slot).garments (by decide))
    have left : s.SameTags (s.leaveLine (some b)) := sameTags_of_garments (garments_leaveLine ..)
    refine (left.trans ?_).trans (drain _)
    generalize s.leaveLine (some b) = z
    cases reason with
    | binned => exact sameTags_of_garments (garments_reexamine ..)
    | rejected => exact (sameTags_of_garments (garments_chargeSpoil ..)).trans (sameTags_offer ..)
    | scrapped => exact (sameTags_of_garments (garments_chargeSpoil ..)).trans (sameTags_offer ..)
    | lost => exact sameTags_offer ..
    | manual => exact sameTags_offer ..
    | testOut => exact .refl z
    | spare => exact .refl z
    | returned => exact .refl z
    | withdrawn => exact .refl z

theorem findTag_none_of (apart : ∀ p x, s.garments.records.find p = some x → x.tag ≠ tag) : s.findTag tag = none := by
  cases found : s.findTag tag with
  | none => rfl
  | some e =>
    obtain ⟨p, x⟩ := e
    obtain ⟨listed, named, -⟩ := findTag_some found
    exact absurd named (apart p x listed)

/-- A retired garment is the last of its tag, whatever else the retirement does. -/
theorem findTag_retire (alone : ∀ p x, s.garments.records.find p = some x → x.tag = tag → p = pos) (reason : Reason)
    (live : s.findTag tag = some (pos, g)) : (s.retire reason tag).findTag tag = none := by
  refine findTag_none_of fun p x listed named => ?_
  have free := find_retire reason live
  have same := (sameTags_endBinding (s.gone reason (pos, g)) reason g.binding).tags p
  rw [← retire_eq reason live, listed, gone_garments] at same
  have other : p ≠ pos := fun here => by
    rw [here, free] at listed
    cases listed
  rw [show (s.garments.records.erase pos).find p = _ from find_erase .., if_neg other] at same
  obtain ⟨y, before, tag_⟩ := Option.map_eq_some_iff.mp same.symm
  exact other (alone p y before (tag_.trans named))

theorem alone_of_tagsSafe (tags : TagsSafe s) (live : s.findTag tag = some (pos, g)) :
    ∀ p x, s.garments.records.find p = some x → x.tag = tag → p = pos := fun p x listed named => by
  obtain ⟨here, isTag, -⟩ := findTag_some live
  exact tags.single p pos x g listed here (named.trans isTag.symm)

/-! ## After the verdict -/

theorem afterVerdict_unknown (unknown : s.findTag tag = none) : s.afterVerdict tag = s := by
  rw [State.afterVerdict, unknown]

theorem afterVerdict_bound (live : s.findTag tag = some (pos, g)) (bound : g.binding = some b)
    (listed : s.order b.slot = some o) :
    s.afterVerdict tag = if o.state = .cancelling then (s.stageRule tag).drainTest b.slot else s := by
  rw [State.afterVerdict, live]
  dsimp only
  rw [bound]
  dsimp only
  rw [listed]

/-- A garment of no order being cancelled is left as it is. -/
theorem afterVerdict_free (free : ∀ pos g, s.findTag tag = some (pos, g) → s.notCancelled g) : s.afterVerdict tag = s := by
  cases live : s.findTag tag with
  | none => exact afterVerdict_unknown live
  | some e =>
    obtain ⟨pos, g⟩ := e
    cases bound : g.binding with
    | none =>
      rw [State.afterVerdict, live]
      dsimp only
      rw [bound]
    | some b =>
      cases listed : s.order b.slot with
      | none =>
        rw [State.afterVerdict, live]
        dsimp only
        rw [bound]
        dsimp only
        rw [listed]
      | some o => rw [afterVerdict_bound live bound listed, if_neg (free pos g live b o bound listed)]

theorem aside_afterVerdict (s : State) (tag : Tag) : (s.afterVerdict tag).aside = s.aside := by
  unfold State.afterVerdict
  split
  · rfl
  · split
    · rfl
    · split
      · rfl
      · split
        · exact (drainTest_aside ..).trans (binds_stageRule ..).aside
        · rfl

theorem sameBut_afterVerdict (s : State) (tag : Tag) :
    s.sameBut [.garments, .orders, .sched, .refs, .bins, .causes] (s.afterVerdict tag) :=
  sameBut_of_aside (aside_afterVerdict s tag)

theorem bins_afterVerdict (s : State) (tag : Tag) : (s.afterVerdict tag).bins = s.bins := by
  unfold State.afterVerdict
  split
  · rfl
  · split
    · rfl
    · split
      · rfl
      · split
        · exact ((sameBut_drainTest ..).bins (by decide)).trans (binds_stageRule ..).bins
        · rfl

theorem cells_afterVerdict (s : State) (tag : Tag) : s.orders.freeCells ≤ (s.afterVerdict tag).orders.freeCells := by
  unfold State.afterVerdict
  split
  · exact le_rfl
  · split
    · exact le_rfl
    · split
      · exact le_rfl
      · split
        · rw [← (binds_stageRule s tag).cells]
          exact cells_drainTest ..
        · exact le_rfl

theorem inFlight_less (o : Order) (i : Nat) :
    ((o.less i).lines[i]?).map Line.inFlight = (o.lines[i]?).map fun x => x.inFlight - 1 := by
  unfold Order.less
  rw [getElem?_modifyAt, if_pos rfl, Option.map_map]
  rfl

/-- A garment of an order being cancelled is taken up: bound elsewhere or an orphan, its old line one fewer. -/
theorem leavesOrder_afterVerdict (ok : s.orders.slots.wf = true) (live : s.findTag tag = some (pos, g))
    (bound : g.binding = some b) (listed : s.order b.slot = some o) (shut : o.state = .cancelling) :
    s.LeavesOrder pos b (s.afterVerdict tag) := by
  have staged := staged_stageRule bound (fun x at_ => by
    rw [listed, Option.some.injEq] at at_
    exact at_ ▸ shut) live ok
  rw [afterVerdict_bound live bound listed, if_pos shut]
  generalize s.stageRule tag = w at staged ⊢
  have garments : (w.drainTest b.slot).garments = w.garments := (sameBut_drainTest w b.slot).garments (by decide)
  refine ⟨fun x c at_ binding => ?_, fun x y before after => ?_⟩
  · rw [garments] at at_
    rcases staged.record with ⟨r, -⟩ | ⟨-, k, i, -, y, other, -, r⟩
    · rw [r, show Table.find (Table.put s.garments.records pos _) pos = _ from find_put_same ..,
        Option.some.injEq] at at_
      rw [← at_] at binding
      cases binding
    · rw [r, show Table.find (Table.put s.garments.records pos _) pos = _ from find_put_same ..,
        Option.some.injEq] at at_
      rw [← at_] at binding
      cases binding
      exact other
  · rw [listed, Option.some.injEq] at before
    subst before
    rw [drainTest_order, staged.left, listed, Option.map_some, Option.bind_some] at after
    split at after
    · cases after
    · rw [← Option.some.inj after]
      exact inFlight_less ..

/-- A spoiled garment of an order being cancelled is unbound as it stands. -/
theorem spoiled_afterVerdict (ok : s.orders.slots.wf = true) (live : s.findTag tag = some (pos, g))
    (bound : g.binding = some b) (listed : s.order b.slot = some o) (shut : o.state = .cancelling)
    (spoiled : g.spoiled = true) :
    (s.afterVerdict tag).garments.records.find pos = some { g with binding := none } := by
  have staged := staged_stageRule bound (fun x at_ => by
    rw [listed, Option.some.injEq] at at_
    exact at_ ▸ shut) live ok
  rw [afterVerdict_bound live bound listed, if_pos shut, (sameBut_drainTest ..).garments (by decide)]
  rcases staged.record with ⟨r, -⟩ | ⟨fit, -⟩
  · rw [r]
    exact find_put_same ..
  · rw [spoiled] at fit
    cases fit

/-- A garment off its order is still so while the records and the orders stand. -/
theorem leavesOrder_later (h : u.LeavesOrder pos b t) (before : u.order b.slot = s.order b.slot) {w : State}
    (garments : w.garments = t.garments) (orders : w.orders = t.orders) : s.LeavesOrder pos b w where
  unbound x c at_ := h.unbound x c (by rw [← garments]; exact at_)
  fallen x y at_ now := h.fallen x y (before.trans at_) (by
    unfold State.order at now ⊢
    rw [← orders]
    exact now)

/-! ## A record ended -/

theorem station_endRecord (s : State) (l : Link) :
    (s.endRecord l).station l = { s.station l with verdict := none, workTimer := none } :=
  station_modifyStation ..

theorem station_endRecord_ne (s : State) {n : Link} (other : n ≠ l) : (s.endRecord l).station n = s.station n :=
  station_modifyStation_ne _ other _

theorem verdictOf_endRecord_ne (s : State) {n : Link} (other : n ≠ l) : (s.endRecord l).verdictOf n = s.verdictOf n :=
  congrArg Station.verdict (station_endRecord_ne s other)

theorem sameBut_endRecord (s : State) (l : Link) : s.sameBut [.stations] (s.endRecord l) := by
  constructor <;> intros <;> simp_all [State.endRecord, State.modifyStation]

/-- The stations whose verdict answers a test, once one that answers it has ended. -/
theorem any_endRecord (opened : s.verdictOf l = some v) (p : OpenVerdict → Bool) :
    (Link.all.any fun n => (s.verdictOf n).any p) = ((Link.all.any fun n => ((s.endRecord l).verdictOf n).any p) || p v) := by
  rw [Bool.eq_iff_iff, Bool.or_eq_true, List.any_eq_true, List.any_eq_true]
  constructor
  · rintro ⟨n, all, named⟩
    by_cases here : n = l
    · rw [here, opened] at named
      exact .inr named
    · exact .inl ⟨n, all, by rwa [verdictOf_endRecord_ne s here]⟩
  · rintro (⟨n, all, named⟩ | named)
    · by_cases here : n = l
      · rw [here, verdictOf_endRecord] at named
        cases named
      · exact ⟨n, all, by rwa [verdictOf_endRecord_ne s here] at named⟩
    · exact ⟨l, mem_linkAll l, by rwa [opened]⟩

theorem without_endRecord (opened : s.verdictOf l = some v) :
    ((s.endRecord l).station l).without v.tag = (s.station l).without v.tag := by
  have named : (s.station l).verdict = some v := opened
  rw [station_endRecord]
  unfold Station.without
  simp [named, Option.filter]

/-- What a station's own retirement of its verdict's garment gives back (R18, R20, R95, R108). -/
theorem givesBack_own (opened : s.verdictOf l = some v) (live : s.findTag v.tag = some (pos, g)) (reason : Reason) :
    ∃ served, s.GivesBack (some l) g (((s.endRecord l).retire reason v.tag).releaseHold v.platen) served ∧
      (((s.endRecord l).retire reason v.tag).releaseHold v.platen).station l = (s.station l).without v.tag ∧
      (((s.endRecord l).retire reason v.tag).releaseHold v.platen).sent = s.sent ++ served := by
  have named : g.tag = v.tag := (findTag_some live).2.1
  obtain ⟨served, gives, sent⟩ := givesBack_retire (s := s.endRecord l) live reason
  have away : l = .unload → served = [] := fun here =>
    (gives.lanes.1 (.inl fun w at_ => by
      rw [← here, verdictOf_endRecord] at at_
      cases at_)).1
  rw [releaseHold_eq]
  have platens := platen_releaseHold (s := (s.endRecord l).retire reason v.tag) v.platen
  refine ⟨served, ⟨fun k => ?_, gives.exitQueue, gives.overflow, ?_, ⟨fun idle => ?_, fun w n at_ wait other => ?_⟩,
    gives.tunnel, fun n other free => ?_, gives.classes⟩, ?_, sent⟩
  · refine (platens k).trans ?_
    rw [gives.platens k, any_endRecord opened]
    have held : (if v.platen = some k then false else ((s.endRecord l).platen k).held &&
          !Link.all.any fun n => ((s.endRecord l).verdictOf n).any fun v => v.tag = g.tag ∧ v.platen = some k) =
        ((s.platen k).held && !((Link.all.any fun n => ((s.endRecord l).verdictOf n).any fun v =>
          v.tag = g.tag ∧ v.platen = some k) || decide (v.tag = g.tag ∧ v.platen = some k))) := by
      by_cases mine : v.platen = some k
      · simp [mine, named]
      · simp only [mine, if_false, and_false, decide_false, Bool.or_false]
        rfl
    exact congrArg (Platen.mk _ _) held
  · have same : (Link.all.filter fun n => some n ≠ (none : Option Link) ∧
          ((s.endRecord l).verdictOf n).any fun v => v.tag = g.tag ∧ v.holdTaken) =
        Link.all.filter fun n => some n ≠ some l ∧ (s.verdictOf n).any fun v => v.tag = g.tag ∧ v.holdTaken := by
      refine List.filter_congr fun n _ => ?_
      by_cases here : n = l
      · simp [here, verdictOf_endRecord]
      · simp [here, verdictOf_endRecord_ne s here]
    rw [← same]
    exact gives.cells
  · refine gives.lanes.1 (idle.imp_left fun works w at_ => ?_)
    by_cases here : Link.unload = l
    · rw [here, verdictOf_endRecord] at at_
      cases at_
    · rw [verdictOf_endRecord_ne s here] at at_
      exact works w at_
  · have here : Link.unload ≠ l := fun here => by
      rw [here, opened, Option.some.injEq] at at_
      exact other (at_ ▸ named.symm)
    intro low free lowest
    obtain ⟨told, handed, rest⟩ := gives.lanes.2 w n ((verdictOf_endRecord_ne s here).trans at_) wait other low free lowest
    refine ⟨told, ⟨handed.station.trans ?_, handed.lane⟩, rest⟩
    rw [station_endRecord_ne s here]
    rfl
  · refine (gives.stations n (by simp) free).trans ?_
    rw [station_endRecord_ne s fun here => other (congrArg some here)]
  · refine (gives.stations l (by simp) (by tauto)).trans ?_
    rw [named]
    exact without_endRecord opened

/-- The end of the binding of a garment that its own station retires MANUAL or LOST. -/
theorem endsBinding_own (opened : s.verdictOf l = some v) (live : s.findTag v.tag = some (pos, g)) {reason : Reason}
    (offers : reason.offers) :
    s.EndsBinding pos g (((s.endRecord l).retire reason v.tag).releaseHold v.platen) := by
  have named : g.tag = v.tag := (findTag_some live).2.1
  have ends := endsBinding_retire (s := s.endRecord l) offers live
  have later : (s.endRecord l).EndsBinding pos g (((s.endRecord l).retire reason v.tag).releaseHold v.platen) := by
    rw [releaseHold_eq]
    exact endsBinding_later ends rfl rfl rfl rfl rfl rfl id
  have names : ∀ {t}, (s.endRecord l).namesSame g.tag t → s.namesSame g.tag t := fun same other apart => by
    rw [← same other apart]
    constructor
    · rintro ⟨n, w, at_, tag_⟩
      refine ⟨n, w, (verdictOf_endRecord_ne s fun here => ?_).trans at_, tag_⟩
      rw [here, opened, Option.some.injEq] at at_
      exact apart (tag_.symm.trans ((congrArg OpenVerdict.tag at_).symm.trans named.symm))
    · rintro ⟨n, w, at_, tag_⟩
      by_cases here : n = l
      · rw [here, verdictOf_endRecord] at at_
        cases at_
      · exact ⟨n, w, by rwa [verdictOf_endRecord_ne s here] at at_, tag_⟩
  refine ⟨later.unbound, fun b o bound listed stands => ?_, fun tables b o bound listed shut => ?_⟩
  · obtain ⟨x, now, fields, flights, none, offered⟩ := later.offered b o bound listed stands
    refine ⟨x, now, fields, flights, none, fun tables single safe => ?_⟩
    obtain ⟨w, n, offers, left, others, garments, sched, refs, same⟩ := offered { tables with } single safe
    exact ⟨w, n, offers, left, others, garments, sched, refs, names same⟩
  · obtain ⟨gone, credits, leaves⟩ := later.cancelling { tables with } b o bound listed shut
    exact ⟨gone, credits, ⟨leaves.others, leaves.freed, leaves.stands⟩⟩

end Sys2Proof.Machine
end

section
/-! SUPPORT. Verdicts withdrawn: the undo of Table 5-8 by the kind of verdict, at once with its hold, and the halt. -/

namespace Sys2Proof.Machine

variable {s t u : State} {l : Link} {tag : Tag} {pos : Nat} {g : Garment} {b : Binding} {o : Order} {v : OpenVerdict}
  {w : Withdrawal}

/-! ## What an undo can reach -/

theorem sameBut_of_quiet (quiet : Quiet s t) (meter : t.meter = s.meter) :
    s.sameBut [.garments, .orders, .sched, .refs, .stations, .ring, .cure, .bins, .causes, .messages] t where
  garments m := absurd (by simp) m
  orders m := absurd (by simp) m
  sched m := absurd (by simp) m
  refs m := absurd (by simp) m
  stations m := absurd (by simp) m
  ring m := absurd (by simp) m
  meter _ := meter
  cure m := absurd (by simp) m
  bins m := absurd (by simp) m
  limits _ := congrArg (·.limits) quiet.fixed
  causes m := absurd (by simp) m
  settings _ := ⟨congrArg (·.port.mask) quiet.fixed, congrArg (·.port.resetIndicator) quiet.fixed⟩
  transport _ := ⟨congrArg (·.port.state) quiet.fixed, congrArg (·.port.kept) quiet.fixed,
    congrArg (·.port.reading) quiet.fixed, congrArg (·.shifted) quiet.fixed⟩
  messages m := absurd (by simp) m
  reads _ := congrArg (·.freeReads) quiet.fixed
  queue := congrArg (·.pending) quiet.fixed

theorem drive_of_quiet (quiet : Quiet s t) : { t.ring with platens := s.ring.platens } = s.ring := by
  have same : { t.ring with platens := [] } = { s.ring with platens := [] } := congrArg (·.ring) quiet.fixed
  calc { t.ring with platens := s.ring.platens }
      = { ({ t.ring with platens := [] } : Ring) with platens := s.ring.platens } := rfl
    _ = { ({ s.ring with platens := [] } : Ring) with platens := s.ring.platens } := by rw [same]
    _ = s.ring := rfl

/-- What an undo leaves: the meter and the bins, with no cell lost. -/
structure State.Undoes (s t : State) : Prop where
  quiet : Quiet s t
  meter : t.meter = s.meter
  bins : t.bins.records = s.bins.records
  cells : s.orders.freeCells ≤ t.orders.freeCells

theorem State.Undoes.refl (s : State) : s.Undoes s := ⟨.refl s, rfl, rfl, le_rfl⟩

theorem State.Undoes.trans (h : s.Undoes t) (k : t.Undoes u) : s.Undoes u :=
  ⟨h.quiet.trans k.quiet, k.meter.trans h.meter, k.bins.trans h.bins, h.cells.trans k.cells⟩

theorem undoes_of_sameBut {a : List Area} (quiet : Quiet s t) (frame : s.sameBut a t)
    (kept : ∀ x ∈ [Area.orders, .meter, .bins], x ∉ a) : s.Undoes t :=
  ⟨quiet, frame.meter (kept _ (by simp)), congrArg BinBlock.records (frame.bins (kept _ (by simp))),
    (congrArg OrderBlock.freeCells (frame.orders (kept _ (by simp)))).ge⟩

theorem sameBut_refl (s : State) : s.sameBut [] s := by constructor <;> intros <;> simp

theorem sameBut_putRecord (s : State) (pos : Nat) (g : Garment) : s.sameBut [.garments] (s.putRecord pos g) := by
  constructor <;> intros <;> simp_all [State.putRecord]

theorem sameBut_modifyGarment (s : State) (tag : Tag) (f : Garment → Garment) :
    s.sameBut [.garments] (s.modifyGarment tag f) := by
  unfold State.modifyGarment
  split <;> constructor <;> intros <;> simp_all [State.putRecord]

theorem sameBut_serveWait (s : State) : s.sameBut [.cure, .stations, .messages] s.serveWait := by
  rw [serveWait_eq]
  constructor <;> intros <;> simp_all

theorem sameBut_releaseLanes (s : State) (tag : Tag) : s.sameBut [.cure] (s.releaseLanes tag) := by
  rw [(releaseLanes_spec s tag).1]
  constructor <;> intros <;> simp_all

theorem sameBut_send (s : State) (l : Link) (m : Message) : s.sameBut [.messages] (s.send l m) := by
  constructor <;> intros <;> simp_all [State.send]

theorem sameBut_releaseHold (s : State) (p : Option Nat) : s.sameBut [.ring] (s.releaseHold p) := by
  rw [releaseHold_eq]
  constructor <;> intros <;> simp_all

theorem undoes_retire {reason : Reason} (kind : reason = .lost ∨ reason = .withdrawn) (s : State) (tag : Tag) :
    s.Undoes (s.retire reason tag) := by
  cases live : s.findTag tag with
  | none =>
    rw [show s.retire reason tag = s by rw [State.retire, live]]
    exact .refl s
  | some e =>
    obtain ⟨pos, g⟩ := e
    refine ⟨quiet_retire .., (sameBut_retire reason live).meter (by decide), ?_, cells_retire reason live⟩
    rcases kind with rfl | rfl
    · have stand := congrArg BinBlock.records (bins_retire .lost live (.inr rfl))
      exact stand
    · rw [retire_eq _ live]
      have gone : (s.gone .withdrawn (pos, g)).bins.records = s.bins.records := by rw [gone_bins]
      refine Eq.trans ?_ gone
      cases g.binding with
      | none => rfl
      | some b =>
        refine (congrArg BinBlock.records ((sameBut_drainTest _ b.slot).bins (by decide))).trans ?_
        exact congrArg BinBlock.records (binds_leaveLine (s := s.gone .withdrawn (pos, g)) (some b)).bins

theorem undoes_undoVerdict (s : State) (w : Withdrawal) (l : Link) (v : OpenVerdict) :
    s.Undoes (s.undoVerdict w l v) := by
  have quiet := quiet_undoVerdict (s := s) w l v
  have spoil : s.Undoes (s.spoil v.tag) :=
    undoes_of_sameBut (quiet_spoil ..) (sameBut_modifyGarment s v.tag _) (by decide)
  unfold State.undoVerdict at quiet ⊢
  cases kind : v.verdict
  case load => exact undoes_retire (.inr rfl) s v.tag
  case toBelt => exact undoes_retire (.inl rfl) s v.tag
  case spray => exact spoil
  case print => exact spoil
  case wait =>
    rw [kind] at quiet
    dsimp only at quiet ⊢
    split
    · exact undoes_of_sameBut (quiet_send ..) (sameBut_send ..) (by decide)
    · exact .refl s
  case recure =>
    exact (undoes_of_sameBut (quiet_releaseLanes ..) (sameBut_releaseLanes ..) (by decide)).trans
      (undoes_of_sameBut (quiet_serveWait _) (sameBut_serveWait _) (by decide))
  case overflow =>
    refine ⟨quiet_returnHold .., ?_, ?_, ?_⟩
    all_goals
      dsimp only
      rw [returnHold_eq]
    exact Nat.le_add_right ..
  all_goals exact .refl s

theorem undoes_releaseWithdrawn (s : State) (w : Withdrawal) (p : Option Nat) : s.Undoes (s.releaseWithdrawn w p) := by
  unfold State.releaseWithdrawn
  split
  · exact .refl _
  · exact undoes_of_sameBut (quiet_releaseHold ..) (sameBut_releaseHold ..) (by decide)

theorem undoes_afterVerdict (s : State) (tag : Tag) : s.Undoes (s.afterVerdict tag) :=
  ⟨quiet_afterVerdict .., (sameBut_afterVerdict ..).meter (by decide),
    congrArg BinBlock.records (bins_afterVerdict ..), cells_afterVerdict ..⟩

theorem undoes_withdraw (s : State) (w : Withdrawal) (l : Link) : s.Undoes (State.withdraw w s l) := by
  cases opened : s.verdictOf l with
  | none =>
    rw [withdraw_none w opened]
    exact .refl s
  | some v =>
    rw [withdraw_some w opened]
    have ended : s.Undoes (s.endRecord l) :=
      undoes_of_sameBut (quiet_endRecord ..) (sameBut_endRecord s l) (by decide)
    exact ((ended.trans (undoes_undoVerdict _ w l v)).trans (undoes_releaseWithdrawn _ w v.platen)).trans
      (undoes_afterVerdict _ v.tag)

/-! ## The record and the hold lifted -/

/-- A verdict's record ended and its hold released, with changes to the parts listed and no garment taken up. -/
structure State.Lifted (s : State) (l : Link) (v : OpenVerdict) (a : List Area) (t : State) : Prop where
  stations : t.stations = (s.endRecord l).stations
  ring : t.ring = (s.releaseHold v.platen).ring
  rest : s.sameBut (a ++ [.stations, .ring]) t

theorem notCancelled_congr (orders : t.orders = s.orders) (free : s.notCancelled g) : t.notCancelled g := fun b o bound at_ =>
  free b o bound (by
    unfold State.order at at_ ⊢
    rwa [← orders])

theorem findTag_putRecord (live : s.findTag tag = some (pos, g)) {x : Garment} (named : x.tag = g.tag) :
    (s.putRecord pos x).findTag tag = some (pos, x) := by
  have isTag := (findTag_some live).2.1
  rw [findTag_look] at live ⊢
  exact lookTag_put_same live (named.trans isTag)

theorem free_putRecord (live : s.findTag tag = some (pos, g)) {x : Garment} (named : x.tag = g.tag)
    (free : s.notCancelled x) (p : Nat) (y : Garment) (found : (s.putRecord pos x).findTag tag = some (p, y)) :
    (s.putRecord pos x).notCancelled y := by
  cases (findTag_putRecord live named).symm.trans found
  exact notCancelled_congr rfl free

/-- The hold released after an undo that leaves stations and ring, where no garment is to be taken up. -/
theorem lifted_of {a : List Area} (changed : (s.endRecord l).sameBut a u) (away : Area.stations ∉ a ∧ Area.ring ∉ a)
    (free : ∀ pos g, u.findTag v.tag = some (pos, g) → u.notCancelled g) :
    s.Lifted l v a ((u.releaseHold v.platen).afterVerdict v.tag) ∧
      u.sameBut [.ring] ((u.releaseHold v.platen).afterVerdict v.tag) := by
  have after : (u.releaseHold v.platen).afterVerdict v.tag = u.releaseHold v.platen := by
    refine afterVerdict_free fun pos g live => ?_
    rw [releaseHold_eq] at live ⊢
    exact notCancelled_congr rfl (free pos g live)
  rw [after]
  have hold := sameBut_releaseHold u v.platen
  refine ⟨⟨(hold.stations (by decide)).trans (changed.stations away.1),
    ring_releaseHold_congr (s := s) (changed.ring away.2) v.platen, ?_⟩, hold⟩
  refine sameBut_trans (sameBut_trans (changed := a ++ [.stations]) (sameBut_endRecord s l) changed ?_ ?_) hold ?_ ?_ <;>
    intro x <;> simp <;> tauto

theorem State.Lifted.station {a : List Area} (h : s.Lifted l v a t) :
    t.station l = { s.station l with verdict := none, workTimer := none } := by
  unfold State.station
  rw [h.stations]
  exact station_endRecord s l

theorem State.Lifted.others {a : List Area} (h : s.Lifted l v a t) {n : Link} (other : n ≠ l) :
    t.station n = s.station n := by
  unfold State.station
  rw [h.stations]
  exact station_endRecord_ne s other

theorem State.Lifted.platens {a : List Area} (h : s.Lifted l v a t) (k : Nat) :
    t.platen k = { s.platen k with held := if v.platen = some k then false else (s.platen k).held } := by
  rw [← platen_releaseHold]
  unfold State.platen
  rw [h.ring]

theorem State.Lifted.lifts {a : List Area} (h : s.Lifted l v a t) : s.LiftsVerdict l v t :=
  ⟨h.station, fun _ other => h.others other, h.platens⟩

/-! ## Withdrawals with the hold -/

section
variable (now : w ≠ .supersession) (opened : s.verdictOf l = some v)
include now opened

theorem withdraw_now : State.withdraw w s l =
    (((s.endRecord l).undoVerdict w l v).releaseHold v.platen).afterVerdict v.tag := by
  rw [withdraw_some w opened, State.releaseWithdrawn, if_neg now]

/-- A withdrawal that spoils its garment. -/
theorem withdraw_spoils (kind : v.verdict ∈ [Verdict.spray, .print]) (live : s.findTag v.tag = some (pos, g))
    (free : s.notCancelled g) : s.Lifted l v [.garments] (State.withdraw w s l) ∧
      s.recordIs pos { g with spoiled := true } (State.withdraw w s l) := by
  have undo : (s.endRecord l).undoVerdict w l v = (s.endRecord l).putRecord pos { g with spoiled := true } := by
    have spoil : (s.endRecord l).spoil v.tag = (s.endRecord l).putRecord pos { g with spoiled := true } :=
      modifyGarment_some (s := s.endRecord l) live _
    unfold State.undoVerdict
    rcases List.mem_cons.mp kind with kind | kind
    · rw [kind]
      exact spoil
    · rw [List.mem_singleton.mp kind]
      exact spoil
  rw [withdraw_now now opened, undo]
  obtain ⟨lifted, rest⟩ := lifted_of (v := v) (u := (s.endRecord l).putRecord pos { g with spoiled := true })
    (sameBut_putRecord (s.endRecord l) pos { g with spoiled := true }) (by decide)
      (free_putRecord (s := s.endRecord l) live rfl (notCancelled_congr rfl free))
  exact ⟨lifted, rest.garments (by decide)⟩

/-- A withdrawal whose undo leaves everything as it is. -/
theorem withdraw_stands (undo : (s.endRecord l).undoVerdict w l v = s.endRecord l)
    (free : ∀ pos g, s.findTag v.tag = some (pos, g) → s.notCancelled g) :
    s.Lifted l v [] (State.withdraw w s l) := by
  rw [withdraw_now now opened, undo]
  exact (lifted_of (sameBut_refl (s.endRecord l)) (by decide) fun p x found =>
    notCancelled_congr rfl (free p x found)).1

/-- A withdrawn WAIT of a station whose link is UP is told PASS. -/
theorem withdraw_tells (kind : v.verdict = .wait) (up : (s.station l).up = true)
    (free : ∀ pos g, s.findTag v.tag = some (pos, g) → s.notCancelled g) :
    s.Lifted l v [.messages] (State.withdraw w s l) ∧
      (State.withdraw w s l).sent = s.sent ++ [⟨l, .verdict (platenByte v.platen) v.tag .pass 0 0⟩] := by
  have undo : (s.endRecord l).undoVerdict w l v =
      (s.endRecord l).send l (.verdict (platenByte v.platen) v.tag .pass 0 0) := by
    unfold State.undoVerdict
    rw [kind]
    refine if_pos ⟨now, ?_⟩
    rw [station_endRecord]
    exact up
  rw [withdraw_now now opened, undo]
  obtain ⟨lifted, rest⟩ := lifted_of (v := v) (a := [.messages])
    (sameBut_send (s.endRecord l) l (.verdict (platenByte v.platen) v.tag .pass 0 0)) (by decide) fun p x found =>
      notCancelled_congr (s := s) rfl (free p x found)
  exact ⟨lifted, rest.messages (by decide)⟩

/-- A withdrawal that retires its garment: no other of its tag is left to take up. -/
theorem withdraw_retires {reason : Reason} (tags : TagsSafe s) (live : s.findTag v.tag = some (pos, g))
    (undo : (s.endRecord l).undoVerdict w l v = (s.endRecord l).retire reason v.tag) :
    State.withdraw w s l = ((s.endRecord l).retire reason v.tag).releaseHold v.platen := by
  rw [withdraw_now now opened, undo]
  refine afterVerdict_unknown ?_
  rw [releaseHold_eq]
  exact findTag_retire (s := s.endRecord l) (alone_of_tagsSafe tags live) reason live

/-- A withdrawal of a verdict of a garment of an order being cancelled, whose undo leaves orders, stations and ring. -/
theorem withdraw_leaves {a : List Area} (ok : s.orders.slots.wf = true) {x : Garment}
    (changed : (s.endRecord l).sameBut a ((s.endRecord l).undoVerdict w l v))
    (kept : ∀ x ∈ [Area.stations, .ring, .orders], x ∉ a)
    (live : ((s.endRecord l).undoVerdict w l v).findTag v.tag = some (pos, x)) (bound : x.binding = some b)
    (listed : s.order b.slot = some o) (shut : o.state = .cancelling) :
    s.LiftsVerdict l v (State.withdraw w s l) ∧ s.LeavesOrder pos b (State.withdraw w s l) ∧
      (x.spoiled = true → ∃ y, (State.withdraw w s l).garments.records.find pos = some y ∧ y.spoiled = true) ∧
      (State.withdraw w s l).sent = ((s.endRecord l).undoVerdict w l v).sent := by
  rw [withdraw_now now opened]
  generalize (s.endRecord l).undoVerdict w l v = u at changed live
  have hold := sameBut_releaseHold u v.platen
  have orders : (u.releaseHold v.platen).orders = s.orders :=
    (hold.orders (by decide)).trans (changed.orders (kept _ (by simp)))
  have order : (u.releaseHold v.platen).order b.slot = s.order b.slot := by
    unfold State.order
    rw [orders]
  have found : (u.releaseHold v.platen).findTag v.tag = some (pos, x) := by
    rw [releaseHold_eq]
    exact live
  have ok' : (u.releaseHold v.platen).orders.slots.wf = true := by rw [orders]; exact ok
  have after := sameBut_afterVerdict (u.releaseHold v.platen) v.tag
  have stations : ((u.releaseHold v.platen).afterVerdict v.tag).stations = (s.endRecord l).stations :=
    (after.stations (by decide)).trans ((hold.stations (by decide)).trans (changed.stations (kept _ (by simp))))
  have ring : ((u.releaseHold v.platen).afterVerdict v.tag).ring = (s.releaseHold v.platen).ring :=
    (after.ring (by decide)).trans (ring_releaseHold_congr (s := s) (changed.ring (kept _ (by simp))) v.platen)
  refine ⟨⟨?_, fun n other => ?_, fun k => ?_⟩, leavesOrder_later
    (leavesOrder_afterVerdict ok' found bound (order.trans listed) shut) order rfl rfl, fun spoiled => ?_, ?_⟩
  · unfold State.station
    rw [stations]
    exact station_endRecord s l
  · unfold State.station
    rw [stations]
    exact station_endRecord_ne s other
  · rw [← platen_releaseHold]
    unfold State.platen
    rw [ring]
  · exact ⟨_, spoiled_afterVerdict ok' found bound (order.trans listed) shut spoiled, spoiled⟩
  · exact (after.messages (by decide)).trans (hold.messages (by decide))

end

end Sys2Proof.Machine
end

section
/-! SUPPORT. A halt: the undo of each ring station's verdict, the undo of them in order, and what the halt then does. -/

namespace Sys2Proof.Machine

variable {s t u : State} {l : Link} {tag : Tag} {pos : Nat} {g : Garment} {b : Binding} {o : Order} {v : OpenVerdict}
  {w : Withdrawal}

/-! ## The undo by kind -/

theorem undo_load (kind : v.verdict = .load) (s : State) : s.undoVerdict w l v = s.retire .withdrawn v.tag := by
  rw [State.undoVerdict, kind]

theorem undo_toBelt (kind : v.verdict = .toBelt) (s : State) : s.undoVerdict w l v = s.retire .lost v.tag := by
  rw [State.undoVerdict, kind]

theorem undo_spoil (kind : v.verdict ∈ [Verdict.spray, .print]) (s : State) :
    s.undoVerdict w l v = s.spoil v.tag := by
  unfold State.undoVerdict
  rcases List.mem_cons.mp kind with kind | kind
  · rw [kind]
  · rw [List.mem_singleton.mp kind]

theorem undo_none (kind : v.verdict ∈ [Verdict.press, .ret, .testOut, .reject, .spare, .bin, .pass]) (s : State) :
    s.undoVerdict w l v = s := by
  unfold State.undoVerdict
  simp only [List.mem_cons, List.not_mem_nil, or_false] at kind
  rcases kind with kind | kind | kind | kind | kind | kind | kind <;> rw [kind]

theorem undo_wait (kind : v.verdict = .wait) (now : w ≠ .supersession) (s : State) : s.undoVerdict w l v =
    if (s.station l).up = true then s.send l (.verdict (platenByte v.platen) v.tag .pass 0 0) else s := by
  rw [State.undoVerdict, kind]
  exact if_congr (and_iff_right now) rfl rfl

/-- A verdict of no live garment: nothing to retire or spoil. -/
theorem undo_unknown (kind : v.verdict ∈ [Verdict.load, .spray, .print, .press, .ret, .toBelt])
    (unknown : s.findTag v.tag = none) : s.undoVerdict w l v = s := by
  have idle (reason : Reason) : s.retire reason v.tag = s := by rw [State.retire, unknown]
  simp only [List.mem_cons, List.not_mem_nil, or_false] at kind
  rcases kind with kind | kind | kind | kind | kind | kind
  · rw [undo_load kind, idle]
  · rw [undo_spoil (by simp [kind]), State.spoil, modifyGarment_none unknown]
  · rw [undo_spoil (by simp [kind]), State.spoil, modifyGarment_none unknown]
  · exact undo_none (by simp [kind]) s
  · exact undo_none (by simp [kind]) s
  · rw [undo_toBelt kind, idle]

/-! ## A line fallen -/

theorem gone_leaves (reason : Reason) (bound : g.binding = some b) (listed : s.order b.slot = some o) :
    s.LeavesLine b o ((s.gone reason (pos, g)).endBinding .withdrawn g.binding) := by
  have leaves := leavesLine_drainTest (s := s.gone reason (pos, g)) ((gone_order s reason pos g b.slot).trans listed)
  rw [bound]
  exact ⟨fun k other => (leaves.others k other).trans (gone_order s reason pos g k), leaves.freed, leaves.stands⟩

/-- A garment retired WITHDRAWN: its record goes, and F of its line falls with no offering (Table 1-6). -/
theorem retire_withdrawn (live : s.findTag tag = some (pos, g)) :
    (s.retire .withdrawn tag).garments = { s.garments with records := s.garments.records.erase pos } ∧
      (s.retire .withdrawn tag).sched = s.sched ∧
      (g.binding = none → (s.retire .withdrawn tag).orders.slots = s.orders.slots) ∧
      (∀ b o, g.binding = some b → s.order b.slot = some o → s.LeavesLine b o (s.retire .withdrawn tag)) ∧
      ((∀ b o, g.binding = some b → s.order b.slot = some o → ¬ o.LeftEmpty b.line) →
        (s.retire .withdrawn tag).refs = (s.countGarment g (· - 1)).refs ∧
        (s.retire .withdrawn tag).port.causes = s.port.causes) := by
  rw [retire_eq .withdrawn live]
  have rest : (s.gone .withdrawn (pos, g)).sameBut [.orders, .refs, .causes]
      ((s.gone .withdrawn (pos, g)).endBinding .withdrawn g.binding) := by
    cases g.binding with
    | none => exact sameBut_widen (sameBut_refl _) (by simp)
    | some b =>
      refine sameBut_trans (t := (s.gone .withdrawn (pos, g)).leaveLine (some b)) (a := [.orders]) ?_
        (sameBut_drainTest _ b.slot) (by decide) (by decide)
      constructor <;> intros <;> simp_all [State.leaveLine, State.modifyLine, State.modifyOrder]
  refine ⟨(rest.garments (by decide)).trans (gone_garments ..), (rest.sched (by decide)).trans (gone_sched ..),
    fun free => ?_, fun b o bound listed => gone_leaves .withdrawn bound listed, fun stays => ?_⟩
  · rw [free]
    show (s.gone .withdrawn (pos, g)).orders.slots = _
    rw [gone_orders]
  · have same : (s.gone .withdrawn (pos, g)).endBinding .withdrawn g.binding =
        (s.gone .withdrawn (pos, g)).leaveLine g.binding := by
      cases bound : g.binding with
      | none => rfl
      | some b =>
        cases listed : s.order b.slot with
        | none =>
          show ((s.gone .withdrawn (pos, g)).leaveLine (some b)).drainTest b.slot = _
          unfold State.drainTest
          rw [order_leaveLine, if_pos rfl, gone_order, listed]
          rfl
        | some o =>
          refine drainTest_of_not (order_leaveLine_same ((gone_order s .withdrawn pos g b.slot).trans listed)) ?_
          exact Bool.eq_false_iff.mpr fun drained =>
            stays b o bound listed ((drained_less_iff o b.line).mp drained)
    rw [same]
    have refs : ((s.gone .withdrawn (pos, g)).leaveLine g.binding).refs = (s.gone .withdrawn (pos, g)).refs := by
      cases g.binding <;> rfl
    refine ⟨refs.trans (gone_refs ..), ?_⟩
    have port := (binds_leaveLine (s := s.gone .withdrawn (pos, g)) g.binding).causes
    refine port.trans ?_
    rw [gone_port]
    rfl

theorem pendingCause_congr (causes : t.port.causes = s.port.causes) (f : Cause) : t.pendingCause f = s.pendingCause f := by
  unfold State.pendingCause
  rw [causes]

/-- A withdrawn LOAD. -/
theorem withdraw_load (now : w ≠ .supersession) (tags : TagsSafe s) (opened : s.verdictOf l = some v)
    (live : s.findTag v.tag = some (pos, g)) (kind : v.verdict = .load) :
    let t := State.withdraw w s l
    ∃ served, s.GivesBack (some l) g t served ∧ t.station l = (s.station l).without v.tag ∧ t.sent = s.sent ++ served ∧
      t.garments = { s.garments with records := s.garments.records.erase pos } ∧ t.sched = s.sched ∧
      (g.binding = none → t.orders.slots = s.orders.slots) ∧
      (∀ b o, g.binding = some b → s.order b.slot = some o → s.LeavesLine b o t) ∧
      ((∀ b o, g.binding = some b → s.order b.slot = some o → ¬ o.LeftEmpty b.line) →
        t.refs = (s.countGarment g (· - 1)).refs ∧ t.port.causes = s.port.causes) := by
  intro t
  have shape : t = ((s.endRecord l).retire .withdrawn v.tag).releaseHold v.platen :=
    withdraw_retires now opened tags live (undo_load kind _)
  obtain ⟨served, gives, station, sent⟩ := givesBack_own opened live .withdrawn
  obtain ⟨garments, sched, slots, leaves, rest⟩ := retire_withdrawn (s := s.endRecord l) live
  rw [shape]
  refine ⟨served, gives, station, sent, ?_⟩
  rw [releaseHold_eq]
  exact ⟨garments, sched, slots, fun b o bound listed =>
    have line := leaves b o bound listed
    ⟨line.others, line.freed, line.stands⟩, rest⟩

/-- A withdrawn TO_BELT. -/
theorem withdraw_toBelt (now : w ≠ .supersession) (tags : TagsSafe s) (opened : s.verdictOf l = some v)
    (live : s.findTag v.tag = some (pos, g)) (kind : v.verdict = .toBelt) :
    let t := State.withdraw w s l
    ∃ served, s.GivesBack (some l) g t served ∧ t.station l = (s.station l).without v.tag ∧ t.sent = s.sent ++ served ∧
      t.garments.records.find pos = none ∧ s.EndsBinding pos g t ∧ t.pendingCause .garmentLost = true := by
  intro t
  have shape : t = ((s.endRecord l).retire .lost v.tag).releaseHold v.platen :=
    withdraw_retires now opened tags live (undo_toBelt kind _)
  obtain ⟨served, gives, station, sent⟩ := givesBack_own opened live .lost
  rw [shape]
  refine ⟨served, gives, station, sent, ?_, endsBinding_own opened live (.inr rfl), ?_⟩
  · rw [releaseHold_eq]
    exact find_retire (s := s.endRecord l) .lost live
  · rw [releaseHold_eq]
    exact garmentLost_retire (s := s.endRecord l) live

/-- A withdrawn verdict of a garment of an order being cancelled: after the undo that the garment survives, it is off that
order (R58). -/
theorem withdraw_closing (now : w ≠ .supersession) (ok : s.orders.slots.wf = true) (opened : s.verdictOf l = some v)
    (live : s.findTag v.tag = some (pos, g)) (bound : g.binding = some b) (listed : s.order b.slot = some o)
    (shut : o.state = .cancelling) (kind : v.verdict ∈ [Verdict.spray, .print, .press, .ret, .wait]) :
    let t := State.withdraw w s l
    s.LiftsVerdict l v t ∧ s.LeavesOrder pos b t ∧
      (v.verdict ∈ [Verdict.spray, .print] → ∃ x, t.garments.records.find pos = some x ∧ x.spoiled = true) ∧
      t.sent = s.sent ++ (if v.verdict = .wait ∧ (s.station l).up = true
        then [⟨l, .verdict (platenByte v.platen) v.tag .pass 0 0⟩] else []) := by
  intro t
  by_cases spoils : v.verdict ∈ [Verdict.spray, .print]
  · have undo : (s.endRecord l).undoVerdict w l v = (s.endRecord l).putRecord pos { g with spoiled := true } :=
      (undo_spoil spoils _).trans (modifyGarment_some (s := s.endRecord l) live _)
    obtain ⟨lifts, leaves, spoiled, sent⟩ := withdraw_leaves (x := { g with spoiled := true }) now opened ok
      (by rw [undo]; exact sameBut_putRecord ..) (by decide)
      (by rw [undo]; exact findTag_putRecord (s := s.endRecord l) live rfl) bound listed shut
    have silent : ¬ v.verdict = .wait := fun wait => by simp [wait] at spoils
    rw [undo] at sent
    exact ⟨lifts, leaves, fun _ => spoiled rfl, by rw [sent, if_neg fun h => silent h.1, List.append_nil]; rfl⟩
  · by_cases wait : v.verdict = .wait
    · have undo := undo_wait (l := l) wait now (s.endRecord l)
      have up : ((s.endRecord l).station l).up = (s.station l).up := by rw [station_endRecord]
      rw [up] at undo
      have found : ((s.endRecord l).undoVerdict w l v).findTag v.tag = some (pos, g) := by
        rw [undo]
        split <;> exact live
      obtain ⟨lifts, leaves, -, sent⟩ := withdraw_leaves (a := [.messages]) now opened ok (by
        rw [undo]
        split
        · exact sameBut_send ..
        · exact sameBut_widen (sameBut_refl _) (by simp)) (by decide) found bound listed shut
      refine ⟨lifts, leaves, fun h => absurd h spoils, sent.trans ?_⟩
      rw [undo]
      by_cases on : (s.station l).up = true
      · rw [if_pos on, if_pos ⟨wait, on⟩]
        rfl
      · rw [if_neg on, if_neg fun h => on h.2, List.append_nil]
        rfl
    · have undo : (s.endRecord l).undoVerdict w l v = s.endRecord l :=
        undo_none (by simp at kind spoils ⊢; tauto) _
      obtain ⟨lifts, leaves, -, sent⟩ := withdraw_leaves (a := []) now opened ok
        (by rw [undo]; exact sameBut_refl _) (by simp) (by rw [undo]; exact live) bound listed shut
      rw [undo] at sent
      exact ⟨lifts, leaves, fun h => absurd h spoils, by rw [sent, if_neg fun h => wait h.1, List.append_nil]; rfl⟩

/-- What a halt does to a station, by its verdict. -/
theorem undoneAtHalt_withdraw (s : State) (l : Link) : s.UndoneAtHalt l (State.withdraw .halt s l) := by
  have now : Withdrawal.halt ≠ .supersession := by decide
  have undoes := undoes_withdraw s .halt l
  refine ⟨fun idle => withdraw_none .halt idle, sameBut_of_quiet undoes.quiet undoes.meter,
    fun n => undoes.quiet.station_mode n, drive_of_quiet undoes.quiet, ?_, undoes.cells,
    ⟨undoes.quiet.tables, undoes.quiet.tags, undoes.quiet.sched⟩, fun v pos g opened live free kind => ?_,
    fun v opened kind free => ?_, fun v opened kind up free => ?_,
    fun tags v pos g opened live kind => withdraw_load now tags opened live kind,
    fun tags v pos g opened live kind => withdraw_toBelt now tags opened live kind,
    fun tables tags v pos g b o opened live bound listed shut kind => ?_⟩
  · exact congrArg (fun r => ({ records := r, overflow := s.bins.overflow } : BinBlock)) undoes.bins
  · obtain ⟨lifted, record⟩ := withdraw_spoils now opened kind live free
    exact ⟨lifted.lifts, record, lifted.rest⟩
  · have undo : (s.endRecord l).undoVerdict .halt l v = s.endRecord l := by
      cases live : s.findTag v.tag with
      | none => exact undo_unknown kind live
      | some e => exact undo_none (by have := (free e.1 e.2 live).2; simp at this ⊢; tauto) _
    have lifted := withdraw_stands now opened undo fun pos g live => (free pos g live).1
    exact ⟨lifted.lifts, lifted.rest⟩
  · obtain ⟨lifted, sent⟩ := withdraw_tells now opened kind up free
    exact ⟨lifted.lifts, sent, sameBut_widen lifted.rest (by decide)⟩
  · exact withdraw_closing now tables.slots opened live bound listed shut kind

theorem undoneInOrder_foldl (ls : List Link) (s : State) : s.UndoneInOrder ls (ls.foldl (State.withdraw .halt) s) := by
  induction ls generalizing s with
  | nil => rfl
  | cons l ls ih => exact ⟨_, undoneAtHalt_withdraw s l, ih _⟩

theorem foldl_withdraw_idle {ls : List Link} (idle : ∀ l ∈ ls, s.verdictOf l = none) :
    ls.foldl (State.withdraw w) s = s := by
  induction ls with
  | nil => rfl
  | cons l ls ih =>
    rw [List.foldl_cons, withdraw_none w (idle l List.mem_cons_self)]
    exact ih fun n m => idle n (List.mem_cons_of_mem _ m)

theorem verdictOf_foldl_withdraw {ls : List Link} (listed : l ∈ ls) (s : State) :
    (ls.foldl (State.withdraw w) s).verdictOf l = none := by
  induction ls generalizing s with
  | nil => cases listed
  | cons n ls ih =>
    rw [List.foldl_cons]
    rcases List.mem_cons.mp listed with rfl | later
    · exact (State.Rests.foldl (fun s a => rests_withdraw s w a) ls _).verdict (verdictOf_withdraw s w l)
    · exact ih later _

end Sys2Proof.Machine
end

section
/-! SUPPORT. The drive's faults: the events that halt the ring, and the halt as one change. -/

namespace Sys2Proof.Machine

variable {s t u : State} {c : Instr}

/-! ## The halt -/

theorem undoes_haltUndone (s : State) : s.stopDrive.Undoes s.haltUndone := by
  unfold State.haltUndone
  generalize Link.ring = ls, s.stopDrive = x
  induction ls generalizing x with
  | nil => exact .refl x
  | cons l ls ih => exact (undoes_withdraw x .halt l).trans (ih _)

theorem cells_halt (s : State) : s.orders.freeCells ≤ s.halt.orders.freeCells := by
  by_cases halted : s.ring.state = .halted
  · rw [State.halt, if_pos halted]
  · rw [halt_eq halted]
    exact (undoes_haltUndone s).cells

theorem halted_halt (s : State) : s.halt.ring.state = .halted := by
  by_cases halted : s.ring.state = .halted
  · rw [State.halt, if_pos halted]
    exact halted
  · exact (halt_spec halted).1

/-- A halt is the last of its event: no test follows it. -/
theorem finish_halt (limits : u.limits = s.limits) (cells : s.orders.freeCells ≤ u.orders.freeCells) :
    u.halt.finish s = u.halt := by
  refine finish_of_off (.inr (halted_halt u)) ?_ (cells.trans (cells_halt u))
  by_cases halted : u.ring.state = .halted
  · rw [State.halt, if_pos halted]
    exact limits
  · rw [halt_eq halted]
    exact ((undoes_haltUndone u).quiet.limits).trans limits

/-- What an event halts from: an INDEX DONE has touched the ring, an assertion of E-STOP has written its level. -/
def State.faulted (s : State) (c : Instr) : State :=
  { s with
    garments.records := if c = .indexDone
      then s.garments.records.mapVal fun g => if g.onRing then { g with age := 0 } else g else s.garments.records
    ring.eStop := s.ring.eStop || decide (c = .eStopAsserted) }

/-- The events that halt the ring (R111, R116). -/
def State.faults (s : State) (c : Instr) : Prop :=
  c = .indexFault ∨ (c = .indexDone ∧ s.ring.cycle = .idle) ∨ (c = .moveTimerExpiry ∧ s.ring.cycle = .moving) ∨
    (c = .eStopAsserted ∧ s.ring.eStop = false)

theorem tablesOk_faulted (tables : TablesOk s) (c : Instr) : TablesOk (s.faulted c) :=
  { tables with
    records := by
      unfold State.faulted
      dsimp only
      split
      · exact wf_mapVal _ _ tables.records
      · exact tables.records }

theorem faulted_plain (done : c ≠ .indexDone) (pin : c ≠ .eStopAsserted) : s.faulted c = s := by
  simp [State.faulted, done, pin]

theorem faulted_indexDone (s : State) : s.faulted .indexDone = s.touchRing := by
  simp [State.faulted, State.touchRing, State.mapRecords]

theorem faulted_eStopAsserted (s : State) : s.faulted .eStopAsserted = s.setEStop true := by
  simp [State.faulted, State.setEStop]

/-- An event of a ring not HALTED halts it; one of a HALTED ring writes the level of E-STOP. -/
theorem exec_fault (fault : s.faults c) : exec c s = .next
    (if s.ring.state = .halted then { s with ring.eStop := s.ring.eStop || decide (c = .eStopAsserted) }
      else (s.faulted c).halt) := by
  have last : (s.faulted c).halt.finish s = (s.faulted c).halt := finish_halt rfl le_rfl
  have halted (x : State) (still : x.ring.state = .halted) : x.halt = x := if_pos still
  have rest (still : s.ring.state = .halted) : s.finish s = s := finish_of_off (.inr still) rfl le_rfl
  rcases fault with rfl | ⟨rfl, idle⟩ | ⟨rfl, moving⟩ | ⟨rfl, low⟩
  · change Host.Outcome.next (s.halt.finish s) = _
    rw [faulted_plain (by decide) (by decide)] at last ⊢
    rw [last]
    by_cases still : s.ring.state = .halted
    · rw [if_pos still, halted s still]
      simp
    · rw [if_neg still]
  · change Host.Outcome.next (s.indexDone.finish s) = _
    rw [faulted_indexDone] at last ⊢
    rw [State.indexDone, if_neg (by rw [idle]; decide)]
    by_cases still : s.ring.state = .halted
    · rw [if_pos still, if_pos still, rest still]
      simp
    · rw [if_neg still, if_neg still, last]
  · change Host.Outcome.next (s.moveExpiry.finish s) = _
    rw [faulted_plain (by decide) (by decide)] at last ⊢
    rw [State.moveExpiry, if_pos moving, last]
    by_cases still : s.ring.state = .halted
    · rw [if_pos still, halted s still]
      simp
    · rw [if_neg still]
  · change Host.Outcome.next (s.assertEStop.finish s) = _
    rw [faulted_eStopAsserted] at last ⊢
    rw [State.assertEStop, if_neg (by rw [low]; decide), last]
    by_cases still : s.ring.state = .halted
    · rw [if_pos still, halted (s.setEStop true) still]
      simp [State.setEStop]
    · rw [if_neg still]

/-- A halt's ring: the drive at rest, and what no undo reaches as it was. -/
theorem ring_halt (runs : s.ring.state ≠ .halted) : s.halt.ring.cycle = .idle ∧ s.halt.ring.moveTimer = none ∧
    s.halt.ring.lapCount = 0 ∧ s.halt.ring.lapSynced = false ∧ s.halt.ring.eStop = s.ring.eStop := by
  have quiet := (undoes_haltUndone s).quiet
  rw [halt_eq runs]
  exact ⟨quiet.ring_cycle, quiet.ring_moveTimer, rfl, rfl, quiet.ring_eStop⟩

theorem verdictOf_halt (runs : s.ring.state ≠ .halted) {l : Link} (ring : l ∈ Link.ring) : s.halt.verdictOf l = none := by
  rw [halt_eq runs]
  exact verdictOf_foldl_withdraw ring s.stopDrive

theorem unverified_halt (runs : s.ring.state ≠ .halted) :
    ∀ g ∈ s.halt.liveGarments, g.onRing = true → g.unverified = true := by
  rw [halt_eq runs]
  intro g live onRing
  obtain ⟨e, listed, rfl⟩ := List.mem_map.mp live
  obtain ⟨d, -, rfl⟩ := List.mem_map.mp listed
  dsimp only at onRing ⊢
  by_cases here : d.2.onRing = true
  · rw [if_pos here]
  · rw [if_neg here] at onRing
    exact absurd onRing here

/-- A halt with no verdict to undo. -/
theorem halt_idle (runs : s.ring.state ≠ .halted) (idle : ∀ l ∈ Link.ring, s.verdictOf l = none) :
    s.halt.port.causes = s.port.causes ||| Cause.ringHalted.field ∧ s.sameBut [.garments, .ring, .causes] s.halt := by
  have undone : s.haltUndone = s.stopDrive := foldl_withdraw_idle (s := s.stopDrive) idle
  rw [halt_eq runs, undone]
  refine ⟨rfl, ?_⟩
  constructor <;> intros <;> simp_all [State.stopDrive, State.raise]

theorem platen_halt (runs : s.ring.state ≠ .halted) (tables : TablesOk s) (k : Nat) :
    s.halt.platen k = { s.haltUndone.platen k with held := false } := by
  have ok : TablesOk s.haltUndone := (undoes_haltUndone s).quiet.tables { tables with }
  rw [halt_eq runs]
  exact look_mapStore (wf_of_wfDefault ok.platens) rfl k

/-- Settles O57: the events that halt (`exec_fault`) and the halt, whose undo is `undoneInOrder_foldl`. -/
theorem driveFaultsHaltTheRing : Obligations.DriveFaultsHaltTheRing := by
  unfold Obligations.DriveFaultsHaltTheRing
  intro s c fault
  refine ⟨fun runs => ?_, fun halted => (exec_fault fault).trans (by rw [if_pos halted]), rfl⟩
  have going : (s.faulted c).ring.state ≠ .halted := runs
  obtain ⟨state, free, cause, offset⟩ := halt_spec going
  obtain ⟨cycle, timer, count, synced, eStop⟩ := ring_halt going
  refine ⟨_, (exec_fault fault).trans (by rw [if_neg runs]), state, cycle, timer, count, synced, free,
    fun l ring => verdictOf_halt going ring, unverified_halt going, cause, offset, eStop, fun idle => ?_, ?_⟩
  · obtain ⟨causes, rest⟩ := halt_idle going idle
    refine ⟨causes, sameBut_trans (t := s.faulted c) (a := [.garments, .ring]) ?_ rest (by decide) (by decide)⟩
    constructor <;> intros <;> simp_all [State.faulted]
  · intro x
    have platens : (s.faulted c).halt.ring.platens =
        Table.mapStore {} (s.faulted c).haltUndone.ring.platens Platen.unhold := by
      rw [halt_eq going]
      rfl
    exact ⟨(s.faulted c).haltUndone, undoneInOrder_foldl Link.ring x, by rw [platens]; exact halt_eq going,
      fun tables k => platen_halt going (tablesOk_faulted tables c) k⟩

end Sys2Proof.Machine
end

section
/-! SUPPORT. The timers that end verdicts: the work timer's withdrawal with the fall of the mode, and the unload wait
limit. -/

namespace Sys2Proof.Machine

variable {s t u : State} {l : Link} {tag : Tag} {pos : Nat} {g : Garment} {b : Binding} {o : Order} {v : OpenVerdict}
  {w : Withdrawal}

/-! ## A garment off its order -/

theorem leavesOrder_of_line (gone : t.garments.records.find pos = none) (listed : s.order b.slot = some o)
    (leaves : s.LeavesLine b o t) : s.LeavesOrder pos b t where
  unbound x c at_ := by
    rw [gone] at at_
    cases at_
  fallen x y before after := by
    rw [listed, Option.some.injEq] at before
    subst before
    by_cases empty : o.LeftEmpty b.line
    · rw [(leaves.freed empty).1] at after
      cases after
    · rw [leaves.stands empty, Option.some.injEq] at after
      exact after ▸ inFlight_less ..

theorem sameTags_afterVerdict (s : State) (tag : Tag) : s.SameTags (s.afterVerdict tag) := by
  have unbind (z : State) : z.SameTags (z.unbindGarment tag) := by
    unfold State.unbindGarment
    split
    · rename_i p g live
      exact sameTags_putRecord (garments_leaveLine ..) (findTag_some live).1 rfl
    · exact .refl z
  have stage : s.SameTags (s.stageRule tag) := by
    unfold State.stageRule
    split
    · exact .refl s
    · split
      · exact unbind s
      · dsimp only
        split
        · exact sameTags_chooseAndBind ..
        · exact (sameTags_chooseAndBind ..).trans (unbind _)
  unfold State.afterVerdict
  split
  · exact .refl s
  · split
    · exact .refl s
    · split
      · exact .refl s
      · split
        · exact stage.trans (sameTags_of_garments ((sameBut_drainTest ..).garments (by decide)))
        · exact .refl s

theorem State.SameTags.none (h : s.SameTags t) (free : s.garments.records.find pos = Option.none) :
    t.garments.records.find pos = Option.none := by
  have same := h.tags pos
  rw [free] at same
  exact Option.map_eq_none_iff.mp same

/-- An undo that retires nothing leaves the garment where it is, bound as it was, and every order. -/
theorem undo_keeps (kind : v.verdict ≠ .load ∧ v.verdict ≠ .toBelt) (live : s.findTag v.tag = some (pos, g)) :
    ∃ x, (s.undoVerdict w l v).findTag v.tag = some (pos, x) ∧ x.binding = g.binding ∧
      (s.undoVerdict w l v).orders.slots = s.orders.slots := by
  have stays {t : State} (garments : t.garments = s.garments) (slots : t.orders.slots = s.orders.slots) :
      ∃ x, t.findTag v.tag = some (pos, x) ∧ x.binding = g.binding ∧ t.orders.slots = s.orders.slots := by
    refine ⟨g, ?_, rfl, slots⟩
    rw [findTag_look] at live ⊢
    rw [garments]
    exact live
  have spoil : ∃ x, (s.spoil v.tag).findTag v.tag = some (pos, x) ∧ x.binding = g.binding ∧
      (s.spoil v.tag).orders.slots = s.orders.slots := by
    rw [State.spoil, modifyGarment_some live]
    exact ⟨{ g with spoiled := true }, findTag_putRecord live rfl, rfl, rfl⟩
  unfold State.undoVerdict
  cases h : v.verdict
  case load => exact absurd h kind.1
  case toBelt => exact absurd h kind.2
  case spray => exact spoil
  case print => exact spoil
  case wait =>
    dsimp only
    split <;> exact stays rfl rfl
  case recure =>
    have served := sameBut_serveWait (s.releaseLanes v.tag)
    have lanes := sameBut_releaseLanes s v.tag
    exact stays ((served.garments (by decide)).trans (lanes.garments (by decide)))
      (congrArg OrderBlock.slots ((served.orders (by decide)).trans (lanes.orders (by decide))))
  case overflow =>
    dsimp only
    rw [returnHold_eq]
    exact stays rfl rfl
  all_goals exact stays rfl rfl

/-- Once its verdict has been withdrawn, a garment of an order being cancelled is off that order, whatever the verdict
(R41, R58, R95). -/
theorem withdraw_offOrder (tables : TablesOk s) (tags : TagsSafe s) (opened : s.verdictOf l = some v)
    (live : s.findTag v.tag = some (pos, g)) (bound : g.binding = some b) (listed : s.order b.slot = some o)
    (shut : o.state = .cancelling) : s.LeavesOrder pos b (State.withdraw w s l) := by
  rw [withdraw_some w opened]
  have hold (z : State) : z.sameBut [.ring] (z.releaseWithdrawn w v.platen) := by
    unfold State.releaseWithdrawn
    split
    · exact sameBut_widen (sameBut_refl z) (by simp)
    · exact sameBut_releaseHold z v.platen
  have find (z : State) : (z.releaseWithdrawn w v.platen).findTag v.tag = z.findTag v.tag := by
    rw [findTag_look, findTag_look, (hold z).garments (by decide)]
  have retired (reason : Reason) (leaves : s.LeavesLine b o ((s.endRecord l).retire reason v.tag)) :
      s.LeavesOrder pos b
        ((((s.endRecord l).retire reason v.tag).releaseWithdrawn w v.platen).afterVerdict v.tag) := by
    rw [afterVerdict_unknown ((find _).trans
      (findTag_retire (s := s.endRecord l) (alone_of_tagsSafe tags live) reason live))]
    have off := leavesOrder_of_line (find_retire (s := s.endRecord l) reason live) listed leaves
    exact leavesOrder_later off rfl ((hold _).garments (by decide)) ((hold _).orders (by decide))
  by_cases load : v.verdict = .load
  · rw [undo_load load]
    have line := (retire_withdrawn (s := s.endRecord l) live).2.2.2.1 b o bound listed
    exact retired .withdrawn ⟨line.others, line.freed, line.stands⟩
  by_cases belt : v.verdict = .toBelt
  · rw [undo_toBelt belt]
    have line := ((endsBinding_retire (s := s.endRecord l) (.inr rfl) live).cancelling { tables with } b o bound listed
      shut).2.2
    exact retired .lost ⟨line.others, line.freed, line.stands⟩
  obtain ⟨x, found, binding, slots⟩ := undo_keeps (w := w) (l := l) (s := s.endRecord l) ⟨load, belt⟩ live
  generalize (s.endRecord l).undoVerdict w l v = z at found slots
  have slots' : (z.releaseWithdrawn w v.platen).orders.slots = s.orders.slots :=
    (congrArg OrderBlock.slots ((hold z).orders (by decide))).trans slots
  have order : (z.releaseWithdrawn w v.platen).order b.slot = s.order b.slot := by
    unfold State.order
    rw [slots']
  exact leavesOrder_later (leavesOrder_afterVerdict (slots' ▸ tables.slots) ((find z).trans found) (binding.trans bound)
    (order.trans listed) shut) order rfl rfl

/-! ## The work timer -/

/-- What the expiry of a work timer does once the verdict has been withdrawn: the expired-verdict memory is set, and an
ACTIVE station falls to CHECK with its MODE (R93, R94). -/
def State.fallen (s : State) (l : Link) (v : OpenVerdict) : State :=
  let t := s.modifyStation l fun x => { x with expired := some ⟨v.platen, v.tag⟩ }
  if (s.station l).mode = .active then t.modeSet l .check else t

theorem workTimeout_eq (opened : s.verdictOf l = some v) (work : v.cls = .work) :
    s.workTimeout l = (State.withdraw .timeout s l).fallen l v := by
  have idle := verdictOf_withdraw s .timeout l
  unfold State.workTimeout State.fallen
  rw [opened]
  dsimp only
  rw [if_pos work]
  generalize State.withdraw .timeout s l = u at idle
  have marked : (u.modifyStation l fun x => { x with expired := some ⟨v.platen, v.tag⟩ }).station l =
      { u.station l with expired := some ⟨v.platen, v.tag⟩ } := station_modifyStation ..
  rw [marked]
  by_cases active : (u.station l).mode = .active
  · rw [if_pos active, if_pos active]
    refine (changeMode_calm (m := .check) (by decide) (fun w at_ => ?_) (fun h => nomatch h.2.1)).trans ?_
    · have none : (u.station l).verdict = some w := (verdictOf_eq marked).symm.trans at_
      cases (show (u.station l).verdict = Option.none from idle).symm.trans none
    · rw [if_neg fun h => nomatch h.1]
      rfl
  · rw [if_neg active, if_neg active]

section
variable (s : State) (l : Link) (v : OpenVerdict)

theorem station_fallen : (s.fallen l v).station l = { s.station l with
    expired := some ⟨v.platen, v.tag⟩
    mode := if (s.station l).mode = .active then .check else (s.station l).mode } := by
  unfold State.fallen
  have marked : (s.modifyStation l fun x => { x with expired := some ⟨v.platen, v.tag⟩ }).station l =
      { s.station l with expired := some ⟨v.platen, v.tag⟩ } := station_modifyStation ..
  split
  · rw [station_modeSet, marked]
  · exact marked

theorem station_fallen_ne {n : Link} (other : n ≠ l) : (s.fallen l v).station n = s.station n := by
  unfold State.fallen
  have marked : (s.modifyStation l fun x => { x with expired := some ⟨v.platen, v.tag⟩ }).station n = s.station n :=
    station_modifyStation_ne s other _
  dsimp only
  split
  · rw [station_modeSet_ne _ _ other, marked]
  · exact marked

theorem sent_fallen : (s.fallen l v).sent =
    s.sent ++ (if (s.station l).mode = .active then [⟨l, .mode .check⟩] else []) := by
  unfold State.fallen
  split
  · rfl
  · exact (List.append_nil _).symm

theorem sameBut_fallen : s.sameBut [.stations, .causes, .messages] (s.fallen l v) := by
  unfold State.fallen
  dsimp only
  split <;> constructor <;> intros <;>
    simp_all [State.modeSet, State.modifyStation, State.raise, State.send, State.setMode]

theorem fallen_told (falls : (s.station l).mode = .active) :
    (s.fallen l v).pendingCause .stationMode = true ∧ (s.fallen l v).sent.getLast? = some ⟨l, .mode .check⟩ := by
  constructor
  · unfold State.fallen
    rw [if_pos falls]
    exact pendingCause_raise ..
  · rw [sent_fallen, if_pos falls, List.getLast?_concat]

end

/-- The state after the expiry of a station's work timer. -/
def State.timedOut (s : State) (l : Link) (v : OpenVerdict) : State :=
  ((State.withdraw .timeout s l).fallen l v).finish s

/-- What the expiry of a work timer leaves at the station, whatever the verdict's undo. -/
structure State.TimesOut (s : State) (l : Link) (v : OpenVerdict) (t : State) : Prop where
  verdict : t.verdictOf l = none
  timer : (t.station l).workTimer = none
  expired : (t.station l).expired = some ⟨v.platen, v.tag⟩
  mode : (t.station l).mode = if (s.station l).mode = .active then .check else (s.station l).mode
  told : (s.station l).mode = .active →
    t.pendingCause .stationMode = true ∧ t.sent.getLast? = some ⟨l, .mode .check⟩
  free : ∀ k, v.platen = some k → (t.platen k).held = false

theorem workTimer_withdraw (opened : s.verdictOf l = some v) : ((State.withdraw w s l).station l).workTimer = none := by
  have ended : ((s.endRecord l).station l).workTimer = none := by rw [station_endRecord]
  rw [withdraw_some w opened]
  rcases (rests_undone (s.endRecord l) w l v).idle l (verdictOf_endRecord s l) with same | same
  · rw [same]
    exact ended
  · rw [same]
    exact ended

theorem platen_withdraw (now : w ≠ .supersession) (opened : s.verdictOf l = some v) {k : Nat} (platen : v.platen = some k) :
    ((State.withdraw w s l).platen k).held = false := by
  rw [withdraw_now now opened]
  generalize (s.endRecord l).undoVerdict w l v = u
  have ring : ((u.releaseHold v.platen).afterVerdict v.tag).platen k = (u.releaseHold v.platen).platen k := by
    unfold State.platen
    rw [(sameBut_afterVerdict ..).ring (by decide)]
  rw [ring, platen_releaseHold, if_pos platen]

/-- After an undo that leaves the ring, the expiry ends with the hold released. -/
theorem timedOut_released (ring : (State.withdraw .timeout s l).ring = (s.releaseHold v.platen).ring) :
    s.timedOut l v = { (State.withdraw .timeout s l).fallen l v with ring := s.ringReleased v.platen } := by
  have undoes := undoes_withdraw s .timeout l
  have fall := sameBut_fallen (State.withdraw .timeout s l) l v
  exact finish_released ((fall.ring (by decide)).trans ring) ((fall.limits (by decide)).trans undoes.quiet.limits)
    (undoes.cells.trans (congrArg OrderBlock.freeCells (fall.orders (by decide))).ge)

section
variable (opened : s.verdictOf l = some v) (work : v.cls = .work)
include opened

theorem timesOut_timedOut : s.TimesOut l v (s.timedOut l v) := by
  have undoes := undoes_withdraw s .timeout l
  have idle := verdictOf_withdraw s .timeout l
  have timer := workTimer_withdraw (w := .timeout) opened
  have mode := undoes.quiet.station_mode l
  have free {k : Nat} (platen : v.platen = some k) := platen_withdraw (w := .timeout) (by decide) opened platen
  unfold State.timedOut
  generalize State.withdraw .timeout s l = u at *
  have fall := sameBut_fallen u l v
  have station := station_fallen u l v
  have last := sameBut_finish (u.fallen l v) s
  have causes := finish_causes_of_more ((fall.limits (by decide)).trans undoes.quiet.limits)
    (undoes.cells.trans (congrArg OrderBlock.freeCells (fall.orders (by decide))).ge)
  have stations : ((u.fallen l v).finish s).station l = (u.fallen l v).station l := by
    unfold State.station
    rw [last.stations (by decide)]
  refine ⟨?_, ?_, ?_, ?_, fun falls => ?_, fun k platen => ?_⟩
  · rw [verdictOf_eq (stations.trans station)]
    exact idle
  · rw [stations, station]
    exact timer
  · rw [stations, station]
  · rw [stations, station, mode]
  · obtain ⟨cause, sent⟩ := fallen_told u l v (mode.trans falls)
    exact ⟨(pendingCause_congr causes _).trans cause, by rw [last.messages (by decide)]; exact sent⟩
  · unfold State.platen at free ⊢
    rw [ring_platens_finish, fall.ring (by decide)]
    exact free platen

include work

theorem exec_workTimeout : exec (.workTimeout l) s = .next (s.timedOut l v) :=
  congrArg (fun x : State => Host.Outcome.next (x.finish s)) (workTimeout_eq opened work)

/-- The claims of an expiry whose undo serves no WAIT: `more` is what the undo does elsewhere. -/
theorem timeout_leaves {a : List Area} (lifted : s.Lifted l v a (State.withdraw .timeout s l))
    (silent : (State.withdraw .timeout s l).sent = s.sent) : ∃ t, exec (.workTimeout l) s = .next t ∧
      s.TimesOut l v t ∧ t.ring = s.ringReleased v.platen ∧ (∀ n, n ≠ l → t.station n = s.station n) ∧
      t.sent = s.sent ++ [] ++ (if (s.station l).mode = .active then [⟨l, .mode .check⟩] else []) ∧
      (State.withdraw .timeout s l).sameBut [.stations, .ring, .causes, .messages] t ∧
      s.sameBut (a ++ [.stations, .ring, .causes, .messages]) t := by
  have mode := (undoes_withdraw s .timeout l).quiet.station_mode l
  have shape := timedOut_released lifted.ring
  have fall := sameBut_fallen (State.withdraw .timeout s l) l v
  have rest : (State.withdraw .timeout s l).sameBut [.stations, .ring, .causes, .messages] (s.timedOut l v) := by
    rw [shape]
    exact { sameBut_widen fall (changed := [.stations, .ring, .causes, .messages]) (by decide) with
      ring := fun m => absurd (by simp) m }
  refine ⟨_, exec_workTimeout opened work, timesOut_timedOut opened, by rw [shape], fun n other => ?_, ?_, rest, ?_⟩
  · rw [shape]
    exact (station_fallen_ne _ l v other).trans (lifted.others other)
  · rw [shape]
    refine (sent_fallen _ l v).trans ?_
    rw [silent, mode, List.append_nil]
  · refine sameBut_trans lifted.rest rest ?_ ?_ <;> intro x <;> simp <;> tauto

end

/-! ## Withdrawals at MATCH -/

/-- A lane once the reservation of a tag has been released. -/
theorem lane_ended (s : State) (l : Link) (tag : Tag) {k : Nat} (low : k ≤ 3) :
    ((s.endRecord l).releaseLanes tag).lane k =
      if (s.lane k).reservation = some tag then { s.lane k with reservation := none } else s.lane k :=
  (releaseLanes_spec (s.endRecord l) tag).2 k low

section
variable (now : w ≠ .supersession) (opened : s.verdictOf l = some v)
  (free : ∀ pos g, s.findTag v.tag = some (pos, g) → s.notCancelled g)
include now opened free

theorem withdraw_overflow (kind : v.verdict = .overflow) :
    s.Lifted l v [.orders] (State.withdraw w s l) ∧ (State.withdraw w s l).orders =
      { s.orders with freeCells := s.orders.freeCells + if v.holdTaken then 1 else 0 } := by
  have undo : (s.endRecord l).undoVerdict w l v = (s.endRecord l).returnHold v := by rw [State.undoVerdict, kind]
  have shape := returnHold_eq (s := s.endRecord l) v
  obtain ⟨lifted, rest⟩ := lifted_of (s := s) (l := l) (v := v) (a := [.orders]) (u := (s.endRecord l).returnHold v)
    (by rw [shape]; constructor <;> intros <;> simp_all) (by decide) fun p x found => by
      rw [shape] at found ⊢
      exact free p x found
  rw [withdraw_now now opened, undo]
  refine ⟨lifted, (rest.orders (by decide)).trans ?_⟩
  rw [shape]
  rfl

theorem withdraw_recure (kind : v.verdict = .recure) : State.withdraw w s l =
    (((s.endRecord l).releaseLanes v.tag).serveWait).releaseHold v.platen := by
  have undo : (s.endRecord l).undoVerdict w l v = ((s.endRecord l).releaseLanes v.tag).serveWait := by
    rw [State.undoVerdict, kind]
  have served := sameBut_serveWait ((s.endRecord l).releaseLanes v.tag)
  have lanes := sameBut_releaseLanes (s.endRecord l) v.tag
  rw [withdraw_now now opened, undo]
  refine afterVerdict_free fun p x found => ?_
  have hold := sameBut_releaseHold (((s.endRecord l).releaseLanes v.tag).serveWait) v.platen
  have garments := (hold.garments (by decide)).trans ((served.garments (by decide)).trans (lanes.garments (by decide)))
  have orders := (hold.orders (by decide)).trans ((served.orders (by decide)).trans (lanes.orders (by decide)))
  rw [findTag_look, garments] at found
  exact notCancelled_congr (s := s) orders (free p x found)

/-- A withdrawn RECURE whose lane goes to no WAIT. -/
theorem withdraw_recure_idle (kind : v.verdict = .recure)
    (idle : (∀ x, s.verdictOf .unload = some x → x.cls = .work) ∨
      ∀ k, k ≤ 3 → (((s.endRecord l).releaseLanes v.tag).lane k).free = false) :
    s.Lifted l v [.cure] (State.withdraw w s l) ∧
      (State.withdraw w s l).cure = ((s.endRecord l).releaseLanes v.tag).cure := by
  have lanes := sameBut_releaseLanes (s.endRecord l) v.tag
  have verdicts : ∀ n, ((s.endRecord l).releaseLanes v.tag).verdictOf n = (s.endRecord l).verdictOf n := fun n => by
    unfold State.verdictOf State.station
    rw [lanes.stations (by decide)]
  have still : ((s.endRecord l).releaseLanes v.tag).serveWait = (s.endRecord l).releaseLanes v.tag := by
    refine serveWait_idle _ (idle.imp_left fun works x at_ => ?_)
    rw [verdicts] at at_
    by_cases here : Link.unload = l
    · rw [here, verdictOf_endRecord] at at_
      cases at_
    · exact works x ((verdictOf_endRecord_ne s here).symm.trans at_)
  have hold := sameBut_releaseHold ((s.endRecord l).releaseLanes v.tag) v.platen
  rw [withdraw_recure now opened free kind, still]
  refine ⟨⟨(hold.stations (by decide)).trans (lanes.stations (by decide)),
    ring_releaseHold_congr (s := s) (lanes.ring (by decide)) v.platen, ?_⟩, hold.cure (by decide)⟩
  exact sameBut_trans (sameBut_trans (changed := [.cure, .stations]) (sameBut_endRecord s l) lanes (by decide)
    (by decide)) hold (by decide) (by decide)

end

theorem cure_releaseLanes (s : State) (tag : Tag) : { (s.releaseLanes tag).cure with lanes := s.cure.lanes } = s.cure := by
  rw [(releaseLanes_spec s tag).1]

/-! ## The expiries -/

section
variable (opened : s.verdictOf l = some v) (live : s.findTag v.tag = some (pos, g)) (free : s.notCancelled g)
include live free

/-- The garment that a tag names is the one of no order being cancelled. -/
theorem free_of_live (p : Nat) (x : Garment) (found : s.findTag v.tag = some (p, x)) : s.notCancelled x := by
  cases live.symm.trans found
  exact free

include opened

/-- An expired RECURE whose lane goes to the WAIT open at UNLOAD. -/
theorem timeout_hands (work : v.cls = .work) (kind : v.verdict = .recure) {x : OpenVerdict} {n : Nat}
    (waits : s.verdictOf .unload = some x) (wait : x.cls = .wait) (low : n ≤ 3)
    (open_ : (((s.endRecord l).releaseLanes v.tag).lane n).free = true)
    (lowest : ∀ j, j < n → (((s.endRecord l).releaseLanes v.tag).lane j).free = false) :
    ∃ t, exec (.workTimeout l) s = .next t ∧ s.TimesOut l v t ∧ t.ring = s.ringReleased v.platen ∧
      (∀ m, m ≠ l → m ≠ .unload → t.station m = s.station m) ∧
      t.sent = s.sent ++ [laneMessage x n] ++ (if (s.station l).mode = .active then [⟨l, .mode .check⟩] else []) ∧
      s.HandsLane x n t ∧
      (∀ k, k ≠ n → t.lane k = ((s.endRecord l).releaseLanes v.tag).lane k) ∧
      { t.cure with lanes := s.cure.lanes } = s.cure ∧ s.sameBut [.cure, .stations, .ring, .causes, .messages] t := by
  have here : Link.unload ≠ l := fun here => by
    rw [here, opened, Option.some.injEq] at waits
    rw [waits, wait] at work
    cases work
  have lanes := sameBut_releaseLanes (s.endRecord l) v.tag
  have ended : ∀ m, m ≠ l → ((s.endRecord l).releaseLanes v.tag).station m = s.station m := fun m other => by
    unfold State.station
    rw [lanes.stations (by decide)]
    exact station_endRecord_ne s other
  have waits' : ((s.endRecord l).releaseLanes v.tag).verdictOf .unload = some x :=
    (congrArg Station.verdict (ended _ here)).trans waits
  obtain ⟨served, hands, others, apart⟩ := serveWait_hands _ waits' wait low open_ lowest
  have cure : { ((s.endRecord l).releaseLanes v.tag).serveWait.cure with lanes := s.cure.lanes } = s.cure := by
    rw [served]
    exact cure_releaseLanes (s.endRecord l) v.tag
  have sent : ((s.endRecord l).releaseLanes v.tag).serveWait.sent = s.sent ++ [laneMessage x n] := by
    rw [served]
    exact congrArg (· ++ _) (lanes.messages (by decide))
  have frame : s.sameBut [.cure, .stations, .messages] ((s.endRecord l).releaseLanes v.tag).serveWait :=
    sameBut_trans (sameBut_trans (changed := [.cure, .stations]) (sameBut_endRecord s l) lanes (by decide) (by decide))
      (sameBut_serveWait _) (by decide) (by decide)
  have shape := withdraw_recure (w := .timeout) (by decide) opened (free_of_live live free) kind
  have hold := sameBut_releaseHold (((s.endRecord l).releaseLanes v.tag).serveWait) v.platen
  have mode := (undoes_withdraw s .timeout l).quiet.station_mode l
  have ring : (State.withdraw .timeout s l).ring = (s.releaseHold v.platen).ring := by
    rw [shape]
    exact ring_releaseHold_congr (frame.ring (by decide)) v.platen
  have last := timedOut_released ring
  have fall := sameBut_fallen (State.withdraw .timeout s l) l v
  have stations : ∀ m, m ≠ l →
      (s.timedOut l v).station m = ((s.endRecord l).releaseLanes v.tag).serveWait.station m := fun m other => by
    rw [last]
    refine (station_fallen_ne _ l v other).trans ?_
    unfold State.station
    rw [shape, hold.stations (by decide)]
  have tunnel : (s.timedOut l v).cure = ((s.endRecord l).releaseLanes v.tag).serveWait.cure := by
    rw [last]
    refine (fall.cure (by decide)).trans ?_
    rw [shape, hold.cure (by decide)]
  have lane : ∀ k, (s.timedOut l v).lane k = ((s.endRecord l).releaseLanes v.tag).serveWait.lane k := fun k => by
    unfold State.lane
    rw [tunnel]
  refine ⟨_, exec_workTimeout opened work, timesOut_timedOut opened, by rw [last], fun m other apart => ?_, ?_,
    ⟨?_, ?_⟩, fun k other => (lane k).trans (apart k other), ?_, ?_⟩
  · rw [stations m other, others m apart, ended m other]
  · rw [last]
    refine (sent_fallen _ l v).trans ?_
    rw [mode, shape, hold.messages (by decide), sent]
  · rw [stations _ here, hands.station, ended _ here, lanes.limits (by decide)]
    rfl
  · rw [lane]
    exact hands.lane
  · rw [tunnel]
    exact cure
  · rw [last]
    have up : s.sameBut [.cure, .stations, .ring, .causes, .messages] ((State.withdraw .timeout s l).fallen l v) := by
      refine sameBut_trans (t := State.withdraw .timeout s l) (a := [.cure, .stations, .ring, .messages]) ?_ fall
        (by decide) (by decide)
      rw [shape]
      exact sameBut_trans frame hold (by decide) (by decide)
    exact { up with ring := fun m => absurd (by simp) m }

end

/-- An expired LOAD or TO_BELT: the garment's record is gone. -/
theorem timeout_retires (opened : s.verdictOf l = some v) (work : v.cls = .work)
    (live : s.findTag v.tag = some (pos, g)) (kind : v.verdict ∈ [Verdict.load, .toBelt]) :
    ∃ t, exec (.workTimeout l) s = .next t ∧ s.TimesOut l v t ∧ t.garments.records.find pos = none ∧
      (v.verdict = .toBelt → t.pendingCause .garmentLost = true) := by
  have undoes := undoes_withdraw s .timeout l
  have fall := sameBut_fallen (State.withdraw .timeout s l) l v
  have last := sameBut_finish ((State.withdraw .timeout s l).fallen l v) s
  have shape := withdraw_now (w := .timeout) (by decide) opened
  have retired {reason : Reason} (undo : (s.endRecord l).undoVerdict .timeout l v = (s.endRecord l).retire reason v.tag) :
      (s.timedOut l v).garments.records.find pos = none := by
    unfold State.timedOut
    rw [last.garments (by decide), fall.garments (by decide), shape, undo]
    refine (sameTags_afterVerdict _ v.tag).none ?_
    rw [releaseHold_eq]
    exact find_retire (s := s.endRecord l) reason live
  refine ⟨_, exec_workTimeout opened work, timesOut_timedOut opened, ?_, fun belt => ?_⟩
  · rcases List.mem_cons.mp kind with load | belt
    · exact retired (undo_load load _)
    · exact retired (undo_toBelt (List.mem_singleton.mp belt) _)
  · have grow : CausesGrow ((s.endRecord l).retire .lost v.tag).port.causes (s.timedOut l v).port.causes := by
      have more := finish_causes_of_more ((fall.limits (by decide)).trans undoes.quiet.limits)
        (undoes.cells.trans (congrArg OrderBlock.freeCells (fall.orders (by decide))).ge)
      unfold State.timedOut
      rw [more]
      refine CausesGrow.trans (b := (State.withdraw .timeout s l).port.causes) ?_ ?_
      · rw [shape, undo_toBelt belt]
        exact ((quiet_releaseHold ..).trans (quiet_afterVerdict ..)).causes
      · unfold State.fallen
        dsimp only
        split
        · exact .or _ _ (by decide)
        · exact .refl _
    exact pendingCause_of_grow grow (garmentLost_retire (s := s.endRecord l) live)

/-! ## The unload wait limit -/

theorem exec_unloadWaitLimit (s : State) : exec .unloadWaitLimit s = .next ((s.endWait .unload).finish s) := rfl

section
variable (opened : s.verdictOf l = some v) (wait : v.cls = .wait) (live : s.findTag v.tag = some (pos, g))
include opened wait live

/-- A WAIT ended as PASS with one more lap. -/
theorem endWait_eq : s.endWait l = ((State.releaseHold (((s.endRecord l).putRecord pos
    { g with laps := min 7 (g.laps + 1) }).send l (.verdict (platenByte v.platen) v.tag .pass 0 0)) v.platen).afterVerdict
      v.tag) := by
  unfold State.endWait
  rw [opened]
  dsimp only
  rw [if_pos wait, modifyGarment_some (s := s.endRecord l) live]

theorem endWait_passes (free : s.notCancelled g) : ∃ t, (s.endWait l).finish s = t ∧
    s.Answers l { s.station l with verdict := none, workTimer := none }
      (.verdict (platenByte v.platen) v.tag .pass 0 0) t ∧
    s.recordIs pos { g with laps := min 7 (g.laps + 1) } t ∧ t.ring = s.ringReleased v.platen ∧
    s.sameBut [.garments, .stations, .ring, .messages] t := by
  have edit : (s.endRecord l).sameBut [.garments, .messages] (((s.endRecord l).putRecord pos
      { g with laps := min 7 (g.laps + 1) }).send l (.verdict (platenByte v.platen) v.tag .pass 0 0)) :=
    sameBut_trans (sameBut_putRecord ..) (sameBut_send ..) (by decide) (by decide)
  obtain ⟨lifted, rest⟩ := lifted_of edit (by decide)
    (free_putRecord (s := s.endRecord l) live rfl (notCancelled_congr rfl free))
  rw [← endWait_eq opened wait live] at lifted rest
  have last := finish_released (s := s) (k := v.platen) lifted.ring (lifted.rest.limits (by decide))
    (congrArg OrderBlock.freeCells (lifted.rest.orders (by decide))).ge
  refine ⟨_, rfl, ?_⟩
  rw [last]
  refine ⟨⟨lifted.station, fun n other => lifted.others other, rest.messages (by decide)⟩, rest.garments (by decide), rfl,
    { sameBut_widen lifted.rest (changed := [.garments, .stations, .ring, .messages]) (by decide) with
      ring := fun m => absurd (by simp) m }⟩

theorem endWait_offOrder (ok : s.orders.slots.wf = true) (bound : g.binding = some b) (listed : s.order b.slot = some o)
    (shut : o.state = .cancelling) : s.LeavesOrder pos b ((s.endWait l).finish s) := by
  have last := sameBut_finish (s.endWait l) s
  refine leavesOrder_later (u := s) ?_ rfl (last.garments (by decide)) (last.orders (by decide))
  rw [endWait_eq opened wait live, releaseHold_eq]
  have found := findTag_putRecord (s := s.endRecord l) live (x := { g with laps := min 7 (g.laps + 1) }) rfl
  refine leavesOrder_later (leavesOrder_afterVerdict (g := { g with laps := min 7 (g.laps + 1) }) ?_ ?_ bound ?_ shut)
    ?_ rfl rfl
  · exact ok
  · exact found
  · exact listed
  · rfl

end

/-- Settles O53: the work timer by the kind of the verdict, and the unload wait limit. -/
theorem timersEndOpenVerdicts : Obligations.TimersEndOpenVerdicts := by
  unfold Obligations.TimersEndOpenVerdicts
  intro s l v pos g opened live
  refine ⟨fun tables tags b o bound listed shut => ⟨fun work => ?_, fun wait here => ?_⟩, fun free => ?_⟩
  · refine ⟨_, exec_workTimeout opened work, ?_⟩
    have last := sameBut_finish ((State.withdraw .timeout s l).fallen l v) s
    have fall := sameBut_fallen (State.withdraw .timeout s l) l v
    exact leavesOrder_later (withdraw_offOrder tables tags opened live bound listed shut) rfl
      ((last.garments (by decide)).trans (fall.garments (by decide)))
      ((last.orders (by decide)).trans (fall.orders (by decide)))
  · subst here
    exact ⟨_, exec_unloadWaitLimit s, endWait_offOrder opened wait live tables.slots bound listed shut⟩
  intro falls mode withdrawn leaves lane
  have times {t : State} (h : s.TimesOut l v t) : withdrawn t :=
    ⟨h.verdict, h.timer, h.expired, h.mode, h.told, h.free⟩
  have plain {a : List Area} {more : State → Prop} (work : v.cls = .work)
      (lifted : s.Lifted l v a (State.withdraw .timeout s l)) (silent : (State.withdraw .timeout s l).sent = s.sent)
      (so : ∀ t, (State.withdraw .timeout s l).sameBut [.stations, .ring, .causes, .messages] t → more t) :
      leaves [] a more := by
    obtain ⟨t, run, out, ring, others, sent, rest, frame⟩ := timeout_leaves opened work lifted silent
    exact ⟨t, run, times out, ring, fun n other _ => others n other, sent, so t rest, frame⟩
  have free' := free_of_live (v := v) live free
  have now : Withdrawal.timeout ≠ .supersession := by decide
  refine ⟨fun work kind => ?_, fun work kind => ?_, fun work kind => ?_, fun work kind => ⟨fun idle => ?_,
    fun x n waits wait low open_ lowest => ?_⟩, fun work kind => ?_, fun wait here => ?_⟩
  · obtain ⟨lifted, record⟩ := withdraw_spoils now opened kind live free
    exact plain work lifted (lifted.rest.messages (by decide)) fun t rest => (rest.garments (by decide)).trans record
  · have lifted := withdraw_stands now opened (undo_none (by simp at kind ⊢; tauto) _) free'
    exact plain work lifted (lifted.rest.messages (by decide)) fun _ _ => trivial
  · obtain ⟨lifted, orders⟩ := withdraw_overflow now opened free' kind
    exact plain work lifted (lifted.rest.messages (by decide)) fun t rest => (rest.orders (by decide)).trans orders
  · obtain ⟨lifted, cure⟩ := withdraw_recure_idle now opened free' kind
      (idle.imp_right fun full k low => (congrArg Lane.free (lane_ended s l v.tag low)).trans (full k low))
    refine plain work lifted (lifted.rest.messages (by decide)) fun t rest => ?_
    have tunnel := (rest.cure (by decide)).trans cure
    refine ⟨fun k low => ?_, by rw [tunnel]; exact cure_releaseLanes (s.endRecord l) v.tag⟩
    have same : t.lane k = ((s.endRecord l).releaseLanes v.tag).lane k := by
      unfold State.lane
      rw [tunnel]
    exact same.trans (lane_ended s l v.tag low)
  · obtain ⟨t, run, out, ring, others, sent, hands, rest, tunnel, frame⟩ := timeout_hands opened live free work kind waits
      wait low ((congrArg Lane.free (lane_ended s l v.tag low)).trans open_) fun j below =>
        (congrArg Lane.free (lane_ended s l v.tag (by omega))).trans (lowest j below)
    exact ⟨t, run, times out, ring, fun m other apart => others m other (apart.resolve_right (by simp)), sent,
      ⟨hands, fun k below other => (rest k other).trans (lane_ended s l v.tag below), tunnel⟩, frame⟩
  · obtain ⟨t, run, out, gone, cause⟩ := timeout_retires opened work live kind
    exact ⟨t, run, times out, gone, cause⟩
  · subst here
    obtain ⟨t, last, answers, record, ring, frame⟩ := endWait_passes opened wait live free
    exact ⟨t, (exec_unloadWaitLimit s).trans (congrArg Host.Outcome.next last), answers, record, ring, frame⟩

end Sys2Proof.Machine
end

section
/-! SUPPORT. Closing reports: the way to the owner's changes, the ACK, and a garment of an order being cancelled at the
close of any verdict. -/

namespace Sys2Proof.Machine

variable {s t u x : State} {l : Link} {kind : Byte} {payload : List Byte} {tag : Tag} {pos result : Nat} {g : Garment}
  {b : Binding} {o : Order} {v : OpenVerdict} {reason : Reason} {started : Bool}

/-! ## The ACK at the end -/

/-- What an ACK leaves of the state it is sent from, once the event has ended. -/
theorem acked (l : Link) (kind : Byte) (limits : x.limits = s.limits) (cells : s.orders.freeCells ≤ x.orders.freeCells) :
    let t := (x.replyAck l kind).finish s
    t.station l = { x.station l with refusalSeen := false } ∧ (∀ n, n ≠ l → t.station n = x.station n) ∧
      t.sent = x.sent ++ [⟨l, .ack kind (x.station l).mode⟩] ∧ t.ring.platens = x.ring.platens ∧
      x.sameBut [.stations, .ring, .messages] t := by
  intro t
  have reply : x.replyAck l kind = _ := replyAck_eq x l kind
  have last : (x.replyAck l kind).sameBut [.ring, .causes] t := sameBut_finish (x.replyAck l kind) s
  have causes : t.port.causes = x.port.causes := finish_causes_of_more (t := x.replyAck l kind) limits cells
  have stations : t.stations = (x.replyAck l kind).stations := last.stations (by decide)
  have rest : x.sameBut [.stations, .messages] (x.replyAck l kind) := by
    rw [reply]
    exact sameBut_replied ..
  refine ⟨?_, fun n other => ?_, (last.messages (by decide)).trans (by rw [reply]; rfl), ?_, ?_⟩
  · unfold State.station
    rw [stations, reply]
    exact station_replied ..
  · unfold State.station
    rw [stations, reply]
    exact station_replied_ne x l other _ _
  · exact (ring_platens_finish _ s).trans (congrArg Ring.platens (rest.ring (by decide)))
  · refine sameBut_narrow (sameBut_trans (changed := [.stations, .ring, .causes, .messages]) rest last (by decide)
      (by decide)) fun a listed => ?_
    by_cases here : a = .causes
    · exact .inr (here ▸ causes)
    · left
      simp only [List.mem_cons, List.not_mem_nil, or_false] at listed ⊢
      tauto

theorem acked_ring {k : Option Nat} (ring : x.ring = (s.releaseHold k).ring) (limits : x.limits = s.limits)
    (cells : s.orders.freeCells ≤ x.orders.freeCells) : ((x.replyAck l kind).finish s).ring = s.ringReleased k := by
  rw [finish_released (t := x.replyAck l kind) ring limits cells]

/-! ## The way to the owner's changes -/

theorem namesTag_close (close : kind = kindDone ∨ kind = kindFail ∨ kind = kindAbort) : namesTag kind = true := by
  rcases close with rfl | rfl | rfl <;> rfl

theorem tables_received (tables : TablesOk s) : TablesOk (s.received l kind payload) := by
  rw [State.received]
  exact (calm_touchBy _ kind payload).tables { tables with }

theorem tags_received (tags : TagsSafe s) : TagsSafe (s.received l kind payload) := by
  rw [State.received]
  exact (calm_touchBy (s := s.heard l) kind payload).tags tags

theorem station_received (s : State) (l : Link) (kind : Byte) (payload : List Byte) :
    (s.received l kind payload).station l = (s.station l).heard := (met_received s l kind payload).station

section
variable (h : s.Reports l kind payload v) (close : kind = kindDone ∨ kind = kindFail ∨ kind = kindAbort)
include h

theorem State.Reports.opened_ : (s.received l kind payload).verdictOf l = some v :=
  ((met_received s l kind payload).verdictOf l).trans h.opened

include close

theorem State.Reports.run (accepts : v.accepts kind = true) : exec (closeRow kind l payload) s =
    .next (((s.received l kind payload).closeBy l v kind (field payload 7 2) (field payload 7 1 = 1)).finish s) := by
  have taken : (s.received l kind payload).takeClose l kind payload =
      (s.received l kind payload).closeBy l v kind (field payload 7 2) (field payload 7 1 = 1) := by
    have matched : v.matchedBy (platenOf payload) (tagField payload 1) kind = true := by
      unfold OpenVerdict.matchedBy
      rw [h.platen, h.tag, accepts]
      simp
    unfold State.takeClose
    dsimp only
    rw [h.opened_]
    dsimp only
    rw [if_pos matched]
  rw [← taken]
  rcases close with rfl | rfl | rfl
  all_goals exact congrArg Host.Outcome.next (receive_eq h.hears _)

theorem State.Reports.live (live : s.findTag v.tag = some (pos, g)) :
    (s.received l kind payload).findTag v.tag = some (pos, { g with age := 0 }) := by
  rw [← h.tag] at live ⊢
  exact findTag_received_known (namesTag_close close) live

theorem State.Reports.touched (live : s.findTag v.tag = some (pos, g)) :
    s.recordIs pos { g with age := 0 } (s.received l kind payload) := by
  rw [← h.tag] at live
  exact received_known (namesTag_close close) live

end

/-! ## An order being cancelled -/

/-- Between the states a garment stays where it is found, bound as it was, and every order stands. -/
def State.keepsGarment (s : State) (tag : Tag) (pos : Nat) (bound : Option Binding) (t : State) : Prop :=
  (∃ y, t.findTag tag = some (pos, y) ∧ y.binding = bound) ∧ t.orders.slots = s.orders.slots

theorem keepsGarment_refl (live : s.findTag tag = some (pos, g)) : s.keepsGarment tag pos g.binding s :=
  ⟨⟨g, live, rfl⟩, rfl⟩

theorem keepsGarment_modify {c : Option Binding} (h : s.keepsGarment tag pos c u) {f : Garment → Garment}
    (tag_ : ∀ y, (f y).tag = y.tag) (binding : ∀ y, (f y).binding = y.binding) :
    s.keepsGarment tag pos c (u.modifyGarment tag f) := by
  obtain ⟨⟨y, live, bound⟩, slots⟩ := h
  rw [modifyGarment_some live]
  exact ⟨⟨f y, findTag_putRecord live (tag_ y), (binding y).trans bound⟩, slots⟩

theorem keepsGarment_congr {c : Option Binding} (h : s.keepsGarment tag pos c u) (garments : t.garments = u.garments)
    (slots : t.orders.slots = u.orders.slots) : s.keepsGarment tag pos c t := by
  obtain ⟨⟨y, live, bound⟩, same⟩ := h
  refine ⟨⟨y, ?_, bound⟩, slots.trans same⟩
  rw [findTag_look] at live ⊢
  rw [garments]
  exact live

theorem keepsGarment_settle (live : s.findTag v.tag = some (pos, g)) (m : Nat) :
    s.keepsGarment v.tag pos g.binding (s.settleDelivery v m) := by
  have credited : s.keepsGarment v.tag pos g.binding (s.creditPulses v.tag m) :=
    keepsGarment_modify (keepsGarment_refl live) (fun _ => rfl) fun _ => rfl
  have refunded : s.keepsGarment v.tag pos g.binding ((s.creditPulses v.tag m).refundShortfall v m) := by
    unfold State.refundShortfall
    split
    · split
      · exact keepsGarment_congr credited rfl rfl
      · exact credited
    · exact credited
  refine keepsGarment_modify refunded ?_ ?_ <;>
    intro y <;> unfold Garment.treatIfComplete <;> split <;> rfl

/-- A garment's place left: its record, its tag and the orders stand. -/
theorem leavePlace_keeps (s : State) (g : Garment) :
    (s.leavePlace g).garments = s.garments ∧ (s.leavePlace g).orders.slots = s.orders.slots := by
  rw [leavePlace_eq]
  exact ⟨rfl, rfl⟩

theorem findTag_garments (same : t.garments = s.garments) : t.findTag tag = s.findTag tag := by
  rw [findTag_look, findTag_look, same]

theorem keepsGarment_place (live : s.findTag tag = some (pos, g)) (n : Nat) (recure : Bool) :
    s.keepsGarment tag pos g.binding (s.place tag n recure) := by
  obtain ⟨garments, slots⟩ := leavePlace_keeps s g
  unfold State.place
  rw [live]
  dsimp only
  exact ⟨⟨_, findTag_putRecord (s := (s.leavePlace g).modifyLane n fun _ => Lane.entered s.cure.beltCount)
    ((findTag_garments garments).trans live) rfl, rfl⟩, slots⟩

theorem keepsGarment_overflow (live : s.findTag tag = some (pos, g)) :
    s.keepsGarment tag pos g.binding (s.placeOverflow tag) := by
  obtain ⟨garments, slots⟩ := leavePlace_keeps s g
  unfold State.placeOverflow
  rw [live]
  dsimp only
  split
  · exact keepsGarment_refl live
  · have found := findTag_putRecord (s := s.leavePlace g) ((findTag_garments garments).trans live)
      (x := { g with location := .overflow }) rfl
    exact ⟨⟨_, found, rfl⟩, slots⟩

/-- The reason for which the close of a verdict retires its garment, if it does. -/
def OpenVerdict.retires (v : OpenVerdict) (kind : Byte) (g : Garment) : Option Reason :=
  match v.verdict with
  | .load => if kind = kindAbort then some .withdrawn else none
  | .ret => some (if g.spoiled then .scrapped else .returned)
  | .bin => some .binned
  | .reject => some .rejected
  | .spare => some .spare
  | .testOut => some .testOut
  | _ => none

theorem closeVerdict_retires (live : s.findTag v.tag = some (pos, g)) (retires : v.retires kind g = some reason) :
    s.closeVerdict v kind result started = if reason = .spare then (s.retire reason v.tag).raise .garmentSpare
      else s.retire reason v.tag := by
  unfold OpenVerdict.retires at retires
  unfold State.closeVerdict
  cases h : v.verdict <;> rw [h] at retires <;> dsimp only at retires ⊢
  case load =>
    split at retires
    · rename_i abort
      cases retires
      rw [State.closeLoad, if_pos abort, if_neg (by decide)]
    · cases retires
  case ret =>
    rw [State.closeReturn, live]
    dsimp only
    rw [Option.some.inj retires, if_neg]
    rw [← Option.some.inj retires]
    split <;> decide
  case spare =>
    cases retires
    exact (if_pos rfl).symm
  case bin =>
    cases retires
    exact (if_neg (by decide)).symm
  case reject =>
    cases retires
    exact (if_neg (by decide)).symm
  case testOut =>
    cases retires
    exact (if_neg (by decide)).symm
  all_goals cases retires

theorem closeVerdict_keeps (live : s.findTag v.tag = some (pos, g)) (stays : v.retires kind g = none) :
    s.keepsGarment v.tag pos g.binding (s.closeVerdict v kind result started) := by
  have same := keepsGarment_refl live
  unfold OpenVerdict.retires at stays
  unfold State.closeVerdict
  cases h : v.verdict <;> rw [h] at stays <;> dsimp only at stays ⊢
  case load =>
    split at stays
    · cases stays
    · rename_i noAbort
      rw [State.closeLoad, if_neg noAbort]
      exact keepsGarment_modify same (fun _ => rfl) fun _ => rfl
  case spray => exact keepsGarment_settle live _
  case press =>
    unfold State.closePress
    split
    · exact keepsGarment_modify same (fun _ => rfl) fun _ => rfl
    · exact same
  case print =>
    unfold State.closePrint
    split
    · exact keepsGarment_modify same (fun _ => rfl) fun _ => rfl
    · split
      · exact keepsGarment_modify same (fun _ => rfl) fun _ => rfl
      · exact same
  case toBelt =>
    unfold State.closePlacement
    split
    · exact keepsGarment_place live _ _
    · exact same
  case recure =>
    unfold State.closePlacement
    split
    · exact keepsGarment_place live _ _
    · exact same
  case overflow => exact keepsGarment_overflow live
  case wait => exact same
  case pass => exact same
  all_goals cases stays

/-! ## Retirements from an order being cancelled -/

theorem chargeSpoil_idle (listed : s.order b.slot = some o)
    (shut : ¬ (o.state = .opened ∨ o.state = .filling ∨ o.state = .held)) (i : Nat) : s.chargeSpoil b.slot i = s := by
  unfold State.chargeSpoil
  rw [listed]
  split
  · rename_i x y at_ _
    cases at_
    exact if_neg shut
  · rfl

theorem reexamine_idle {slot : Nat} (listed : s.order slot = some o) (shut : ¬ (o.state = .opened ∨ o.state = .filling)) :
    s.reexamine slot = s := by
  unfold State.reexamine
  rw [listed]
  dsimp only
  rw [if_neg]
  unfold Order.takes
  simpa using shut

/-- The end of a binding to an order being cancelled, whatever the reason: F of the line falls by one, and the order is
freed if it is then drained. -/
theorem endBinding_offOrder (ok : s.orders.slots.wf = true) (gone : s.garments.records.find pos = none)
    (listed : s.order b.slot = some o) (shut : o.state = .cancelling) (reason : Reason) :
    s.LeavesOrder pos b (s.endBinding reason (some b)) := by
  have free := find_endBinding_none reason (some b) gone
  have left := order_leaveLine_same listed
  have wf : (s.leaveLine (some b)).orders.slots.wf = true := wf_modify _ _ _ ok
  have state : (o.less b.line).state = .cancelling := shut
  have closed : ∀ y, (s.leaveLine (some b)).order b.slot = some y → y.state ≠ .opened ∧ y.state ≠ .filling :=
    fun y at_ => by
      rw [left, Option.some.injEq] at at_
      rw [← at_, state]
      decide
  have line (same : (s.leaveLine (some b)).reasonOnLine reason b = s.leaveLine (some b)) :
      s.LeavesOrder pos b (s.endBinding reason (some b)) := by
    refine leavesOrder_of_line free listed ?_
    show s.LeavesLine b o (((s.leaveLine (some b)).reasonOnLine reason b).drainTest b.slot)
    rw [same]
    exact leavesLine_drainTest listed
  have offers : (s.leaveLine (some b)).offer (.line b.slot b.line) = s.leaveLine (some b) := offer_of_closed wf closed
  have charges : (s.leaveLine (some b)).chargeSpoil b.slot b.line = s.leaveLine (some b) :=
    chargeSpoil_idle left (by rw [state]; decide) b.line
  cases reason
  case binned =>
    have counted : ((s.leaveLine (some b)).modifyLine b.slot b.line fun y => { y with binned := y.binned + 1 }).order
        b.slot = some { o.less b.line with
          lines := modifyAt (o.less b.line).lines b.line fun y => { y with binned := y.binned + 1 } } := by
      refine (order_modifyOrder ..).trans ((if_pos rfl).trans ?_)
      rw [left]
      rfl
    refine ⟨fun y c at_ => ?_, fun y z before after => ?_⟩
    · rw [free] at at_
      cases at_
    · rw [listed, Option.some.injEq] at before
      subst before
      have takesNone : ¬ (o.state = .opened ∨ o.state = .filling) := by
        rw [shut]
        decide
      have stays := reexamine_idle counted takesNone
      change (State.drainTest (State.reexamine _ b.slot) b.slot).order b.slot = some z at after
      rw [stays, drainTest_order, counted, Option.bind_some] at after
      split at after
      · cases after
      · rw [← Option.some.inj after]
        dsimp only
        rw [getElem?_modifyAt, if_pos rfl, Option.map_map]
        exact inFlight_less ..
  case rejected => exact line (by rw [State.reasonOnLine, charges, offers])
  case scrapped => exact line (by rw [State.reasonOnLine, charges, offers])
  case lost => exact line offers
  case manual => exact line offers
  case testOut => exact line rfl
  case spare => exact line rfl
  case returned => exact line rfl
  case withdrawn => exact line rfl

theorem retire_offOrder (ok : s.orders.slots.wf = true) (live : s.findTag tag = some (pos, g))
    (bound : g.binding = some b) (listed : s.order b.slot = some o) (shut : o.state = .cancelling) (reason : Reason) :
    s.LeavesOrder pos b (s.retire reason tag) := by
  rw [retire_eq reason live, bound]
  have order := gone_order s reason pos g
  have slots : (s.gone reason (pos, g)).orders.slots = s.orders.slots := by rw [gone_orders]
  have free : (s.gone reason (pos, g)).garments.records.find pos = none := by
    rw [gone_garments]
    exact (find_erase ..).trans (if_pos rfl)
  exact leavesOrder_later (endBinding_offOrder (slots ▸ ok) free ((order _).trans listed) shut reason) (order _) rfl rfl

/-- The close of any verdict of a garment of an order being cancelled: the garment is then off that order (R41, R58). -/
theorem close_offOrder (h : s.Reports l kind payload v) (live : s.findTag v.tag = some (pos, g))
    (close : kind = kindDone ∨ kind = kindFail ∨ kind = kindAbort) (accepts : v.accepts kind = true) (tables : TablesOk s)
    (tags : TagsSafe s) (bound : g.binding = some b) (listed : s.order b.slot = some o) (shut : o.state = .cancelling) :
    ∃ t, exec (closeRow kind l payload) s = .next t ∧ s.LeavesOrder pos b t := by
  refine ⟨_, h.run close accepts, ?_⟩
  have live' := h.live close live
  have tables' : TablesOk (s.received l kind payload) := tables_received tables
  have tags' : TagsSafe (s.received l kind payload) := tags_received tags
  have seen := sameBut_received s l kind payload
  have listed' : (s.received l kind payload).order b.slot = some o := by
    unfold State.order
    rw [seen.orders (by decide)]
    exact listed
  generalize field payload 7 2 = result
  generalize decide (field payload 7 1 = 1) = started
  have same : (s.received l kind payload).order b.slot = s.order b.slot := listed'.trans listed.symm
  generalize s.received l kind payload = r at *
  have later (x : State) (off : r.LeavesOrder pos b x) : s.LeavesOrder pos b ((x.replyAck l kind).finish s) := by
    have last := sameBut_finish (x.replyAck l kind) s
    have reply : x.sameBut [.stations, .messages] (x.replyAck l kind) := by
      rw [replyAck_eq]
      exact sameBut_replied ..
    exact leavesOrder_later off same ((last.garments (by decide)).trans (reply.garments (by decide)))
      ((last.orders (by decide)).trans (reply.orders (by decide)))
  refine later _ ?_
  cases retires : v.retires kind { g with age := 0 } with
  | none =>
    have keeps := closeVerdict_keeps (s := r.endRecord l) (g := { g with age := 0 }) (result := result)
      (started := started) live' retires
    generalize (r.endRecord l).closeVerdict v kind result started = u at keeps
    have hold := sameBut_releaseHold u v.platen
    obtain ⟨⟨y, found, binding⟩, slots⟩ := keepsGarment_congr keeps (hold.garments (by decide))
      (congrArg OrderBlock.slots (hold.orders (by decide)))
    have order : (u.releaseHold v.platen).order b.slot = r.order b.slot := by
      unfold State.order
      rw [slots]
      rfl
    exact leavesOrder_later (leavesOrder_afterVerdict (slots ▸ tables'.slots) found (binding.trans bound)
      (order.trans listed') shut) order rfl rfl
  | some reason =>
    have closed := closeVerdict_retires (s := r.endRecord l) (g := { g with age := 0 }) (result := result)
      (started := started) live' retires
    have edit : ((r.endRecord l).retire reason v.tag).sameBut [.causes]
        ((r.endRecord l).closeVerdict v kind result started) := by
      rw [closed]
      split
      · exact sameBut_raise ..
      · exact sameBut_widen (sameBut_refl _) (by simp)
    have off := retire_offOrder (s := r.endRecord l) tables'.slots live' bound listed' shut reason
    have none := findTag_retire (s := r.endRecord l) (alone_of_tagsSafe tags' live') reason live'
    generalize (r.endRecord l).closeVerdict v kind result started = u at edit
    have hold := sameBut_releaseHold u v.platen
    have garments := (hold.garments (by decide)).trans (edit.garments (by decide))
    rw [afterVerdict_unknown ((findTag_garments garments).trans none)]
    exact leavesOrder_later (s := r) off rfl garments ((hold.orders (by decide)).trans (edit.orders (by decide)))

end Sys2Proof.Machine
end

section
/-! SUPPORT. Closes that the garment survives, and the closes at the ring stations. -/

namespace Sys2Proof.Machine

variable {s t u x : State} {l : Link} {kind : Byte} {payload : List Byte} {tag : Tag} {pos result : Nat} {g : Garment}
  {b : Binding} {o : Order} {v : OpenVerdict} {reason : Reason} {started : Bool}

theorem notCancelled_of_binding {y : Garment} (orders : t.orders.slots = s.orders.slots) (binding : y.binding = g.binding)
    (free : s.notCancelled g) : t.notCancelled y := fun b o bound listed =>
  free b o (binding.symm.trans bound) (by
    unfold State.order at listed ⊢
    rwa [← orders])

theorem platen_congr (same : t.ring.platens = s.ring.platens) (k : Nat) : t.platen k = s.platen k := by
  unfold State.platen
  rw [same]

/-- The owner's changes at the close of a verdict. -/
def State.ownerChanges (s : State) (l : Link) (v : OpenVerdict) (kind : Byte) (payload : List Byte) : State :=
  ((s.received l kind payload).endRecord l).closeVerdict v kind (field payload 7 2) (field payload 7 1 = 1)

section
variable (h : s.Reports l kind payload v) (close : kind = kindDone ∨ kind = kindFail ∨ kind = kindAbort)
  (accepts : v.accepts kind = true) (live : s.findTag v.tag = some (pos, g)) (free : s.notCancelled g)
include h close accepts live free

/-- A close whose garment lives on, of no order being cancelled: the ACK, the hold, and the owner's changes. -/
theorem close_survives {a : List Area} (stays : v.retires kind { g with age := 0 } = none)
    (changed : ((s.received l kind payload).endRecord l).sameBut a (s.ownerChanges l v kind payload))
    (kept : ∀ x ∈ [Area.stations, .ring, .limits, .messages, .orders], x ∉ a) :
    ∃ t, exec (closeRow kind l payload) s = .next t ∧ s.Closes l kind t ∧ t.ring = s.ringReleased v.platen ∧
      (s.ownerChanges l v kind payload).sameBut [.stations, .ring, .messages] t ∧
      s.sameBut (a ++ [.garments, .stations, .ring, .messages]) t := by
  have met := met_received s l kind payload
  have seen := sameBut_received s l kind payload
  have slots : (s.received l kind payload).orders.slots = s.orders.slots :=
    congrArg OrderBlock.slots (seen.orders (by decide))
  obtain ⟨⟨y, found, binding⟩, slots'⟩ := closeVerdict_keeps (s := (s.received l kind payload).endRecord l)
    (result := field payload 7 2) (started := field payload 7 1 = 1) (h.live close live) stays
  obtain ⟨lifted, rest⟩ := lifted_of (v := v) changed ⟨kept _ (by simp), kept _ (by simp)⟩ fun p z at_ => by
    cases found.symm.trans at_
    exact notCancelled_of_binding (slots'.trans slots) binding free
  have run := h.run close accepts
  rw [State.closeBy, ← State.ownerChanges] at run
  generalize (State.releaseHold (s.ownerChanges l v kind payload) v.platen).afterVerdict v.tag = x at run lifted rest
  have limits : x.limits = s.limits := by
    rw [lifted.rest.limits (by have := kept .limits (by simp); simpa using this), met.limits]
  have orders : x.orders = s.orders := by
    rw [lifted.rest.orders (by have := kept .orders (by simp); simpa using this), seen.orders (by decide)]
  have cells : s.orders.freeCells ≤ x.orders.freeCells := (congrArg OrderBlock.freeCells orders).ge
  have sent : x.sent = s.sent := by
    rw [lifted.rest.messages (by have := kept .messages (by simp); simpa using this), met.sent]
  have ring : x.ring = (s.releaseHold v.platen).ring := lifted.ring.trans (ring_releaseHold_congr met.ring v.platen)
  obtain ⟨station, others, told, -, last⟩ := acked (s := s) l kind limits cells
  refine ⟨_, run, ⟨?_, fun n other => ?_, ?_⟩, acked_ring ring limits cells, ?_, ?_⟩
  · rw [station, lifted.station, met.station]
    rfl
  · rw [others n other, lifted.others other, met.others other]
  · rw [told, sent, lifted.station, met.station]
    rfl
  · exact sameBut_trans rest last (by decide) (by decide)
  · refine sameBut_trans (sameBut_trans (changed := a ++ [.garments, .stations, .ring]) seen lifted.rest ?_ ?_) last
      ?_ ?_ <;> intro z <;> simp <;> tauto

/-- A close whose owner changes nothing: the record is as the touch of the report left it. -/
theorem close_stands (stays : v.retires kind { g with age := 0 } = none)
    (same : s.ownerChanges l v kind payload = (s.received l kind payload).endRecord l) :
    ∃ t, exec (closeRow kind l payload) s = .next t ∧ s.Closes l kind t ∧
      s.recordIs pos { g with age := 0 } t ∧ t.ring = s.ringReleased v.platen ∧
      s.sameBut [.garments, .stations, .ring, .messages] t := by
  obtain ⟨t, run, closes, ring, rest, frame⟩ := close_survives h close accepts live free stays (a := [])
    (by rw [same]; exact sameBut_refl _) (by simp)
  refine ⟨t, run, closes, ?_, ring, frame⟩
  refine (rest.garments (by decide)).trans ?_
  rw [same]
  exact h.touched close live

/-- A close that rewrites its garment's record and nothing else. -/
theorem close_rewrites {f : Garment → Garment} (stays : v.retires kind { g with age := 0 } = none)
    (edit : s.ownerChanges l v kind payload =
      ((s.received l kind payload).endRecord l).modifyGarment v.tag f) :
    ∃ t, exec (closeRow kind l payload) s = .next t ∧ s.Closes l kind t ∧
      s.recordIs pos (f { g with age := 0 }) t ∧ t.ring = s.ringReleased v.platen ∧
      s.sameBut [.garments, .stations, .ring, .messages] t := by
  have put : s.ownerChanges l v kind payload =
      ((s.received l kind payload).endRecord l).putRecord pos (f { g with age := 0 }) :=
    edit.trans (modifyGarment_some (s := (s.received l kind payload).endRecord l) (h.live close live) f)
  obtain ⟨t, run, closes, ring, rest, frame⟩ := close_survives h close accepts live free stays
    (by rw [put]; exact sameBut_putRecord ..) (by decide)
  refine ⟨t, run, closes, ?_, ring, sameBut_widen frame (by decide)⟩
  refine (rest.garments (by decide)).trans ?_
  rw [put]
  exact recordIs_putRecord (u := (s.received l kind payload).endRecord l) (h.touched close live) _

end

/-! ## SPRAY -/

/-- A settled delivery: the record credited and tested for completion, a shortfall refunded (R144, R150). -/
theorem settleDelivery_eq (live : s.findTag v.tag = some (pos, g)) {grant : Grant} (granted : v.grant = some grant)
    (m : Nat) : s.settleDelivery v m = { s.putRecord pos
      (Garment.treatIfComplete { g with delivered := min maxPulses (g.delivered + m) }) with
        meter := if m < v.param1 then s.meter.refund (v.param1 - m) grant else s.meter } := by
  let given : Garment := { g with delivered := min maxPulses (g.delivered + m) }
  have found : (s.putRecord pos given).findTag v.tag = some (pos, given) := findTag_putRecord live rfl
  have refunded : (s.creditPulses v.tag m).refundShortfall v m = { s.putRecord pos given with
      meter := if m < v.param1 then s.meter.refund (v.param1 - m) grant else s.meter } := by
    have credited : s.creditPulses v.tag m = s.putRecord pos given := modifyGarment_some live _
    rw [credited, State.refundShortfall, granted]
    dsimp only
    split <;> rfl
  rw [State.settleDelivery, refunded, modifyGarment_some (s := { s.putRecord pos given with
    meter := if m < v.param1 then s.meter.refund (v.param1 - m) grant else s.meter }) found]
  unfold State.putRecord
  dsimp only
  rw [put_put]

section
variable (h : s.Reports l kind payload v) (live : s.findTag v.tag = some (pos, g)) (free : s.notCancelled g)
include h live free

theorem close_sprays (close : kind = kindDone ∨ kind = kindFail) (spray : v.verdict = .spray) {grant : Grant}
    (granted : v.grant = some grant) :
    let m := if kind = kindDone then field payload 7 2 else 0
    ∃ t, exec (closeRow kind l payload) s = .next t ∧ s.Closes l kind t ∧
      s.recordIs pos (Garment.treatIfComplete { g with age := 0, delivered := min maxPulses (g.delivered + m) }) t ∧
      t.meter = (if m < v.param1 then s.meter.refund (v.param1 - m) grant else s.meter) ∧
      t.ring = s.ringReleased v.platen ∧ s.sameBut [.garments, .stations, .ring, .meter, .messages] t := by
  intro m
  have close' : kind = kindDone ∨ kind = kindFail ∨ kind = kindAbort := close.imp_right .inl
  have accepts : v.accepts kind = true := by
    unfold OpenVerdict.accepts
    rw [spray]
    rcases close with rfl | rfl <;> rfl
  have stays : v.retires kind { g with age := 0 } = none := by rw [OpenVerdict.retires, spray]
  have found := h.live close' live
  have touched := h.touched close' live
  have shape : s.ownerChanges l v kind payload = { ((s.received l kind payload).endRecord l).putRecord pos
      (Garment.treatIfComplete { g with age := 0, delivered := min maxPulses (g.delivered + m) }) with
        meter := if m < v.param1 then s.meter.refund (v.param1 - m) grant else s.meter } := by
    have settled := settleDelivery_eq (s := (s.received l kind payload).endRecord l) found granted m
    have meter : ((s.received l kind payload).endRecord l).meter = s.meter :=
      (sameBut_received s l kind payload).meter (by decide)
    rw [meter] at settled
    rw [State.ownerChanges, State.closeVerdict, spray]
    exact settled
  obtain ⟨t, run, closes, ring, rest, frame⟩ := close_survives h close' accepts live free stays
    (a := [.garments, .meter]) (by
      rw [shape]
      constructor <;> intros <;> simp_all [State.putRecord]) (by decide)
  refine ⟨t, run, closes, ?_, ?_, ring, sameBut_widen frame (by decide)⟩
  · refine (rest.garments (by decide)).trans ?_
    rw [shape]
    exact recordIs_putRecord (u := (s.received l kind payload).endRecord l) touched _
  · rw [rest.meter (by decide), shape]

end

/-! ## ABORT -/

theorem close_aborts (h : s.Reports l kindAbort payload v) (live : s.findTag v.tag = some (pos, g))
    (free : s.notCancelled g) (load : v.verdict = .load) : ∃ t, exec (.abort l payload) s = .next t ∧
      t.garments.records.find pos = none ∧ t.verdictOf l = none ∧
      t.sent.getLast? = some ⟨l, .ack kindAbort (s.station l).mode⟩ ∧
      (∀ k, v.platen = some k → g.location = .ring k → t.platen k = ⟨.empty, none, false⟩) ∧
      (TagsSafe s → ∀ b o, g.binding = some b → s.order b.slot = some o →
        t.order b.slot = some (o.less b.line)) := by
  have close : kindAbort = kindDone ∨ kindAbort = kindFail ∨ kindAbort = kindAbort := .inr (.inr rfl)
  have accepts : v.accepts kindAbort = true := by rw [OpenVerdict.accepts, load]; rfl
  have run := h.run close accepts
  have found := h.live close live
  have met := met_received s l kindAbort payload
  have seen := sameBut_received s l kindAbort payload
  have tags' (tags : TagsSafe s) : TagsSafe (s.received l kindAbort payload) := tags_received tags
  have changes : ((s.received l kindAbort payload).endRecord l).closeVerdict v kindAbort (field payload 7 2)
      (field payload 7 1 = 1) = ((s.received l kindAbort payload).endRecord l).retire .withdrawn v.tag := by
    rw [State.closeVerdict, load]
    exact if_pos rfl
  rw [State.closeBy, changes] at run
  generalize s.received l kindAbort payload = r at *
  have undoes : r.Undoes (((r.endRecord l).retire .withdrawn v.tag).releaseHold v.platen |>.afterVerdict v.tag) :=
    State.Undoes.trans (t := r.endRecord l) (undoes_of_sameBut (quiet_endRecord ..) (sameBut_endRecord r l) (by decide))
      (((undoes_retire (.inr rfl) _ v.tag).trans
        (undoes_of_sameBut (quiet_releaseHold ..) (sameBut_releaseHold _ v.platen) (by decide))).trans
        (undoes_afterVerdict _ v.tag))
  have gone := find_retire (s := r.endRecord l) .withdrawn found
  obtain ⟨served, gives, -⟩ := givesBack_retire (s := r.endRecord l) found .withdrawn
  have idle := (rests_retire (r.endRecord l) .withdrawn v.tag).verdict (verdictOf_endRecord r l)
  have line := (retire_withdrawn (s := r.endRecord l) found).2.2.2.1
  have none (tags : TagsSafe s) := findTag_retire (s := r.endRecord l) (alone_of_tagsSafe (tags' tags) found) .withdrawn
    found
  generalize (r.endRecord l).retire .withdrawn v.tag = u at *
  have hold := sameBut_releaseHold u v.platen
  have after := sameBut_afterVerdict (u.releaseHold v.platen) v.tag
  obtain ⟨station, -, sent, platens, last⟩ := acked (s := s) (x := (u.releaseHold v.platen).afterVerdict v.tag) l
    kindAbort (undoes.quiet.limits.trans met.limits) (met.cells.trans undoes.cells)
  refine ⟨_, run, ?_, ?_, ?_, fun k platen place => ?_, fun tags b o bound listed => ?_⟩
  · rw [last.garments (by decide)]
    exact (sameTags_afterVerdict _ v.tag).none (by rw [hold.garments (by decide)]; exact gone)
  · have stations : ((u.releaseHold v.platen).afterVerdict v.tag).verdictOf l = u.verdictOf l := by
      unfold State.verdictOf State.station
      rw [after.stations (by decide), hold.stations (by decide)]
    exact (verdictOf_eq station).trans (stations.trans idle)
  · rw [sent, List.getLast?_concat, undoes.quiet.station_mode, met.mode]
  · refine (platen_congr (platens.trans (congrArg Ring.platens (after.ring (by decide)))) k).trans ?_
    rw [platen_releaseHold, if_pos platen, gives.platens k, if_pos place, if_pos place]
  · have listed' : r.order b.slot = some o := by
      unfold State.order
      rw [seen.orders (by decide)]
      exact listed
    have stands := (line b o bound listed').stands fun empty => free b o bound listed empty.1
    rw [← stands]
    unfold State.order
    rw [last.orders (by decide), afterVerdict_unknown ((findTag_garments (hold.garments (by decide))).trans (none tags)),
      hold.orders (by decide)]

/-! ## The ring stations -/

theorem fullness (given : Garment) : Garment.treatIfComplete given =
    if given.stage = .blank ∧ given.full * 9 ≤ given.delivered * 10 then { given with stage := .treated } else given := by
  unfold Garment.treatIfComplete Garment.completes
  exact if_congr (and_congr_right' decide_eq_true_iff) rfl rfl

theorem refund_eq (m : Meter) (n k : Nat) (grant : Grant) :
    (if k < n then m.refund (n - k) grant else m) = if n ≤ k then m else match grant.bucket with
      | .committed => { m with bc := min m.cbs (m.bc + (n - k)) }
      | .excess => { m with be := min m.ebs (m.be + (n - k)) } := by
  by_cases short : k < n
  · rw [if_pos short, if_neg (by omega)]
    cases bucket : grant.bucket <;> simp [Meter.refund, refundTo, bucket]
  · rw [if_neg short, if_pos (by omega)]

/-- Settles O49, by the verdict and the kind of the report. -/
theorem ringReportsChangeTheGarment : Obligations.RingReportsChangeTheGarment := by
  unfold Obligations.RingReportsChangeTheGarment
  intro s l kind payload v pos g h live
  refine ⟨fun close accepts tables tags b o bound listed shut =>
    close_offOrder h live close accepts tables tags bound listed shut, fun free => ?_⟩
  intro seen becomes delivers
  have rewrites (f : Garment → Garment) (close : kind = kindDone ∨ kind = kindFail ∨ kind = kindAbort)
      (accepts : v.accepts kind = true) (stays : v.retires kind { g with age := 0 } = none)
      (edit : s.ownerChanges l v kind payload =
        ((s.received l kind payload).endRecord l).modifyGarment v.tag f) : becomes (f seen) :=
    close_rewrites h close accepts live free stays edit
  have sprays (spray : v.verdict = .spray) (grant : Grant) (granted : v.grant = some grant)
      (close : kind = kindDone ∨ kind = kindFail) :
      delivers (if kind = kindDone then field payload 7 2 else 0) grant := by
    obtain ⟨t, run, closes, record, meter, ring, frame⟩ := close_sprays h live free close spray granted
    rw [fullness] at record
    exact ⟨t, run, closes, record, meter.trans (refund_eq ..), ring, frame⟩
  refine ⟨fun load done => ?_, fun load abort => ?_, fun spray grant granted => ⟨fun done => ?_, fun fail => ?_⟩,
    fun press done => ?_, fun press fail => ?_, fun print done => ?_, fun print fail => ?_⟩
  · subst done
    refine rewrites (fun x => { x with placing := false }) (.inl rfl) ?_ ?_ ?_
    · rw [OpenVerdict.accepts, load]
      rfl
    · rw [OpenVerdict.retires, load]
      exact if_neg (by decide)
    · rw [State.ownerChanges, State.closeVerdict, load]
      exact if_neg (by decide)
  · subst abort
    obtain ⟨t, run, gone, idle, sent, platen, order⟩ := close_aborts h live free load
    exact ⟨t, run, gone, idle, sent, platen, order⟩
  · have given := sprays spray grant granted (.inl done)
    rwa [if_pos done] at given
  · have given := sprays spray grant granted (.inr fail)
    rwa [if_neg (by rw [fail]; decide)] at given
  · subst done
    refine rewrites (fun x => { x with stage := .pressed, wet := false }) (.inl rfl) ?_ ?_ ?_
    · rw [OpenVerdict.accepts, press]
      rfl
    · rw [OpenVerdict.retires, press]
    · rw [State.ownerChanges, State.closeVerdict, press]
      exact if_pos rfl
  · subst fail
    refine close_stands h (.inr (.inl rfl)) ?_ live free ?_ ?_
    · rw [OpenVerdict.accepts, press]
      rfl
    · rw [OpenVerdict.retires, press]
    · rw [State.ownerChanges, State.closeVerdict, press]
      exact if_neg (by decide)
  · subst done
    refine rewrites (fun x => { x with stage := .printed, ink := min 999 (field payload 7 2) }) (.inl rfl) ?_ ?_ ?_
    · rw [OpenVerdict.accepts, print]
      rfl
    · rw [OpenVerdict.retires, print]
    · rw [State.ownerChanges, State.closeVerdict, print]
      exact if_pos rfl
  · subst fail
    have accepts : v.accepts kindFail = true := by
      rw [OpenVerdict.accepts, print]
      rfl
    have stays : v.retires kindFail { g with age := 0 } = none := by rw [OpenVerdict.retires, print]
    have changes : s.ownerChanges l v kindFail payload = if decide (field payload 7 1 = 1) = true
        then ((s.received l kindFail payload).endRecord l).spoil v.tag
        else (s.received l kindFail payload).endRecord l := by
      rw [State.ownerChanges, State.closeVerdict, print]
      exact if_neg (by decide)
    by_cases started : field payload 7 1 = 1
    · have spoilt := rewrites (fun x => { x with spoiled := true }) (.inr (.inl rfl)) accepts stays
        (changes.trans (if_pos (decide_eq_true started)))
      rwa [show decide (g.spoiled = true ∨ field payload 7 1 = 1) = true from decide_eq_true (.inr started)]
    · have same : decide (g.spoiled = true ∨ field payload 7 1 = 1) = g.spoiled := by simp [started]
      rw [same]
      exact close_stands (g := g) h (.inr (.inl rfl)) accepts live free stays
        (changes.trans (if_neg (by simpa using started)))

end Sys2Proof.Machine
end

section
/-! SUPPORT. Placements: a garment put on the belt, in the lane its verdict reserved, or on the overflow list. -/

namespace Sys2Proof.Machine

variable {s t u x : State} {l : Link} {kind : Byte} {payload : List Byte} {tag : Tag} {pos n : Nat} {g : Garment}
  {b : Binding} {o : Order} {v : OpenVerdict}

/-! ## The placement -/

theorem sameBut_leavePlace (s : State) (g : Garment) : s.sameBut [.orders, .ring, .cure, .bins] (s.leavePlace g) := by
  unfold State.leavePlace
  cases g.location with
  | ring k => constructor <;> intros <;> simp_all [State.emptyPlaten, State.modifyPlaten]
  | belt n p => exact sameBut_widen (sameBut_refl s) (by decide)
  | exit => constructor <;> intros <;> simp_all
  | overflow => constructor <;> intros <;> simp_all [State.returnCells]

theorem sameBut_modifyLane (s : State) (k : Nat) (f : Lane → Lane) : s.sameBut [.cure] (s.modifyLane k f) := by
  unfold State.modifyLane
  constructor <;> intros <;> simp_all

/-- A garment's record after a placement. -/
def State.placedAs (s : State) (g : Garment) (n : Nat) (recure : Bool) : Garment :=
  g.placed (s.classEntry g.cls) n s.cure.beltCount s.limits.retention recure

/-- What a placement changes, part by part. -/
structure State.Places (s : State) (pos : Nat) (g : Garment) (n : Nat) (recure : Bool) (t : State) : Prop where
  record : t.garments = { s.garments with records := s.garments.records.put pos (s.placedAs g n recure) }
  lane : ∀ k, t.lane k = if k = n then ⟨some s.cure.beltCount, false, none⟩ else s.lane k
  platens : ∀ k, t.platen k = { s.platen k with
    state := if g.location = .ring k then .empty else (s.platen k).state
    tag := if g.location = .ring k then none else (s.platen k).tag }
  exitQueue : t.cure.exitQueue =
    if g.location = .exit then s.cure.exitQueue.filter (· ≠ g.tag) else s.cure.exitQueue
  overflow : t.bins.overflow =
    if g.location = .overflow then s.bins.overflow.filter (· ≠ g.tag) else s.bins.overflow
  cells : t.orders.freeCells = s.orders.freeCells + if g.location = .overflow then 1 else 0
  rest : s.sameBut [.garments, .orders, .ring, .cure, .bins] t

theorem places_place (live : s.findTag tag = some (pos, g)) (n : Nat) (recure : Bool) :
    s.Places pos g n recure (s.place tag n recure) := by
  have platens := leavePlace_platen (s := s) g
  have shape := leavePlace_eq (s := s) g
  have left := sameBut_leavePlace s g
  unfold State.place
  rw [live]
  dsimp only
  generalize s.leavePlace g = u at platens shape left
  have lanes := lane_modifyLane u n (f := fun _ => Lane.entered s.cure.beltCount)
  refine ⟨?_, fun k => (lanes k).trans ?_, platens, ?_, ?_, ?_, ?_⟩
  · rw [shape]
    rfl
  · have same : u.lane k = s.lane k := by
      rw [shape]
      rfl
    rw [same]
    rfl
  · rw [shape]
    rfl
  · rw [shape]
    rfl
  · rw [shape]
    rfl
  · exact sameBut_trans (sameBut_trans (changed := [.orders, .ring, .cure, .bins]) left (sameBut_modifyLane u n _)
      (by decide) (by decide)) (sameBut_putRecord ..) (by decide) (by decide)

/-! ## A close that reaches other parts -/

section
variable (h : s.Reports l kind payload v) (close : kind = kindDone ∨ kind = kindFail ∨ kind = kindAbort)
  (accepts : v.accepts kind = true) (live : s.findTag v.tag = some (pos, g)) (free : s.notCancelled g)
include h close accepts live free

/-- A close whose garment lives on, of no order being cancelled, whatever the owner changes but stations and messages. -/
theorem close_acknowledges (stays : v.retires kind { g with age := 0 } = none)
    (stations : (s.ownerChanges l v kind payload).stations = ((s.received l kind payload).endRecord l).stations)
    (sent : (s.ownerChanges l v kind payload).sent = s.sent) (limits : (s.ownerChanges l v kind payload).limits = s.limits)
    (cells : s.orders.freeCells ≤ (s.ownerChanges l v kind payload).orders.freeCells) :
    ∃ t, exec (closeRow kind l payload) s = .next t ∧ s.Closes l kind t ∧
      (∀ k, t.platen k = { (s.ownerChanges l v kind payload).platen k with
        held := if v.platen = some k then false else ((s.ownerChanges l v kind payload).platen k).held }) ∧
      (s.ownerChanges l v kind payload).sameBut [.stations, .ring, .messages] t := by
  have met := met_received s l kind payload
  have seen := sameBut_received s l kind payload
  have slots : (s.received l kind payload).orders.slots = s.orders.slots :=
    congrArg OrderBlock.slots (seen.orders (by decide))
  obtain ⟨⟨y, found, binding⟩, slots'⟩ := closeVerdict_keeps (s := (s.received l kind payload).endRecord l)
    (result := field payload 7 2) (started := field payload 7 1 = 1) (h.live close live) stays
  have run := h.run close accepts
  rw [State.closeBy, ← State.ownerChanges] at run
  rw [← State.ownerChanges] at found slots'
  generalize s.ownerChanges l v kind payload = u at *
  have hold := sameBut_releaseHold u v.platen
  have after : (u.releaseHold v.platen).afterVerdict v.tag = u.releaseHold v.platen := by
    refine afterVerdict_free fun p z at_ => ?_
    rw [findTag_garments (hold.garments (by decide)), found] at at_
    cases at_
    exact notCancelled_of_binding
      ((congrArg OrderBlock.slots (hold.orders (by decide))).trans (slots'.trans slots)) binding free
  rw [after] at run
  obtain ⟨station, others, told, platens, last⟩ := acked (s := s) (x := u.releaseHold v.platen) l kind
    ((hold.limits (by decide)).trans limits)
    (cells.trans (congrArg OrderBlock.freeCells (hold.orders (by decide))).ge)
  have same : ∀ m, (u.releaseHold v.platen).station m = ((s.received l kind payload).endRecord l).station m := fun m => by
    unfold State.station
    rw [hold.stations (by decide), stations]
  refine ⟨_, run, ⟨?_, fun m other => ?_, ?_⟩, fun k => ?_, sameBut_trans hold last (by decide) (by decide)⟩
  · rw [station, same, station_endRecord, met.station]
    rfl
  · rw [others m other, same, station_endRecord_ne _ other, met.others other]
  · rw [told, hold.messages (by decide), sent, same, station_endRecord, met.station]
    rfl
  · rw [platen_congr platens k, platen_releaseHold]

end

theorem closePlacement_lane (lane : v.lane = some n) (recure : Bool) :
    s.closePlacement v recure = s.place v.tag n recure := by
  rw [State.closePlacement, lane]

theorem classEntry_received (s : State) (l : Link) (kind : Byte) (payload : List Byte) (c : Nat) :
    (s.received l kind payload).classEntry c = s.classEntry c := by
  unfold State.classEntry
  rw [(sameBut_received s l kind payload).refs (by decide)]

/-- A DONE that closes a verdict with a lane reserved. -/
theorem close_places (h : s.Reports l kindDone payload v) (live : s.findTag v.tag = some (pos, g))
    (free : s.notCancelled g) {recure : Bool} (kind : v.verdict = if recure then .recure else .toBelt)
    (lane : v.lane = some n) :
    ∃ t, exec (.done l payload) s = .next t ∧ s.Closes l kindDone t ∧
      s.recordIs pos (s.placedAs { g with age := 0 } n recure) t ∧ t.lane n = ⟨some s.cure.beltCount, false, none⟩ ∧
      (∀ j, j ≠ n → t.lane j = s.lane j) ∧
      (∀ k, t.platen k = { s.platen k with
        state := if g.location = .ring k then .empty else (s.platen k).state
        tag := if g.location = .ring k then none else (s.platen k).tag
        held := if v.platen = some k then false else (s.platen k).held }) ∧
      t.cure.exitQueue = (if g.location = .exit then s.cure.exitQueue.filter (· ≠ v.tag) else s.cure.exitQueue) ∧
      t.bins.overflow = (if g.location = .overflow then s.bins.overflow.filter (· ≠ v.tag) else s.bins.overflow) ∧
      t.orders.freeCells = (if g.location = .overflow then s.orders.freeCells + 1 else s.orders.freeCells) ∧
      s.sameBut [.garments, .orders, .stations, .ring, .cure, .bins, .messages] t := by
  have close : kindDone = kindDone ∨ kindDone = kindFail ∨ kindDone = kindAbort := .inl rfl
  have accepts : v.accepts kindDone = true := by
    rw [OpenVerdict.accepts, kind]
    cases recure <;> rfl
  have stays : v.retires kindDone { g with age := 0 } = none := by
    rw [OpenVerdict.retires, kind]
    cases recure <;> rfl
  have named := (findTag_some live).2.1
  have met := met_received s l kindDone payload
  have seen := sameBut_received s l kindDone payload
  have touched := h.touched close live
  have changes : s.ownerChanges l v kindDone payload =
      ((s.received l kindDone payload).endRecord l).place v.tag n recure := by
    rw [State.ownerChanges, State.closeVerdict, kind]
    cases recure <;> exact closePlacement_lane lane _
  have placed := places_place (s := (s.received l kindDone payload).endRecord l) (h.live close live) n recure
  rw [← changes] at placed
  have ended : s.sameBut [.garments, .stations] ((s.received l kindDone payload).endRecord l) :=
    sameBut_trans seen (sameBut_endRecord ..) (by decide) (by decide)
  have cells := placed.cells
  rw [ended.orders (by decide)] at cells
  obtain ⟨t, run, closes, platens, rest⟩ := close_acknowledges h close accepts live free stays
    (placed.rest.stations (by decide)) ((placed.rest.messages (by decide)).trans met.sent)
    ((placed.rest.limits (by decide)).trans met.limits) (by rw [cells]; exact Nat.le_add_right ..)
  have cure : ((s.received l kindDone payload).endRecord l).cure = s.cure := ended.cure (by decide)
  have lanes : ∀ k, t.lane k = if k = n then ⟨some s.cure.beltCount, false, none⟩ else s.lane k := fun k => by
    have made := placed.lane k
    unfold State.lane at made ⊢
    rw [rest.cure (by decide), made, cure]
  refine ⟨t, run, closes, ?_, (lanes n).trans (if_pos rfl), fun j other => (lanes j).trans (if_neg other), fun k => ?_,
    ?_, ?_, ?_, ?_⟩
  · have as_ : ((s.received l kindDone payload).endRecord l).placedAs { g with age := 0 } n recure =
        s.placedAs { g with age := 0 } n recure := by
      unfold State.placedAs
      rw [cure, ended.limits (by decide)]
      exact congrArg (fun c => Garment.placed _ c n _ _ recure) (classEntry_received ..)
    refine (rest.garments (by decide)).trans (placed.record.trans ?_)
    rw [as_]
    exact recordIs_putRecord (u := (s.received l kindDone payload).endRecord l) touched _
  · rw [platens k, placed.platens k, platen_congr (congrArg Ring.platens (ended.ring (by decide))) k]
  · rw [rest.cure (by decide), placed.exitQueue, cure, named]
  · rw [rest.bins (by decide), placed.overflow, ended.bins (by decide), named]
  · rw [rest.orders (by decide), cells]
    split <;> rfl
  · exact sameBut_trans (sameBut_trans (changed := [.garments, .orders, .stations, .ring, .cure, .bins]) ended placed.rest
      (by decide) (by decide)) rest (by decide) (by decide)

/-! ## The overflow list -/

/-- A garment of the exit queue put on the overflow list. -/
theorem placeOverflow_exit (live : s.findTag tag = some (pos, g)) (exit : g.location = .exit) :
    s.placeOverflow tag = { s.putRecord pos { g with location := .overflow } with
      cure.exitQueue := s.cure.exitQueue.filter (· ≠ tag), bins.overflow := s.bins.overflow ++ [tag] } := by
  have named := (findTag_some live).2.1
  rw [State.placeOverflow, live]
  dsimp only
  rw [if_neg (by rw [exit]; decide), State.leavePlace, exit, ← named]
  rfl

theorem placeOverflow_stays (live : s.findTag tag = some (pos, g)) (there : g.location = .overflow) :
    s.placeOverflow tag = s := by
  rw [State.placeOverflow, live]
  exact if_pos there

section
variable (h : s.Reports l kindDone payload v) (live : s.findTag v.tag = some (pos, g)) (free : s.notCancelled g)
  (overflows : v.verdict = .overflow)
include h live free overflows

theorem close_overflow_exit (exit : g.location = .exit) :
    ∃ t, exec (.done l payload) s = .next t ∧ s.Closes l kindDone t ∧
      s.recordIs pos { g with age := 0, location := .overflow } t ∧
      t.cure = { s.cure with exitQueue := s.cure.exitQueue.filter (· ≠ v.tag) } ∧
      t.bins = { s.bins with overflow := s.bins.overflow ++ [v.tag] } ∧ t.ring = s.ringReleased v.platen ∧
      s.sameBut [.garments, .stations, .ring, .cure, .bins, .messages] t := by
  have close : kindDone = kindDone ∨ kindDone = kindFail ∨ kindDone = kindAbort := .inl rfl
  have touched := h.touched close live
  have ended : s.sameBut [.garments, .stations] ((s.received l kindDone payload).endRecord l) :=
    sameBut_trans (sameBut_received s l kindDone payload) (sameBut_endRecord ..) (by decide) (by decide)
  have changes : s.ownerChanges l v kindDone payload =
      ((s.received l kindDone payload).endRecord l).placeOverflow v.tag := by
    rw [State.ownerChanges, State.closeVerdict, overflows]
  rw [placeOverflow_exit (s := (s.received l kindDone payload).endRecord l) (h.live close live) exit] at changes
  obtain ⟨t, run, closes, ring, rest, frame⟩ := close_survives h close
    (by rw [OpenVerdict.accepts, overflows]; rfl) live free (by rw [OpenVerdict.retires, overflows])
    (a := [.garments, .cure, .bins]) (by
      rw [changes]
      constructor <;> intros <;> simp_all [State.putRecord]) (by decide)
  refine ⟨t, run, closes, ?_, ?_, ?_, ring, sameBut_widen frame (by decide)⟩
  · refine (rest.garments (by decide)).trans ?_
    rw [changes]
    exact recordIs_putRecord (u := (s.received l kindDone payload).endRecord l) touched _
  · rw [rest.cure (by decide), changes, ← ended.cure (by decide)]
    rfl
  · rw [rest.bins (by decide), changes, ← ended.bins (by decide)]
    rfl

theorem close_overflow_stays (there : g.location = .overflow) :
    ∃ t, exec (.done l payload) s = .next t ∧ s.Closes l kindDone t ∧
      s.recordIs pos { g with age := 0 } t ∧ t.ring = s.ringReleased v.platen ∧
      s.sameBut [.garments, .stations, .ring, .messages] t := by
  have close : kindDone = kindDone ∨ kindDone = kindFail ∨ kindDone = kindAbort := .inl rfl
  refine close_stands h close (by rw [OpenVerdict.accepts, overflows]; rfl) live free (by rw [OpenVerdict.retires, overflows]) ?_
  rw [State.ownerChanges, State.closeVerdict, overflows]
  exact placeOverflow_stays (h.live close live) there

end

/-- Settles O50: each placement is the close of a verdict whose garment lives on, with the record that the placement
rewrites. -/
theorem placementsMoveTheGarment : Obligations.PlacementsMoveTheGarment := by
  unfold Obligations.PlacementsMoveTheGarment
  intro s l payload v pos g h live free c ceiling target places
  refine ⟨fun n kind lane => ?_, fun n kind lane => ?_, close_overflow_exit h live free, close_overflow_stays h live free⟩
  · exact close_places (recure := false) h live free kind lane
  · exact close_places (recure := true) h live free kind lane

end Sys2Proof.Machine
end

section
/-! SUPPORT. The advance of the belt: its records, the exit queue and the lanes, before a lane is handed out. -/

namespace Sys2Proof.Machine

variable {s t : State} {a : Advance} {g h : Garment} {n m pos : Nat} {entry : BeltCount}

/-! ## The steps of an ADVANCE -/

/-- The state in which an ADVANCE looks for the garments that leave the belt. -/
def State.carried (s : State) (a : Advance) : State :=
  (s.doseBelt a).moveBelt a.d

/-- The state of an ADVANCE before a lane is handed out. -/
def State.advanced (s : State) (a : Advance) : State :=
  (s.carried a).exitBelt.mapLanes (s.carried a).exitBelt.cure.spaceLane

theorem advance_eq (s : State) (a : Advance) : s.advance a = (s.advanced a).serveWait := rfl

/-- A garment's record after an ADVANCE. -/
def State.advances (s : State) (a : Advance) (g : Garment) : Garment :=
  if (s.carried a).leavesBelt (s.weighGarment a g) then (s.weighGarment a g).exited else s.weighGarment a g

/-- The tags that an ADVANCE appends to the exit queue. -/
def State.leaving (s : State) (a : Advance) : List Tag :=
  ((s.carried a).beltOrder (s.carried a).leavesBelt).map Garment.tag

theorem mapVal_mapVal (t : Table α) (f f' : α → α) : (t.mapVal f).mapVal f' = t.mapVal (f' ∘ f) := by
  unfold Table.mapVal
  rw [List.map_map]
  rfl

theorem carried_eq (s : State) (a : Advance) : s.carried a = { s with
    garments.records := s.garments.records.mapVal (s.weighGarment a)
    cure.beltCount := s.cure.beltCount + BitVec.ofNat 32 a.d
    port.causes := (s.doseBelt a).port.causes } := by
  unfold State.carried State.moveBelt State.doseBelt State.mapRecords
  rw [raiseIf_eq]

theorem advanced_eq (s : State) (a : Advance) : s.advanced a = { s with
    garments.records := s.garments.records.mapVal (s.advances a)
    cure.beltCount := s.cure.beltCount + BitVec.ofNat 32 a.d
    cure.exitQueue := s.cure.exitQueue ++ s.leaving a
    cure.lanes := (s.advanced a).cure.lanes
    port.causes := (s.doseBelt a).port.causes } := by
  have shape : (s.carried a).exitBelt = { s with
      garments.records := s.garments.records.mapVal (s.advances a)
      cure.beltCount := s.cure.beltCount + BitVec.ofNat 32 a.d
      cure.exitQueue := s.cure.exitQueue ++ s.leaving a
      port.causes := (s.doseBelt a).port.causes } := by
    have records : (s.carried a).garments.records.mapVal
        (fun g => if (s.carried a).leavesBelt g then g.exited else g) = s.garments.records.mapVal (s.advances a) := by
      rw [congrArg (fun x => x.garments.records) (carried_eq s a), mapVal_mapVal]
      rfl
    unfold State.exitBelt State.mapRecords
    dsimp only
    rw [records, ← State.leaving, carried_eq]
  rw [State.advanced, mapLanes_eq, shape]

/-! ## The records -/

theorem weightAt_eq (c : Cure) (a : Advance) (p : Nat) : c.weightAt a p =
    if p < c.e0 then 0 else if p < c.e0 + c.z1 then c.zoneWeight a.t1
      else if p < c.e0 + c.z1 + c.z2 then c.zoneWeight a.t2
      else if p < c.exitPosition then c.zoneWeight a.t3 else 0 := by
  unfold Cure.weightAt Cure.partAt
  split_ifs <;> rfl

/-- The dose of a garment on the belt after an ADVANCE (R168). -/
def State.doseAfter (s : State) (a : Advance) (g : Garment) (entry : BeltCount) : Nat :=
  dosed g.dose a.t (s.cure.weightAt a (beltDistance s.cure.beltCount entry))

theorem weigh_off (off : ∀ n entry, g.location ≠ .belt n entry) : s.weighGarment a g = g := by
  have belt : g.onBelt = false := by
    unfold Garment.onBelt
    split
    · exact absurd ‹_› (off _ _)
    · rfl
  have place : s.beltPlace g = none := by
    unfold State.beltPlace
    split
    · exact absurd ‹_› (off _ _)
    · rfl
  rw [State.weighGarment, belt, State.doseGarment, place]
  rfl

theorem doseGarment_on (on : g.location = .belt n entry) :
    s.doseGarment a g = { g with dose := s.doseAfter a g entry, age := 0 } := by
  rw [State.doseGarment, State.beltPlace, on]
  rfl

theorem weigh_on (on : g.location = .belt n entry) : s.weighGarment a g = { g with
    dose := s.doseAfter a g entry, age := 0
    result := if g.ceiling < s.doseAfter a g entry ∧ g.result = .none then .over else g.result } := by
  have belt : g.onBelt = true := by rw [Garment.onBelt, on]
  rw [State.weighGarment, belt, doseGarment_on on]
  by_cases scorched : g.ceiling < s.doseAfter a g entry ∧ g.result = .none
  · rw [if_pos scorched]
    exact if_pos (by simpa [Garment.scorches] using scorched)
  · rw [if_neg scorched]
    exact if_neg (by simpa [Garment.scorches] using scorched)

theorem weigh_keeps (s : State) (a : Advance) (g : Garment) :
    (s.weighGarment a g).location = g.location ∧ (s.weighGarment a g).tag = g.tag := by
  by_cases on : ∃ n entry, g.location = .belt n entry
  · obtain ⟨n, entry, on⟩ := on
    rw [weigh_on on]
    exact ⟨rfl, rfl⟩
  · rw [weigh_off fun n entry is => on ⟨n, entry, is⟩]
    exact ⟨rfl, rfl⟩

theorem leavesBelt_iff : s.leavesBelt g = true ↔ ∃ n entry, g.location = .belt n entry ∧
    s.cure.exitPosition ≤ beltDistance s.cure.beltCount entry := by
  unfold State.leavesBelt State.beltPlace
  cases place : g.location <;> simp

theorem carried_leaves : (s.carried a).leavesBelt (s.weighGarment a g) = true ↔ ∃ n entry, g.location = .belt n entry ∧
    s.cure.exitPosition ≤ beltDistance (s.cure.beltCount + BitVec.ofNat 32 a.d) entry := by
  rw [leavesBelt_iff, (weigh_keeps s a g).1, carried_eq]
  rfl

theorem advances_off (off : ∀ n entry, g.location ≠ .belt n entry) : s.advances a g = g := by
  rw [State.advances, weigh_off off, if_neg]
  rw [leavesBelt_iff]
  rintro ⟨n, entry, on, -⟩
  exact off n entry on

theorem advances_on (on : g.location = .belt n entry) : s.advances a g =
    if s.cure.exitPosition ≤ beltDistance (s.cure.beltCount + BitVec.ofNat 32 a.d) entry
      then (s.weighGarment a g).exited else s.weighGarment a g := by
  rw [State.advances]
  refine if_congr (carried_leaves.trans ⟨?_, fun past => ⟨n, entry, on, past⟩⟩) rfl rfl
  rintro ⟨k, e, on', past⟩
  cases on.symm.trans on'
  exact past

/-! ## SCORCH -/

theorem pendingCause_raiseIf (s : State) (b : Bool) (c : Cause) :
    (s.raiseIf b c).pendingCause c = true ↔ s.pendingCause c = true ∨ b = true := by
  cases b
  · simp [State.raiseIf]
  · simpa [State.raiseIf] using pendingCause_raise s c

theorem doseBelt_scorch : (s.doseBelt a).pendingCause .scorch = true ↔ s.pendingCause .scorch = true ∨
    ∃ g ∈ s.liveGarments, ∃ n entry, g.location = .belt n entry ∧ g.ceiling < s.doseAfter a g entry ∧ g.result = .none := by
  have iff := pendingCause_raiseIf s (s.liveGarments.any fun g => g.onBelt && (s.doseGarment a g).scorches) .scorch
  refine iff.trans (or_congr_right ?_)
  rw [List.any_eq_true]
  refine exists_congr fun g => and_congr_right fun _ => ?_
  constructor
  · intro scorched
    obtain ⟨belt, scorched⟩ := Bool.and_eq_true_iff.mp scorched
    unfold Garment.onBelt at belt
    split at belt
    · rename_i n entry on
      rw [doseGarment_on on] at scorched
      exact ⟨n, entry, on, by simpa [Garment.scorches] using scorched⟩
    · cases belt
  · rintro ⟨n, entry, on, hot, none⟩
    rw [doseGarment_on on]
    simp [Garment.onBelt, on, Garment.scorches, hot, none]

/-! ## The exit queue -/

/-- The place of a garment on the belt in the order of position, then of lane (R169). -/
def State.beltKey (s : State) (g : Garment) : Nat :=
  match s.beltPlace g with
  | some (lane, _, p) => (2 ^ 32 - p) * 4 + lane
  | none => 0

theorem beltKey_eq (on : g.location = .belt n entry) :
    s.beltKey g = (2 ^ 32 - beltDistance s.cure.beltCount entry) * 4 + n := by
  rw [State.beltKey, State.beltPlace, on]

theorem beltOrder_eq (s : State) (keep : Garment → Bool) :
    s.beltOrder keep = sortBy s.beltKey (s.liveGarments.filter fun g => g.onBelt && keep g) := rfl

theorem liveGarments_carried (s : State) (a : Advance) :
    (s.carried a).liveGarments = s.liveGarments.map (s.weighGarment a) := by
  have records : (s.carried a).garments.records = s.garments.records.mapVal (s.weighGarment a) :=
    congrArg (fun x => x.garments.records) (carried_eq s a)
  unfold State.liveGarments
  rw [records, Table.mapVal, List.map_map, List.map_map]
  rfl

/-- The garments that an ADVANCE takes off the belt. -/
theorem mem_leavers {x : Garment} : x ∈ (s.carried a).beltOrder (s.carried a).leavesBelt ↔
    ∃ g ∈ s.liveGarments, s.weighGarment a g = x ∧ ∃ n entry, g.location = .belt n entry ∧
      s.cure.exitPosition ≤ beltDistance (s.cure.beltCount + BitVec.ofNat 32 a.d) entry := by
  rw [beltOrder_eq, mem_sortBy, List.mem_filter, liveGarments_carried, List.mem_map]
  constructor
  · rintro ⟨⟨g, live, rfl⟩, leaves⟩
    exact ⟨g, live, rfl, carried_leaves.mp (Bool.and_eq_true_iff.mp leaves).2⟩
  · rintro ⟨g, live, rfl, leaves⟩
    refine ⟨⟨g, live, rfl⟩, Bool.and_eq_true_iff.mpr ⟨?_, carried_leaves.mpr leaves⟩⟩
    obtain ⟨n, entry, on, -⟩ := leaves
    rw [Garment.onBelt, (weigh_keeps s a g).1, on]

theorem mem_leaving {tag : Tag} : tag ∈ s.leaving a ↔ ∃ g ∈ s.liveGarments, ∃ n entry, g.tag = tag ∧
    g.location = .belt n entry ∧ s.cure.exitPosition ≤ beltDistance (s.cure.beltCount + BitVec.ofNat 32 a.d) entry := by
  unfold State.leaving
  rw [List.mem_map]
  constructor
  · rintro ⟨x, leaves, rfl⟩
    obtain ⟨g, live, rfl, n, entry, on, past⟩ := mem_leavers.mp leaves
    exact ⟨g, live, n, entry, (weigh_keeps s a g).2.symm, on, past⟩
  · rintro ⟨g, live, n, entry, rfl, on, past⟩
    exact ⟨_, mem_leavers.mpr ⟨g, live, rfl, n, entry, on, past⟩, (weigh_keeps s a g).2⟩

theorem live_unique (wf : s.garments.records.wf = true) (tags : TagsSafe s) (hg : g ∈ s.liveGarments)
    (hh : h ∈ s.liveGarments) (same : g.tag = h.tag) : g = h := by
  obtain ⟨p, hp⟩ := (mem_liveGarments wf).mp hg
  obtain ⟨q, hq⟩ := (mem_liveGarments wf).mp hh
  cases tags.single p q _ _ hp hq same
  exact Option.some.inj (hp.symm.trans hq)

/-- A smaller key is a greater position or, at the same one, a lower lane. -/
theorem place_of_key (s : State) {g h : Garment} {entry' : BeltCount} (on : g.location = .belt n entry)
    (on' : h.location = .belt m entry') (low : n ≤ 3) (low' : m ≤ 3) (key : s.beltKey g ≤ s.beltKey h) :
    beltDistance s.cure.beltCount entry' < beltDistance s.cure.beltCount entry ∨
      (beltDistance s.cure.beltCount entry' = beltDistance s.cure.beltCount entry ∧ n ≤ m) := by
  rw [beltKey_eq on, beltKey_eq on'] at key
  have bound : beltDistance s.cure.beltCount entry < 2 ^ 32 := (s.cure.beltCount - entry).isLt
  have bound' : beltDistance s.cure.beltCount entry' < 2 ^ 32 := (s.cure.beltCount - entry').isLt
  omega

section
variable (wf : s.garments.records.wf = true) (tags : TagsSafe s)
include wf tags

/-- The garments that leave stand in order of position and lane, and no two carry the same tag. -/
theorem leavers_order : ((s.carried a).beltOrder (s.carried a).leavesBelt).Pairwise fun x y =>
    x.tag ≠ y.tag ∧ (s.carried a).beltKey x ≤ (s.carried a).beltKey y := by
  have distinct : ((s.carried a).liveGarments.filter fun g => g.onBelt && (s.carried a).leavesBelt g).Pairwise
      fun x y => x.tag ≠ y.tag := by
    refine List.Pairwise.filter _ ?_
    rw [liveGarments_carried, List.pairwise_map]
    refine (liveGarments_order wf tags).imp_of_mem fun {x y} hx hy ordered same => ?_
    rw [(weigh_keeps s a x).2, (weigh_keeps s a y).2] at same
    obtain ⟨p, hp⟩ := (mem_liveGarments wf).mp hx
    cases live_unique wf tags hx hy same
    exact lt_irrefl p (ordered p p hp hp)
  refine (sortBy_order (key := (s.carried a).beltKey) distinct).imp_of_mem fun {x y} hx hy ordered => ?_
  refine ⟨fun same => ?_, ordered.elim le_of_lt fun tie => tie.1.le⟩
  obtain ⟨g, live, rfl, -⟩ := mem_leavers.mp hx
  obtain ⟨h, live', rfl, -⟩ := mem_leavers.mp hy
  have same' := same
  rw [(weigh_keeps s a g).2, (weigh_keeps s a h).2] at same'
  cases live_unique wf tags live live' same'
  exact ordered.elim (lt_irrefl _) fun tie => tie.2 rfl

theorem leaving_order : (s.leaving a).Nodup ∧ (s.leaving a).Pairwise fun b c => ∀ g ∈ s.liveGarments,
    ∀ h ∈ s.liveGarments, ∀ n entry m entry', g.tag = b → h.tag = c → g.location = .belt n entry →
    h.location = .belt m entry' → n ≤ 3 → m ≤ 3 →
    beltDistance (s.cure.beltCount + BitVec.ofNat 32 a.d) entry' <
        beltDistance (s.cure.beltCount + BitVec.ofNat 32 a.d) entry ∨
      (beltDistance (s.cure.beltCount + BitVec.ofNat 32 a.d) entry' =
        beltDistance (s.cure.beltCount + BitVec.ofNat 32 a.d) entry ∧ n ≤ m) := by
  have ordered := leavers_order (a := a) wf tags
  have count : (s.carried a).cure.beltCount = s.cure.beltCount + BitVec.ofNat 32 a.d := by rw [carried_eq]
  unfold State.leaving List.Nodup
  rw [List.pairwise_map, List.pairwise_map]
  refine ⟨ordered.imp And.left, ordered.imp_of_mem fun {x y} hx hy keys => ?_⟩
  intro g live h live' n entry m entry' named named' on on' low low'
  obtain ⟨g', liveX, rfl, -⟩ := mem_leavers.mp hx
  obtain ⟨h', liveY, rfl, -⟩ := mem_leavers.mp hy
  cases live_unique wf tags live liveX (named.trans (weigh_keeps s a g').2)
  cases live_unique wf tags live' liveY (named'.trans (weigh_keeps s a h').2)
  rw [← count]
  exact place_of_key _ ((weigh_keeps s a g).1.trans on) ((weigh_keeps s a h).1.trans on') low low' keys.2

end

/-! ## The lanes -/

theorem lane_advanced (s : State) (a : Advance) {k : Nat} (low : k ≤ 3) : (s.advanced a).lane k =
    { s.lane k with spaced := match (s.lane k).lastEntry with
      | none => (s.lane k).spaced
      | some e => (s.lane k).spaced ||
        decide (s.cure.spacing ≤ beltDistance (s.cure.beltCount + BitVec.ofNat 32 a.d) e) } := by
  have moved := lane_mapLanes (s.carried a).exitBelt (s.carried a).exitBelt.cure.spaceLane low
  have lane : (s.carried a).exitBelt.lane k = s.lane k :=
    congrArg (fun x => x.lane k) (carried_eq s a)
  have count : (s.carried a).exitBelt.cure.beltCount = s.cure.beltCount + BitVec.ofNat 32 a.d :=
    congrArg (fun x => x.cure.beltCount) (carried_eq s a)
  have spacing : (s.carried a).exitBelt.cure.spacing = s.cure.spacing :=
    congrArg (fun x => x.cure.spacing) (carried_eq s a)
  refine moved.trans ?_
  rw [lane, Cure.spaceLane, count, spacing]
  generalize s.lane k = x
  obtain ⟨_ | e, spaced, reservation⟩ := x
  · rfl
  · cases spaced <;> rfl

/-! ## The whole change -/

theorem free_iff (x : Lane) : x.free = true ↔ x.reservation = none ∧ (x.lastEntry = none ∨ x.spaced = true) := by
  simp [Lane.free]

theorem sameBut_advanced (s : State) (a : Advance) : s.sameBut [.garments, .cure, .causes] (s.advanced a) := by
  rw [advanced_eq]
  constructor <;> intros <;> simp_all

theorem answers_replyAck (s : State) (l : Link) (kind : Byte) : s.Answers l { s.station l with refusalSeen := false }
    (.ack kind (s.station l).mode) (s.replyAck l kind) := answers_replied ..

theorem sameBut_replyAck (s : State) (l : Link) (kind : Byte) : s.sameBut [.stations, .messages] (s.replyAck l kind) :=
  sameBut_replied ..

theorem exec_advance {payload : List Byte} (hears : s.Hears .cure kindAdvance payload) :
    exec (.advance .cure payload) s =
      .next ((((s.heard .cure).advanced (advanceOf payload)).serveWait).replyAck .cure kindAdvance) := by
  refine congrArg Host.Outcome.next ((receive_eq hears _).trans ?_)
  rw [State.received]
  show State.finish ((((s.heard .cure).advanced (advanceOf payload)).serveWait).replyAck .cure kindAdvance) s = _
  have moved := sameBut_trans (changed := [.garments, .stations, .cure, .causes]) (sameBut_heard s .cure)
    (sameBut_advanced _ (advanceOf payload)) (by decide) (by decide)
  have served := sameBut_trans (changed := [.garments, .stations, .cure, .causes, .messages]) moved
    (sameBut_serveWait _) (by decide) (by decide)
  generalize (s.heard .cure |>.advanced (advanceOf payload)).serveWait = u at served
  have replied : s.sameBut [.garments, .stations, .cure, .causes, .messages] (u.replyAck .cure kindAdvance) :=
    sameBut_trans served (sameBut_replyAck ..) (by decide) (by decide)
  exact finish_of_more (replied.ring (by decide)) (replied.limits (by decide))
    (congrArg OrderBlock.freeCells (replied.orders (by decide))).ge

/-- What an ADVANCE leaves before the lanes are handed out, part by part. -/
structure State.Carries (s : State) (payload : List Byte) (u : State) : Prop where
  records : ∀ pos, u.garments.records.find pos = (s.garments.records.find pos).map ((s.heard .cure).advances (advanceOf payload))
  count : u.cure.beltCount = s.cure.beltCount + BitVec.ofNat 32 (field payload 0 1)
  queue : u.cure.exitQueue = s.cure.exitQueue ++ (s.heard .cure).leaving (advanceOf payload)
  scorch : u.pendingCause .scorch = true ↔ s.pendingCause .scorch = true ∨
    ∃ g ∈ s.liveGarments, ∃ n entry, g.location = .belt n entry ∧
      g.ceiling < s.doseAfter (advanceOf payload) g entry ∧ g.result = .none
  lanes : ∀ k, k ≤ 3 → u.lane k = { s.lane k with spaced := match (s.lane k).lastEntry with
    | none => (s.lane k).spaced
    | some e => (s.lane k).spaced || decide (s.cure.spacing ≤
      beltDistance (s.cure.beltCount + BitVec.ofNat 32 (field payload 0 1)) e) }
  stations : u.stations = (s.heard .cure).stations
  rest : s.sameBut [.garments, .stations, .cure, .causes] u

theorem carries_advanced (s : State) (payload : List Byte) :
    s.Carries payload ((s.heard .cure).advanced (advanceOf payload)) := by
  have shape := advanced_eq (s.heard .cure) (advanceOf payload)
  have scorch := doseBelt_scorch (s := s.heard .cure) (a := advanceOf payload)
  have lanes := fun k low => lane_advanced (s.heard .cure) (advanceOf payload) (k := k) low
  have frame := sameBut_advanced (s.heard .cure) (advanceOf payload)
  generalize (s.heard .cure).advanced (advanceOf payload) = u at shape lanes frame
  refine ⟨fun pos => ?_, ?_, ?_, ?_, lanes, ?_, sameBut_trans (sameBut_heard s .cure) frame (by decide) (by decide)⟩
  · rw [shape]
    exact find_mapVal ..
  · rw [shape]
    rfl
  · rw [shape]
    rfl
  · rw [pendingCause_congr (t := u) (s := (s.heard .cure).doseBelt (advanceOf payload)) (by rw [shape])]
    exact scorch
  · rw [shape]

section
variable {u : State} {payload : List Byte} {v : OpenVerdict} (carries : s.Carries payload u)
include carries

theorem State.Carries.cure : u.station .cure = (s.station .cure).heard := by
  unfold State.station
  rw [carries.stations]
  exact station_modifyStation s .cure _

theorem State.Carries.elsewhere {l : Link} (other : l ≠ .cure) : u.station l = s.station l := by
  unfold State.station
  rw [carries.stations]
  exact station_modifyStation_ne s other _

theorem State.Carries.sent : u.sent = s.sent := carries.rest.messages (by decide)

theorem State.Carries.mode : (u.serveWait.station .cure).mode = (s.station .cure).mode := by
  rw [(quiet_serveWait u).station_mode, carries.cure]
  rfl

/-- Where no lane is handed out, the ACK is the one message. -/
theorem State.Carries.answers : s.Answers .cure (s.station .cure).answered (.ack kindAdvance (s.station .cure).mode)
    (u.replyAck .cure kindAdvance) := by
  have answers := answers_replyAck u .cure kindAdvance
  refine ⟨?_, fun l other => (answers.others l other).trans (carries.elsewhere other), ?_⟩
  · rw [answers.station, carries.cure]
    rfl
  · rw [answers.reply, carries.sent, carries.cure]
    rfl

/-- Where a lane is handed out, its VERDICT goes before the ACK. -/
theorem State.Carries.hands (opened : s.verdictOf .unload = some v) (wait : v.cls = .wait) (low : n ≤ 3)
    (vacant : (u.lane n).free = true) (lower : ∀ j, j < n → (u.lane j).free = false) :
    let t := u.serveWait.replyAck .cure kindAdvance
    s.HandsLane v n t ∧ (∀ k, k ≤ 3 → k ≠ n → (t.lane k).reservation = (s.lane k).reservation) ∧
      t.station .cure = (s.station .cure).answered ∧ (∀ l, l ≠ .unload → l ≠ .cure → t.station l = s.station l) ∧
      t.sent = s.sent ++ [laneMessage v n, ⟨.cure, .ack kindAdvance (s.station .cure).mode⟩] := by
  intro t
  have unload := carries.elsewhere (l := .unload) (by decide)
  obtain ⟨told, hands, others, lanes⟩ :=
    serveWait_hands u ((congrArg Station.verdict unload).trans opened) wait low vacant lower
  have answers := answers_replyAck u.serveWait .cure kindAdvance
  refine ⟨⟨?_, hands.lane⟩, fun k low other => ?_, ?_, fun l notUnload notCure => ?_, ?_⟩
  · rw [answers.others .unload (by decide), hands.station, unload, carries.rest.limits (by decide)]
  · show (u.serveWait.lane k).reservation = _
    rw [lanes k other, carries.lanes k low]
  · rw [answers.station, others .cure (by decide), carries.cure]
    rfl
  · rw [answers.others l notCure, others l notUnload, carries.elsewhere notCure]
  · rw [answers.reply, carries.mode, congrArg State.sent told, carries.sent]
    exact List.append_assoc ..

end

/-- Settles O58: the records, the queue and the lanes are those of the four steps; then UNLOAD's WAIT is served, and the
ACK goes out. -/
theorem advanceDosesMovesAndExits : Obligations.AdvanceDosesMovesAndExits := by
  unfold Obligations.AdvanceDosesMovesAndExits
  intro s payload hears d time heat x count weight at_ dosed_ result spaced free
  have run := exec_advance hears
  have carries := carries_advanced s payload
  generalize (s.heard .cure).advanced (advanceOf payload) = u at run carries
  have dose (g : Garment) (entry : BeltCount) : s.doseAfter (advanceOf payload) g entry = dosed_ g entry := by
    rw [State.doseAfter, weightAt_eq]
    rfl
  have dose' (g : Garment) (entry : BeltCount) : (s.heard .cure).doseAfter (advanceOf payload) g entry = dosed_ g entry :=
    dose g entry
  have frees (k : Nat) (low : k ≤ 3) : (u.lane k).free = true ↔ free k := by
    rw [free_iff, carries.lanes k low]
    exact Iff.rfl
  have lane := lane_serveWait u
  have whole := sameBut_serveWait u
  have garments : (u.serveWait.replyAck .cure kindAdvance).garments = u.garments := whole.garments (by decide)
  have causes : (u.serveWait.replyAck .cure kindAdvance).port.causes = u.port.causes := whole.causes (by decide)
  have shape := serveWait_eq u
  have queue : (u.serveWait.replyAck .cure kindAdvance).cure.exitQueue =
      s.cure.exitQueue ++ (s.heard .cure).leaving (advanceOf payload) := by
    show u.serveWait.cure.exitQueue = _
    rw [shape]
    exact carries.queue
  refine ⟨_, run, ?_, fun pos g found off => ?_, fun pos g n entry found on => ?_, ?_, ⟨_, queue,
    fun tag => mem_leaving (s := s.heard .cure) (a := advanceOf payload),
    fun tables tags => leaving_order (s := s.heard .cure) (a := advanceOf payload) tables.records tags⟩,
    fun k low => ?_, fun idle => ?_, fun v n opened wait low vacant lower => ?_, ?_, ?_⟩
  · show u.serveWait.cure.beltCount = _
    rw [shape]
    exact carries.count
  · rw [garments, carries.records, found]
    exact congrArg some (advances_off off)
  · rw [garments, carries.records, found]
    refine congrArg some ((advances_on on).trans ?_)
    rw [weigh_on on]
    refine if_congr Iff.rfl ?_ ?_
    · unfold Garment.exited Garment.exitResult
      rw [dose']
    · rw [dose']
  · rw [pendingCause_congr causes, carries.scorch]
    simp only [dose]
  · have moved := carries.lanes k low
    refine ⟨(lane k).1.trans ?_, (lane k).2.trans ?_⟩
    · rw [moved]
    · rw [moved]
      rfl
  · have unserved : u.serveWait = u := serveWait_idle u (idle.imp
      (fun works v opened => works v ((congrArg Station.verdict (carries.elsewhere (by decide))).symm.trans opened))
      fun shut k low => by simpa using fun vacant => shut k low ((frees k low).mp vacant))
    rw [unserved]
    refine ⟨fun k low => ?_, carries.answers⟩
    show (u.lane k).reservation = _
    rw [carries.lanes k low]
  · exact carries.hands opened wait low ((frees n low).mpr vacant) fun j below => by
      simpa using fun vacant' => lower j below ((frees j (by omega)).mp vacant')
  · rw [(answers_replyAck u.serveWait .cure kindAdvance).reply, List.getLast?_concat, carries.mode]
  · exact sameBut_trans (sameBut_trans (changed := [.garments, .stations, .cure, .causes, .messages]) carries.rest whole
      (by decide) (by decide)) (sameBut_replyAck ..) (by decide) (by decide)

end Sys2Proof.Machine
end

section
/-! SUPPORT. The age timer's expiry: the rise of the ages, the removal of the aged, and their ended bindings. -/

namespace Sys2Proof.Machine

variable {s t u : State} {g : Garment} {pos : Nat}

/-! ## Tags, ages and places that stay -/

/-- What neither a binding nor its end changes of a record: its tag, its age and its location. -/
def Garment.label (g : Garment) : Tag × Nat × Location :=
  (g.tag, g.age, g.location)

/-- No position's tag, age or location changes. -/
structure State.SameLabels (s t : State) : Prop where
  labels : ∀ p, (t.garments.records.find p).map Garment.label = (s.garments.records.find p).map Garment.label

theorem State.SameLabels.refl (s : State) : s.SameLabels s := ⟨fun _ => rfl⟩

theorem State.SameLabels.trans (h : s.SameLabels t) (k : t.SameLabels u) : s.SameLabels u :=
  ⟨fun p => (k.labels p).trans (h.labels p)⟩

theorem sameLabels_of_garments (same : t.garments = s.garments) : s.SameLabels t := ⟨fun p => by rw [same]⟩

theorem sameLabels_foldl {f : State → α → State} (h : ∀ s a, State.SameLabels s (f s a)) (as : List α) (s : State) :
    s.SameLabels (as.foldl f s) := by
  induction as generalizing s with
  | nil => exact .refl s
  | cons a as ih => exact (h s a).trans (ih _)

theorem State.SameLabels.none (same : s.SameLabels t) (free : s.garments.records.find pos = none) :
    t.garments.records.find pos = none := by
  have label := same.labels pos
  rw [free] at label
  exact Option.map_eq_none_iff.mp label

theorem State.SameLabels.some (same : s.SameLabels t) (listed : s.garments.records.find pos = some g) :
    ∃ g', t.garments.records.find pos = some g' ∧ g'.tag = g.tag ∧ g'.age = g.age ∧ g'.location = g.location := by
  have label := same.labels pos
  rw [listed] at label
  obtain ⟨g', there, same⟩ := Option.map_eq_some_iff.mp label
  obtain ⟨tag, rest⟩ := Prod.mk.inj same
  obtain ⟨age, location⟩ := Prod.mk.inj rest
  exact ⟨g', there, tag, age, location⟩

theorem label_repulse (s : State) (g : Garment) : (s.repulse g).label = g.label := by
  unfold State.repulse Garment.treatIfComplete
  dsimp only
  split_ifs <;> rfl

theorem sameLabels_putRecord (same : u.garments = s.garments) (listed : s.garments.records.find pos = some g)
    {x : Garment} (label : x.label = g.label) : s.SameLabels (u.putRecord pos x) := ⟨fun p => by
  show ((u.garments.records.put pos x).find p).map Garment.label = _
  rw [same]
  by_cases here : p = pos
  · rw [here, find_put_same, listed]
    exact congrArg Option.some label
  · rw [find_put_ne _ here]⟩

theorem sameLabels_bindGarment (s : State) (tag : Tag) (slot line : Nat) : s.SameLabels (s.bindGarment tag slot line) := by
  unfold State.bindGarment
  split
  · rename_i p g x live _
    refine sameLabels_putRecord ?_ (findTag_some live).1 (label_repulse ..)
    rw [garments_moveDesign]
    exact garments_leaveLine ..
  · exact .refl s

theorem sameLabels_chooseAndBind (s : State) (tag : Tag) (set : LineSet) : s.SameLabels (s.chooseAndBind tag set).1 := by
  unfold State.chooseAndBind
  split
  · exact .refl s
  · split
    · exact .refl s
    · rename_i c sched _
      exact State.SameLabels.trans (t := { s with sched := sched }) (sameLabels_of_garments rfl)
        (sameLabels_bindGarment _ tag c.slot c.line)

theorem sameLabels_offer (s : State) (set : LineSet) : s.SameLabels (s.offer set) := by
  unfold State.offer State.offerCounted
  generalize s.orphans = tags, 0 = n
  induction tags generalizing s n with
  | nil => exact .refl s
  | cons tag tags ih => exact (sameLabels_chooseAndBind s tag set).trans (ih _ _)

theorem sameLabels_handBinding (s : State) (e : Nat × Garment) : s.SameLabels (s.handBinding e) := by
  unfold State.handBinding
  cases e.2.binding with
  | none => exact .refl s
  | some b =>
    exact ((sameLabels_of_garments (garments_leaveLine s (some b))).trans (sameLabels_offer _ _)).trans
      (sameLabels_of_garments ((sameBut_drainTest _ b.slot).garments (by decide)))

/-! ## The removal of the aged -/

theorem garments_removeRecord (s : State) (reason : Reason) (e : Nat × Garment) :
    (State.removeRecord reason s e).garments.records = s.garments.records.erase e.1 :=
  congrArg (fun x => x.garments.records) (removed_removeRecord s reason e.1 e.2).rest

theorem find_foldl_removeRecord (reason : Reason) (es : List (Nat × Garment)) (s : State) (pos : Nat) :
    (es.foldl (State.removeRecord reason) s).garments.records.find pos =
      if pos ∈ es.map Prod.fst then none else s.garments.records.find pos := by
  induction es generalizing s with
  | nil => rfl
  | cons e es ih =>
    rw [List.foldl_cons, ih, garments_removeRecord, find_erase]
    by_cases later : pos ∈ es.map Prod.fst
    · simp [later]
    · simp [later]

theorem garmentLost_removeRecord (s : State) (e : Nat × Garment) :
    (State.removeRecord .lost s e).pendingCause .garmentLost = true := by
  have port := congrArg State.port (removed_removeRecord s .lost e.1 e.2).rest
  rw [pendingCause_congr (s := s.raise .garmentLost) (congrArg Port.causes port)]
  exact pendingCause_raise s .garmentLost

theorem garmentLost_foldl {es : List (Nat × Garment)} (any : es ≠ []) (s : State) :
    (es.foldl (State.removeRecord .lost) s).pendingCause .garmentLost = true := by
  cases es with
  | nil => exact absurd rfl any
  | cons e es =>
    exact pendingCause_of_grow (Quiet.foldl (fun s e => quiet_removeRecord s .lost e) es _).causes
      (garmentLost_removeRecord s e)

/-! ## The rise -/

/-- A record is exempt from aging (R12). -/
theorem ageExempt_iff : s.ageExempt g = true ↔ g.kind = .test ∨ g.location = .overflow ∨
    ((∃ k, g.location = .ring k) ∧ (s.ring.state = .halted ∨ s.ring.state = .verifying)) := by
  have ring : g.onRing = true ↔ ∃ k, g.location = .ring k := by
    unfold Garment.onRing
    cases g.location <;> simp
  simp [State.ageExempt, ring, or_assoc]

/-- A record after the rise (R12). -/
def State.aged (s : State) (g : Garment) : Garment :=
  if s.ageExempt g then g else g.older

theorem records_raiseAges (s : State) : s.raiseAges.garments.records = s.garments.records.mapVal s.aged := rfl

theorem find_raiseAges (s : State) (pos : Nat) :
    s.raiseAges.garments.records.find pos = (s.garments.records.find pos).map s.aged := by
  rw [records_raiseAges, find_mapVal]

theorem wf_raiseAges (wf : s.garments.records.wf = true) : s.raiseAges.garments.records.wf = true := by
  rw [records_raiseAges]
  exact wf_mapVal _ _ wf

theorem agedOut_aged : s.raiseAges.agedOut (s.aged g) = true ↔
    s.ageExempt g = false ∧ s.limits.ageLimit ≤ min 15 (g.age + 1) := by
  have exempt (x : Garment) : s.raiseAges.ageExempt x = s.ageExempt x := rfl
  have older : s.ageExempt g.older = s.ageExempt g := rfl
  unfold State.agedOut
  rw [exempt, State.aged]
  cases is : s.ageExempt g
  · rw [if_neg Bool.false_ne_true, older, is]
    exact decide_eq_true_iff.trans ⟨fun old => ⟨rfl, old⟩, And.right⟩
  · rw [if_pos rfl, is]
    simp

/-- The records that the limit retires. -/
def State.agedRecords (s : State) : List (Nat × Garment) :=
  s.garments.records.filter fun e => s.agedOut e.2

theorem retireAged_eq (s : State) :
    s.retireAged = s.agedRecords.foldl State.handBinding (s.agedRecords.foldl (State.removeRecord .lost) s).serveWait := rfl

theorem mem_agedRecords (wf : s.garments.records.wf = true) {x : Garment} (listed : s.garments.records.find pos = some x) :
    pos ∈ s.agedRecords.map Prod.fst ↔ s.agedOut x = true := by
  unfold State.agedRecords
  rw [List.mem_map]
  constructor
  · rintro ⟨e, member, rfl⟩
    obtain ⟨there, old⟩ := List.mem_filter.mp member
    have same : s.garments.records.find e.1 = some e.2 := find_of_mem wf there
    cases same.symm.trans listed
    exact old
  · exact fun old => ⟨(pos, x), List.mem_filter.mpr ⟨mem_of_find listed, old⟩, rfl⟩

/-- Every record's tag and age once the aged are retired. -/
theorem sameLabels_retireAged (s : State) :
    (s.agedRecords.foldl (State.removeRecord .lost) s).SameLabels s.retireAged := by
  rw [retireAged_eq]
  exact (sameLabels_of_garments ((sameBut_serveWait _).garments (by decide))).trans
    (sameLabels_foldl sameLabels_handBinding _ _)

theorem retireAged_idle (none : s.agedRecords = []) (works : ∀ v, s.verdictOf .unload = some v → v.cls = .work) :
    s.retireAged = s := by
  rw [retireAged_eq, none]
  exact serveWait_idle s (.inl works)

/-! ## The whole expiry -/

theorem exec_ageTimerExpiry (s : State) : exec .ageTimerExpiry s = .next (s.ageExpiry.finish s) := rfl

theorem garments_ageExpiry (s : State) : s.ageExpiry.garments.records = s.raiseAges.retireAged.garments.records := rfl

theorem garments_finish (t s : State) : (t.finish s).garments = t.garments := by
  rw [finish_eq]

theorem mem_raised (wf : s.garments.records.wf = true) (listed : s.garments.records.find pos = some g) :
    pos ∈ s.raiseAges.agedRecords.map Prod.fst ↔ s.ageExempt g = false ∧ s.limits.ageLimit ≤ min 15 (g.age + 1) := by
  refine (mem_agedRecords (x := s.aged g) (wf_raiseAges wf) ?_).trans agedOut_aged
  rw [find_raiseAges, listed]
  rfl

/-- The records and their garments once the aged are gone. -/
theorem find_agedOut (s : State) (pos : Nat) :
    (s.agedRecords.foldl (State.removeRecord .lost) s).garments.records.find pos =
      if pos ∈ s.agedRecords.map Prod.fst then none else s.garments.records.find pos :=
  find_foldl_removeRecord ..

theorem quiet_removeAged (s : State) : Quiet s (s.agedRecords.foldl (State.removeRecord .lost) s) :=
  Quiet.foldl (fun s e => quiet_removeRecord s .lost e) _ _

theorem garmentLost_retireAged (any : s.agedRecords ≠ []) : s.retireAged.pendingCause .garmentLost = true := by
  rw [retireAged_eq]
  exact pendingCause_of_grow ((quiet_serveWait _).trans
    (Quiet.foldl (fun s (e : Nat × Garment) => quiet_endBinding s .lost e.2.binding) _ _)).causes
    (garmentLost_foldl any s)

/-- Settles O54: the rise maps the records, the aged are removed, and neither the lane handed out nor the ended bindings
change a label. -/
theorem ageExpiryAgesAndRetires : Obligations.AgeExpiryAgesAndRetires := by
  unfold Obligations.AgeExpiryAgesAndRetires
  intro s tables exempt age dies
  have dies_iff (g : Garment) : dies g ↔ s.ageExempt g = false ∧ s.limits.ageLimit ≤ min 15 (g.age + 1) := by
    rw [← Bool.not_eq_true, ageExempt_iff]
  have ages (g : Garment) : (exempt g → s.aged g = g) ∧ (¬ exempt g → s.aged g = { g with age := age g }) :=
    ⟨fun is => if_pos (ageExempt_iff.mpr is), fun isnt => if_neg fun is => isnt (ageExempt_iff.mp is)⟩
  have same := sameLabels_retireAged s.raiseAges
  have limits : s.raiseAges.retireAged.limits = s.limits := (quiet_retireAged s.raiseAges).limits
  have garments : (s.ageExpiry.finish s).garments.records = s.raiseAges.retireAged.garments.records := by
    rw [garments_finish, garments_ageExpiry]
  refine ⟨_, exec_ageTimerExpiry s, ?_, fun pos g listed => ⟨fun old => ?_, fun young => ?_⟩, fun none works => ?_⟩
  · rw [garments_finish]
    exact congrArg Limits.agePeriod limits
  · have member := (mem_raised tables.records listed).mpr ((dies_iff g).mp old)
    refine ⟨?_, ?_⟩
    · rw [garments]
      exact same.none ((find_agedOut ..).trans (if_pos member))
    · have lost := garmentLost_retireAged (s := s.raiseAges) fun empty => by
        rw [empty] at member
        cases member
      exact pendingCause_of_grow (calm_finish ..).grow (pendingCause_of_grow (t := s.ageExpiry) (.refl _) lost)
  · have stays : ¬ pos ∈ s.raiseAges.agedRecords.map Prod.fst := fun member =>
      young ((dies_iff g).mpr ((mem_raised tables.records listed).mp member))
    obtain ⟨g', there, tag, age', -⟩ := same.some (g := s.aged g)
      ((find_agedOut ..).trans ((if_neg stays).trans ((find_raiseAges ..).trans (congrArg _ listed))))
    refine ⟨g', (congrArg (fun r => Table.find r pos) garments).trans there, tag.trans ?_, fun is => ?_, fun isnt => ?_⟩
    · by_cases is : exempt g
      · rw [(ages g).1 is]
      · rw [(ages g).2 is]
    · rw [age', (ages g).1 is]
    · rw [age', (ages g).2 isnt]
  · have empty : s.raiseAges.agedRecords = [] := by
      rw [List.eq_nil_iff_forall_not_mem]
      intro e member
      obtain ⟨listed, -⟩ := List.mem_filter.mp member
      have found : s.raiseAges.garments.records.find e.1 = some e.2 := find_of_mem (wf_raiseAges tables.records) listed
      rw [find_raiseAges] at found
      obtain ⟨g, live, -⟩ := Option.map_eq_some_iff.mp found
      exact none g ((mem_liveGarments tables.records).mpr ⟨_, live⟩)
        ((dies_iff g).mpr ((mem_raised tables.records live).mp (List.mem_map_of_mem member)))
    have idle : s.raiseAges.retireAged = s.raiseAges := retireAged_idle empty works
    have whole : s.ageExpiry.finish s = { s with
        garments := { s.garments with records := s.garments.records.mapVal s.aged, ageTimer := s.limits.agePeriod } } := by
      unfold State.ageExpiry
      rw [idle]
      exact finish_of_more rfl rfl le_rfl
    rw [whole]
    have found (pos : Nat) (g : Garment) (listed : s.garments.records.find pos = some g) :
        (s.garments.records.mapVal s.aged).find pos = some (s.aged g) := by
      rw [find_mapVal, listed]
      rfl
    refine ⟨fun pos g listed is => ?_, fun pos g listed isnt => ?_, ?_⟩
    · exact (found pos g listed).trans (congrArg some ((ages g).1 is))
    · exact (found pos g listed).trans (congrArg some ((ages g).2 isnt))
    · constructor <;> intros <;> simp_all

end Sys2Proof.Machine
end

section
/-! SUPPORT. Closes that retire the garment: what each of them gives back, and what stands once the ACK has gone out. -/

namespace Sys2Proof.Machine

variable {s t u x r : State} {l : Link} {payload : List Byte} {tag : Tag} {pos : Nat} {g : Garment}
  {b : Binding} {o : Order} {v : OpenVerdict} {reason : Reason}

/-! ## The cause of a retirement -/

theorem retire_raises (live : s.findTag tag = some (pos, g)) {f : Cause} (cause : reason.cause = some f) :
    (s.retire reason tag).pendingCause f = true := by
  rw [retire_eq reason live]
  refine pendingCause_of_grow (quiet_endBinding ..).causes ?_
  rw [pendingCause_congr (s := s.raise f)]
  · exact pendingCause_raise s f
  · rw [gone_port, State.raiseReason, cause]

/-! ## What a retirement gives back, between states that agree -/

/-- Two states agree in all that a retirement gives back but for one station. -/
structure State.Agrees (s : State) (l : Link) (t : State) : Prop where
  platens : t.ring.platens = s.ring.platens
  cure : t.cure = s.cure
  bins : t.bins = s.bins
  orders : t.orders = s.orders
  refs : t.refs = s.refs
  others : ∀ n, n ≠ l → t.station n = s.station n

theorem State.Agrees.platen (agrees : s.Agrees l t) (k : Nat) : t.platen k = s.platen k :=
  platen_congr agrees.platens k

theorem State.Agrees.lane (agrees : s.Agrees l t) (k : Nat) : t.lane k = s.lane k := by
  unfold State.lane
  rw [agrees.cure]

theorem State.Agrees.order (agrees : s.Agrees l t) (k : Nat) : t.order k = s.order k := by
  unfold State.order
  rw [agrees.orders]

/-- What a station's own retirement gives back, seen from the state before the report and after the answer. -/
theorem givesBack_between {served : List Sent} (opened : s.verdictOf l = some v) (named : v.tag = g.tag)
    (before : s.Agrees l r) (limits : r.limits = s.limits) (verdicts : ∀ n, r.verdictOf n = s.verdictOf n)
    (after : x.Agrees l t) (gives : r.GivesBack (some l) g x served) : s.GivesBack (some l) g t served := by
  have lanes := gives.lanes
  simp only [before.lane, verdicts] at lanes
  refine ⟨fun k => ?_, ?_, ?_, ?_, ⟨fun idle => ?_, fun w n at_ wait other low free lowest => ?_⟩, ?_,
    fun n own free => ?_, fun k => ?_⟩
  · rw [after.platen, gives.platens, before.platen]
    simp only [verdicts]
  · rw [after.cure, gives.exitQueue, before.cure]
  · rw [after.bins, gives.overflow, before.bins]
  · have cells := gives.cells
    simp only [verdicts, before.orders, before.order] at cells
    simp only [after.orders, after.order]
    exact cells
  · obtain ⟨told, rest⟩ := lanes.1 idle
    exact ⟨told, fun k low => (after.lane k).trans (rest k low)⟩
  · have away : Link.unload ≠ l := fun here => by
      rw [here, opened, Option.some.injEq] at at_
      exact other (at_ ▸ named)
    obtain ⟨told, handed, rest⟩ := lanes.2 w n at_ wait other low free lowest
    refine ⟨told, ⟨?_, ?_⟩, fun k low apart => (after.lane k).trans (rest k low apart)⟩
    · rw [after.others _ away, handed.station, before.others _ away, limits]
    · rw [after.lane]
      exact handed.lane
  · rw [after.cure, ← before.cure]
    exact gives.tunnel
  · have apart : n ≠ l := fun here => own (congrArg some here)
    rw [after.others n apart, gives.stations n own free, before.others n apart]
  · rw [after.refs, gives.classes, before.refs]

/-! ## The close -/

/-- The state in which the garment of a closed verdict has been retired. -/
def State.retiredBy (s : State) (l : Link) (payload : List Byte) (v : OpenVerdict) (reason : Reason) : State :=
  ((s.received l kindDone payload).endRecord l).retire reason v.tag

/-- What a final report leaves, whatever its verdict. -/
structure State.Retires (s : State) (l : Link) (payload : List Byte) (v : OpenVerdict) (pos : Nat) (g : Garment)
    (reason : Reason) (t : State) : Prop where
  gone : t.garments.records.find pos = none
  idle : t.verdictOf l = none
  last : t.sent.getLast? = some ⟨l, .ack kindDone (s.station l).mode⟩
  raises : ∀ f, (reason.cause = some f ∨ (reason = .spare ∧ f = .garmentSpare)) → t.pendingCause f = true
  freed : ∀ k, v.platen = some k → (t.platen k).held = false
  gives : TagsSafe s → ∃ served, s.GivesBack (some l) g t served ∧
    t.station l = (s.station l).answered.without v.tag ∧
    t.sent = s.sent ++ served ++ [⟨l, .ack kindDone (s.station l).mode⟩]
  rest : s.sameBut [.garments, .orders, .sched, .refs, .stations, .ring, .cure, .bins, .causes, .messages] t
  alone : (∀ p x, s.garments.records.find p = some x → x.tag = v.tag → p = pos) →
    (s.retiredBy l payload v reason).sameBut [.stations, .ring, .causes, .messages] t
  grows : CausesGrow (s.retiredBy l payload v reason).port.causes t.port.causes

/-- The change that a final report makes: the retirement, with GARMENT_SPARE for a SPARE. -/
theorem ownerChanges_retires (h : s.Reports l kindDone payload v) (live : s.findTag v.tag = some (pos, g))
    (retires : v.retires kindDone { g with age := 0 } = some reason) : s.ownerChanges l v kindDone payload =
      if reason = .spare then (s.retiredBy l payload v reason).raise .garmentSpare else s.retiredBy l payload v reason :=
  closeVerdict_retires (s := (s.received l kindDone payload).endRecord l) (h.live (.inl rfl) live) retires

theorem alone_received (alone : ∀ p x, s.garments.records.find p = some x → x.tag = v.tag → p = pos)
    (touched : s.recordIs pos { g with age := 0 } r) :
    ∀ p x, r.garments.records.find p = some x → x.tag = v.tag → p = pos := by
  intro p x listed named
  rw [congrArg GarmentBlock.records touched] at listed
  by_cases here : p = pos
  · exact here
  · exact alone p x ((find_put_ne _ here _).symm.trans listed) named

theorem agrees_received (s : State) (l : Link) (kind : Byte) (payload : List Byte) :
    s.Agrees l (s.received l kind payload) := by
  have seen := sameBut_received s l kind payload
  exact ⟨congrArg Ring.platens (seen.ring (by decide)), seen.cure (by decide), seen.bins (by decide),
    seen.orders (by decide), seen.refs (by decide), fun _ => (met_received s l kind payload).others⟩

/-- What the release of the hold, the rule for a CANCELLING order's garment and the ACK leave of a retirement. -/
structure State.Settles (u : State) (l : Link) (v : OpenVerdict) (t : State) : Prop where
  gone : ∀ pos, u.garments.records.find pos = none → t.garments.records.find pos = none
  idle : u.verdictOf l = none → t.verdictOf l = none
  last : t.sent.getLast? = some ⟨l, .ack kindDone (u.station l).mode⟩
  freed : ∀ k, v.platen = some k → (t.platen k).held = false
  rest : u.sameBut [.garments, .orders, .sched, .refs, .stations, .ring, .bins, .causes, .messages] t
  alone : u.findTag v.tag = none → (u.releaseHold v.platen).Agrees l t ∧
    t.station l = { u.station l with refusalSeen := false } ∧
    t.sent = u.sent ++ [⟨l, .ack kindDone (u.station l).mode⟩] ∧ u.sameBut [.stations, .ring, .causes, .messages] t

theorem settles_acked {w : State} (same : u.sameBut [.causes] w) (limits : u.limits = s.limits)
    (cells : s.orders.freeCells ≤ u.orders.freeCells) :
    u.Settles l v ((((w.releaseHold v.platen).afterVerdict v.tag).replyAck l kindDone).finish s) := by
  have hold := sameBut_releaseHold w v.platen
  have after := sameBut_afterVerdict (w.releaseHold v.platen) v.tag
  have held : (w.releaseHold v.platen).ring = (u.releaseHold v.platen).ring :=
    ring_releaseHold_congr (same.ring (by decide)) v.platen
  have released : u.sameBut [.ring, .causes] (w.releaseHold v.platen) :=
    sameBut_trans same hold (by decide) (by decide)
  have handled : u.sameBut [.garments, .orders, .sched, .refs, .ring, .bins, .causes]
      ((w.releaseHold v.platen).afterVerdict v.tag) := sameBut_trans released after (by decide) (by decide)
  have station (n : Link) : ((w.releaseHold v.platen).afterVerdict v.tag).station n = u.station n := by
    unfold State.station
    rw [handled.stations (by decide)]
  have ring : ((w.releaseHold v.platen).afterVerdict v.tag).ring = (u.releaseHold v.platen).ring :=
    (after.ring (by decide)).trans held
  obtain ⟨here, others, sent, platens, last⟩ := acked (s := s) (x := (w.releaseHold v.platen).afterVerdict v.tag) l
    kindDone ((handled.limits (by decide)).trans limits) ((cells.trans
      (congrArg OrderBlock.freeCells (released.orders (by decide))).ge).trans (cells_afterVerdict _ v.tag))
  rw [station, handled.messages (by decide)] at sent
  rw [station] at here
  have whole : u.sameBut [.garments, .orders, .sched, .refs, .stations, .ring, .bins, .causes, .messages]
      ((((w.releaseHold v.platen).afterVerdict v.tag).replyAck l kindDone).finish s) :=
    sameBut_trans handled last (by decide) (by decide)
  refine ⟨fun pos free => ?_, fun idle => (verdictOf_eq here).trans idle, ?_, fun k platen => ?_, whole, fun unknown => ?_⟩
  · rw [last.garments (by decide)]
    exact (sameTags_afterVerdict _ v.tag).none (by rw [released.garments (by decide)]; exact free)
  · rw [sent, List.getLast?_concat]
  · rw [platen_congr (platens.trans (congrArg Ring.platens ring)) k, platen_releaseHold, if_pos platen]
  · have idle : (w.releaseHold v.platen).afterVerdict v.tag = w.releaseHold v.platen :=
      afterVerdict_unknown ((findTag_garments (released.garments (by decide))).trans unknown)
    rw [idle] at last
    have frame : u.sameBut [.stations, .ring, .causes, .messages]
        ((((w.releaseHold v.platen).afterVerdict v.tag).replyAck l kindDone).finish s) := by
      rw [idle]
      exact sameBut_trans released last (by decide) (by decide)
    have hold' := sameBut_releaseHold u v.platen
    refine ⟨⟨platens.trans (congrArg Ring.platens ring), ?_, ?_, ?_, ?_, fun n other => ?_⟩, here, sent, frame⟩
    · exact (frame.cure (by decide)).trans (hold'.cure (by decide)).symm
    · exact (frame.bins (by decide)).trans (hold'.bins (by decide)).symm
    · exact (frame.orders (by decide)).trans (hold'.orders (by decide)).symm
    · exact (frame.refs (by decide)).trans (hold'.refs (by decide)).symm
    · refine (others n other).trans ((station n).trans ?_)
      unfold State.station
      rw [hold'.stations (by decide)]

theorem close_retires (h : s.Reports l kindDone payload v) (accepts : v.accepts kindDone = true)
    (live : s.findTag v.tag = some (pos, g)) (retires : v.retires kindDone { g with age := 0 } = some reason) :
    ∃ t, exec (.done l payload) s = .next t ∧ s.Retires l payload v pos g reason t := by
  have close : kindDone = kindDone ∨ kindDone = kindFail ∨ kindDone = kindAbort := .inl rfl
  have run := h.run close accepts
  have found := h.live close live
  have touched := h.touched close live
  have opened := h.opened_
  have met := met_received s l kindDone payload
  have changes := ownerChanges_retires h live retires
  have agrees := agrees_received s l kindDone payload
  have tags' (tags : TagsSafe s) : TagsSafe (s.received l kindDone payload) := tags_received tags
  rw [State.closeBy, ← State.ownerChanges, changes] at run
  obtain ⟨served, gives, own, told⟩ := givesBack_own opened found reason
  have quiet : Quiet (s.received l kindDone payload) (s.retiredBy l payload v reason) :=
    (quiet_endRecord ..).trans (quiet_retire ..)
  have ended : s.sameBut [.garments, .stations] ((s.received l kindDone payload).endRecord l) :=
    sameBut_trans (sameBut_received s l kindDone payload) (sameBut_endRecord ..) (by decide) (by decide)
  have frame : s.sameBut [.garments, .orders, .sched, .refs, .stations, .ring, .cure, .bins, .causes, .messages]
      (s.retiredBy l payload v reason) :=
    sameBut_trans ended (sameBut_retire (s := (s.received l kindDone payload).endRecord l) reason found) (by decide)
      (by decide)
  have cells : s.orders.freeCells ≤ (s.retiredBy l payload v reason).orders.freeCells :=
    met.cells.trans (cells_retire (s := (s.received l kindDone payload).endRecord l) reason found)
  have gone : (s.retiredBy l payload v reason).garments.records.find pos = none :=
    find_retire (s := (s.received l kindDone payload).endRecord l) reason found
  have idle : (s.retiredBy l payload v reason).verdictOf l = none :=
    (rests_retire ((s.received l kindDone payload).endRecord l) reason v.tag).verdict (verdictOf_endRecord _ l)
  have unknown (alone) : (s.retiredBy l payload v reason).findTag v.tag = none :=
    findTag_retire (s := (s.received l kindDone payload).endRecord l) (alone_received alone touched) reason found
  have raises : ∀ f, reason.cause = some f → (s.retiredBy l payload v reason).pendingCause f = true := fun f cause =>
    retire_raises (s := (s.received l kindDone payload).endRecord l) found cause
  rw [← State.retiredBy] at gives own told
  generalize retired : s.retiredBy l payload v reason = u at *
  let w := if reason = .spare then u.raise .garmentSpare else u
  have same : u.sameBut [.causes] w := by
    show u.sameBut [.causes] (if reason = .spare then u.raise .garmentSpare else u)
    split
    · exact sameBut_raise u .garmentSpare
    · exact sameBut_widen (sameBut_refl u) (by decide)
  have grows : CausesGrow u.port.causes w.port.causes := by
    show CausesGrow _ (if reason = .spare then u.raise .garmentSpare else u).port.causes
    split
    · exact (quiet_raise u .garmentSpare).causes
    · exact .refl _
  have settles := settles_acked (l := l) (v := v) same (frame.limits (by decide)) cells
  have later : CausesGrow w.port.causes
      ((((w.releaseHold v.platen).afterVerdict v.tag).replyAck l kindDone).finish s).port.causes := by
    exact (((quiet_releaseHold ..).trans (quiet_afterVerdict ..)).trans (quiet_replyAck ..)).causes.trans
      (calm_finish ..).grow
  have mode : (u.station l).mode = (s.station l).mode := (quiet.station_mode l).trans (met.mode l)
  refine ⟨_, run, ⟨settles.gone pos gone, settles.idle idle, ?_, fun f cause => ?_, settles.freed, fun tags => ?_, ?_,
    fun alone => ?_, ?_⟩⟩
  · rw [← mode]
    exact settles.last
  · refine pendingCause_of_grow later ?_
    rcases cause with cause | ⟨spare, rfl⟩
    · exact pendingCause_of_grow grows (raises f cause)
    · show (if reason = .spare then u.raise .garmentSpare else u).pendingCause .garmentSpare = true
      rw [if_pos spare]
      exact pendingCause_raise u .garmentSpare
  · obtain ⟨agrees', station, sent, -⟩ := settles.alone (unknown (alone_of_tagsSafe tags live))
    have back := givesBack_between (g := { g with age := 0 }) h.opened (findTag_some live).2.1.symm agrees met.limits
      met.verdictOf agrees' gives
    have hold := sameBut_releaseHold u v.platen
    have here : (u.releaseHold v.platen).station l = u.station l := by
      unfold State.station
      rw [hold.stations (by decide)]
    refine ⟨served, { back with }, ?_, ?_⟩
    · rw [station, ← here, own, station_received]
      rfl
    · rw [sent, ← hold.messages (by decide), told, met.sent, mode]
  · exact sameBut_trans frame settles.rest (by decide) (by decide)
  · rw [retired]
    exact (settles.alone (unknown alone)).2.2.2
  · rw [retired]
    exact grows.trans later

end Sys2Proof.Machine
end

section
/-! SUPPORT. The end of a binding at a final report: a garment binned, returned, or spoilt. -/

namespace Sys2Proof.Machine

variable {s t u x : State} {b : Binding} {o : Order} {y : Line} {bin : Nat}

/-! ## Lines changed twice -/

theorem modifyAt_modifyAt {α : Type} (ls : List α) (i : Nat) (f f' : α → α) :
    modifyAt (modifyAt ls i f) i f' = modifyAt ls i fun y => f' (f y) := by
  induction ls generalizing i with
  | nil => rfl
  | cons y ys ih =>
    cases i with
    | zero => rfl
    | succ i => exact congrArg (List.cons y) (ih i)

theorem modifyAt_congr {α : Type} {ls : List α} {i : Nat} {y : α} {f f' : α → α} (at_ : ls[i]? = some y)
    (same : f y = f' y) : modifyAt ls i f = modifyAt ls i f' := by
  induction ls generalizing i with
  | nil => rfl
  | cons z zs ih =>
    cases i with
    | zero =>
      cases at_
      exact congrArg (· :: zs) same
    | succ i => exact congrArg (List.cons z) (ih (by simpa using at_))

theorem order_modifyLine (listed : s.order b.slot = some o) (f : Line → Line) :
    (s.modifyLine b.slot b.line f).order b.slot = some { o with lines := modifyAt o.lines b.line f } := by
  refine (order_modifyOrder (s := s) b.slot b.slot _).trans ?_
  rw [if_pos rfl, listed]
  rfl

/-! ## A garment binned -/

/-- An order one of whose lines has one garment fewer in flight and one more binned (R30, R185). -/
def Order.bins (o : Order) (i : Nat) : Order :=
  { o with lines := modifyAt o.lines i fun x => { x with inFlight := x.inFlight - 1, binned := x.binned + 1 } }

theorem order_binned (listed : s.order b.slot = some o) :
    ((s.leaveLine (some b)).modifyLine b.slot b.line fun l => { l with binned := l.binned + 1 }).order b.slot =
      some (o.bins b.line) := by
  rw [order_modifyLine (order_leaveLine_same listed)]
  exact congrArg (fun ls => some { o with lines := ls }) (modifyAt_modifyAt ..)

theorem takes_iff : o.takes = true ↔ o.state = .opened ∨ o.state = .filling := by
  simp [Order.takes]

theorem drainTest_named (listed : s.order b.slot = some o) (named : o.bin = some bin) : s.drainTest b.slot = s := by
  refine drainTest_of_not listed (Bool.eq_false_iff.mpr fun drained => ?_)
  obtain ⟨-, -, unnamed⟩ := (drained_iff o).mp drained
  rw [named] at unnamed
  cases unnamed

theorem endBinding_binned (s : State) (b : Binding) : s.endBinding .binned (some b) =
    ((((s.leaveLine (some b)).modifyLine b.slot b.line fun l => { l with binned := l.binned + 1 })).reexamine
      b.slot).drainTest b.slot := rfl

section
variable (listed : s.order b.slot = some o) (named : o.bin = some bin)
include listed named

theorem binned_completes (opened : o.state = .opened ∨ o.state = .filling)
    (full : ∀ x ∈ (o.bins b.line).lines, x.binned = x.quantity) :
    let t := s.endBinding .binned (some b)
    t.order b.slot = some { o.bins b.line with state := .complete } ∧ (t.bin bin).state = .ready ∧
      t.pendingCause .orderComplete = true := by
  intro t
  have shape : t = (State.reexamine _ b.slot).drainTest b.slot := endBinding_binned s b
  have now := order_binned listed
  generalize ((s.leaveLine (some b)).modifyLine b.slot b.line fun l => { l with binned := l.binned + 1 }) = z at shape now
  have completes : z.reexamine b.slot = ((z.modifyOrder b.slot fun o => { o with state := .complete }).readyBin
      o.bin).raise .orderComplete := by
    rw [State.reexamine, now]
    dsimp only
    rw [if_pos (takes_iff (o := o.bins b.line) |>.mpr opened), if_pos ((allBinned_iff _).mpr full), completeOrder_of_order now]
    rfl
  have after : (z.reexamine b.slot).order b.slot = some { o.bins b.line with state := .complete } := by
    rw [completes, named]
    refine (order_modifyOrder (s := z) b.slot b.slot _).trans ?_
    rw [if_pos rfl, now]
    rfl
  rw [shape, drainTest_named after named]
  refine ⟨after, ?_, ?_⟩
  · rw [completes]
    show (((z.modifyOrder b.slot _).readyBin o.bin).bin bin).state = _
    rw [bin_readyBin, if_pos named]
  · rw [completes]
    exact pendingCause_raise _ _

theorem binned_fills (opened : o.state = .opened ∨ o.state = .filling)
    (open_ : ¬ ∀ x ∈ (o.bins b.line).lines, x.binned = x.quantity) :
    (s.endBinding .binned (some b)).order b.slot = some { o.bins b.line with state := .filling } := by
  rw [endBinding_binned]
  have now := order_binned listed
  generalize ((s.leaveLine (some b)).modifyLine b.slot b.line fun l => { l with binned := l.binned + 1 }) = z at now ⊢
  have fills : z.reexamine b.slot = z.modifyOrder b.slot fun o => { o with state := .filling } := by
    rw [State.reexamine, now]
    dsimp only
    rw [if_pos (takes_iff (o := o.bins b.line) |>.mpr opened), if_neg fun all => open_ ((allBinned_iff _).mp all)]
  have after : (z.reexamine b.slot).order b.slot = some { o.bins b.line with state := .filling } := by
    rw [fills]
    refine (order_modifyOrder (s := z) b.slot b.slot _).trans ?_
    rw [if_pos rfl, now]
    rfl
  rw [drainTest_named after named]
  exact after

theorem binned_stays (shut : ¬ (o.state = .opened ∨ o.state = .filling)) :
    (s.endBinding .binned (some b)).order b.slot = some (o.bins b.line) := by
  rw [endBinding_binned]
  have now := order_binned listed
  rw [reexamine_idle now shut, drainTest_named now named]
  exact now

end

/-! ## A spoil charged -/

/-- Whether an order's line fails when a spoil is charged to it (R37). -/
abbrev Order.failsLine (o : Order) (limit : Nat) (y : Line) : Prop :=
  (o.state = .opened ∨ o.state = .filling ∨ o.state = .held) ∧ limit ≤ y.spoils ∧ y.state = .active

/-- An order whose line `y` has lost a garment in flight and been charged its spoil (R30, R37). -/
def Order.charged (o : Order) (limit : Nat) (i : Nat) (y : Line) : Order :=
  { o with
    state := if o.failsLine limit y then .held else o.state
    lines := modifyAt o.lines i fun x => { x with
      inFlight := x.inFlight - 1
      spoils := if (o.state = .opened ∨ o.state = .filling ∨ o.state = .held) ∧ x.spoils < limit then x.spoils + 1
        else x.spoils
      state := if o.failsLine limit y then .failed else x.state } }

/-- The state in which a spoiled garment has left its line and its spoil is charged. -/
def State.spoilCharged (s : State) (b : Binding) : State :=
  (s.leaveLine (some b)).chargeSpoil b.slot b.line

theorem sameBut_chargeSpoil (s : State) (slot i : Nat) : s.sameBut [.orders, .causes] (s.chargeSpoil slot i) := by
  unfold State.chargeSpoil
  split
  · split
    · split
      · constructor <;> intros <;> simp_all [State.modifyLine, State.modifyOrder]
      · split
        · constructor <;> intros <;> simp_all [State.modifyLine, State.modifyOrder, State.raise]
        · exact sameBut_widen (sameBut_refl s) (by decide)
    · exact sameBut_widen (sameBut_refl s) (by decide)
  · exact sameBut_widen (sameBut_refl s) (by decide)

theorem order_chargeSpoil_ne (s : State) (slot i : Nat) {k : Nat} (other : k ≠ slot) :
    (s.chargeSpoil slot i).order k = s.order k := by
  have modify (z : State) (f : Order → Order) : (z.modifyOrder slot f).order k = z.order k :=
    (order_modifyOrder (s := z) slot k f).trans (if_neg other)
  unfold State.chargeSpoil
  split
  · split
    · split
      · exact modify _ _
      · split
        · exact (modify _ _).trans (modify _ _)
        · rfl
    · rfl
  · rfl

theorem charge_spoils (listed : s.order b.slot = some o) (at_ : o.lines[b.line]? = some y) :
    (s.spoilCharged b).order b.slot = some (o.charged s.limits.reprintLimit b.line y) ∧
      (o.failsLine s.limits.reprintLimit y → (s.spoilCharged b).pendingCause .orderHeld = true) := by
  have now := order_leaveLine_same listed
  have line : (s.leaveLine (some b)).line b.slot b.line = some { y with inFlight := y.inFlight - 1 } := by
    rw [State.line, now]
    exact (getElem?_modifyAt ..).trans (by rw [if_pos rfl, at_]; rfl)
  have limits : (s.leaveLine (some b)).limits = s.limits := rfl
  have charge : s.spoilCharged b = if o.state = .opened ∨ o.state = .filling ∨ o.state = .held then
      if y.spoils < s.limits.reprintLimit then
        (s.leaveLine (some b)).modifyLine b.slot b.line fun l => { l with spoils := l.spoils + 1 }
      else if y.state = .active then
        (((s.leaveLine (some b)).modifyLine b.slot b.line fun l => { l with state := .failed }).modifyOrder b.slot
          fun o => { o with state := .held }).raise .orderHeld
      else s.leaveLine (some b)
    else s.leaveLine (some b) := by
    rw [State.spoilCharged, State.chargeSpoil, now, line]
    rfl
  rw [charge]
  have lines (f : Line → Line) : modifyAt (o.less b.line).lines b.line f =
      modifyAt o.lines b.line fun l => f { l with inFlight := l.inFlight - 1 } := modifyAt_modifyAt ..
  by_cases takes : o.state = .opened ∨ o.state = .filling ∨ o.state = .held
  · rw [if_pos takes]
    by_cases low : y.spoils < s.limits.reprintLimit
    · have stands : ¬ o.failsLine s.limits.reprintLimit y := fun fails => absurd fails.2.1 (by omega)
      rw [if_pos low]
      refine ⟨?_, fun fails => absurd fails stands⟩
      rw [order_modifyLine now, lines, Order.charged, if_neg stands]
      refine congrArg (fun ls => some { o with lines := ls }) (modifyAt_congr at_ ?_)
      simp [takes, low, stands]
    · by_cases active : y.state = .active
      · have fails : o.failsLine s.limits.reprintLimit y := ⟨takes, by omega, active⟩
        rw [if_neg low, if_pos active]
        refine ⟨?_, fun _ => pendingCause_raise _ _⟩
        refine (order_modifyOrder (s := (s.leaveLine (some b)).modifyLine b.slot b.line _) b.slot b.slot _).trans ?_
        rw [if_pos rfl, order_modifyLine now, lines, Order.charged, if_pos fails]
        refine congrArg (fun ls => some { o with state := .held, lines := ls }) (modifyAt_congr at_ ?_)
        simp [low, fails]
      · have stands : ¬ o.failsLine s.limits.reprintLimit y := fun fails => active fails.2.2
        rw [if_neg low, if_neg active]
        refine ⟨now.trans ?_, fun fails => absurd fails stands⟩
        rw [Order.charged, if_neg stands]
        refine congrArg (fun ls => some { o with lines := ls }) (modifyAt_congr at_ ?_)
        simp [low, stands]
  · have stands : ¬ o.failsLine s.limits.reprintLimit y := fun fails => takes fails.1
    rw [if_neg takes]
    refine ⟨now.trans ?_, fun fails => absurd fails stands⟩
    rw [Order.charged, if_neg stands]
    refine congrArg (fun ls => some { o with lines := ls }) (modifyAt_congr at_ ?_)
    simp [takes]

/-! ## The offering that follows a spoil -/

theorem endBinding_spoilt {reason : Reason} (spoils : reason = .rejected ∨ reason = .scrapped) (s : State) (b : Binding) :
    s.endBinding reason (some b) = ((s.spoilCharged b).offer (.line b.slot b.line)).drainTest b.slot := by
  rcases spoils with rfl | rfl <;> rfl

theorem quiet_spoilCharged (s : State) (b : Binding) : Quiet s (s.spoilCharged b) :=
  (quiet_leaveLine ..).trans (quiet_chargeSpoil ..)

theorem sameBut_spoilCharged (s : State) (b : Binding) : s.sameBut [.orders, .causes] (s.spoilCharged b) := by
  have left : s.sameBut [.orders] (s.leaveLine (some b)) := by
    constructor <;> intros <;> simp_all [State.leaveLine, State.modifyLine, State.modifyOrder]
  exact sameBut_trans left (sameBut_chargeSpoil ..) (by decide) (by decide)

theorem order_spoilCharged_ne (s : State) (b : Binding) {k : Nat} (other : k ≠ b.slot) :
    (s.spoilCharged b).order k = s.order k := by
  rw [State.spoilCharged, order_chargeSpoil_ne _ _ _ other, order_leaveLine, if_neg other]

theorem charged_shut (shut : ¬ (o.state = .opened ∨ o.state = .filling)) (limit i : Nat) (y : Line) :
    ¬ ((o.charged limit i y).state = .opened ∨ (o.charged limit i y).state = .filling) := by
  unfold Order.charged
  dsimp only
  split
  · decide
  · exact shut

theorem charged_fails {limit : Nat} (fails : o.failsLine limit y) (i : Nat) : (o.charged limit i y).state = .held :=
  if_pos fails

theorem charged_cancelling {limit : Nat} (i : Nat) : (o.charged limit i y).state = .cancelling ↔ o.state = .cancelling := by
  unfold Order.charged
  dsimp only
  split
  · rename_i fails
    constructor
    · intro same
      cases same
    · intro shut
      obtain ⟨takes, -⟩ := fails
      rw [shut] at takes
      exact absurd takes (by decide)
  · exact Iff.rfl

theorem line_charged (at_ : o.lines[b.line]? = some y) {limit : Nat} (failed : y.state = .failed) {l : Line}
    (there : (o.charged limit b.line y).lines[b.line]? = some l) : l.state = .failed := by
  have line := (getElem?_modifyAt o.lines b.line b.line _).symm.trans there
  rw [if_pos rfl, at_] at line
  cases line
  dsimp only
  split
  · rfl
  · exact failed

section
variable (listed : s.order b.slot = some o) (at_ : o.lines[b.line]? = some y)
include listed at_

/-- What stands of the order once its line has been offered the orphans. -/
theorem spoilt_shape {o' : Order} (now : ((s.spoilCharged b).offer (.line b.slot b.line)).order b.slot = some o') :
    o' = { o.charged s.limits.reprintLimit b.line y with lines := o'.lines } ∧
      o'.lines.map (fun l => { l with inFlight := 0 }) =
        (o.charged s.limits.reprintLimit b.line y).lines.map fun l => { l with inFlight := 0 } := by
  have shape := (binds_offer (s.spoilCharged b) (.line b.slot b.line)).shape b.slot
  rw [(charge_spoils listed at_).1, now] at shape
  exact eq_of_clearF (Option.some.inj shape)

theorem spoilt_some : ∃ o', ((s.spoilCharged b).offer (.line b.slot b.line)).order b.slot = some o' := by
  have shape := (binds_offer (s.spoilCharged b) (.line b.slot b.line)).shape b.slot
  rw [(charge_spoils listed at_).1] at shape
  obtain ⟨o', now, -⟩ := Option.map_eq_some_iff.mp shape
  exact ⟨o', now⟩

/-- An order that is not being cancelled stands. -/
theorem spoilt_stands (stands : o.state ≠ .cancelling) :
    ((s.spoilCharged b).offer (.line b.slot b.line)).drainTest b.slot =
      (s.spoilCharged b).offer (.line b.slot b.line) := by
  obtain ⟨o', now⟩ := spoilt_some listed at_
  refine drainTest_of_not now (Bool.eq_false_iff.mpr fun drained => stands ?_)
  obtain ⟨shut, -⟩ := (drained_iff o').mp drained
  rw [(spoilt_shape listed at_ now).1] at shut
  exact (charged_cancelling b.line).mp shut

/-- A line that can take no orphan, or that none stands for, is left as it is. -/
theorem spoilt_idle (idle : o.failsLine s.limits.reprintLimit y ∨
      ¬ (o.state = .opened ∨ o.state = .filling) ∨ y.state = .failed ∨
      ∀ x ∈ s.liveGarments, x.binding = none → x.kind = .test)
    (slots : (s.spoilCharged b).orders.slots.wf = true) :
    (s.spoilCharged b).offer (.line b.slot b.line) = s.spoilCharged b := by
  have now := (charge_spoils listed at_).1
  have closed (shut : ¬ ((o.charged s.limits.reprintLimit b.line y).state = .opened ∨
      (o.charged s.limits.reprintLimit b.line y).state = .filling)) :
      (s.spoilCharged b).offer (.line b.slot b.line) = s.spoilCharged b :=
    offer_of_closed slots fun z there => by
      cases now.symm.trans there
      exact not_or.mp shut
  rcases idle with fails | shut | failed | tests
  · exact closed (by rw [charged_fails fails]; decide)
  · exact closed (charged_shut shut _ _ _)
  · refine offer_of_unwanted slots fun sku design k i z l wants => ?_
    have inSet := wants.inSet
    simp only [LineSet.has, Bool.and_eq_true, beq_iff_eq] at inSet
    obtain ⟨rfl, rfl⟩ := inSet
    cases now.symm.trans wants.order
    have same := line_charged at_ failed wants.line
    rw [wants.active] at same
    cases same
  · refine offer_nil (orphans_nil fun x there => tests x ?_) _
    have same : (s.spoilCharged b).garments = s.garments := (sameBut_spoilCharged s b).garments (by decide)
    unfold State.liveGarments at there ⊢
    rwa [same] at there

end

end Sys2Proof.Machine
end

section
/-! SUPPORT. Final reports: the garment's record gone before its binding ends, and what each report leaves. -/

namespace Sys2Proof.Machine

variable {s t u x r : State} {l : Link} {payload : List Byte} {tag : Tag} {pos bin : Nat} {g : Garment}
  {b : Binding} {o : Order} {y : Line} {v : OpenVerdict} {reason : Reason}

theorem erase_put {α : Type} (r : Table α) (p : Nat) (z : α) : (r.put p z).erase p = r.erase p := by
  induction r with
  | nil => simp [Table.put, Table.erase]
  | cons e r ih =>
    obtain ⟨k, w⟩ := e
    unfold Table.erase at ih ⊢
    simp only [Table.put]
    by_cases here : p = k
    · simp [here]
    · by_cases low : p < k
      · simp [here, low]
      · simpa [here, low, List.filter_cons, Ne.symm here] using ih

theorem refs_countGarment (refs : t.refs = s.refs) (g : Garment) (f : Nat → Nat) :
    (t.countGarment g f).refs = (s.countGarment g f).refs := by
  unfold State.countGarment State.countSku State.countClass State.countDesign
  rw [refs]

/-- The end of a station's own record changes no verdict of another garment's. -/
theorem namesSame_endRecord (opened : s.verdictOf l = some v) (same : (s.endRecord l).namesSame v.tag t) :
    s.namesSame v.tag t := fun other apart => by
  rw [← same other apart]
  constructor
  · rintro ⟨n, w, at_, tag_⟩
    refine ⟨n, w, (verdictOf_endRecord_ne s fun here => ?_).trans at_, tag_⟩
    rw [here, opened, Option.some.injEq] at at_
    exact apart (tag_.symm.trans (congrArg OpenVerdict.tag at_).symm)
  · rintro ⟨n, w, at_, tag_⟩
    by_cases here : n = l
    · rw [here, verdictOf_endRecord] at at_
      cases at_
    · exact ⟨n, w, by rwa [verdictOf_endRecord_ne s here] at at_, tag_⟩

/-- The state in which a closed verdict's garment is gone and its binding has not ended. -/
def State.goneBy (s : State) (l : Link) (payload : List Byte) (reason : Reason) (pos : Nat) (g : Garment) : State :=
  ((s.received l kindDone payload).endRecord l).gone reason (pos, { g with age := 0 })

/-- What stands in that state. -/
structure State.Gone (s : State) (pos : Nat) (g : Garment) (z : State) : Prop where
  orders : z.orders.slots = s.orders.slots
  garments : z.garments = { s.garments with records := s.garments.records.erase pos }
  refs : z.refs = (s.countGarment g (· - 1)).refs
  sched : z.sched = s.sched
  bins : z.bins.records = s.bins.records
  limits : z.limits = s.limits
  names : s.namesSame g.tag z
  tables : TablesOk s → TablesOk z
  tags : TagsSafe s → TagsSafe z
  rest : s.sameBut [.garments, .orders, .refs, .stations, .ring, .cure, .bins, .causes, .messages] z

theorem State.Gone.order (gone : s.Gone pos g t) (k : Nat) : t.order k = s.order k := by
  unfold State.order
  rw [gone.orders]

theorem gone_goneBy (h : s.Reports l kindDone payload v) (live : s.findTag v.tag = some (pos, g)) (reason : Reason) :
    s.Gone pos g (s.goneBy l payload reason pos g) := by
  have close : kindDone = kindDone ∨ kindDone = kindFail ∨ kindDone = kindAbort := .inl rfl
  have named : g.tag = v.tag := (findTag_some live).2.1
  have opened := h.opened_
  have touched := h.touched close live
  have seen := sameBut_received s l kindDone payload
  have verdicts := (met_received s l kindDone payload).verdictOf
  have tables : TablesOk s → TablesOk (s.received l kindDone payload) := tables_received
  have tags : TagsSafe s → TagsSafe (s.received l kindDone payload) := tags_received
  unfold State.goneBy
  generalize s.received l kindDone payload = r at *
  have frame := sameBut_gone (r.endRecord l) reason pos { g with age := 0 }
  have quiet := (quiet_endRecord r l).trans (quiet_gone (r.endRecord l) reason pos { g with age := 0 })
  have ended : s.sameBut [.garments, .stations] (r.endRecord l) :=
    sameBut_trans seen (sameBut_endRecord ..) (by decide) (by decide)
  refine ⟨?_, ?_, ?_, ?_, ?_, ?_, ?_, fun ok => quiet.tables (tables ok), fun ok => quiet.tags (tags ok),
    sameBut_trans ended frame (by decide) (by decide)⟩
  · rw [gone_orders]
    have orders : (r.endRecord l).orders = s.orders := ended.orders (by decide)
    exact orders ▸ rfl
  · rw [gone_garments]
    have same : (r.endRecord l).garments = { s.garments with records := s.garments.records.put pos { g with age := 0 } } :=
      touched
    rw [same]
    exact congrArg (fun records => ({ s.garments with records := records } : GarmentBlock)) (erase_put ..)
  · rw [gone_refs]
    exact refs_countGarment (ended.refs (by decide)) _ _
  · rw [gone_sched]
    exact ended.sched (by decide)
  · rw [gone_bins]
    have bins : (r.endRecord l).bins = s.bins := ended.bins (by decide)
    exact bins ▸ rfl
  · rw [gone_limits]
    exact ended.limits (by decide)
  · have same : (r.endRecord l).namesSame g.tag ((r.endRecord l).gone reason (pos, { g with age := 0 })) :=
      namesSame_gone (r.endRecord l) reason pos { g with age := 0 }
    rw [named] at same ⊢
    have names := namesSame_endRecord opened same
    intro other apart
    rw [← names other apart]
    exact exists_congr fun n => by rw [verdicts]

/-! ## The end of the binding -/

section
variable (h : s.Reports l kindDone payload v) (live : s.findTag v.tag = some (pos, g))
include h live

theorem retiredBy_eq (reason : Reason) : s.retiredBy l payload v reason =
    (s.goneBy l payload reason pos g).endBinding reason g.binding :=
  retire_eq (s := (s.received l kindDone payload).endRecord l) reason (h.live (.inl rfl) live)

/-- What a final report leaves, and its state once the binding to `b` has ended, for a garment alone with its tag. -/
theorem close_ends (alone : ∀ p x, s.garments.records.find p = some x → x.tag = v.tag → p = pos)
    (accepts : v.accepts kindDone = true) (retires : v.retires kindDone { g with age := 0 } = some reason)
    (bound : g.binding = some b) :
    ∃ t, exec (.done l payload) s = .next t ∧
      ((s.goneBy l payload reason pos g).endBinding reason (some b)).sameBut [.stations, .ring, .causes, .messages] t ∧
      CausesGrow ((s.goneBy l payload reason pos g).endBinding reason (some b)).port.causes t.port.causes := by
  obtain ⟨t, run, ends⟩ := close_retires h accepts live retires
  have same := ends.alone alone
  have grows := ends.grows
  rw [retiredBy_eq h live, bound] at same grows
  exact ⟨t, run, same, grows⟩

/-- A garment binned. -/
theorem close_bins (alone : ∀ p x, s.garments.records.find p = some x → x.tag = v.tag → p = pos)
    (kind : v.verdict = .bin) (bound : g.binding = some b) (listed : s.order b.slot = some o) (named : o.bin = some bin) :
    let open_ := o.state = .opened ∨ o.state = .filling
    let full := ∀ x ∈ (o.bins b.line).lines, x.binned = x.quantity
    ∃ t, exec (.done l payload) s = .next t ∧
      (open_ → full → t.order b.slot = some { o.bins b.line with state := .complete } ∧
        (t.bin bin).state = .ready ∧ t.pendingCause .orderComplete = true) ∧
      (open_ → ¬ full → t.order b.slot = some { o.bins b.line with state := .filling }) ∧
      (¬ open_ → t.order b.slot = some (o.bins b.line)) := by
  intro open_ full
  obtain ⟨t, run, same, grows⟩ := close_ends h live alone (by rw [OpenVerdict.accepts, kind]; rfl)
    (by rw [OpenVerdict.retires, kind]) bound
  have gone := gone_goneBy h live .binned
  have listed' := (gone.order b.slot).trans listed
  have order (k : Nat) : t.order k = ((s.goneBy l payload .binned pos g).endBinding .binned (some b)).order k := by
    unfold State.order
    rw [same.orders (by decide)]
  have bins (k : Nat) : t.bin k = ((s.goneBy l payload .binned pos g).endBinding .binned (some b)).bin k := by
    unfold State.bin
    rw [same.bins (by decide)]
  refine ⟨t, run, fun opened all => ?_, fun opened some_ => ?_, fun shut => ?_⟩
  · obtain ⟨now, ready, cause⟩ := binned_completes listed' named opened all
    exact ⟨(order _).trans now, (congrArg _ (bins bin)).trans ready, pendingCause_of_grow grows cause⟩
  · exact (order _).trans (binned_fills listed' named opened some_)
  · exact (order _).trans (binned_stays listed' named shut)

/-- A garment returned unspoilt. -/
theorem close_returns (alone : ∀ p x, s.garments.records.find p = some x → x.tag = v.tag → p = pos)
    (kind : v.verdict = .ret) (clean : g.spoiled = false) (bound : g.binding = some b)
    (listed : s.order b.slot = some o) (stands : o.state ≠ .cancelling) :
    ∃ t, exec (.done l payload) s = .next t ∧ t.order b.slot = some (o.less b.line) := by
  obtain ⟨t, run, same, -⟩ := close_ends (reason := .returned) h live alone (by rw [OpenVerdict.accepts, kind]; rfl)
    (by
      rw [OpenVerdict.retires, kind]
      dsimp only
      rw [clean]
      rfl) bound
  have gone := gone_goneBy h live .returned
  have leaves := leavesLine_drainTest ((gone.order b.slot).trans listed)
  refine ⟨t, run, ?_⟩
  unfold State.order
  rw [same.orders (by decide)]
  exact leaves.stands fun empty => stands empty.1

/-- What a garment spoilt leaves of its order. -/
theorem close_spoils (alone : ∀ p x, s.garments.records.find p = some x → x.tag = v.tag → p = pos)
    (tables : TablesOk s) (accepts : v.accepts kindDone = true)
    (retires : v.retires kindDone { g with age := 0 } = some reason) (spoils : reason = .rejected ∨ reason = .scrapped)
    (bound : g.binding = some b) (listed : s.order b.slot = some o) (at_ : o.lines[b.line]? = some y) :
    let fails := o.failsLine s.limits.reprintLimit y
    let charged := o.charged s.limits.reprintLimit b.line y
    ∃ t, exec (.done l payload) s = .next t ∧
      (fails → t.pendingCause .orderHeld = true) ∧
      (o.state ≠ .cancelling → (t.order b.slot).isSome) ∧
      (o.state ≠ .cancelling → TagsSafe s → s.sched.Safe → ∃ u w n, u.Offers (.line b.slot b.line) w n ∧
        u.order b.slot = some charged ∧ (∀ k, k ≠ b.slot → u.order k = s.order k) ∧
        u.garments = { s.garments with records := s.garments.records.erase pos } ∧
        u.refs = (s.countGarment g (· - 1)).refs ∧ s.namesSame v.tag u ∧
        s.sameBut [.garments, .orders, .refs, .stations, .ring, .cure, .bins, .causes, .messages] u ∧
        t.garments = w.garments ∧ t.orders = w.orders ∧ t.sched = w.sched ∧ t.refs = w.refs) ∧
      ∀ o', t.order b.slot = some o' → o' = { charged with lines := o'.lines } ∧
        o'.lines.map (fun x => { x with inFlight := 0 }) = charged.lines.map (fun x => { x with inFlight := 0 }) ∧
        (fails ∨ (o.state ≠ .opened ∧ o.state ≠ .filling) ∨ y.state = .failed ∨
          (∀ x ∈ s.liveGarments, x.binding = none → x.kind = .test) → o'.lines = charged.lines) := by
  intro fails charged
  obtain ⟨t, run, same, grows⟩ := close_ends h live alone accepts retires bound
  have gone := gone_goneBy h live reason
  have named : g.tag = v.tag := (findTag_some live).2.1
  rw [endBinding_spoilt spoils] at same grows
  generalize s.goneBy l payload reason pos g = z at *
  have listed' := (gone.order b.slot).trans listed
  have limit : z.limits.reprintLimit = s.limits.reprintLimit := congrArg Limits.reprintLimit gone.limits
  obtain ⟨now, cause⟩ := charge_spoils listed' at_
  have kept := sameBut_spoilCharged z b
  have quiet := quiet_spoilCharged z b
  have offered := binds_offer (z.spoilCharged b) (.line b.slot b.line)
  rw [limit] at now cause
  have order : t.order b.slot =
      (((z.spoilCharged b).offer (.line b.slot b.line)).drainTest b.slot).order b.slot := by
    unfold State.order
    rw [same.orders (by decide)]
  refine ⟨t, run, fun is => ?_, fun stands => ?_, fun stands tags sched => ?_, fun o' there => ?_⟩
  · refine pendingCause_of_grow grows (pendingCause_of_grow (quiet_drainTest ..).causes ?_)
    rw [pendingCause_congr offered.causes]
    exact cause is
  · rw [order, spoilt_stands listed' at_ stands]
    obtain ⟨o', there⟩ := spoilt_some listed' at_
    rw [there]
    rfl
  · rw [spoilt_stands listed' at_ stands] at same
    have safe : z.sched.Safe := gone.sched ▸ sched
    refine ⟨z.spoilCharged b, _, _, offers_offerCounted _ (quiet.tables (gone.tables tables))
      (quiet.tags (gone.tags tags)) (quiet.sched safe), now, fun k other => ?_, ?_, ?_, ?_, ?_, same.garments (by decide),
      same.orders (by decide), same.sched (by decide), same.refs (by decide)⟩
    · exact (order_spoilCharged_ne z b other).trans (gone.order k)
    · exact (kept.garments (by decide)).trans gone.garments
    · exact (kept.refs (by decide)).trans gone.refs
    · intro other apart
      have stations : (z.spoilCharged b).stations = z.stations := kept.stations (by decide)
      rw [gone.names other (named ▸ apart)]
      unfold State.verdictOf State.station
      rw [stations]
    · exact sameBut_trans gone.rest kept (by decide) (by decide)
  · have there' : ((z.spoilCharged b).offer (.line b.slot b.line)).order b.slot = some o' := by
      rw [order, drainTest_order] at there
      obtain ⟨x, now', kept'⟩ := Option.bind_eq_some_iff.mp there
      split at kept'
      · cases kept'
      · exact now'.trans kept'
    have shape := spoilt_shape listed' at_ there'
    rw [limit] at shape
    refine ⟨shape.1, shape.2, fun idle => ?_⟩
    have idle' : o.failsLine z.limits.reprintLimit y ∨ ¬ (o.state = .opened ∨ o.state = .filling) ∨
        y.state = .failed ∨ ∀ x ∈ z.liveGarments, x.binding = none → x.kind = .test := by
      rw [limit]
      refine idle.imp_right (Or.imp not_or.mpr (Or.imp_right fun tests x live => tests x ?_))
      unfold State.liveGarments at live ⊢
      rw [gone.garments] at live
      obtain ⟨e, member, rfl⟩ := List.mem_map.mp live
      exact List.mem_map.mpr ⟨e, List.mem_of_mem_filter member, rfl⟩
    rw [spoilt_idle listed' at_ idle' (quiet.tables (gone.tables tables)).slots, now] at there'
    exact congrArg Order.lines (Option.some.inj there').symm

end

/-- Settles O51: every final report is a close that retires; the end of its garment's binding, by the reason, is what
the order keeps of it. -/
theorem finalReportsRetireTheGarment : Obligations.FinalReportsRetireTheGarment := by
  unfold Obligations.FinalReportsRetireTheGarment
  intro s l payload v pos g h live retires alone spoils
  have final {reason : Reason} {cause : Option Cause} (accepts : v.accepts kindDone = true)
      (ends : v.retires kindDone { g with age := 0 } = some reason)
      (causes : ∀ f, cause = some f → reason.cause = some f ∨ (reason = .spare ∧ f = .garmentSpare)) : retires cause := by
    obtain ⟨t, run, done⟩ := close_retires h accepts live ends
    exact ⟨t, run, done.gone, done.idle, done.last, fun f is => done.raises f (causes f is), done.freed, done.gives,
      done.rest⟩
  have scraps (spoiled : g.spoiled = true) (kind : v.verdict = .ret) :
      v.retires kindDone { g with age := 0 } = some .scrapped := by
    rw [OpenVerdict.retires, kind]
    dsimp only
    rw [spoiled]
    rfl
  have returned (kind : v.verdict = .ret) : v.retires kindDone { g with age := 0 } =
      some (if g.spoiled then .scrapped else .returned) := by rw [OpenVerdict.retires, kind]
  have returns (kind : v.verdict = .ret) : v.accepts kindDone = true := by rw [OpenVerdict.accepts, kind]; rfl
  have rejected (kind : v.verdict = .reject) : v.retires kindDone { g with age := 0 } = some .rejected := by
    rw [OpenVerdict.retires, kind]
  have rejects (kind : v.verdict = .reject) : v.accepts kindDone = true := by rw [OpenVerdict.accepts, kind]; rfl
  refine ⟨fun kind => ?_, fun kind => ?_, fun kind => ?_, fun kind => ?_, fun kind => ?_,
    fun kind apart b o bin bound listed named =>
      close_bins h live apart kind bound listed named, fun kind clean apart b o bound listed stands =>
      close_returns h live apart kind clean bound listed stands, fun spoils apart tables b o x bound listed at_ => ?_⟩
  · refine final (returns kind) (returned kind) fun f is => ?_
    split at is
    · rename_i spoiled
      rw [if_pos spoiled]
      exact .inl is
    · cases is
  · exact final (reason := .testOut) (by rw [OpenVerdict.accepts, kind]; rfl) (by rw [OpenVerdict.retires, kind])
      fun f is => nomatch is
  · exact final (rejects kind) (rejected kind) fun f is => .inl is
  · exact final (reason := .spare) (by rw [OpenVerdict.accepts, kind]; rfl) (by rw [OpenVerdict.retires, kind])
      fun f is => .inr ⟨rfl, (Option.some.inj is).symm⟩
  · exact final (reason := .binned) (by rw [OpenVerdict.accepts, kind]; rfl) (by rw [OpenVerdict.retires, kind])
      fun f is => nomatch is
  · rcases spoils with kind | ⟨kind, spoiled⟩
    · exact close_spoils h live apart tables (rejects kind) (rejected kind) (.inl rfl) bound listed at_
    · exact close_spoils h live apart tables (returns kind) (scraps spoiled kind) (.inr rfl) bound listed at_

end Sys2Proof.Machine
end

section
/-! SUPPORT. Reports against the open verdict: BUSY, the restatement, and the closes that match no verdict. -/

namespace Sys2Proof.Machine

variable {s t u : State} {l : Link} {kind : Byte} {payload : List Byte} {pos : Nat} {g : Garment} {v : OpenVerdict}

/-! ## What a reply repeats -/

theorem platenByte_field (payload : List Byte) : platenByte (platenOf payload) = payload.headD 0#8 := by
  cases payload with
  | nil => rfl
  | cons b rest =>
    have byte : field (b :: rest) 0 1 = b.toNat := by
      simp [field, beNat]
    unfold platenOf
    rw [byte]
    by_cases last : b.toNat = 255
    · have value : b = 0xFF#8 := BitVec.eq_of_toNat_eq last
      subst value
      rfl
    · simp [last, platenByte]

theorem passFor_reportOf (kind : Byte) (payload : List Byte) :
    (.verdict (platenByte (reportOf kind payload).platen) (answerTag (reportOf kind payload)) .pass 0 0 : Message) =
      passFor kind payload := by
  rw [platen_reportOf, answerTag_reportOf, platenByte_field]
  rfl

theorem answerRefuse_report (isReport : kind = kindArrive ∨ kind = kindEmpty) (ok : messageOk l kind payload = true)
    (u : State) (code : RefusalCode) : u.answerRefuse l (reportOf kind payload) code =
      u.replyRefuse l code kind (refuseEcho kind payload).1 (refuseEcho kind payload).2 := by
  have length := length_of_ok ok
  unfold State.answerRefuse refuseEcho
  rcases isReport with rfl | rfl
  · rw [if_pos ⟨length, .inl rfl⟩, ← platenByte_field]
    rfl
  · rw [if_neg fun h => absurd h.2 (by decide)]
    rfl

theorem refuseEcho_close (close : kind = kindDone ∨ kind = kindFail ∨ kind = kindAbort)
    (ok : messageOk l kind payload = true) :
    refuseEcho kind payload = (platenByte (platenOf payload), tagField payload 1) := by
  unfold refuseEcho
  rw [if_pos ⟨length_of_ok ok, .inr close⟩, platenByte_field]

/-- A refusal of a message that has been heard and has touched its record. -/
theorem refuses_heard (s : State) (l : Link) (kind : Byte) (payload : List Byte) (code : RefusalCode) (echo : Byte × Tag) :
    let t := ((s.received l kind payload).replyRefuse l code kind echo.1 echo.2).finish s
    s.Refuses l (s.station l).heard code kind echo t ∧ s.sameBut [.garments, .stations, .causes, .messages] t := by
  intro t
  have met := met_received s l kind payload
  have seen := sameBut_received s l kind payload
  have rest := sameBut_replyRefuse (s.received l kind payload) l code kind echo.1 echo.2
  have ends : t = (s.received l kind payload).replyRefuse l code kind echo.1 echo.2 :=
    finish_answer met rest (by decide) (by decide) (by decide)
  rw [ends]
  exact ⟨refuses_of_reply _ met.stations met.sent (seen.causes (by decide)) rfl rfl,
    sameBut_trans seen rest (by decide) (by decide)⟩

/-! ## ARRIVE and EMPTY -/

section
variable (isReport : kind = kindArrive ∨ kind = kindEmpty) (hears : s.Hears l kind payload)
  (opened : s.verdictOf l = some v)
include isReport hears opened

theorem report_takes : exec (reportRow kind l payload) s =
    .next ((if platenOf payload ≠ v.platen then (s.received l kind payload).answerRefuse l (reportOf kind payload) .busy
      else if (reportOf kind payload).tag = some v.tag then (s.received l kind payload).restate l v
      else (s.received l kind payload).supersede l (reportOf kind payload) v).finish s) := by
  have still : (s.received l kind payload).verdictOf l = some v :=
    ((met_received s l kind payload).verdictOf l).trans opened
  have taken : (s.received l kind payload).takeReport l (reportOf kind payload) =
      if platenOf payload ≠ v.platen then (s.received l kind payload).answerRefuse l (reportOf kind payload) .busy
      else if (reportOf kind payload).tag = some v.tag then (s.received l kind payload).restate l v
      else (s.received l kind payload).supersede l (reportOf kind payload) v := by
    rw [State.takeReport, still]
    dsimp only
    rw [platen_reportOf]
  rw [← taken]
  rcases isReport with rfl | rfl
  · exact congrArg Host.Outcome.next (receive_eq hears _)
  · exact congrArg Host.Outcome.next (receive_eq hears _)

theorem report_busy (other : platenOf payload ≠ v.platen) : ∃ t, exec (reportRow kind l payload) s = .next t ∧
    s.Refuses l (s.station l).heard .busy kind (refuseEcho kind payload) t ∧
    s.sameBut [.garments, .stations, .causes, .messages] t := by
  have run := report_takes isReport hears opened
  rw [if_pos other, answerRefuse_report isReport hears.ok] at run
  exact ⟨_, run, refuses_heard s l kind payload .busy _⟩

end

theorem report_restated (hears : s.Hears l kindArrive payload) (opened : s.verdictOf l = some v)
    (platen : platenOf payload = v.platen) (tag : tagField payload 1 = v.tag) :
    ∃ t, exec (.arrive l payload) s = .next t ∧
      s.Answers l (s.station l).answered (.verdict (platenByte v.platen) v.tag v.verdict v.param1 v.param2) t ∧
      s.sameBut [.garments, .stations, .messages] t := by
  have run := report_takes (.inl rfl) hears opened
  have met := met_received s l kindArrive payload
  have seen := sameBut_received s l kindArrive payload
  have named : (reportOf kindArrive payload).tag = some v.tag := congrArg some tag
  rw [if_neg (not_not.mpr platen), if_pos named] at run
  have reply : (s.received l kindArrive payload).restate l v = (s.received l kindArrive payload).replied l
      (s.station l).answered (.verdict (platenByte v.platen) v.tag v.verdict v.param1 v.param2) := by
    rw [State.restate, replyVerdict_eq, met.station]
    rfl
  have rest := sameBut_replied (s.received l kindArrive payload) l (s.station l).answered
    (.verdict (platenByte v.platen) v.tag v.verdict v.param1 v.param2)
  rw [reply, finish_answer met rest (by decide) (by decide) (by decide)] at run
  exact ⟨_, run, met.answers _ _, sameBut_trans seen rest (by decide) (by decide)⟩

/-! ## DONE, FAIL and ABORT that match no verdict -/

theorem close_mismatch (close : kind = kindDone ∨ kind = kindFail ∨ kind = kindAbort) (hears : s.Hears l kind payload)
    (unmatched : ¬ ∃ v, s.verdictOf l = some v ∧ platenOf payload = v.platen ∧ tagField payload 1 = v.tag ∧
      v.accepts kind = true) {code : RefusalCode}
    (mismatch : (s.received l kind payload).mismatch l (platenOf payload) (tagField payload 1) = code) :
    ∃ t, exec (closeRow kind l payload) s = .next t ∧
      s.Refuses l (s.station l).heard code kind (refuseEcho kind payload) t ∧
      s.sameBut [.garments, .stations, .causes, .messages] t := by
  have verdict := (met_received s l kind payload).verdictOf l
  have taken : (s.received l kind payload).takeClose l kind payload =
      (s.received l kind payload).replyRefuse l code kind (refuseEcho kind payload).1 (refuseEcho kind payload).2 := by
    rw [refuseEcho_close close hears.ok, ← mismatch, State.takeClose, verdict]
    dsimp only
    cases opened : s.verdictOf l with
    | none => rfl
    | some v =>
      refine if_neg fun matched => unmatched ⟨v, opened, ?_⟩
      obtain ⟨both, accepts⟩ := Bool.and_eq_true_iff.mp matched
      obtain ⟨platen, tag⟩ := Bool.and_eq_true_iff.mp both
      exact ⟨(eq_of_beq platen).symm, (eq_of_beq tag).symm, accepts⟩
  refine ⟨_, ?_, refuses_heard s l kind payload code _⟩
  rw [← taken]
  rcases close with rfl | rfl | rfl
  all_goals exact congrArg Host.Outcome.next (receive_eq hears _)

/-- The refusal of a report that matches no verdict (R92). -/
theorem mismatch_received (close : kind = kindDone ∨ kind = kindFail ∨ kind = kindAbort) :
    (s.received l kind payload).mismatch l (platenOf payload) (tagField payload 1) =
      if (s.station l).expired = some ⟨platenOf payload, tagField payload 1⟩ then .tooLate
      else if s.findTag (tagField payload 1) = none then .unknownTag else .notOpen := by
  have names : namesTag kind = true := by rcases close with rfl | rfl | rfl <;> rfl
  have expired : ((s.received l kind payload).station l).expired = (s.station l).expired := by
    rw [station_received]
    rfl
  have known : ((s.received l kind payload).findTag (tagField payload 1)).isNone =
      (s.findTag (tagField payload 1)).isNone := by
    cases live : s.findTag (tagField payload 1) with
    | none => rw [findTag_received_unknown names live]
    | some e => rw [findTag_received_known names live]; rfl
  unfold State.mismatch Station.expiredFor
  rw [expired, known]
  simp only [beq_iff_eq, Option.isNone_iff_eq_none]

end Sys2Proof.Machine
end

section
/-! SUPPORT. Supersession: the verdict withdrawn and the report answered afresh, where the garment lives on. -/

namespace Sys2Proof.Machine

variable {s t u x : State} {l : Link} {kind : Byte} {payload : List Byte} {pos : Nat} {g : Garment} {v : OpenVerdict}

/-! ## The way to the evaluation -/

/-- The state in which a superseded verdict has been withdrawn. -/
def State.superseded (s : State) (l : Link) (kind : Byte) (payload : List Byte) : State :=
  State.withdraw .supersession (s.received l kind payload) l

/-- The hold of a superseded verdict's platen, once the report has been evaluated (R108). -/
def State.lifts (s : State) (l : Link) (platen : Option Nat) : State :=
  if (s.verdictOf l).isNone then s.releaseHold platen else s

section
variable (isReport : kind = kindArrive ∨ kind = kindEmpty) (hears : s.Hears l kind payload)
  (opened : s.verdictOf l = some v) (platen : platenOf payload = v.platen)
  (other : kind = kindArrive → tagField payload 1 ≠ v.tag)
include isReport hears opened platen other

theorem supersede_run : exec (reportRow kind l payload) s =
    .next ((((s.superseded l kind payload).evaluate l (reportOf kind payload)).lifts l v.platen).finish s) := by
  have named : (reportOf kind payload).tag ≠ some v.tag := by
    rcases isReport with rfl | rfl
    · exact fun same => other rfl (Option.some.inj same)
    · exact nofun
  rw [report_takes isReport hears opened, if_neg (not_not.mpr platen), if_neg named]
  rfl

end

theorem superseded_eq (opened : s.verdictOf l = some v) : s.superseded l kind payload =
    (((s.received l kind payload).endRecord l).undoVerdict .supersession l v).afterVerdict v.tag := by
  have still : (s.received l kind payload).verdictOf l = some v :=
    ((met_received s l kind payload).verdictOf l).trans opened
  rw [State.superseded, withdraw_some _ still]
  rfl

/-- A report that names no garment touches none. -/
theorem garments_untouched (isReport : kind = kindArrive ∨ kind = kindEmpty)
    (unknown : kind = kindArrive → s.findTag (tagField payload 1) = none) :
    (s.received l kind payload).garments = s.garments := by
  rcases isReport with rfl | rfl
  · exact received_unknown rfl (unknown rfl)
  · exact received_unnamed rfl

/-! ## A verdict undone and the report answered with one reply -/

/-- A state in which a station's superseded verdict has ended, with nothing sent and the ring as it was. -/
structure State.Withdrawn (s : State) (l : Link) (u : State) : Prop where
  station : u.station l = { (s.station l).heard with verdict := none, workTimer := none }
  others : ∀ n, n ≠ l → u.station n = s.station n
  sent : u.sent = s.sent
  ring : u.ring = s.ring
  limits : u.limits = s.limits
  cells : s.orders.freeCells ≤ u.orders.freeCells

theorem withdrawn_of {a : List Area} (rest : ((s.received l kind payload).endRecord l).sameBut a u)
    (kept : ∀ x ∈ [Area.stations, .ring, .limits, .messages], x ∉ a)
    (cells : s.orders.freeCells ≤ u.orders.freeCells) : s.Withdrawn l u := by
  have met := met_received s l kind payload
  have stations : u.stations = ((s.received l kind payload).endRecord l).stations := rest.stations (kept _ (by simp))
  refine ⟨?_, fun n other => ?_, ?_, ?_, ?_, cells⟩
  · unfold State.station
    rw [stations]
    exact (station_endRecord _ l).trans
      (congrArg (fun y : Station => { y with verdict := none, workTimer := none }) met.station)
  · unfold State.station
    rw [stations]
    exact (station_endRecord_ne _ other).trans (met.others other)
  · exact (rest.messages (kept _ (by simp))).trans met.sent
  · exact (rest.ring (kept _ (by simp))).trans met.ring
  · exact (rest.limits (kept _ (by simp))).trans met.limits

theorem State.Withdrawn.mode (h : s.Withdrawn l u) (n : Link) : (u.station n).mode = (s.station n).mode := by
  by_cases here : n = l
  · rw [here, h.station]
    rfl
  · rw [h.others n here]

/-- The one reply, and then the release of the hold. -/
theorem State.Withdrawn.replied (h : s.Withdrawn l u) {y : Station} (none : y.verdict = none) (m : Message)
    (platen : Option Nat) :
    let t := ((u.replied l y m).lifts l platen).finish s
    s.Answers l y m t ∧ t.ring = s.ringReleased platen ∧ u.sameBut [.stations, .ring, .messages] t := by
  intro t
  have idle : (u.replied l y m).verdictOf l = Option.none := (verdictOf_eq (station_replied u l y m)).trans none
  have hold := sameBut_releaseHold (u.replied l y m) platen
  have rest := sameBut_replied u l y m
  have ends : t = { (u.replied l y m).releaseHold platen with ring := s.ringReleased platen } := by
    have lifted : (u.replied l y m).lifts l platen = (u.replied l y m).releaseHold platen := if_pos (by rw [idle]; rfl)
    show ((u.replied l y m).lifts l platen).finish s = _
    rw [lifted]
    refine finish_released (ring_releaseHold_congr (t := u.replied l y m) h.ring platen) ((hold.limits (by decide)).trans h.limits) ?_
    rw [hold.orders (by decide)]
    exact h.cells
  have stations : t.stations = (u.replied l y m).stations := by
    rw [ends]
    exact hold.stations (by decide)
  refine ⟨⟨?_, fun n other => ?_, ?_⟩, ?_, ?_⟩
  · unfold State.station
    rw [stations]
    exact station_replied u l y m
  · unfold State.station
    rw [stations]
    exact (station_replied_ne u l other y m).trans (h.others n other)
  · have sent : t.sent = (u.replied l y m).sent := by
      rw [ends]
      exact hold.messages (by decide)
    rw [sent, ← h.sent]
    rfl
  · rw [ends]
  · have whole := sameBut_trans (changed := [.stations, .ring, .messages]) rest hold (by decide) (by decide)
    rw [ends]
    exact { whole with ring := fun away => absurd (by decide) away }

/-! ## PASS for a report at a station that does not evaluate it -/

theorem answerPass_eq (u : State) (l : Link) (kind : Byte) (payload : List Byte) :
    u.answerPass l (reportOf kind payload) =
      u.replied l { u.station l with refusalSeen := false } (passFor kind payload) := by
  unfold State.answerPass
  rw [replyVerdict_eq, passFor_reportOf]

/-- A station below CHECK, and MATCH below ACTIVE, answer PASS (R89). -/
theorem evaluate_passes (u : State) (low : if l.isRing then (u.station l).working = false else (u.station l).mode ≠ .active)
    (r : Report) : u.evaluate l r = u.answerPass l r := by
  unfold State.evaluate
  split
  · rename_i atRing
    rw [if_pos atRing] at low
    rw [low, if_neg Bool.false_ne_true]
  · rename_i away
    rw [if_neg away] at low
    exact if_neg fun active => low (eq_of_beq active)

section
variable (isReport : kind = kindArrive ∨ kind = kindEmpty) (hears : s.Hears l kind payload)
  (opened : s.verdictOf l = some v) (platen : platenOf payload = v.platen)
  (other : kind = kindArrive → tagField payload 1 ≠ v.tag)
include isReport hears opened platen other

theorem supersede_passes (undone : s.superseded l kind payload = u) (withdrawn : s.Withdrawn l u)
    (low : if l.isRing then (s.station l).working = false else (s.station l).mode ≠ .active) :
    ∃ t, exec (reportRow kind l payload) s = .next t ∧
      s.Answers l { (s.station l).answered with verdict := none, workTimer := none } (passFor kind payload) t ∧
      t.ring = s.ringReleased v.platen ∧ u.sameBut [.stations, .ring, .messages] t := by
  have run := supersede_run isReport hears opened platen other
  have low' : if l.isRing then (u.station l).working = false else (u.station l).mode ≠ .active := by
    unfold Station.working at low ⊢
    rw [withdrawn.mode]
    exact low
  rw [undone, evaluate_passes u low', answerPass_eq, withdrawn.station] at run
  exact ⟨_, run, withdrawn.replied rfl (passFor kind payload) v.platen⟩

end

/-! ## The undo by kind -/

/-- An undo after which the garment is bound as it was: no garment is taken up. -/
theorem superseded_free (opened : s.verdictOf l = some v) (free : s.notCancelled g) {y : Garment}
    (undone : (((s.received l kind payload).endRecord l).undoVerdict .supersession l v).findTag v.tag = some (pos, y))
    (binding : y.binding = g.binding)
    (slots : (((s.received l kind payload).endRecord l).undoVerdict .supersession l v).orders.slots = s.orders.slots) :
    s.superseded l kind payload = ((s.received l kind payload).endRecord l).undoVerdict .supersession l v := by
  rw [superseded_eq opened]
  refine afterVerdict_free fun p z at_ => ?_
  cases undone.symm.trans at_
  exact notCancelled_of_binding slots binding free

section
variable (opened : s.verdictOf l = some v) (same : (s.received l kind payload).garments = s.garments)
  (live : s.findTag v.tag = some (pos, g)) (free : s.notCancelled g)
include opened same live free

theorem superseded_spoils (kind' : v.verdict ∈ [Verdict.spray, .print]) :
    s.superseded l kind payload =
      ((s.received l kind payload).endRecord l).putRecord pos { g with spoiled := true } := by
  have found : ((s.received l kind payload).endRecord l).findTag v.tag = some (pos, g) :=
    (findTag_garments same).trans live
  have spoils : ((s.received l kind payload).endRecord l).undoVerdict .supersession l v =
      ((s.received l kind payload).endRecord l).putRecord pos { g with spoiled := true } :=
    (undo_spoil kind' _).trans (modifyGarment_some found _)
  rw [superseded_free (pos := pos) opened free (y := { g with spoiled := true }) ?_ rfl ?_, spoils]
  · rw [spoils]
    exact findTag_putRecord found rfl
  · rw [spoils]
    exact congrArg OrderBlock.slots ((sameBut_received s l kind payload).orders (by decide))

theorem superseded_stands
    (none : ((s.received l kind payload).endRecord l).undoVerdict .supersession l v =
      (s.received l kind payload).endRecord l) :
    s.superseded l kind payload = (s.received l kind payload).endRecord l := by
  rw [superseded_free (pos := pos) opened free (y := g) ?_ rfl ?_, none]
  · rw [none]
    exact (findTag_garments same).trans live
  · rw [none]
    exact congrArg OrderBlock.slots ((sameBut_received s l kind payload).orders (by decide))

end

/-- A WAIT superseded tells its station nothing: the fresh answer does. -/
theorem undo_waits (kind' : v.verdict ∈ [Verdict.press, .ret, .wait]) (s : State) :
    s.undoVerdict .supersession l v = s := by
  unfold State.undoVerdict
  simp only [List.mem_cons, List.not_mem_nil, or_false] at kind'
  rcases kind' with is | is | is
  · rw [is]
  · rw [is]
  · rw [is]
    exact if_neg fun now => now.1 rfl

/-! ## The ring stations below CHECK -/

section
variable (isReport : kind = kindArrive ∨ kind = kindEmpty) (hears : s.Hears l kind payload)
  (opened : s.verdictOf l = some v) (platen : platenOf payload = v.platen)
  (other : kind = kindArrive → tagField payload 1 ≠ v.tag)
  (unknown : kind = kindArrive → s.findTag (tagField payload 1) = none)
  (live : s.findTag v.tag = some (pos, g)) (free : s.notCancelled g)
  (low : if l.isRing then (s.station l).working = false else (s.station l).mode ≠ .active)
include isReport hears opened platen other unknown live free low

theorem below_spoils (kind' : v.verdict ∈ [Verdict.spray, .print]) : ∃ t, exec (reportRow kind l payload) s = .next t ∧
    s.Answers l { (s.station l).answered with verdict := none, workTimer := none } (passFor kind payload) t ∧
    s.recordIs pos { g with spoiled := true } t ∧ t.ring = s.ringReleased v.platen ∧
    s.sameBut [.garments, .stations, .ring, .messages] t := by
  have same := garments_untouched (l := l) isReport unknown
  have undone := superseded_spoils opened same live free kind'
  have put := sameBut_putRecord ((s.received l kind payload).endRecord l) pos { g with spoiled := true }
  have met := met_received s l kind payload
  obtain ⟨t, run, answers, ring, rest⟩ := supersede_passes isReport hears opened platen other undone
    (withdrawn_of put (by decide) met.cells) low
  have ended : s.sameBut [.garments, .stations] ((s.received l kind payload).endRecord l) :=
    sameBut_trans (sameBut_received s l kind payload) (sameBut_endRecord ..) (by decide) (by decide)
  refine ⟨t, run, answers, ?_, ring, ?_⟩
  · refine (rest.garments (by decide)).trans ?_
    exact congrArg (fun b : GarmentBlock => { b with records := b.records.put pos { g with spoiled := true } })
      (same : ((s.received l kind payload).endRecord l).garments = s.garments)
  · exact sameBut_trans (sameBut_trans (changed := [.garments, .stations]) ended put (by decide) (by decide)) rest
      (by decide) (by decide)

theorem below_stands (kind' : v.verdict ∈ [Verdict.press, .ret, .wait]) : ∃ t,
    exec (reportRow kind l payload) s = .next t ∧
    s.Answers l { (s.station l).answered with verdict := none, workTimer := none } (passFor kind payload) t ∧
    t.ring = s.ringReleased v.platen ∧ s.sameBut [.stations, .ring, .messages] t := by
  have same := garments_untouched (l := l) isReport unknown
  have undone := superseded_stands opened same live free (undo_waits kind' _)
  have met := met_received s l kind payload
  obtain ⟨t, run, answers, ring, rest⟩ := supersede_passes isReport hears opened platen other undone
    (withdrawn_of (a := []) (sameBut_refl _) (by decide) met.cells) low
  have ended : s.sameBut [.garments, .stations] ((s.received l kind payload).endRecord l) :=
    sameBut_trans (sameBut_received s l kind payload) (sameBut_endRecord ..) (by decide) (by decide)
  refine ⟨t, run, answers, ring, ?_⟩
  exact sameBut_of_garments (sameBut_trans (changed := [.garments, .stations, .ring, .messages]) ended rest (by decide)
    (by decide)) ((rest.garments (by decide)).trans same)

end

end Sys2Proof.Machine
end

section
/-! SUPPORT. Supersession at a ring station that evaluates: the garment of the platen lost or withdrawn. -/

namespace Sys2Proof.Machine

variable {s t u x : State} {l : Link} {kind : Byte} {payload : List Byte} {pos k : Nat} {tag : Tag} {g : Garment}
  {v : OpenVerdict} {reason : Reason}

/-! ## Labels after a verdict -/

/-- What a way of a tag's bucket holds for the lookup (R5). -/
def State.wayHolds (s : State) (tag : Tag) (p : Nat) : Option (Nat × Garment) :=
  match s.garments.records.find p with
  | some g => if g.tag = tag then some (p, g) else none
  | none => none

theorem findTag_ways (s : State) (tag : Tag) : s.findTag tag = (tagWays tag).findSome? (s.wayHolds tag) := rfl

/-- A position and its garment's label. -/
def placeLabel (e : Nat × Garment) : Nat × Tag × Nat × Location :=
  (e.1, e.2.label)

theorem findTag_sameLabels (same : s.SameLabels t) (live : s.findTag tag = some (pos, g)) :
    ∃ g', t.findTag tag = some (pos, g') ∧ g'.location = g.location := by
  have each (p : Nat) : (t.wayHolds tag p).map placeLabel = (s.wayHolds tag p).map placeLabel := by
    unfold State.wayHolds
    cases listed : s.garments.records.find p with
    | none => rw [same.none listed]
    | some y =>
      obtain ⟨y', listed', isTag, age, place⟩ := same.some listed
      have label : y'.label = y.label := Prod.ext isTag (Prod.ext age place)
      rw [listed']
      dsimp only
      rw [isTag]
      split
      · exact congrArg (fun z => some (p, z)) label
      · rfl
  have whole : (t.findTag tag).map placeLabel = (s.findTag tag).map placeLabel := by
    rw [findTag_ways, findTag_ways, List.map_findSome?, List.map_findSome?]
    exact congrArg (fun f => (tagWays tag).findSome? f) (funext each)
  rw [live] at whole
  obtain ⟨⟨p, g'⟩, found, pair⟩ := Option.map_eq_some_iff.mp whole
  obtain ⟨here, label⟩ := Prod.mk.inj pair
  subst here
  exact ⟨g', found, congrArg (fun z => z.2.2) label⟩

theorem sameLabels_unbindGarment (s : State) (tag : Tag) : s.SameLabels (s.unbindGarment tag) := by
  unfold State.unbindGarment
  split
  · rename_i live
    exact sameLabels_putRecord (garments_leaveLine ..) (findTag_some live).1 rfl
  · exact .refl s

theorem sameLabels_stageRule (s : State) (tag : Tag) : s.SameLabels (s.stageRule tag) := by
  unfold State.stageRule
  split
  · exact .refl s
  · split
    · exact sameLabels_unbindGarment s tag
    · dsimp only
      split
      · exact sameLabels_chooseAndBind s tag .all
      · exact (sameLabels_chooseAndBind s tag .all).trans (sameLabels_unbindGarment ..)

theorem sameLabels_afterVerdict (s : State) (tag : Tag) : s.SameLabels (s.afterVerdict tag) := by
  unfold State.afterVerdict
  split
  · exact .refl s
  · split
    · exact .refl s
    · split
      · exact .refl s
      · split
        · exact (sameLabels_stageRule s tag).trans
            (sameLabels_of_garments ((sameBut_drainTest _ _).garments (by decide)))
        · exact .refl s

/-! ## A verdict whose undo retires the garment -/

/-- A superseded LOAD or TO_BELT: the record gone, its platen empty, the station without a verdict. -/
structure State.Drops (s : State) (l : Link) (v : OpenVerdict) (pos : Nat) (g : Garment) (u : State) : Prop where
  gone : u.garments.records.find pos = none
  idle : u.verdictOf l = none
  mode : ∀ n, (u.station n).mode = (s.station n).mode
  ring : u.ring = { s.ring with platens := u.ring.platens }
  platen : ∀ k, g.location = .ring k → (u.platen k).state = .empty ∧ (u.platen k).tag = none
  lost : v.verdict = .toBelt → u.pendingCause .garmentLost = true

section
variable (isReport : kind = kindArrive ∨ kind = kindEmpty) (opened : s.verdictOf l = some v)
  (other : kind = kindArrive → tagField payload 1 ≠ v.tag) (live : s.findTag v.tag = some (pos, g))
include isReport opened other live

theorem drops_superseded (drops : v.verdict ∈ [Verdict.load, .toBelt]) :
    s.Drops l v pos g (s.superseded l kind payload) := by
  have met := met_received s l kind payload
  have found : ((s.received l kind payload).endRecord l).findTag v.tag = some (pos, g) :=
    findTag_received_lost isReport other live
  have retires : ∃ reason, (v.verdict = .toBelt → reason = .lost) ∧
      ((s.received l kind payload).endRecord l).undoVerdict .supersession l v =
        ((s.received l kind payload).endRecord l).retire reason v.tag := by
    rcases List.mem_cons.mp drops with load | belt
    · exact ⟨.withdrawn, (fun belt => nomatch load.symm.trans belt), undo_load load _⟩
    · exact ⟨.lost, fun _ => rfl, undo_toBelt (List.mem_singleton.mp belt) _⟩
  obtain ⟨reason, lost, undone⟩ := retires
  rw [superseded_eq opened, undone]
  obtain ⟨served, gives, -⟩ := givesBack_retire ((s.received l kind payload).endRecord l) found reason
  have quiet := (quiet_endRecord (s.received l kind payload) l).trans
    ((quiet_retire _ reason v.tag).trans (quiet_afterVerdict _ v.tag))
  have rests := rests_retire ((s.received l kind payload).endRecord l) reason v.tag
  have ring := ring_retire (s := (s.received l kind payload).endRecord l) reason found
  have gone := find_retire (s := (s.received l kind payload).endRecord l) reason found
  have cause (is : reason = .lost) : (((s.received l kind payload).endRecord l).retire reason v.tag).pendingCause
      .garmentLost = true := by
    rw [is]
    exact garmentLost_retire (s := (s.received l kind payload).endRecord l) found
  have ring' : ((s.received l kind payload).endRecord l).ring = s.ring := met.ring
  have idle := rests.verdict (verdictOf_endRecord (s.received l kind payload) l)
  generalize ((s.received l kind payload).endRecord l).retire reason v.tag = z at *
  have after := sameBut_afterVerdict z v.tag
  have sameRing : (z.afterVerdict v.tag).ring = z.ring := after.ring (by decide)
  refine ⟨(sameLabels_afterVerdict z v.tag).none gone, ?_, fun n => (quiet.station_mode n).trans (met.mode n), ?_,
    fun k here => ?_, fun belt => ?_⟩
  · refine Eq.trans ?_ idle
    unfold State.verdictOf State.station
    rw [after.stations (by decide)]
  · rw [sameRing, ring, ring']
  · rw [ring_eq_platen sameRing, gives.platens, if_pos here, if_pos here]
    exact ⟨rfl, rfl⟩
  · exact pendingCause_of_grow (quiet_afterVerdict z v.tag).causes (cause (lost belt))

end

/-! ## A verdict whose garment is still on its platen -/

/-- A superseded verdict whose undo leaves the garment in its place. -/
structure State.Leaves (s : State) (l : Link) (v : OpenVerdict) (pos : Nat) (g : Garment) (u : State) : Prop where
  live : ∃ g', u.findTag v.tag = some (pos, g') ∧ g'.location = g.location
  idle : u.verdictOf l = none
  mode : ∀ n, (u.station n).mode = (s.station n).mode
  ring : u.ring = s.ring

theorem leaves_superseded (isReport : kind = kindArrive ∨ kind = kindEmpty) (opened : s.verdictOf l = some v)
    (other : kind = kindArrive → tagField payload 1 ≠ v.tag) (live : s.findTag v.tag = some (pos, g))
    (stays : v.verdict ∈ [Verdict.spray, .print, .press, .ret, .wait]) :
    s.Leaves l v pos g (s.superseded l kind payload) := by
  have met := met_received s l kind payload
  have found : ((s.received l kind payload).endRecord l).findTag v.tag = some (pos, g) :=
    findTag_received_lost isReport other live
  have undone : ((s.received l kind payload).endRecord l).sameBut [.garments]
        (((s.received l kind payload).endRecord l).undoVerdict .supersession l v) ∧
      ((s.received l kind payload).endRecord l).SameLabels
        (((s.received l kind payload).endRecord l).undoVerdict .supersession l v) := by
    by_cases spoils : v.verdict ∈ [Verdict.spray, .print]
    · have put : ((s.received l kind payload).endRecord l).undoVerdict .supersession l v =
          ((s.received l kind payload).endRecord l).putRecord pos { g with spoiled := true } :=
        (undo_spoil spoils _).trans (modifyGarment_some found _)
      rw [put]
      exact ⟨sameBut_putRecord .., sameLabels_putRecord rfl (findTag_some found).1 rfl⟩
    · have waits : v.verdict ∈ [Verdict.press, .ret, .wait] := by
        simp only [List.mem_cons, List.not_mem_nil, or_false] at stays spoils ⊢
        tauto
      rw [undo_waits waits]
      exact ⟨sameBut_widen (sameBut_refl _) (by decide), .refl _⟩
  rw [superseded_eq opened]
  have quiet := (quiet_endRecord (s.received l kind payload) l).trans
    ((quiet_undoVerdict _ .supersession l v).trans (quiet_afterVerdict _ v.tag))
  have idle := verdictOf_endRecord (s.received l kind payload) l
  obtain ⟨frame, labels⟩ := undone
  generalize ((s.received l kind payload).endRecord l).undoVerdict .supersession l v = z at *
  have after := sameBut_afterVerdict z v.tag
  refine ⟨findTag_sameLabels (labels.trans (sameLabels_afterVerdict z v.tag)) found, ?_,
    fun n => (quiet.station_mode n).trans (met.mode n), ?_⟩
  · refine Eq.trans ?_ idle
    unfold State.verdictOf State.station
    rw [after.stations (by decide), frame.stations (by decide)]
  · exact (after.ring (by decide)).trans ((frame.ring (by decide)).trans met.ring)

end Sys2Proof.Machine
end

section
/-! SUPPORT. Supersession at a ring station: the evaluation of the report afresh, once the verdict is undone. -/

namespace Sys2Proof.Machine

variable {s t u x w : State} {l : Link} {kind : Byte} {payload : List Byte} {pos k : Nat} {tag : Tag} {g : Garment}
  {v : OpenVerdict} {r : Report}

/-! ## The end of the change -/

theorem lifts_idle (idle : s.verdictOf l = none) (platen : Option Nat) : s.lifts l platen = s.releaseHold platen :=
  if_pos (by rw [idle]; rfl)

theorem sameBut_lifts (s : State) (l : Link) (platen : Option Nat) : s.sameBut [.ring] (s.lifts l platen) := by
  unfold State.lifts
  split
  · exact sameBut_releaseHold s platen
  · exact sameBut_widen (sameBut_refl s) (by decide)

theorem sameBut_settled (s : State) (l : Link) (k : Nat) : s.sameBut [.ring] (s.settled l k) := by
  unfold State.settled
  split
  · exact sameBut_releaseHold s (some k)
  · exact sameBut_widen (sameBut_refl s) (by decide)

/-- What the two releases of the hold and the end of the change leave of the state of an answer. -/
theorem answer_ends (x : State) (l : Link) (k : Nat) (s : State) :
    let t := ((x.settled l k).lifts l (some k)).finish s
    x.sameBut [.ring, .causes] t ∧ CausesGrow x.port.causes t.port.causes ∧
      (x.verdictOf l = none → ∀ j, t.platen j = { x.platen j with
        held := if k = j then false else (x.platen j).held }) := by
  intro t
  have settled := sameBut_settled x l k
  have lifted := sameBut_lifts (x.settled l k) l (some k)
  have ended := sameBut_finish ((x.settled l k).lifts l (some k)) s
  have causes : ((x.settled l k).lifts l (some k)).port.causes = x.port.causes :=
    (lifted.causes (by decide)).trans (settled.causes (by decide))
  refine ⟨sameBut_trans (sameBut_trans settled lifted (changed := [.ring]) (by decide) (by decide)) ended (by decide)
    (by decide), causes ▸ (calm_finish ..).grow, fun idle j => ?_⟩
  have idle' : (x.settled l k).verdictOf l = none := by
    unfold State.verdictOf State.station
    rw [settled.stations (by decide)]
    exact idle
  have once : x.settled l k = x.releaseHold (some k) := if_pos (by rw [idle]; rfl)
  have platens : t.platen j = ((x.settled l k).lifts l (some k)).platen j :=
    platen_congr (ring_platens_finish _ s) j
  rw [platens, lifts_idle idle', once, platen_releaseHold, platen_releaseHold]
  by_cases here : k = j
  · simp [here]
  · simp [here]

/-! ## The evaluation -/

/-- A report evaluated on a platen in place, at a working station of a ring at rest. -/
theorem evaluate_steady (atRing : l.isRing = true) (working : (u.station l).working = true)
    (still : u.ring.cycle = .idle) (runs : u.ring.state ≠ .halted) (noLap : u.ring.state ≠ .verifying)
    (facing : u.facing l = some k) (platen : r.platen = some k) : u.evaluate l r = (u.tagCheck l r k).settled l k := by
  have unread : (l == Link.load && u.ring.state == .verifying && (u.platen k).held) = false := by
    rw [show (u.ring.state == RingState.verifying) = false from beq_eq_false_iff_ne.mpr noLap]
    simp
  unfold State.evaluate State.ringReport State.platenCheck
  rw [if_pos atRing, if_pos working, if_neg (by rw [still]; decide), if_neg runs, if_neg fun h => noLap h.1, platen]
  dsimp only
  rw [if_neg fun h => noLap h.1, if_pos facing, State.answerChecked, unread]
  rfl

theorem consistent_empty (u : State) (l : Link) (payload : List Byte) (k : Nat) :
    u.consistent l (reportOf kindEmpty payload) k = u.answerPass l (reportOf kindEmpty payload) := by
  unfold State.consistent
  split <;> rfl

/-- The answer on a platen that holds no garment, but for an ARRIVE at LOAD. -/
theorem tagCheck_vacant (isReport : kind = kindArrive ∨ kind = kindEmpty) (vacant : (u.platen k).state = .empty)
    (away : kind = kindArrive → l ≠ .load) : u.tagCheck l (reportOf kind payload) k =
      if kind = kindArrive then u.answerRefuse l (reportOf kind payload) .notHere
      else u.answerPass l (reportOf kind payload) := by
  have unoccupied : (u.platen k).state ≠ .occupied := by rw [vacant]; decide
  unfold State.tagCheck
  rcases isReport with rfl | rfl
  · exact (if_neg unoccupied).trans ((if_neg (away rfl)).trans rfl)
  · exact (if_neg unoccupied).trans (consistent_empty ..)

/-! ## The garment of the platen lost -/

/-- What a superseding report leaves where its platen is then empty and the station has no verdict. -/
structure State.Vacates (l : Link) (kind : Byte) (payload : List Byte) (pos k : Nat) (x t : State) : Prop where
  gone : t.garments.records.find pos = none
  idle : t.verdictOf l = none
  platen : t.platen k = ⟨.empty, none, false⟩
  last : t.sent.getLast? = some ⟨l, lossAnswer kind payload⟩
  grows : CausesGrow x.port.causes t.port.causes

theorem vacates_answered (isReport : kind = kindArrive ∨ kind = kindEmpty) (ok : messageOk l kind payload = true)
    (platen : platenOf payload = some k) (gone : x.garments.records.find pos = none) (idle : x.verdictOf l = none)
    (empty : (x.platen k).state = .empty ∧ (x.platen k).tag = none) :
    State.Vacates l kind payload pos k x ((((if kind = kindArrive then x.answerRefuse l (reportOf kind payload) .notHere
      else x.answerPass l (reportOf kind payload)).settled l k).lifts l (some k)).finish s) := by
  obtain ⟨rest, verdict, grows, sent⟩ := lost_answer (l := l) isReport ok platen x
  generalize (if kind = kindArrive then x.answerRefuse l (reportOf kind payload) .notHere
    else x.answerPass l (reportOf kind payload)) = w at *
  obtain ⟨frame, more, platens⟩ := answer_ends w l k s
  refine ⟨?_, ?_, ?_, ?_, grows.trans more⟩
  · rw [frame.garments (by decide), rest.garments (by decide)]
    exact gone
  · refine Eq.trans ?_ (verdict.trans idle)
    unfold State.verdictOf State.station
    rw [frame.stations (by decide)]
  · rw [platens (verdict.trans idle) k, ring_eq_platen (rest.ring (by decide)) k, if_pos rfl]
    exact congrArg₂ (fun state tag => (⟨state, tag, false⟩ : Platen)) empty.1 empty.2
  · rw [frame.messages (by decide), sent, List.getLast?_concat]

section
variable (isReport : kind = kindArrive ∨ kind = kindEmpty) (hears : s.Hears l kind payload)
  (opened : s.verdictOf l = some v) (platen : platenOf payload = v.platen)
  (other : kind = kindArrive → tagField payload 1 ≠ v.tag) (here : v.platen = some k)
  (atRing : l.isRing = true)
  (working : (s.station l).working = true) (still : s.ring.cycle = .idle) (runs : s.ring.state ≠ .halted)
  (noLap : s.ring.state ≠ .verifying) (facing : s.facing l = some k)
include isReport hears opened platen other here atRing working still runs noLap facing

/-- The way to the answer, where the withdrawal leaves the ring but for its platens. -/
theorem supersede_checked (mode : ∀ n, ((s.superseded l kind payload).station n).mode = (s.station n).mode)
    (ring : (s.superseded l kind payload).ring = { s.ring with platens := (s.superseded l kind payload).ring.platens }) :
    exec (reportRow kind l payload) s =
      .next (((((s.superseded l kind payload).tagCheck l (reportOf kind payload) k).settled l k).lifts l (some k)).finish
        s) := by
  rw [supersede_run isReport hears opened platen other]
  generalize s.superseded l kind payload = u at *
  have works : (u.station l).working = true := by
    unfold Station.working at working ⊢
    rw [mode]
    exact working
  have faces : u.facing l = some k := by
    unfold State.facing at facing ⊢
    rw [ring]
    exact facing
  rw [evaluate_steady atRing works (by rw [ring]; exact still) (by rw [ring]; exact runs) (by rw [ring]; exact noLap)
    faces ((platen_reportOf kind payload).trans (platen.trans here)), here]

variable (live : s.findTag v.tag = some (pos, g)) (place : g.location = .ring k)
include live place

/-- A verdict whose undo leaves the garment in place: the garment is then lost at the check. -/
theorem supersede_loses (occupied : (s.platen k).state = .occupied) (recorded : (s.platen k).tag = some v.tag)
    (stays : v.verdict ∈ [Verdict.spray, .print, .press, .ret, .wait]) :
    ∃ t x, exec (reportRow kind l payload) s = .next t ∧ State.Vacates l kind payload pos k x t ∧
      x.pendingCause .garmentLost = true := by
  have leaves := leaves_superseded isReport opened other live stays
  have run := supersede_checked isReport hears opened platen other here atRing working still runs noLap facing
    leaves.mode (by rw [leaves.ring])
  obtain ⟨g', live', place'⟩ := leaves.live
  have same := ring_eq_platen leaves.ring k
  rw [tagCheck_lost isReport (same ▸ occupied) (same ▸ recorded) other] at run
  obtain ⟨served, gives, -⟩ := givesBack_retire (s.superseded l kind payload) live' .lost
  refine ⟨_, _, run, vacates_answered isReport hears.ok (platen.trans here) (find_retire .lost live')
    ((rests_retire _ .lost v.tag).verdict leaves.idle) ?_, garmentLost_retire live'⟩
  rw [gives.platens, if_pos (place'.trans place), if_pos (place'.trans place)]
  exact ⟨rfl, rfl⟩

/-- A verdict whose undo retires the garment: the platen is then empty. -/
theorem supersede_drops (drops : v.verdict ∈ [Verdict.load, .toBelt]) (away : kind = kindArrive → l ≠ .load) :
    ∃ t x, exec (reportRow kind l payload) s = .next t ∧ State.Vacates l kind payload pos k x t ∧
      (v.verdict = .toBelt → x.pendingCause .garmentLost = true) := by
  have dropped := drops_superseded isReport opened other live drops
  have run := supersede_checked isReport hears opened platen other here atRing working still runs noLap facing
    dropped.mode dropped.ring
  rw [tagCheck_vacant isReport (dropped.platen k place).1 away] at run
  exact ⟨_, _, run, vacates_answered isReport hears.ok (platen.trans here) dropped.gone dropped.idle
    (dropped.platen k place), dropped.lost⟩

end

end Sys2Proof.Machine
end

section
/-! SUPPORT. Supersession at LOAD and at MATCH, and below CHECK where the garment's record goes. -/

namespace Sys2Proof.Machine

variable {s t u x w : State} {l : Link} {kind : Byte} {payload : List Byte} {pos k : Nat} {tag : Tag} {g : Garment}
  {v : OpenVerdict} {r : Report}

/-! ## A garment that a LOAD report may learn -/

/-- Every record stands where it stood, or carries the tag. -/
structure State.Learns (s : State) (tag : Tag) (t : State) : Prop where
  learnt : ∀ p y, t.garments.records.find p = some y → s.garments.records.find p = some y ∨ y.tag = tag

theorem learns_of_garments (same : t.garments = s.garments) (tag : Tag) : s.Learns tag t :=
  ⟨fun p y listed => .inl (by rwa [same] at listed)⟩

theorem learns_refuse (u : State) (l : Link) (r : Report) (code : RefusalCode) (tag : Tag) :
    u.Learns tag (u.answerRefuse l r code) := by
  refine learns_of_garments ?_ tag
  unfold State.answerRefuse
  split
  · exact (sameBut_replyRefuse ..).garments (by decide)
  · exact (sameBut_replyRefuse ..).garments (by decide)

theorem learns_pass (u : State) (l : Link) (r : Report) (tag : Tag) : u.Learns tag (u.answerPass l r) :=
  learns_of_garments (t := u.answerPass l r) (s := u) rfl tag

theorem learns_giveLoad (same : u.garments = s.garments) (pos k : Nat) (g : Garment) :
    s.Learns g.tag (u.giveLoad pos k g) := by
  have records : (u.giveLoad pos k g).garments.records = s.garments.records.put pos g := by
    rw [← same]
    unfold State.giveLoad State.learn State.enterLine
    cases g.binding <;> rfl
  refine ⟨fun p y listed => ?_⟩
  rw [records] at listed
  by_cases here : p = pos
  · rw [here, find_put_same] at listed
    exact .inr (congrArg Garment.tag (Option.some.inj listed)).symm
  · rw [find_put_ne _ here] at listed
    exact .inl listed

theorem learns_loadTest (u : State) (r : Report) (k : Nat) (tag : Tag) (sku cls design : Nat) :
    u.Learns tag (u.loadTest r k tag sku cls design) := by
  unfold State.loadTest
  split
  · exact learns_refuse ..
  · exact learns_giveLoad rfl _ k (u.newGarment k tag .test sku cls design none)

theorem learns_loadOrder (u : State) (r : Report) (k : Nat) (tag : Tag) (sku cls : Nat) :
    u.Learns tag (u.loadOrder r k tag sku cls) := by
  unfold State.loadOrder
  split
  · exact learns_refuse ..
  · split
    · exact learns_refuse ..
    · rename_i pos _ _ c sched _
      dsimp only
      exact learns_giveLoad (s := u) (u := { u with sched := sched }) rfl pos k (u.newGarment k tag .order sku cls _ _)

theorem learns_loadArrival (u : State) (r : Report) (k : Nat) (tag : Tag) (sku : Nat) :
    u.Learns tag (u.loadArrival r k tag sku) := by
  unfold State.loadArrival
  dsimp only
  split
  · exact learns_refuse ..
  · split
    · exact learns_refuse ..
    · split
      · exact learns_refuse ..
      · split
        · exact learns_refuse ..
        · split
          · exact learns_refuse ..
          · split
            · exact learns_loadTest ..
            · exact learns_loadOrder ..

theorem learns_loadList (u : State) (r : Report) (k : Nat) (tag : Tag) : u.Learns tag (u.loadList r k tag) := by
  unfold State.loadList
  split
  · exact learns_pass ..
  · exact learns_pass ..
  · split
    · exact learns_refuse ..
    · exact learns_loadArrival ..

theorem learns_consistent (named : r.tag = some tag) (u : State) (k : Nat) :
    u.Learns tag (u.consistent .load r k) := by
  unfold State.consistent
  split
  · unfold State.decisionList
    rw [named]
    dsimp only
    split
    · exact learns_loadList ..
    · rename_i p y live
      split
      · exact learns_pass ..
      · have isTag : y.tag = tag := (findTag_some live).2.1
        exact isTag ▸ learns_loadList u r k y.tag
  · exact learns_pass ..

section
variable (hears : s.Hears .load kindArrive payload) (opened : s.verdictOf .load = some v)
  (platen : platenOf payload = v.platen) (other : tagField payload 1 ≠ v.tag) (here : v.platen = some k)
  (live : s.findTag v.tag = some (pos, g)) (place : g.location = .ring k)
  (working : (s.station .load).working = true) (still : s.ring.cycle = .idle) (runs : s.ring.state ≠ .halted)
  (noLap : s.ring.state ≠ .verifying) (facing : s.facing .load = some k)
include hears opened platen other here live place working still runs noLap facing

/-- An ARRIVE that supersedes a LOAD: the garment's record is gone, and what is learnt carries the new tag. -/
theorem supersede_learns (load : v.verdict = .load) : ∃ t, exec (.arrive .load payload) s = .next t ∧
    ∀ y, t.garments.records.find pos = some y → y.tag ≠ v.tag := by
  have isReport : kindArrive = kindArrive ∨ kindArrive = kindEmpty := .inl rfl
  have other' : kindArrive = kindArrive → tagField payload 1 ≠ v.tag := fun _ => other
  have dropped := drops_superseded isReport opened other' live (by rw [load]; decide)
  have run := supersede_checked isReport hears opened platen other' here rfl working still runs noLap facing
    dropped.mode dropped.ring
  have vacant : ((s.superseded .load kindArrive payload).platen k).state ≠ .occupied := by
    rw [(dropped.platen k place).1]
    decide
  have learns := learns_consistent (r := arriveReport payload) (tag := tagField payload 1) rfl
    (s.superseded .load kindArrive payload) k
  have check : (s.superseded .load kindArrive payload).tagCheck .load (reportOf kindArrive payload) k =
      (s.superseded .load kindArrive payload).consistent .load (arriveReport payload) k :=
    (if_neg vacant).trans (if_pos rfl)
  rw [check] at run
  obtain ⟨frame, -, -⟩ := answer_ends ((s.superseded .load kindArrive payload).consistent .load (arriveReport payload) k)
    .load k s
  refine ⟨_, run, fun y listed => ?_⟩
  rw [frame.garments (by decide)] at listed
  rcases learns.learnt pos y listed with stood | isNew
  · exact nomatch dropped.gone.symm.trans stood
  · exact isNew ▸ other

end

/-! ## Below CHECK -/

theorem verdictOf_stations (same : t.stations = s.stations) (l : Link) : t.verdictOf l = s.verdictOf l := by
  unfold State.verdictOf State.station
  rw [same]

section
variable (isReport : kind = kindArrive ∨ kind = kindEmpty) (hears : s.Hears l kind payload)
  (opened : s.verdictOf l = some v) (platen : platenOf payload = v.platen)
  (other : kind = kindArrive → tagField payload 1 ≠ v.tag)
include isReport hears opened platen other

theorem below_drops (live : s.findTag v.tag = some (pos, g)) (atRing : l.isRing = true)
    (low : (s.station l).working = false) (drops : v.verdict ∈ [Verdict.load, .toBelt]) :
    ∃ t, exec (reportRow kind l payload) s = .next t ∧ t.garments.records.find pos = none ∧ t.verdictOf l = none ∧
      t.sent.getLast? = some ⟨l, passFor kind payload⟩ ∧
      (v.verdict = .toBelt → t.pendingCause .garmentLost = true) := by
  have dropped := drops_superseded isReport opened other live drops
  have run := supersede_run isReport hears opened platen other
  have low' : if l.isRing then ((s.superseded l kind payload).station l).working = false
      else ((s.superseded l kind payload).station l).mode ≠ .active := by
    rw [if_pos atRing]
    unfold Station.working at low ⊢
    rw [dropped.mode]
    exact low
  rw [evaluate_passes _ low', answerPass_eq] at run
  generalize s.superseded l kind payload = u at *
  have rest := sameBut_replied u l { u.station l with refusalSeen := false } (passFor kind payload)
  have verdict : (u.replied l { u.station l with refusalSeen := false } (passFor kind payload)).verdictOf l =
      u.verdictOf l :=
    (verdictOf_eq (station_replied u l { u.station l with refusalSeen := false } (passFor kind payload))).trans rfl
  have lifted := sameBut_lifts (u.replied l { u.station l with refusalSeen := false } (passFor kind payload)) l v.platen
  have ended := sameBut_finish
    ((u.replied l { u.station l with refusalSeen := false } (passFor kind payload)).lifts l v.platen) s
  have whole := sameBut_trans (changed := [.stations, .ring, .messages]) rest lifted (by decide) (by decide)
  refine ⟨_, run, ?_, ?_, ?_, fun belt => ?_⟩
  · rw [ended.garments (by decide), whole.garments (by decide)]
    exact dropped.gone
  · exact (verdictOf_stations ((ended.stations (by decide)).trans (lifted.stations (by decide))) l).trans
      (verdict.trans dropped.idle)
  · rw [ended.messages (by decide), lifted.messages (by decide)]
    exact List.getLast?_concat ..
  · refine pendingCause_of_grow (calm_finish ..).grow ?_
    rw [pendingCause_congr (whole.causes (by decide))]
    exact dropped.lost belt

end

end Sys2Proof.Machine
end

section
/-! SUPPORT. Supersession at MATCH, and the settlement of the reports against the open verdict. -/

namespace Sys2Proof.Machine

variable {s t u e : State} {l : Link} {kind : Byte} {payload : List Byte} {pos k : Nat} {g : Garment} {v : OpenVerdict}

/-! ## The undo of a MATCH verdict -/

/-- What the undo of a superseded MATCH verdict gives back: a hold cell taken, and the lanes kept for a RECURE. -/
structure State.GivesUp (s : State) (v : OpenVerdict) (t : State) : Prop where
  orders : t.orders = { s.orders with
    freeCells := s.orders.freeCells + if v.verdict = .overflow ∧ v.holdTaken = true then 1 else 0 }
  lanes : ∀ k, k ≤ 3 → t.lane k = if v.verdict = .recure ∧ (s.lane k).reservation = some v.tag
    then { s.lane k with reservation := none } else s.lane k
  tunnel : { t.cure with lanes := s.cure.lanes } = s.cure
  rest : s.sameBut [.orders, .cure] t

theorem givesUp_refl (cell : ¬ (v.verdict = .overflow ∧ v.holdTaken = true)) (lanes : v.verdict ≠ .recure) :
    s.GivesUp v s := by
  refine ⟨?_, fun k _ => ?_, rfl, sameBut_widen (sameBut_refl s) (by decide)⟩
  · rw [if_neg cell]
    rfl
  · rw [if_neg fun h => lanes h.1]

theorem givesUp_recure (recure : v.verdict = .recure) (works : ∀ w, s.verdictOf .unload = some w → w.cls = .work) :
    s.GivesUp v (s.undoVerdict .supersession l v) := by
  obtain ⟨shape, lanes⟩ := releaseLanes_spec s v.tag
  have idle : (s.releaseLanes v.tag).serveWait = s.releaseLanes v.tag := serveWait_idle _ (.inl fun w at_ => works w (by
    rw [shape] at at_
    exact at_))
  have undone : s.undoVerdict .supersession l v = s.releaseLanes v.tag := by
    rw [State.undoVerdict, recure]
    exact idle
  rw [undone]
  refine ⟨?_, fun k low => ?_, ?_, sameBut_widen (sameBut_releaseLanes s v.tag) (by decide)⟩
  · rw [shape, if_neg (by rw [recure]; exact fun h => nomatch h.1)]
    rfl
  · rw [lanes k low, Lane.releaseFor]
    exact if_congr ⟨fun is => ⟨recure, is⟩, And.right⟩ rfl rfl
  · rw [shape]

theorem givesUp_overflow (overflow : v.verdict = .overflow) : s.GivesUp v (s.undoVerdict .supersession l v) := by
  have undone : s.undoVerdict .supersession l v = s.returnHold v := by rw [State.undoVerdict, overflow]
  have kept : v.verdict ≠ .recure := by rw [overflow]; decide
  rw [undone, State.returnHold]
  by_cases taken : v.holdTaken = true
  · rw [if_pos taken]
    refine ⟨?_, fun k _ => ?_, rfl, ?_⟩
    · rw [if_pos ⟨overflow, taken⟩]
      rfl
    · rw [if_neg fun h => kept h.1]
      rfl
    · constructor <;> intros <;> simp_all [State.returnCells]
  · rw [if_neg taken]
    exact givesUp_refl (fun h => taken h.2) kept

theorem givesUp_undo (works : ∀ w, s.verdictOf .unload = some w → w.cls = .work)
    (kind' : v.verdict ∈ [Verdict.testOut, .reject, .recure, .spare, .bin, .overflow]) :
    s.GivesUp v (s.undoVerdict .supersession l v) := by
  by_cases recure : v.verdict = .recure
  · exact givesUp_recure recure works
  · by_cases overflow : v.verdict = .overflow
    · exact givesUp_overflow overflow
    · rw [undo_none (by
        simp only [List.mem_cons, List.not_mem_nil, or_false] at kind' ⊢
        tauto)]
      exact givesUp_refl (fun h => overflow h.1) recure

/-! ## The report at MATCH -/

theorem match_kind (isReport : kind = kindArrive ∨ kind = kindEmpty) (ok : messageOk .matching kind payload = true) :
    kind = kindArrive := by
  rcases isReport with rfl | rfl
  · rfl
  · exact absurd ok (by simp [messageOk, maySend, kindEmpty, Link.isRing])

theorem lifts_none (s : State) (l : Link) : s.lifts l none = s := by
  unfold State.lifts
  split <;> rfl

theorem stations_ended (s : State) (l : Link) (kind : Byte) (payload : List Byte) :
    ((s.received l kind payload).endRecord l).stations =
      s.stations.set l { (s.station l).heard with verdict := none, workTimer := none } := by
  have met := met_received s l kind payload
  have here : (s.received l kind payload).stations.get l = (s.station l).heard := met.station
  show (s.received l kind payload).stations.set l _ = _
  rw [here, met.stations, set_set]

/-- What was given back, seen from the state before the report and after the answer. -/
theorem givesUp_seen (gives : e.GivesUp v u) (ended : s.sameBut [.garments, .stations] e)
    (garments : u.garments = s.garments) (last : u.sameBut [.stations, .causes, .messages] t) :
    t.garments = s.garments ∧
      t.orders = { s.orders with
        freeCells := s.orders.freeCells + if v.verdict = .overflow ∧ v.holdTaken = true then 1 else 0 } ∧
      (∀ k, k ≤ 3 → t.lane k = if v.verdict = .recure ∧ (s.lane k).reservation = some v.tag
        then { s.lane k with reservation := none } else s.lane k) ∧
      { t.cure with lanes := s.cure.lanes } = s.cure := by
  have cure : e.cure = s.cure := ended.cure (by decide)
  have cure' : t.cure = u.cure := last.cure (by decide)
  have lane (k : Nat) : e.lane k = s.lane k := by
    unfold State.lane
    rw [cure]
  have lane' (k : Nat) : t.lane k = u.lane k := by
    unfold State.lane
    rw [cure']
  refine ⟨(last.garments (by decide)).trans garments, ?_, fun k low => ?_, ?_⟩
  · rw [last.orders (by decide), gives.orders, ended.orders (by decide)]
  · rw [lane', gives.lanes k low, lane]
  · rw [cure', ← cure]
    exact gives.tunnel

theorem match_platen (isReport : kind = kindArrive ∨ kind = kindEmpty) (hears : s.Hears .matching kind payload)
    (platen : platenOf payload = v.platen) : v.platen = none := by
  have arrives := match_kind isReport hears.ok
  subst arrives
  rw [← platen]
  exact platen_of_match hears.ok

section
variable (isReport : kind = kindArrive ∨ kind = kindEmpty)
  (opened : s.verdictOf .matching = some v) (live : s.findTag v.tag = some (pos, g))
  (free : s.notCancelled g) (unknown : s.findTag (tagField payload 1) = none)
  (works : ∀ w, s.verdictOf .unload = some w → w.cls = .work)
  (kind' : v.verdict ∈ [Verdict.testOut, .reject, .recure, .spare, .bin, .overflow])
include isReport opened live free unknown works kind'

/-- The state once the superseded verdict is undone: what it gives back, and nothing of the Garment Table. -/
theorem match_undone : ((s.received .matching kind payload).endRecord .matching).GivesUp v
      (s.superseded .matching kind payload) ∧ (s.superseded .matching kind payload).garments = s.garments := by
  have same := garments_untouched (l := .matching) isReport fun _ => unknown
  have met := met_received s .matching kind payload
  have gives := givesUp_undo (l := .matching) (s := (s.received .matching kind payload).endRecord .matching)
    (fun w at_ => works w (((verdictOf_endRecord_ne _ (by decide)).trans (met.verdictOf .unload)).symm.trans at_)) kind'
  have garments := (gives.rest.garments (by decide)).trans same
  have orders : (s.received .matching kind payload).orders = s.orders :=
    (sameBut_received s .matching kind payload).orders (by decide)
  have slots : (s.received .matching kind payload).orders.slots = s.orders.slots := congrArg OrderBlock.slots orders
  have undone := superseded_free (pos := pos) (y := g) opened free ((findTag_garments garments).trans live) rfl
    ((congrArg OrderBlock.slots gives.orders).trans slots)
  rw [undone]
  exact ⟨gives, garments⟩

/-- What stands of an answer to a report that has superseded a MATCH verdict. -/
theorem match_answered (last : (s.superseded .matching kind payload).sameBut [.stations, .causes, .messages] t) :
    (t.garments = s.garments ∧
      t.orders = { s.orders with
        freeCells := s.orders.freeCells + if v.verdict = .overflow ∧ v.holdTaken = true then 1 else 0 } ∧
      (∀ k, k ≤ 3 → t.lane k = if v.verdict = .recure ∧ (s.lane k).reservation = some v.tag
        then { s.lane k with reservation := none } else s.lane k) ∧
      { t.cure with lanes := s.cure.lanes } = s.cure) ∧
    s.sameBut [.garments, .orders, .stations, .cure, .causes, .messages] t := by
  obtain ⟨gives, garments⟩ := match_undone isReport opened live free unknown works kind'
  have ended : s.sameBut [.garments, .stations] ((s.received .matching kind payload).endRecord .matching) :=
    sameBut_trans (sameBut_received s .matching kind payload) (sameBut_endRecord ..) (by decide) (by decide)
  exact ⟨givesUp_seen gives ended garments last, sameBut_trans (sameBut_trans (changed := [.garments, .orders, .stations,
    .cure]) ended gives.rest (by decide) (by decide)) last (by decide) (by decide)⟩

theorem match_withdrawn : s.Withdrawn .matching (s.superseded .matching kind payload) := by
  obtain ⟨gives, -⟩ := match_undone isReport opened live free unknown works kind'
  have orders : (s.received .matching kind payload).orders = s.orders :=
    (sameBut_received s .matching kind payload).orders (by decide)
  refine withdrawn_of gives.rest (by decide) ?_
  rw [gives.orders, ← orders]
  exact Nat.le_add_right ..

variable (hears : s.Hears .matching kind payload) (platen : platenOf payload = v.platen)
  (other : kind = kindArrive → tagField payload 1 ≠ v.tag)
include hears platen other

theorem match_superseded_low (low : (s.station .matching).mode ≠ .active) :
    ∃ t, exec (reportRow kind .matching payload) s = .next t ∧
      s.Answers .matching { (s.station .matching).answered with verdict := none, workTimer := none }
        (passFor kind payload) t ∧ (s.superseded .matching kind payload).sameBut [.stations, .messages] t ∧
      t.port.causes = s.port.causes := by
  obtain ⟨gives, -⟩ := match_undone isReport opened live free unknown works kind'
  have withdrawn := match_withdrawn isReport opened live free unknown works kind'
  obtain ⟨t, run, answers, ring, rest⟩ := supersede_passes isReport hears opened platen other rfl withdrawn low
  rw [match_platen isReport hears platen] at ring
  have same : t.ring = (s.superseded .matching kind payload).ring := by
    rw [withdrawn.ring, ring]
    exact congrArg State.ring (if_pos rfl)
  refine ⟨t, run, answers, sameBut_narrow rest fun a listed => ?_, ?_⟩
  · by_cases here : a = .ring
    · exact .inr (here ▸ same)
    · left
      simp only [List.mem_cons, List.not_mem_nil, or_false] at listed ⊢
      tauto
  · exact (rest.causes (by decide)).trans ((gives.rest.causes (by decide)).trans
      ((sameBut_received s .matching kind payload).causes (by decide)))

theorem match_superseded_active (active : (s.station .matching).mode = .active) :
    ∃ t, exec (reportRow kind .matching payload) s = .next t ∧
      s.Refuses .matching { (s.station .matching).heard with verdict := none, workTimer := none } .unknownTag kind
        (refuseEcho kind payload) t ∧
      (s.superseded .matching kind payload).sameBut [.stations, .causes, .messages] t := by
  obtain ⟨gives, garments⟩ := match_undone isReport opened live free unknown works kind'
  have withdrawn := match_withdrawn isReport opened live free unknown works kind'
  have run := supersede_run isReport hears opened platen other
  have arrives := match_kind isReport hears.ok
  have stations := (gives.rest.stations (by decide)).trans (stations_ended s .matching kind payload)
  have causes : (s.superseded .matching kind payload).port.causes = s.port.causes :=
    (gives.rest.causes (by decide)).trans ((sameBut_received s .matching kind payload).causes (by decide))
  rw [match_platen isReport hears platen, lifts_none] at run
  generalize s.superseded .matching kind payload = u at *
  have missing : u.findTag (answerTag (reportOf kind payload)) = none := by
    rw [answerTag_reportOf, if_pos arrives, findTag_garments garments]
    exact unknown
  have isActive : u.isActive .matching = true := by
    unfold State.isActive
    rw [withdrawn.mode, active]
    rfl
  have evaluated : u.evaluate .matching (reportOf kind payload) =
      u.replyRefuse .matching .unknownTag kind (refuseEcho kind payload).1 (refuseEcho kind payload).2 := by
    rw [← answerRefuse_report isReport hears.ok, ← matchList_unknown missing]
    exact (if_neg (by decide)).trans (if_pos isActive)
  have rest := sameBut_replyRefuse u .matching .unknownTag kind (refuseEcho kind payload).1 (refuseEcho kind payload).2
  have ends := finish_of_more (s := s) ((rest.ring (by decide)).trans withdrawn.ring)
    ((rest.limits (by decide)).trans withdrawn.limits)
    (by rw [rest.orders (by decide)]; exact withdrawn.cells)
  rw [evaluated, ends] at run
  exact ⟨_, run, refuses_of_reply u stations withdrawn.sent causes rfl rfl, rest⟩

end

/-! ## The settlement -/

/-- Settles O52: a report on another platen is BUSY and one that repeats the verdict's has it restated; any other
supersedes it, and what follows is the undo by the verdict's kind and then the evaluation by the station's mode. -/
theorem reportsAgainstTheOpenVerdict : Obligations.ReportsAgainstTheOpenVerdict := by
  unfold Obligations.ReportsAgainstTheOpenVerdict
  intro s l kind payload hears tag matched refuses
  refine ⟨fun isReport v opened => ⟨report_busy isReport hears opened, fun arrives platen named => ?_,
    fun platen other => ⟨fun pos g live free atRing low unknown => ⟨fun kind' => ?_, fun kind' => ?_, fun kind' => ?_⟩,
      fun k pos g here live place occupied recorded working still runs noLap facing =>
        ⟨fun atRing away kind' => ?_, fun load kind' => ?_⟩,
      fun pos g match_ live free unknown works kind' => ?_⟩⟩, fun close unmatched => ?_⟩
  · subst arrives
    exact report_restated hears opened platen named
  · exact below_spoils isReport hears opened platen other unknown live free
      (by rw [if_pos atRing]; exact Bool.eq_false_iff.mpr low) kind'
  · exact below_stands isReport hears opened platen other unknown live free
      (by rw [if_pos atRing]; exact Bool.eq_false_iff.mpr low) kind'
  · exact below_drops isReport hears opened platen other live atRing (Bool.eq_false_iff.mpr low) kind'
  · by_cases belt : v.verdict = .toBelt
    · obtain ⟨t, x, run, vacates, lost⟩ := supersede_drops isReport hears opened platen other here atRing working still
        runs noLap facing live place (by rw [belt]; decide) fun _ => away
      exact ⟨t, run, vacates.gone, pendingCause_of_grow vacates.grows (lost belt), vacates.idle, vacates.platen,
        vacates.last⟩
    · obtain ⟨t, x, run, vacates, lost⟩ := supersede_loses isReport hears opened platen other here atRing working still
        runs noLap facing live place occupied recorded (by
          simp only [List.mem_cons, List.not_mem_nil, or_false] at kind' ⊢
          tauto)
      exact ⟨t, run, vacates.gone, pendingCause_of_grow vacates.grows lost, vacates.idle, vacates.platen, vacates.last⟩
  · subst load
    rcases isReport with rfl | rfl
    · obtain ⟨t, run, learnt⟩ := supersede_learns hears opened platen (other rfl) here live place working still runs noLap
        facing kind'
      exact ⟨t, run, learnt, fun empty => absurd empty (by decide)⟩
    · obtain ⟨t, x, run, vacates, -⟩ := supersede_drops (.inr rfl) hears opened platen other here rfl working still
        runs noLap facing live place (by rw [kind']; decide) fun arrives => absurd arrives (by decide)
      exact ⟨t, run, (fun y listed => nomatch vacates.gone.symm.trans listed),
        fun _ => ⟨vacates.gone, vacates.idle, vacates.platen, vacates.last⟩⟩
  · subst match_
    intro undone
    refine ⟨fun low => ?_, fun active => ?_⟩
    · obtain ⟨t, run, answers, rest, causes⟩ := match_superseded_low isReport opened live free unknown works kind' hears platen
        other low
      obtain ⟨given, frame⟩ := match_answered isReport opened live free unknown works kind'
        (sameBut_widen rest (by decide))
      exact ⟨t, run, answers, given, sameBut_narrow frame fun a listed => by
        by_cases here : a = .causes
        · exact .inr (here ▸ causes)
        · left
          simp only [List.mem_cons, List.not_mem_nil, or_false] at listed ⊢
          tauto⟩
    · obtain ⟨t, run, refused, rest⟩ := match_superseded_active isReport opened live free unknown works kind' hears platen
        other active
      obtain ⟨given, frame⟩ := match_answered isReport opened live free unknown works kind' rest
      exact ⟨t, run, refused, given, frame⟩
  · intro late
    have code := mismatch_received (s := s) (l := l) (payload := payload) close
    refine ⟨fun is => ?_, fun isnt unknown => ?_, fun isnt known => ?_⟩
    · exact close_mismatch close hears unmatched (code.trans (if_pos is))
    · exact close_mismatch close hears unmatched (code.trans ((if_neg isnt).trans (if_pos unknown)))
    · refine close_mismatch close hears unmatched (code.trans ((if_neg isnt).trans (if_neg fun unknown => ?_)))
      rw [unknown] at known
      cases known

end Sys2Proof.Machine
end
